-- ==== Sys2Proof/Word.lean ====
section
/-! DEFINITION. The words and numbers of the block (00_scope.md R12, R13; 10_state.md R22, R35, R41). -/

namespace Sys2Proof

/-- A command word: one host operation, 32 bits (R111). -/
abbrev Word := BitVec 32

/-- A duty value of a frame, 32 bits (R35, decision D20). -/
abbrev Duty := BitVec 32

/-- A captured edge timestamp, an unsigned number of `W_TS` bits (R10, R187). The width is a parameter, so the number is
plain and is reduced to the configured width where it is drawn. -/
abbrev Timestamp := Nat

/-- The values of the scheduler's number system `Num` (R258). Which system computes with them, an exact or a rounding one, is
the configuration's (`NumSystem`). DESIGN CHOICE of the carrier: assumption log 13. -/
abbrev Num := Rat

/-- A motor index, the 4-bit `IDX` of a command word (R111). -/
abbrev MotorIdx := Fin 16

/-- A timer identity, 0 to 15 (R22, R111). -/
abbrev TimerId := Fin 16

/-- A hardware channel of a timer, 0 to 3 (R22, R111). -/
abbrev HwChannel := Fin 4

/-- A filter axis, 0 to 2 (R42). -/
abbrev Axis := Fin 3

/-- A notch bank: 0 gyro, 1 D-term (R42, decision D24). -/
abbrev BankIdx := Fin 2

end Sys2Proof
end

