-- ==== Sys2Proof/Syntax.lean ====
section
/-! DEFINITION. The nine host operations (30_encoding.md R110), one constructor per row of the opcode table. -/

namespace Sys2Proof

/-- A host operation with its operands, used as written (R124). The sample of FGYRO and FDTERM travels beside the word
on the operand port and is no operand here (R119, R120). -/
inductive Instr where
  /-- `CFG idx, timer, ch, n` (R112, R131): bind a channel to its hardware. -/
  | cfg (idx : MotorIdx) (timer : TimerId) (ch : HwChannel) (n : Bool)
  /-- `BEGIN` (R113, R136): consume telemetry, return channels to output, re-issue the output enable. -/
  | beginUpdate
  /-- `TX idx, value, tr` (R114, R141): load one channel. -/
  | tx (idx : MotorIdx) (value : BitVec 16) (tr : Bool)
  /-- `GO` (R115, R147): start every timer group. -/
  | go
  /-- `GETT idx` (R116, R150): read the cached speed. -/
  | gett (idx : MotorIdx)
  /-- `RPMINIT` (R117, R234): initialise the notch banks and the scheduler. -/
  | rpminit
  /-- `RPMUPD` (R118, R240): one tick of the scheduler. -/
  | rpmupd
  /-- `FGYRO axis` (R119, R255): filter a gyro sample. -/
  | fgyro (axis : Axis)
  /-- `FDTERM axis` (R120, R256): filter a D-term sample. -/
  | fdterm (axis : Axis)
deriving DecidableEq, Repr

end Sys2Proof
end

