-- ==== Sys2Proof/WellFormed.lean ====
section
/-! DEFINITION. Which operations a block of capacity `N_MOTORS_MAX` has (30_encoding.md R122): an `IDX` at or beyond the
table selects no operation. The other bounds (timer, channel, axis) are in the operand types. -/

namespace Sys2Proof

/-- The motor index of an operation, where it has one. -/
def Instr.motorIdx : Instr → Option MotorIdx
  | .cfg idx _ _ _ => some idx
  | .beginUpdate => none
  | .tx idx _ _ => some idx
  | .go => none
  | .gett idx => some idx
  | .rpminit => none
  | .rpmupd => none
  | .fgyro _ => none
  | .fdterm _ => none

/-- The operation names an entry of the motor table, if it names one (R122). -/
def Instr.wellFormed (nMotorsMax : Nat) (i : Instr) : Bool :=
  match i.motorIdx with
  | some idx => decide (idx.val < nMotorsMax)
  | none => true

end Sys2Proof
end

