-- ==== Sys2Proof/Decode.lean ====
section
/-! DEFINITION. Command words (30_encoding.md Part B, R111 to R124): the decoder, the encoder, the pseudo-operation CYCLE,
the assembler syntax. -/

namespace Sys2Proof

/-- Why a word selects no operation (R122). Every case is the refusal `ReservedWord`. -/
inductive DecodeError where
  /-- `OP` is 0x0 or 0xA to 0xF. -/
  | unassignedOp
  /-- A must-be-zero field is not zero. -/
  | mustBeZero
  /-- `AXIS` is 3. -/
  | badAxis
  /-- `IDX` is at least `N_MOTORS_MAX`. -/
  | idxBeyondTable
deriving DecidableEq, Repr

/-- The field of `w` of width `len` whose lowest bit is `lo` (R12). -/
def wordField (w : Word) (lo len : Nat) : BitVec len := w.extractLsb' lo len

/-- `OP`, bits 31:28 (R111). -/
def opField (w : Word) : BitVec 4 := wordField w 28 4

/-- `IDX`, bits 27:24 of formats I, T, C (R111). -/
def idxField (w : Word) : MotorIdx := (wordField w 24 4).toFin

/-- `TIMER`, bits 23:20 of format C (R111). -/
def timerField (w : Word) : TimerId := (wordField w 20 4).toFin

/-- `CH`, bits 19:18 of format C (R111). -/
def chField (w : Word) : HwChannel := (wordField w 18 2).toFin

/-- `N`, bit 17 of format C (R111). -/
def nField (w : Word) : Bool := w.getLsbD 17

/-- `TR`, bit 16 of format T (R111). -/
def trField (w : Word) : Bool := w.getLsbD 16

/-- `VALUE`, bits 15:0 of format T (R111). -/
def valueField (w : Word) : BitVec 16 := wordField w 0 16

/-- The last check of every word: the index lies in the table (R122). -/
def checkIdx (nMotorsMax : Nat) (i : Instr) : Except DecodeError Instr :=
  if i.wellFormed nMotorsMax then .ok i else .error .idxBeyondTable

/-- A format Z word (R111): bits 27:0 must be zero. -/
def decodeZ (i : Instr) (w : Word) : Except DecodeError Instr :=
  if wordField w 0 28 = 0 then .ok i else .error .mustBeZero

/-- A format C word (R111, R112): bits 16:0 must be zero. -/
def decodeC (nMotorsMax : Nat) (w : Word) : Except DecodeError Instr :=
  if wordField w 0 17 = 0 then checkIdx nMotorsMax (.cfg (idxField w) (timerField w) (chField w) (nField w))
  else .error .mustBeZero

/-- A format T word (R111, R114): bits 23:17 must be zero. -/
def decodeT (nMotorsMax : Nat) (w : Word) : Except DecodeError Instr :=
  if wordField w 17 7 = 0 then checkIdx nMotorsMax (.tx (idxField w) (valueField w) (trField w))
  else .error .mustBeZero

/-- A format I word (R111, R116): bits 23:0 must be zero. -/
def decodeI (nMotorsMax : Nat) (w : Word) : Except DecodeError Instr :=
  if wordField w 0 24 = 0 then checkIdx nMotorsMax (.gett (idxField w)) else .error .mustBeZero

/-- A format A word (R111, R119, R120): bits 27:26 and 23:0 must be zero, `AXIS` (bits 25:24) must not be 3. -/
def decodeA (mk : Axis → Instr) (w : Word) : Except DecodeError Instr :=
  if wordField w 26 2 = 0 ∧ wordField w 0 24 = 0 then
    if h : (wordField w 24 2).toNat < 3 then .ok (mk ⟨(wordField w 24 2).toNat, h⟩) else .error .badAxis
  else .error .mustBeZero

/-- The operation a command word selects in a block of capacity `nMotorsMax`, or why it selects none (R110 to R122).
Total on every word; no mode changes it (R123). -/
def decode (nMotorsMax : Nat) (w : Word) : Except DecodeError Instr :=
  if opField w = 1 then decodeC nMotorsMax w
  else if opField w = 2 then decodeZ .beginUpdate w
  else if opField w = 3 then decodeT nMotorsMax w
  else if opField w = 4 then decodeZ .go w
  else if opField w = 5 then decodeI nMotorsMax w
  else if opField w = 6 then decodeZ .rpminit w
  else if opField w = 7 then decodeZ .rpmupd w
  else if opField w = 8 then decodeA .fgyro w
  else if opField w = 9 then decodeA .fdterm w
  else .error .unassignedOp

/-- A format Z word (R111). -/
def encodeZ (op : BitVec 4) : Word := op ++ 0#28

/-- A format I word (R111). -/
def encodeI (op : BitVec 4) (idx : MotorIdx) : Word := op ++ BitVec.ofNat 4 idx.val ++ 0#24

/-- A format A word (R111). -/
def encodeA (op : BitVec 4) (axis : Axis) : Word := op ++ 0#2 ++ BitVec.ofNat 2 axis.val ++ 0#24

/-- The command word of an operation (R110 to R120). -/
def encode : Instr → Word
  | .cfg idx timer ch n =>
    0x1#4 ++ BitVec.ofNat 4 idx.val ++ BitVec.ofNat 4 timer.val ++ BitVec.ofNat 2 ch.val ++ BitVec.ofBool n ++ 0#17
  | .beginUpdate => encodeZ 0x2#4
  | .tx idx value tr => 0x3#4 ++ BitVec.ofNat 4 idx.val ++ 0#7 ++ BitVec.ofBool tr ++ value
  | .go => encodeZ 0x4#4
  | .gett idx => encodeI 0x5#4 idx
  | .rpminit => encodeZ 0x6#4
  | .rpmupd => encodeZ 0x7#4
  | .fgyro axis => encodeA 0x8#4 axis
  | .fdterm axis => encodeA 0x9#4 axis

/-- The operation the decoder reads from the table's numbering of a word (bit 0 least significant, one 32-bit word, bits
from `nbits` up zero). The largest legal capacity, 16, is taken, so that no `IDX` is reserved for want of a table;
a step decodes with the configured capacity (assumption log 17). -/
def decodeTableWord (nbits w : Nat) : Option Instr :=
  match decode 16 (BitVec.ofNat 32 (w % 2 ^ nbits)) with
  | .ok i => some i
  | .error _ => none

/-- The `TX` operations of a cycle, for the motors from `k` on (R126). -/
def cycleTxs : Nat → List (BitVec 16) → List Instr
  | _, [] => []
  | k, v :: vs => .tx (Fin.ofNat 16 k) v false :: cycleTxs (k + 1) vs

/-- The pseudo-operation `CYCLE v0, ..., v(n-1)` (R126): BEGIN, then TX k, vk, 0 in order, then GO, then RPMUPD. -/
def expandCycle (vs : List (BitVec 16)) : List Instr :=
  .beginUpdate :: (cycleTxs 0 vs ++ [.go, .rpmupd])

/-! ## Assembler syntax (R125, R126) -/

/-- The value of a digit character in a base up to 16. -/
def digitValue (base : Nat) (c : Char) : Option Nat :=
  let n := c.toNat
  let v := if n < 48 then base else if n < 58 then n - 48 else if n < 65 then base else if n < 71 then n - 55
    else if n < 97 then base else if n < 103 then n - 87 else base
  if v < base then some v else none

/-- The number a digit string spells, after the digits already read. -/
def digitsFrom (base : Nat) : Nat → List Char → Option Nat
  | acc, [] => some acc
  | acc, c :: cs =>
    match digitValue base c with
    | some d => digitsFrom base (base * acc + d) cs
    | none => none

/-- A decimal or `0x` hexadecimal number (R125). -/
def parseNumber : List Char → Option Nat
  | [] => none
  | '0' :: 'x' :: [] => none
  | '0' :: 'x' :: cs => digitsFrom 16 0 cs
  | cs => digitsFrom 10 0 cs

/-- A sample without its sign: a number, with a decimal fraction if there is a point (R125: `FGYRO 0, 12.5`). -/
def parseUnsignedSample (cs : List Char) : Option Num :=
  let whole := cs.takeWhile (· ≠ '.')
  match cs.drop whole.length with
  | [] => (parseNumber whole).map fun n => (n : Num)
  | _ :: [] => none
  | _ :: frac =>
    match whole, digitsFrom 10 0 whole, digitsFrom 10 0 frac with
    | _ :: _, some n, some f => some ((n : Num) + (f : Num) / ((10 ^ frac.length : Nat) : Num))
    | _, _, _ => none

/-- A sample operand, with a minus sign in front where it is negative (the sign is a DESIGN CHOICE, assumption log 4). -/
def parseSample : List Char → Option Num
  | '-' :: cs => (parseUnsignedSample cs).map fun x => -x
  | cs => parseUnsignedSample cs

/-- The text between the commas. -/
def splitCommas : List Char → List (List Char)
  | [] => [[]]
  | ',' :: cs => [] :: splitCommas cs
  | c :: cs =>
    match splitCommas cs with
    | [] => [[c]]
    | f :: fs => (c :: f) :: fs

/-- A text without the blanks around it. -/
def trimBlanks (cs : List Char) : List Char :=
  let blank := fun c : Char => decide (c = ' ' ∨ c = '\t')
  ((cs.dropWhile blank).reverse.dropWhile blank).reverse

/-- A line's mnemonic and operands, its comment dropped (R125). -/
def lineFields (line : List Char) : List Char × List (List Char) :=
  let text := trimBlanks (line.takeWhile (· ≠ ';'))
  let mnemonic := text.takeWhile fun c => decide (c ≠ ' ' ∧ c ≠ '\t')
  let rest := trimBlanks (text.drop mnemonic.length)
  (mnemonic, if rest = [] then [] else (splitCommas rest).map trimBlanks)

/-- An operand that a field of `width` bits can hold. -/
def fieldOperand (width : Nat) (cs : List Char) : Option (BitVec width) :=
  match parseNumber cs with
  | some n => if n < 2 ^ width then some (BitVec.ofNat width n) else none
  | none => none

/-- An axis operand, 0 to 2. -/
def axisOperand (cs : List Char) : Option Axis :=
  match parseNumber cs with
  | some n => if h : n < 3 then some ⟨n, h⟩ else none
  | none => none

/-- The operations a mnemonic and its operands stand for, each with its sample (R125, R126); `CYCLE` takes one value for
each of the `motorCount` motors. An operation that takes no sample gets 0 beside it: the spec gives `opnd` for FGYRO and
FDTERM only, so that value is a DESIGN CHOICE, assumption log 4. -/
def assembleFields (motorCount : Nat) (mnemonic : List Char) (operands : List (List Char)) : Option (List (Instr × Num)) :=
  let alone := fun i : Instr => if operands = [] then some [(i, (0 : Num))] else none
  let filter := fun mk : Axis → Instr =>
    match operands with
    | [a, x] =>
      match axisOperand a, parseSample x with
      | some axis, some v => some [(mk axis, v)]
      | _, _ => none
    | _ => none
  if mnemonic = ['C', 'F', 'G'] then
    match operands with
    | [a, b, c, d] =>
      match fieldOperand 4 a, fieldOperand 4 b, fieldOperand 2 c, fieldOperand 1 d with
      | some idx, some timer, some ch, some n => some [(.cfg idx.toFin timer.toFin ch.toFin (n.getLsbD 0), 0)]
      | _, _, _, _ => none
    | _ => none
  else if mnemonic = ['B', 'E', 'G', 'I', 'N'] then alone .beginUpdate
  else if mnemonic = ['T', 'X'] then
    match operands with
    | [a, b, c] =>
      match fieldOperand 4 a, fieldOperand 16 b, fieldOperand 1 c with
      | some idx, some value, some tr => some [(.tx idx.toFin value (tr.getLsbD 0), 0)]
      | _, _, _ => none
    | _ => none
  else if mnemonic = ['G', 'O'] then alone .go
  else if mnemonic = ['G', 'E', 'T', 'T'] then
    match operands with
    | [a] => (fieldOperand 4 a).map fun idx => [(.gett idx.toFin, 0)]
    | _ => none
  else if mnemonic = ['R', 'P', 'M', 'I', 'N', 'I', 'T'] then alone .rpminit
  else if mnemonic = ['R', 'P', 'M', 'U', 'P', 'D'] then alone .rpmupd
  else if mnemonic = ['F', 'G', 'Y', 'R', 'O'] then filter .fgyro
  else if mnemonic = ['F', 'D', 'T', 'E', 'R', 'M'] then filter .fdterm
  else if mnemonic = ['C', 'Y', 'C', 'L', 'E'] then
    match operands.mapM (fieldOperand 16) with
    | some vs => if vs.length = motorCount then some ((expandCycle vs).map fun i => (i, 0)) else none
    | none => none
  else none

/-- The command words of one assembly line, each with the sample that travels on the operand port (R119, R125); none where
the line is not assembly, no words for a line without an operation. -/
def assembleLine (motorCount : Nat) (line : List Char) : Option (List (Word × Num)) :=
  match lineFields line with
  | ([], _) => some []
  | (mnemonic, operands) =>
    (assembleFields motorCount mnemonic operands).map fun is => is.map fun p => (encode p.1, p.2)

end Sys2Proof
end

