-- ==== Sys2Proof/Config.lean ====
section
/-! DEFINITION. What an implementation fixes (00_scope.md R10, R11; 10_state.md R40): the configuration record, and the
external functions the block only calls (00_scope.md R7, R8, R14), which have no body here. -/

namespace Sys2Proof

/-- The telemetry wire encoding, "selected once at initialization" (R10, R40). -/
inductive Protocol where
  | dshot
  | proshot
deriving DecidableEq, Repr, Inhabited

/-- `SWITCH_SCOPE` (R10, R138): which channels BEGIN returns to output. -/
inductive SwitchScope where
  | allReceiving
  | flaggedOnly
deriving DecidableEq, Repr, Inhabited

/-- `REFRESH_TARGET` (R10, R250): which motor's frequency base is refreshed when the cursor leaves a motor. -/
inductive RefreshTarget where
  | completed
  | next
deriving DecidableEq, Repr, Inhabited

/-- A numerics record (R258): the four operations and the constant 0.49, with what the rules rely on. The defaults are
exact arithmetic. The carrier, and that every other constant and conversion is exact, are assumption log 13. -/
structure NumRecord where
  add : Num → Num → Num := fun x y => x + y
  sub : Num → Num → Num := fun x y => x - y
  mul : Num → Num → Num := fun x y => x * y
  div : Num → Num → Num := fun x y => x / y
  /-- The constant 0.49 (R237). -/
  c049 : Num := 49 / 100
  /-- `x * 1 = x` (R258). -/
  mul_one : ∀ x, mul x 1 = x := by exact Rat.mul_one
  /-- `1 * x = x`: R244 writes the factor `h + 1` first. DEDUCED from R258, assumption log 13. -/
  one_mul : ∀ x, mul 1 x = x := by exact Rat.one_mul
  /-- The clamp examples of R247 hold (R258): with `minHz = 100`, 40 is below the threshold and 60 is not; the two others hold
  in every record. -/
  half_hundred : 40 < mul (1 / 2) 100 ∧ mul (1 / 2) 100 ≤ 60 := by norm_num
deriving Inhabited

/-- The number system `Num` (R10, R258): exact arithmetic, or any numerics record (assumption log 13). -/
inductive NumSystem where
  | exact
  | record
deriving DecidableEq, Repr, Inhabited

/-- The configuration record: the parameters of R10 and the fields of R40. No step writes it (R11).
The tables of the state have the 16 entries an `IDX` can name (assumption log 16). -/
structure Cfg where
  /-- `N_MOTORS_MAX`: capacity of the motor-channel table. -/
  nMotorsMax : Nat
  /-- `N_TIMERS_MAX`: capacity of the timer-group table. -/
  nTimersMax : Nat
  /-- `CH_PER_TIMER`: hardware channels of a timer. -/
  chPerTimer : Nat
  /-- Motor channels in use. -/
  motorCount : Nat
  /-- "telemetry is enabled for this system". -/
  telemetryEnabled : Bool
  protocol : Protocol
  /-- Burst DMA variant. -/
  burst : Bool
  motorPoles : Nat
  /-- `PAIR_STRIDE`: index step between successive timestamp pairs (R171). -/
  pairStride : Nat
  /-- `W_TS`: width of a captured timestamp, bits. -/
  wTs : Nat
  /-- `W_CNT`: width of `invalidCount`, bits. -/
  wCnt : Nat
  /-- `PROSHOT_M`, "the protocol's symbol modulus". -/
  proshotM : Nat
  /-- `PROSHOT_BASE`, the "base symbol offset". The spec gives it no type and no legal range (R10, R181): that it is any
  integer, of either sign, is a DESIGN CHOICE (assumption log 30). -/
  proshotBase : Int
  /-- `PROSHOT_W`, the nibble step width. -/
  proshotW : Nat
  /-- `OUT_LEN_MAX`: capacity of an output buffer. -/
  outLenMax : Nat
  /-- `HARM_MAX`: largest harmonic count. -/
  harmMax : Nat
  /-- Harmonic count of each bank; 0 disables the bank. -/
  harmonics : Vector Nat 2
  minHz : Vector Num 2
  /-- `Q[b]`. -/
  qFactor : Vector Num 2
  loopPeriod : Vector Num 2
  /-- `T_LOOP`: control-loop tick period, seconds. -/
  tLoop : Num
  /-- `MIN_UPDATE_INTERVAL`, seconds. -/
  minUpdateInterval : Num
  /-- `k`: gain of the smoothing filter (R241). -/
  gain : Num
  /-- The number system `Num`. -/
  numerics : NumSystem
  switchScope : SwitchScope
  refreshTarget : RefreshTarget
deriving DecidableEq, Repr

/-- Biquad coefficients, a type the external primitive owns (R42, R232): any list of numbers. DESIGN CHOICE of the
carrier, safe: assumption log 15. -/
structure Coef where
  vals : List Num
deriving DecidableEq, Repr, Inhabited

/-- A biquad's sample memory, a type the external primitive owns (R42, R233): any list of numbers. DESIGN CHOICE of
the carrier, safe: assumption log 15. -/
structure Delay where
  vals : List Num
deriving DecidableEq, Repr, Inhabited

/-- `PacketOf(value, requestTelemetry)`, the external packet builder (R101, R133): a total function, nothing more
(assumption log 14). -/
opaque Config.packetOf : BitVec 16 → Bool → BitVec 16

/-- The first duty value of `Expand(protocol, packet)` (R102, R134): a frame is never empty (assumption log 14). -/
opaque Config.frameHead : Protocol → BitVec 16 → Duty

/-- The duty values of `Expand(protocol, packet)` after the first (R102, R134; assumption log 14). -/
opaque Config.frameTail : Protocol → BitVec 16 → List Duty

/-- `NotchCoeffs(f, loopPeriod, q)`, the external notch design (R232): a total function, nothing more. -/
opaque Config.notchCoeffs : Num → Num → Num → Coef

/-- `BiquadApply(c, dl, x)`, the external biquad sample step (R233): a total function, nothing more. -/
opaque Config.biquadApply : Coef → Delay → Num → Num × Delay

/-- `Delay0`, the cleared sample memory (R233). -/
opaque Config.delay0 : Delay

/-- The numerics record of the number system `NumSystem.record` (R258): nothing is known of it but the laws it carries
(assumption log 13). -/
opaque Config.numRecord : NumRecord

/-! ## Free values

What a read of a memory element gives that nothing has written: it "has no value" (R72), so nothing constrains it. The first
argument is the number of the draw (`State.free`), the second tells the elements of one draw apart. Assumption log 10. -/

/-- The duty value a beat reads where none was written. -/
opaque Config.freeDuty : Nat → Nat → Duty

/-- The timestamp BEGIN reads where none was captured. -/
opaque Config.freeStamp : Nat → Nat → Timestamp

/-- The coefficients a filter reads where none were written. -/
opaque Config.freeCoef : Nat → Nat → Coef

/-- The sample memory a filter reads where none was written. -/
opaque Config.freeDelay : Nat → Nat → Delay

end Sys2Proof
end

