-- ==== Sys2Proof/Machine/State.lean ====
section
/-! DEFINITION. The state of the block as plain data (10_state.md R20 to R49), the reasons a step can stop, and the
state after reset. -/

namespace Sys2Proof.Machine

/-- One of the block's memories (20_memory.md R70): whole elements by a small index, listed by strictly rising index;
an index that is not listed holds no value (R36, R72). Element-granular, as R71 and R73 say: assumption log 12. -/
abbrev Memory (α : Type) := List (Nat × α)

/-- The canonical form: indices strictly rising, so that equal memories are equal data. -/
abbrev Memory.wf {α : Type} (m : Memory α) : Prop := (m.map Prod.fst).Pairwise (· < ·)

/-- What a timer channel is programmed as (R30). -/
inductive ChanMode where
  | outputCompare
  | inputCapture
deriving DecidableEq, Repr, Inhabited

/-- The DMA direction of a channel (R30). -/
inductive DmaDir where
  | toTimer
  | fromTimer
deriving DecidableEq, Repr, Inhabited

/-- One motor channel (R22, R30, R35). Its `index` is its table position. -/
structure Chan where
  timer : TimerId
  ch : HwChannel
  outputN : Bool
  configured : Bool
  isInput : Bool
  value : BitVec 16
  requestTelemetry : Bool
  telemetryValue : BitVec 16
  hasTelemetry : Bool
  chanMode : ChanMode
  outEn : Bool
  dmaDir : DmaDir
  dmaCount : Nat
  dmaPos : Nat
  dmaArmed : Bool
  reqEn : Bool
  tcFlag : Bool
  outLen : Nat
  outBuf : Memory Duty
  inBuf : Memory Timestamp
deriving DecidableEq, Repr

/-- One timer group (R37; the DMA fields are the burst variant's, R142, R148). -/
structure Group where
  timer : TimerId
  timerDmaSources : BitVec 4
  /-- `W_TS` bits. -/
  counter : Nat
  /-- The shared wide buffer, one lane per hardware channel (R39, decision D15). -/
  burstBuf : Vector (Memory Duty) 4
  dmaPos : Nat
  dmaCount : Nat
  dmaArmed : Bool
  reqEn : Bool
deriving DecidableEq, Repr

/-- One notch bank (R42): the `coef` and `delay` parts of `notch[axis][motor][h]`, each a memory indexed by `h`
(assumption log 18). -/
structure Bank where
  coef : Vector (Vector (Memory Coef) 16) 3
  delay : Vector (Vector (Memory Delay) 16) 3
deriving DecidableEq, Repr

/-- The scheduler cursor `(m, b, h)` (R43). -/
structure Cursor where
  m : MotorIdx
  b : BankIdx
  h : Nat
deriving DecidableEq, Repr

/-- The scheduler (R43, R44). `cur` is absent when there is no triple (R234 step I3, I4); `budget` is the spec's `K`. -/
structure Sched where
  inited : Bool
  cur : Option Cursor
  budget : Nat
  total : Nat
  erpmToHz : Num
  smoothed : Vector Num 16
  freqBase : Vector Num 16
deriving DecidableEq, Repr

/-- The result of a telemetry decoder (R170): a 12-bit speed or `INVALID`. -/
inductive Telemetry where
  | valid (p : BitVec 12)
  | invalid
deriving DecidableEq, Repr

/-- An entry of the event log (R45). -/
inductive Event where
  | sourcesEnabled (timer : TimerId) (mask : BitVec 4)
  | counterReset (timer : TimerId)
  | dutyOut (i : MotorIdx) (k : Nat) (d : Duty) (driven : Bool)
  | captured (i : MotorIdx) (k : Nat) (t : Timestamp)
  | dirToInput (i : MotorIdx)
  | dirToOutput (i : MotorIdx)
  | decoded (i : MotorIdx) (r : Telemetry)
deriving DecidableEq, Repr

/-- A fault mark of the spec's model (R46, R283). It is recorded in a next state; the run goes on (assumption log 9). -/
inductive FaultMark where
  /-- `TX i` found the channel busy (R143). Unsafe to reason past: a claim takes `State.clean` as premise. -/
  | overrun (i : MotorIdx)
  /-- A memory element nothing has written was read (R72). Its value is a free value (assumption log 10). -/
  | readUnwritten
deriving DecidableEq, Repr

/-- A refusal mark of the spec's model (R46, R283). It is recorded in a next state and nothing else changes (R122). -/
inductive RefuseMark where
  | reservedWord
  | cfgBadIndex
  | cfgTwice
  | cfgDuplicateBinding
  | cfgTimerTableFull
  | rpmInitTwice
  | rpmBadConfig
  | rpmNotInited
deriving DecidableEq, Repr

/-- The response port (R121): what the last operation that answers has answered. -/
inductive Response where
  | none
  | speed (v : BitVec 16)
  | sample (x : Num)
deriving DecidableEq, Repr

/-- The collaborator's sampled inputs (R47). -/
structure Collab where
  cmdFor : Vector (Option (BitVec 16)) 16
  cmdQueued : Bool
  cmdOutputEnabled : Bool
deriving DecidableEq, Repr

/-- The atomic actions of MAIN (40_channel_driver.md R151; 60_exceptions.md R291), each with the local values of its
operation that it needs. -/
inductive MainAct where
  | c1 (idx : MotorIdx) (timer : TimerId) (ch : HwChannel) (n : Bool)
  | c2 (idx : MotorIdx) (timer : TimerId) (ch : HwChannel) (n : Bool)
  | c3 (idx : MotorIdx) (timer : TimerId) (ch : HwChannel) (n : Bool)
  | c4 (idx : MotorIdx)
  | b1 (i : MotorIdx)
  | b2 (i : MotorIdx)
  | b3 (i : MotorIdx) (r : Telemetry)
  | b4 (i : MotorIdx)
  | b5 (i : MotorIdx) (f : Bool)
  | b6 (i : MotorIdx)
  | t0 (idx : MotorIdx) (value : BitVec 16) (tr : Bool)
  | t1 (idx : MotorIdx) (value : BitVec 16) (tr : Bool)
  | t2 (idx : MotorIdx) (value : BitVec 16) (tr : Bool)
  | t3 (idx : MotorIdx)
  | t4 (idx : MotorIdx)
  | t5 (idx : MotorIdx) (packet : BitVec 16)
  | t6 (idx : MotorIdx) (len : Nat)
  | t7 (idx : MotorIdx)
  | g0
  | g1 (g : Nat)
  | g2 (g : Nat)
  | g3 (g : Nat)
  | getT (idx : MotorIdx)
  | rpmInit
  | rpmUpd
  | filt (b : BankIdx) (axis : Axis)
deriving DecidableEq, Repr

/-- One move of one agent (00_scope.md R16), with the values drawn for it (R14). -/
inductive Move where
  /-- MAIN issues a word, with the sample beside it, and takes the whole operation: an execution in which nothing falls
  between its atomic actions (R80). -/
  | op (w : Word) (opnd : Num)
  /-- MAIN issues a word; its atomic actions are then taken one by one (R81, R291). -/
  | start (w : Word) (opnd : Num)
  /-- MAIN takes the next atomic action of the operation it is in. -/
  | act
  /-- IRQ runs the completion handler of channel `i`; `t` is the time it records if it switches to input (R201, R215). -/
  | handler (i : MotorIdx) (t : Timestamp)
  /-- DMA(i) moves one element out (R209). -/
  | outBeat (i : MotorIdx)
  /-- DMA(i) moves one captured count in; `t` is that count (R211). -/
  | inBeat (i : MotorIdx) (t : Timestamp)
  /-- The DMA agent of group `g` moves one element of the lane of each configured channel of the group, burst variant (R213). A
  lane bound to no channel is not read: assumption log 28. -/
  | groupBeat (g : Nat)
  /-- The collaborator changes its lines (R47). -/
  | collab (c : Collab)
deriving DecidableEq, Repr

/-- The whole state (R20), with the parameters and inputs R20 lists beside it (`cfg`, `collab`, the ports) and the
model's own `moves` (the schedule, assumption log 7), `micro` (what MAIN still has to do, assumption log 8) and `free` (the
number of the next draw of free values, assumption log 10). -/
structure State where
  cfg : Cfg
  chan : Vector Chan 16
  grp : List Group
  /-- `W_CNT` bits. -/
  invalidCount : Nat
  dbgValue : Vector (BitVec 16) 16
  /-- `W_TS` bits each. -/
  switchTime : Vector Timestamp 16
  bank : Vector Bank 2
  sched : Sched
  log : List Event
  faults : List FaultMark
  refused : List RefuseMark
  collab : Collab
  opnd : Num
  resp : Response
  micro : List MainAct
  moves : List Move
  free : Nat
deriving DecidableEq, Repr

/-- Why the machine stops with a fault: it never does. The faults of R283 are marks in `State.faults`, and the run goes on
(assumption log 9). -/
inductive Fault where
deriving DecidableEq, Repr

/-- Why the machine refuses a step. -/
inductive Refusal where
  /-- An instruction without a meaning in this model. Raised by no arm. Safe. -/
  | notModelled (mnemonic : String)
  /-- A configuration field outside the legal values of R40, refused at launch (R283). Raised by step. Safe. -/
  | badConfig
  /-- Burst DMA together with telemetry, refused at launch (R283, decision D15). Raised by step. Safe. -/
  | burstWithTelemetry
  /-- The schedule asks for a move that its agent cannot take (R201, R208): no execution of the block. Raised by
  step. Safe. -/
  | notEnabled
  /-- A buffer index at or beyond the buffer's length, which cannot arise from the rules (R72). Raised by a beat. Safe. -/
  | bufIndexOutOfRange
deriving DecidableEq, Repr

/-- A channel after reset (R49; `timer`, `ch`, `outputN` have no value there: assumption log 3). -/
def Chan.reset : Chan where
  timer := 0
  ch := 0
  outputN := false
  configured := false
  isInput := false
  value := 0
  requestTelemetry := false
  telemetryValue := 0
  hasTelemetry := false
  chanMode := .outputCompare
  outEn := false
  dmaDir := .toTimer
  dmaCount := 0
  dmaPos := 0
  dmaArmed := false
  reqEn := false
  tcFlag := false
  outLen := 0
  outBuf := []
  inBuf := []

/-- A notch bank after reset: no entry holds a value (R49). -/
def Bank.reset : Bank where
  coef := Vector.replicate 3 (Vector.replicate 16 [])
  delay := Vector.replicate 3 (Vector.replicate 16 [])

/-- The scheduler after reset (R49: only `inited` has a value there; the rest is assumption log 3). -/
def Sched.reset : Sched where
  inited := false
  cur := none
  budget := 0
  total := 0
  erpmToHz := 0
  smoothed := Vector.replicate 16 0
  freqBase := Vector.replicate 16 0

/-- 125 microseconds, the loop period of R234's example, written as a reduced fraction so that it evaluates. -/
def unitFraction8000 : Num := { num := 1, den := 8000, den_nz := by decide, reduced := by decide }

/-- The configuration State.reset holds. The parameters are OPEN (R10): DESIGN CHOICE and, for the general-knowledge
defaults, PRESUMED; unsafe to rely on (assumption log 2). -/
def resetCfg : Cfg where
  nMotorsMax := 16
  nTimersMax := 16
  chPerTimer := 4
  motorCount := 16
  telemetryEnabled := true
  protocol := .dshot
  burst := false
  motorPoles := 14
  pairStride := 1
  wTs := 32
  wCnt := 32
  proshotM := 96
  proshotBase := 24
  proshotW := 3
  outLenMax := 18
  harmMax := 3
  harmonics := #v[3, 3]
  minHz := #v[100, 100]
  qFactor := #v[5, 5]
  loopPeriod := #v[unitFraction8000, unitFraction8000]
  tLoop := unitFraction8000
  minUpdateInterval := { num := 1, den := 1000, den_nz := by decide, reduced := by decide }
  gain := { num := 1, den := 2, den_nz := by decide, reduced := by decide }
  numerics := .exact
  switchScope := .allReceiving
  refreshTarget := .completed

/-- The machine right after reset (R49, R320, R321): nothing configured, nothing in flight, nothing scheduled. -/
def State.reset : State where
  cfg := resetCfg
  chan := Vector.replicate 16 Chan.reset
  grp := []
  invalidCount := 0
  dbgValue := Vector.replicate 16 0
  switchTime := Vector.replicate 16 0
  bank := Vector.replicate 2 Bank.reset
  sched := Sched.reset
  log := []
  faults := []
  refused := []
  collab := { cmdFor := Vector.replicate 16 none, cmdQueued := false, cmdOutputEnabled := false }
  opnd := 0
  resp := .none
  micro := []
  moves := []
  free := 0

end Sys2Proof.Machine
end

