-- ==== Sys2Proof/Machine/Ops.lean ====
section
/-! DEFINITION. The named operations over memories, tables, groups and marks that every meaning is written with
(20_memory.md R72; 00_scope.md R14; 10_state.md R32, R38, R39, R45, R46), the direction switches (R138, R215), and the
launch check (60_exceptions.md R283). The block takes no exception (R280); the one asynchronous entry is the handler
of Machine/Completion.lean. -/

namespace Sys2Proof.Machine

/-! ## Memories (R70, R72) -/

/-- `BufRead(buf, k)` (R72): the element, or none where nothing was written. -/
def Memory.read {α : Type} : Memory α → Nat → Option α
  | [], _ => none
  | (a, x) :: m, k => if k = a then some x else Memory.read m k

/-- `BufWrite(buf, k, v)` (R72): element `k` replaced by `v`, in canonical form. -/
def Memory.write {α : Type} : Memory α → Nat → α → Memory α
  | [], k, v => [(k, v)]
  | (a, x) :: m, k, v =>
    if k < a then (k, v) :: (a, x) :: m
    else if k = a then (k, v) :: m
    else (a, x) :: Memory.write m k v

/-- `BufWrite` of a list of elements at `k`, `k + 1`, ... (R141 step T5). -/
def Memory.writeFrom {α : Type} : Memory α → Nat → List α → Memory α
  | m, _, [] => m
  | m, k, v :: vs => Memory.writeFrom (Memory.write m k v) (k + 1) vs

/-- Element `k` as a reading rule gets it: what was written, or else `free k` (R72). -/
def Memory.readOr {α : Type} (free : Nat → α) (m : Memory α) (k : Nat) : α := (Memory.read m k).getD (free k)

/-- One of the first `n` elements was never written. -/
def Memory.lacks {α : Type} (m : Memory α) (n : Nat) : Bool := (List.range n).any fun k => (Memory.read m k).isNone

/-! ## Configuration (R10, R40) -/

/-- The motors in use, ascending (R21): the range of every "for i = 0 to motorCount-1". -/
def motorsOf (cfg : Cfg) : List MotorIdx := (List.finRange 16).filter fun i => decide (i.val < cfg.motorCount)

/-- The number of timestamp pairs a protocol's decoder folds (R172, R180). -/
def pairsOf : Protocol → Nat
  | .dshot => 16
  | .proshot => 4

/-- `InLen(protocol)` (R10, R35, R171): `2 + PAIR_STRIDE*(N - 1)`. -/
def inLen (cfg : Cfg) : Nat := 2 + cfg.pairStride * (pairsOf cfg.protocol - 1)

/-- The length of a channel's input buffer: the buffer is "present only when `cfg.telemetryEnabled`" (R35). -/
def inBufLen (cfg : Cfg) : Nat := if cfg.telemetryEnabled then inLen cfg else 0

/-- `Expand(protocol, packet)` (R134): uninterpreted, of length 1 to `OUT_LEN_MAX` (assumption log 14). -/
def expand (cfg : Cfg) (packet : BitVec 16) : List Duty :=
  (Config.frameHead cfg.protocol packet :: Config.frameTail cfg.protocol packet).take cfg.outLenMax

/-- `Draw(Timestamp)` (R14, R211, R215): the drawn number in `W_TS` bits. -/
def drawStamp (cfg : Cfg) (t : Nat) : Timestamp := t % 2 ^ cfg.wTs

/-- Every field is a legal value (R10, R40; 93_implementation_defined.md U13). Burst together with telemetry is a refusal
of its own. That a width or `CH_PER_TIMER` is at least 1 is the model's reading: assumption log 16. -/
abbrev CfgLegal (cfg : Cfg) : Prop :=
  (1 ≤ cfg.nMotorsMax ∧ cfg.nMotorsMax ≤ 16) ∧
  (1 ≤ cfg.nTimersMax ∧ cfg.nTimersMax ≤ 16) ∧
  1 ≤ cfg.chPerTimer ∧
  (1 ≤ cfg.wTs ∧ 1 ≤ cfg.wCnt) ∧
  cfg.motorCount ≤ cfg.nMotorsMax ∧
  1 ≤ cfg.motorPoles ∧
  (cfg.pairStride = 1 ∨ cfg.pairStride = 2) ∧
  0 < cfg.proshotM ∧
  0 < cfg.proshotW ∧
  1 ≤ cfg.outLenMax ∧
  (∀ b : BankIdx, cfg.harmonics.get b ≤ cfg.harmMax) ∧
  (∀ b : BankIdx, 0 < cfg.minHz.get b ∧ cfg.minHz.get b ≤ 1000) ∧
  (∀ b : BankIdx, 0 < cfg.qFactor.get b) ∧
  (∀ b : BankIdx, 0 < cfg.loopPeriod.get b) ∧
  0 < cfg.tLoop ∧
  0 < cfg.minUpdateInterval ∧
  (0 < cfg.gain ∧ cfg.gain ≤ 1)

/-- The refusal at launch of a configuration, if it is refused (R283; decisions D15). -/
def launchRefusal (cfg : Cfg) : Option Refusal :=
  if ¬ CfgLegal cfg then some .badConfig
  else if cfg.burst && cfg.telemetryEnabled then some .burstWithTelemetry
  else none

/-! ## The log and the marks (R45, R46) -/

/-- `Emit(e)` (R14, R45). -/
def emit (e : Event) (s : State) : State := { s with log := s.log ++ [e] }

/-- `fault <Name>` (R14, R46): the mark is recorded, once, and nothing else changes. -/
def markFault (f : FaultMark) (s : State) : State :=
  { s with faults := if s.faults.contains f then s.faults else s.faults ++ [f] }

/-- What a reading rule leaves where it met an element nothing has written: `fault ReadUnwritten` is recorded and the next free
value is another draw (R72, R283; assumption log 10). -/
def noteUnwritten (lacking : Bool) (s : State) : State :=
  if lacking then markFault .readUnwritten { s with free := s.free + 1 } else s

/-- `refuse <Name>` (R14, R46, R122): the mark is recorded, once, and nothing else changes. -/
def markRefused (r : RefuseMark) (s : State) : State :=
  { s with refused := if s.refused.contains r then s.refused else s.refused ++ [r] }

/-! ## Channels -/

/-- `chan[i]` (R13). -/
def State.ch (s : State) (i : MotorIdx) : Chan := s.chan.get i

/-- `chan[i] <- c` (R13). -/
def State.setCh (s : State) (i : MotorIdx) (c : Chan) : State := { s with chan := s.chan.set i.val c i.isLt }

/-- An update of the fields of `chan[i]`. -/
def State.modCh (s : State) (i : MotorIdx) (f : Chan → Chan) : State := s.setCh i (f (s.ch i))

/-- One update of every channel at once. -/
def State.mapCh (s : State) (f : MotorIdx → Chan → Chan) : State :=
  { s with chan := Vector.ofFn fun i => f i (s.ch i) }

/-! ## Timer groups (R37 to R39) -/

/-- `Bit(c)` (R14, R39). -/
def chanBit (c : HwChannel) : BitVec 4 := 1#4 <<< c.val

/-- The index of the group of a timer: the linear scan by identity of R38, R132. -/
def findGroup (s : State) (timer : TimerId) : Option Nat := s.grp.findIdx? fun g => decide (g.timer = timer)

/-- `GroupOf(i)` (R14). Absent only where no group has the channel's timer, which no configured channel of a run meets
(assumption log 21). -/
def groupOf (s : State) (i : MotorIdx) : Option Nat := findGroup s (s.ch i).timer

/-- An update of the fields of `grp[g]`. -/
def State.modGrp (s : State) (g : Nat) (f : Group → Group) : State := { s with grp := s.grp.modify g f }

/-- A group just made: R132 writes `timer`, `timerDmaSources` and `counter`. What the burst variant's `burstBuf`, `dmaPos`,
`dmaCount`, `dmaArmed` and `reqEn` hold then is in no rule: nothing written, 0, 0, false and false are a DESIGN CHOICE,
assumption log 29. -/
def Group.fresh (timer : TimerId) : Group where
  timer := timer
  timerDmaSources := 0
  counter := 0
  burstBuf := Vector.replicate 4 []
  dmaPos := 0
  dmaCount := 0
  dmaArmed := false
  reqEn := false

/-- `FindOrInsertGroup(timer)` (R132), or none where it refuses `CfgTimerTableFull`. -/
def findOrInsertGroup (timer : TimerId) (s : State) : Option State :=
  match findGroup s timer with
  | some _ => some s
  | none => if s.grp.length = s.cfg.nTimersMax then none else some { s with grp := s.grp ++ [Group.fresh timer] }

/-! ## Direction switches (R32) -/

/-- `SetDirectionOutput(i)` (R138), one atomic action. -/
def setDirectionOutput (i : MotorIdx) (s : State) : State :=
  emit (.dirToOutput i) <| s.modCh i fun c =>
    { c with
      dmaArmed := false, reqEn := false, chanMode := .outputCompare, dmaDir := .toTimer, outEn := false,
      isInput := false }

/-- `SetDirectionInput(i)` (R215); `t` is the drawn switch time. -/
def setDirectionInput (i : MotorIdx) (t : Timestamp) (s : State) : State :=
  let s1 := s.modCh i fun c =>
    { c with
      chanMode := .inputCapture, dmaDir := .fromTimer, outEn := false, isInput := true, dmaPos := 0,
      dmaCount := inLen s.cfg, dmaArmed := true, reqEn := true }
  emit (.dirToInput i) { s1 with switchTime := s1.switchTime.set i.val (drawStamp s.cfg t) i.isLt }

/-! ## What MAIN still has to do (R151) -/

/-- The atomic actions that follow the one being taken, put before those still waiting. -/
def State.push (s : State) (as : List MainAct) : State := { s with micro := as ++ s.micro }

end Sys2Proof.Machine
end

