-- ==== Sys2Proof/Machine/Flags.lean ====
section
/-! DEFINITION. The conditions the block computes from its flags (10_state.md R25, R33; 42_completion_fsm.md R208), and how
transfer-complete is raised (R209, R211). The block has no arithmetic condition codes (R25). -/

namespace Sys2Proof.Machine

/-- A transfer is in flight (R33), which is the condition of a beat (R208). -/
def Chan.inFlight (c : Chan) : Bool := c.dmaArmed && c.reqEn && decide (0 < c.dmaCount)

/-- A transfer is loaded, waiting for GO (R33). -/
def Chan.loaded (c : Chan) : Bool := c.dmaArmed && !c.reqEn

/-- `Busy(i)` by the channel's own flags (R33). -/
def Chan.busy (c : Chan) : Bool := c.isInput || c.reqEn || c.tcFlag

/-- A beat of the group's DMA agent is enabled (R208 read for a group, R213). -/
def Group.inFlight (g : Group) : Bool := g.dmaArmed && g.reqEn && decide (0 < g.dmaCount)

/-- A beat of the DMA agent of group `g` is enabled (R208, R213). -/
def groupBeatEnabled (s : State) (g : Nat) : Bool :=
  match s.grp[g]? with
  | some gr => s.cfg.burst && gr.inFlight
  | none => false

/-- In the burst variant, the DMA request of the group of channel `i` is enabled (R148). A channel that is not configured is
bound to no timer, and no group is known for it (R284). -/
def groupRequest (s : State) (i : MotorIdx) : Bool :=
  match groupOf s i with
  | some g =>
    match s.grp[g]? with
    | some gr => s.cfg.burst && (s.ch i).configured && gr.reqEn
    | none => false
  | none => false

/-- `Busy(i)` (R33, R143). In the burst variant the DMA request of a channel is its group's, so a TX while the group sends is
an overrun; DEDUCED from R143 and R334, assumption log 19. -/
def State.busy (s : State) (i : MotorIdx) : Bool := (s.ch i).busy || groupRequest s i

/-- The bookkeeping of one beat (R209, R211): the position goes up, the count goes down, and at count 0 transfer-complete
is raised. -/
def Chan.afterBeat (c : Chan) : Chan :=
  { c with dmaPos := c.dmaPos + 1, dmaCount := c.dmaCount - 1, tcFlag := c.tcFlag || decide (c.dmaCount - 1 = 0) }

/-- `SwitchWanted(i, f)` (R138). -/
def switchWanted (cfg : Cfg) (c : Chan) (f : Bool) : Bool :=
  match cfg.switchScope with
  | .allReceiving => c.isInput
  | .flaggedOnly => f

/-- The condition under which GO is skipped (R146). -/
def goSkipped (s : State) : Bool := s.collab.cmdQueued && !s.collab.cmdOutputEnabled

end Sys2Proof.Machine
end

