-- ==== Sys2Proof/Machine/Operands.lean ====
section
/-! DEFINITION. The operands that do not stand in a command word: the sampled command-queue inputs (10_state.md R47), the
operand and response ports (30_encoding.md R119, R121), and the operations of `Num` (43_rpm_notch.md R237, R258). -/

namespace Sys2Proof

/-- The numerics record a block computes with (R258). -/
def Cfg.system (cfg : Cfg) : NumRecord :=
  match cfg.numerics with
  | .exact => {}
  | .record => Config.numRecord

/-- The addition of `Num`. -/
def Cfg.add (cfg : Cfg) (x y : Num) : Num := cfg.system.add x y

/-- The subtraction of `Num`. -/
def Cfg.sub (cfg : Cfg) (x y : Num) : Num := cfg.system.sub x y

/-- The multiplication of `Num`. -/
def Cfg.mul (cfg : Cfg) (x y : Num) : Num := cfg.system.mul x y

/-- The division of `Num`. -/
def Cfg.div (cfg : Cfg) (x y : Num) : Num := cfg.system.div x y

end Sys2Proof

namespace Sys2Proof.Machine

/-- `CmdFor(i)` (R47), as the lines stand when it is sampled. -/
def cmdFor (s : State) (i : MotorIdx) : Option (BitVec 16) := s.collab.cmdFor.get i

/-- `resp <- r` (R121). -/
def respond (r : Response) (s : State) : State := { s with resp := r }

/-- `ToNum : u16 -> Num` (R258), exact. -/
def toNum (v : BitVec 16) : Num := (v.toNat : Num)

/-- `RoundNearest`, ties to even (R237, decision D26). -/
def roundNearest (x : Num) : Int :=
  let n := x.floor
  let r := x - n
  if r < 1 / 2 then n
  else if 1 / 2 < r then n + 1
  else if n % 2 = 0 then n
  else n + 1

end Sys2Proof.Machine
end

