-- ==== Sys2Proof/Machine/Telemetry.lean ====
section
/-! DEFINITION. The telemetry word and the two decoders (30_encoding.md R103 to R107, 41_decoders.md): pure functions of a
capture buffer (R186), total on every buffer (R170). -/

namespace Sys2Proof.Machine

/-- `Fold(w)` (R104): the nibble exclusive-or fold; the word is valid exactly when it is 0. -/
def fold (w : BitVec 16) : BitVec 4 :=
  let c1 := w ^^^ (w >>> 8)
  let c2 := c1 ^^^ (c1 >>> 4)
  c2.extractLsb' 0 4

/-- The valid checksum nibble of a payload (R104). -/
def csum (p : BitVec 12) : BitVec 4 := p.extractLsb' 8 4 ^^^ p.extractLsb' 4 4 ^^^ p.extractLsb' 0 4

/-- The valid telemetry word of a payload (R103, R104). -/
def wordOf (p : BitVec 12) : BitVec 16 := p ++ csum p

/-- The last step of both decoders (R175, R176): test the fold, return the payload. -/
def resultOf (w : BitVec 16) : Telemetry := if fold w = 0 then .valid (w.extractLsb' 4 12) else .invalid

/-- A result on a 16-bit bus (R170): the payload, or the sentinel `0xFFFF`. -/
def busValue : Telemetry → BitVec 16
  | .valid p => p.setWidth 16
  | .invalid => 0xFFFF#16

/-- Element `k` of a capture buffer. -/
def stamp (t : List Timestamp) (k : Nat) : Timestamp := t.getD k 0

/-- `BitOf(diff)` (R105, R173), with the thresholds 11 and -9. -/
def bitOf (diff : Int) : Bool := decide (diff > 0 ∧ diff ≥ 11) || decide (diff ≤ 0 ∧ diff ≥ -9)

/-- The signed wrapped difference of pair `j` (R171, R174): the representative of the difference modulo `2^W_TS` from
`-2^(W_TS-1)` to `2^(W_TS-1) - 1`. -/
def pairDiff (wTs stride : Nat) (t : List Timestamp) (j : Nat) : Int :=
  Int.bmod ((stamp t (1 + stride * j) : Int) - stamp t (1 + stride * j - 1)) (2 ^ wTs)

/-- The 16-bit word a DSHOT capture spells, most significant bit first (R172, R177). -/
def dshotWord (wTs stride : Nat) (t : List Timestamp) : BitVec 16 :=
  (List.range 16).foldl (fun v j => (v <<< 1) ||| (BitVec.ofBool (bitOf (pairDiff wTs stride t j))).setWidth 16) 0

/-- `DecodeDshot` (R177). -/
def decodeDshot (cfg : Cfg) (t : List Timestamp) : Telemetry := resultOf (dshotWord cfg.wTs cfg.pairStride t)

/-- The modular difference of pair `j` (R181): unbounded integers, non-negative remainder. -/
def pairDistance (cfg : Cfg) (t : List Timestamp) (j : Nat) : Int :=
  ((stamp t (1 + cfg.pairStride * j) : Int) + cfg.proshotM - stamp t (1 + cfg.pairStride * j - 1))
    % cfg.proshotM - cfg.proshotBase

/-- `NibbleOf(d)` (R182): clamped to 0 when negative, else rounded to the nearest step. -/
def nibbleOf (cfg : Cfg) (d : Int) : Nat :=
  if d < 0 then 0 else ((d + (cfg.proshotW / 2 : Nat)) / cfg.proshotW).toNat

/-- The 16-bit word a Proshot capture spells, four masked nibbles (R180, R183, R184). -/
def proshotWord (cfg : Cfg) (t : List Timestamp) : BitVec 16 :=
  (List.range 4).foldl
    (fun v j => (v <<< 4) ||| (BitVec.ofNat 4 (nibbleOf cfg (pairDistance cfg t j))).setWidth 16) 0

/-- `DecodeProshot` (R184). -/
def decodeProshot (cfg : Cfg) (t : List Timestamp) : Telemetry := resultOf (proshotWord cfg t)

/-- `Decode(protocol, buf)` (R137). -/
def decodeCapture (cfg : Cfg) (t : List Timestamp) : Telemetry :=
  match cfg.protocol with
  | .dshot => decodeDshot cfg t
  | .proshot => decodeProshot cfg t

/-- The capture in `chan[i].inBuf` as B2 reads it (R151): an element nothing has written reads as a free value (R72). -/
def capture (s : State) (i : MotorIdx) : List Timestamp :=
  (List.range (inLen s.cfg)).map
    (Memory.readOr (fun k => drawStamp s.cfg (Config.freeStamp s.free k)) (s.ch i).inBuf)

/-- The capture has an element nothing has written (R72). -/
def captureLacks (s : State) (i : MotorIdx) : Bool := Memory.lacks (s.ch i).inBuf (inLen s.cfg)

end Sys2Proof.Machine
end

