-- ==== Sys2Proof/Machine/Channel.lean ====
section
/-! DEFINITION. CFG, BEGIN, TX, GO, GETT (40_channel_driver.md). Each atomic action of R151 is a function; an operation is
their composition. `exec*` is the operation with nothing falling between its actions; Machine/Main.lean takes the same
actions one by one. -/

namespace Sys2Proof.Machine

/-! ## CFG (R131, R132) -/

/-- Another channel is already bound to this timer and hardware channel (R131 step C1). -/
def bindingTaken (s : State) (idx : MotorIdx) (timer : TimerId) (ch : HwChannel) : Bool :=
  (List.finRange 16).any fun j =>
    decide (j ≠ idx) && (s.ch j).configured && decide ((s.ch j).timer = timer) && decide ((s.ch j).ch = ch)

/-- C1: the precondition of CFG, in the order R131 tests it. A hardware channel is 0 to `CH_PER_TIMER - 1` (R22); that one
beyond is refused, and under this name, is a DESIGN CHOICE, assumption log 16. -/
def cfgRefusal (idx : MotorIdx) (timer : TimerId) (ch : HwChannel) (s : State) : Option RefuseMark :=
  if s.cfg.motorCount ≤ idx.val ∨ s.cfg.chPerTimer ≤ ch.val then some .cfgBadIndex
  else if (s.ch idx).configured then some .cfgTwice
  else if bindingTaken s idx timer ch then some .cfgDuplicateBinding
  else none

/-- C3: the binding (R131). -/
def cfgBind (idx : MotorIdx) (timer : TimerId) (ch : HwChannel) (n : Bool) (s : State) : State :=
  s.modCh idx fun c =>
    { c with
      timer := timer, ch := ch, outputN := n, chanMode := .outputCompare, dmaDir := .toTimer, isInput := false,
      outEn := false }

/-- C4: `configured`, written last (R131). -/
def cfgFinish (idx : MotorIdx) (s : State) : State := s.modCh idx fun c => { c with configured := true }

/-- `CFG idx, timer, ch, n` (R131). -/
def execCfg (idx : MotorIdx) (timer : TimerId) (ch : HwChannel) (n : Bool) (s : State) :
    Host.Outcome State Fault Refusal :=
  match cfgRefusal idx timer ch s with
  | some r => .next (markRefused r s)
  | none =>
    match findOrInsertGroup timer s with
    | none => .next (markRefused .cfgTimerTableFull s)
    | some s1 => .next (cfgFinish idx (cfgBind idx timer ch n s1))

/-! ## BEGIN (R136 to R139) -/

/-- B3: what a decoded result leaves (R136, R137): a valid speed replaces the cache, `INVALID` costs one count. -/
def recordDecoded (i : MotorIdx) (r : Telemetry) (s : State) : State :=
  emit (.decoded i r) <|
    match r with
    | .invalid => { s with invalidCount := (s.invalidCount + 1) % 2 ^ s.cfg.wCnt }
    | .valid p =>
      let s1 := s.modCh i fun c => { c with telemetryValue := p.setWidth 16 }
      { s1 with dbgValue := s1.dbgValue.set i.val (p.setWidth 16) i.isLt }

/-- B4: the capture is consumed (R136). -/
def clearTelemetry (i : MotorIdx) (s : State) : State := s.modCh i fun c => { c with hasTelemetry := false }

/-- B5 (R136, R138): the channel is switched to output when that is wanted; `f` is what B1 read. -/
def switchIfWanted (i : MotorIdx) (f : Bool) (s : State) : State :=
  if switchWanted s.cfg (s.ch i) f then setDirectionOutput i s else s

/-- B6 (R139): the output enable is re-issued on a configured channel. -/
def enableOutput (i : MotorIdx) (s : State) : State :=
  if (s.ch i).configured then s.modCh i fun c => { c with outEn := true } else s

/-- B2 (R136): the capture is decoded; reading an element nothing has written is recorded (R72). -/
def noteCapture (i : MotorIdx) (s : State) : State := noteUnwritten (captureLacks s i) s

/-- B2 to B4 of a flagged channel (R136). -/
def consumeCapture (i : MotorIdx) (s : State) : State :=
  clearTelemetry i (recordDecoded i (decodeCapture s.cfg (capture s i)) (noteCapture i s))

/-- B1 to B5 of one channel (R136). -/
def beginChannel (i : MotorIdx) (s : State) : State :=
  if (s.ch i).configured then
    if (s.ch i).hasTelemetry then switchIfWanted i true (consumeCapture i s) else switchIfWanted i false s
  else s

/-- The B1 to B5 loop of BEGIN (R136). -/
def beginChannels (is : List MotorIdx) (s : State) : State := is.foldl (fun s i => beginChannel i s) s

/-- The B6 loop of BEGIN (R136, R139). -/
def enableOutputs (is : List MotorIdx) (s : State) : State := is.foldl (fun s i => enableOutput i s) s

/-- The first loop of BEGIN, which runs only with telemetry enabled (R136). -/
def beginTelemetry (s : State) : State :=
  if s.cfg.telemetryEnabled then beginChannels (motorsOf s.cfg) s else s

/-- `BEGIN` (R136). -/
def execBeginUpdate (s : State) : Host.Outcome State Fault Refusal :=
  .next (enableOutputs (motorsOf s.cfg) (beginTelemetry s))

/-! ## TX (R140 to R143) -/

/-- T2: the operands (R141). -/
def txOperands (idx : MotorIdx) (value : BitVec 16) (tr : Bool) (s : State) : State :=
  s.modCh idx fun c => { c with value := value, requestTelemetry := c.requestTelemetry || tr }

/-- T3: a queued command overrides the value and forces the telemetry request (R140, R141). -/
def txCommand (idx : MotorIdx) (s : State) : State :=
  match cmdFor s idx with
  | some cv => s.modCh idx fun c => { c with value := cv, requestTelemetry := true }
  | none => s

/-- T4: the packet (R133, R141). -/
def txPacket (idx : MotorIdx) (s : State) : BitVec 16 :=
  Config.packetOf (s.ch idx).value (s.ch idx).requestTelemetry

/-- T4: the request lasts one packet (R141, decision D9). -/
def txClearRequest (idx : MotorIdx) (s : State) : State := s.modCh idx fun c => { c with requestTelemetry := false }

/-- T5 in burst mode: the frame is written into the channel's lane of its group (R142). -/
def txLane (idx : MotorIdx) (frame : List Duty) (s : State) : State :=
  match groupOf s idx with
  | some g =>
    s.modGrp g fun gr =>
      { gr with
        burstBuf := gr.burstBuf.set (s.ch idx).ch.val (Memory.writeFrom (gr.burstBuf.get (s.ch idx).ch) 0 frame)
          (s.ch idx).ch.isLt }
  | none => s

/-- T5: the frame is written into the channel's output buffer, or in burst mode into its lane (R141, R142), and its length
kept (R30). -/
def txFrame (idx : MotorIdx) (frame : List Duty) (s : State) : State :=
  if s.cfg.burst then (txLane idx frame s).modCh idx fun c => { c with outLen := frame.length }
  else s.modCh idx fun c => { c with outBuf := Memory.writeFrom c.outBuf 0 frame, outLen := frame.length }

/-- T6: the DMA of the channel, or in burst mode of its group, is armed with the produced length (R141, R142). -/
def txArm (idx : MotorIdx) (len : Nat) (s : State) : State :=
  if s.cfg.burst then
    match groupOf s idx with
    | some g => s.modGrp g fun gr => { gr with dmaPos := 0, dmaCount := len, dmaArmed := true }
    | none => s
  else s.modCh idx fun c => { c with dmaPos := 0, dmaCount := len, dmaArmed := true }

/-- T7: the channel's bit joins the accumulated set of its group (R39, R141). -/
def txSource (idx : MotorIdx) (s : State) : State :=
  match groupOf s idx with
  | some g => s.modGrp g fun gr => { gr with timerDmaSources := gr.timerDmaSources ||| chanBit (s.ch idx).ch }
  | none => s

/-- T2 to T7 (R141, R142). -/
def txLoad (idx : MotorIdx) (value : BitVec 16) (tr : Bool) (s : State) : State :=
  let s3 := txCommand idx (txOperands idx value tr s)
  let frame := expand s3.cfg (txPacket idx s3)
  txSource idx (txArm idx frame.length (txFrame idx frame (txClearRequest idx s3)))

/-- `TX idx, value, tr` (R141): a no-op on an unconfigured channel (T0), `fault Overrun` on a busy one (T1, R143). -/
def execTx (idx : MotorIdx) (value : BitVec 16) (tr : Bool) (s : State) : Host.Outcome State Fault Refusal :=
  if (s.ch idx).configured = false then .next s
  else if s.busy idx then .next (markFault (.overrun idx) s)
  else .next (txLoad idx value tr s)

/-! ## GO (R145 to R148) -/

/-- G1: the group's counter is reset (R147). -/
def goReset (g : Nat) (s : State) : State :=
  match s.grp[g]? with
  | some gr => emit (.counterReset gr.timer) (s.modGrp g fun gr => { gr with counter := 0 })
  | none => s

/-- The channels G2 starts in group `g` with the accumulated set `m` (R147). -/
def startsIn (s : State) (g : Nat) (m : BitVec 4) (i : MotorIdx) : Bool :=
  (s.ch i).configured && decide (groupOf s i = some g) && decide (m &&& chanBit (s.ch i).ch ≠ 0)

/-- G2: every accumulated source of the group is enabled as one atomic step (R82, R147); in burst mode the one request of
the group (R148). -/
def goEnable (g : Nat) (s : State) : State :=
  match s.grp[g]? with
  | some gr =>
    let m := gr.timerDmaSources
    let s1 :=
      if s.cfg.burst then s.modGrp g fun gr => { gr with reqEn := gr.reqEn || decide (m ≠ 0) }
      else s.mapCh fun i c => if startsIn s g m i then { c with reqEn := true } else c
    emit (.sourcesEnabled gr.timer m) s1
  | none => s

/-- G3: the accumulated set is cleared (R147). -/
def goClear (g : Nat) (s : State) : State := s.modGrp g fun gr => { gr with timerDmaSources := 0 }

/-- G1 to G3 of one group (R147). -/
def goGroup (g : Nat) (s : State) : State := goClear g (goEnable g (goReset g s))

/-- The groups in order (R147). -/
def goGroups (gs : List Nat) (s : State) : State := gs.foldl (fun s g => goGroup g s) s

/-- `GO` (R147): skipped whole when a command is queued and output is not enabled (R146). -/
def execGo (s : State) : Host.Outcome State Fault Refusal :=
  if goSkipped s then .next s else .next (goGroups (List.range s.grp.length) s)

/-! ## GETT (R150) -/

/-- `GETT idx` (R150): the cached speed on the response port, whether or not the channel is configured. -/
def execGett (idx : MotorIdx) (s : State) : Host.Outcome State Fault Refusal :=
  .next (respond (.speed (s.ch idx).telemetryValue) s)

end Sys2Proof.Machine
end

