-- ==== Sys2Proof/Machine/Rpm.lean ====
section
/-! DEFINITION. RPMINIT, RPMUPD, FGYRO, FDTERM (43_rpm_notch.md): the notch banks and the update scheduler. Each operation
is one atomic action (R291). -/

namespace Sys2Proof.Machine

/-! ## The notch table (R42, R70) -/

/-- `bank[b].notch[axis][m][h].coef`, if it was written. -/
def coefAt (s : State) (b : BankIdx) (axis : Axis) (m : MotorIdx) (h : Nat) : Option Coef :=
  Memory.read (((s.bank.get b).coef.get axis).get m) h

/-- `bank[b].notch[axis][m][h].delay`, if it was written. -/
def delayAt (s : State) (b : BankIdx) (axis : Axis) (m : MotorIdx) (h : Nat) : Option Delay :=
  Memory.read (((s.bank.get b).delay.get axis).get m) h

/-- `bank[b].notch[axis][m][h].coef <- c`. -/
def setCoef (b : BankIdx) (axis : Axis) (m : MotorIdx) (h : Nat) (c : Coef) (s : State) : State :=
  let bk := s.bank.get b
  let row := (bk.coef.get axis).set m.val (Memory.write ((bk.coef.get axis).get m) h c) m.isLt
  { s with bank := s.bank.set b.val { bk with coef := bk.coef.set axis.val row axis.isLt } b.isLt }

/-- `bank[b].notch[axis][m][h].delay <- d`. -/
def setDelay (b : BankIdx) (axis : Axis) (m : MotorIdx) (h : Nat) (d : Delay) (s : State) : State :=
  let bk := s.bank.get b
  let row := (bk.delay.get axis).set m.val (Memory.write ((bk.delay.get axis).get m) h d) m.isLt
  { s with bank := s.bank.set b.val { bk with delay := bk.delay.set axis.val row axis.isLt } b.isLt }

/-! ## RPMINIT (R234 to R239) -/

/-- `NotchCoeffs` with the bank's loop period and Q (R232, R234, R243). -/
def bankCoeffs (cfg : Cfg) (b : BankIdx) (f : Num) : Coef :=
  Config.notchCoeffs f (cfg.loopPeriod.get b) (cfg.qFactor.get b)

/-- The initial coefficients of one motor's notches in bank `b` (R234 step I1, R235): `minHz * h`, `h` from 0. -/
def initialCoefs (cfg : Cfg) (b : BankIdx) : List Coef :=
  (List.range (cfg.harmonics.get b)).map fun (h : Nat) => bankCoeffs cfg b (cfg.mul (cfg.minHz.get b) (h : Num))

/-- The cleared sample memories of one motor's notches in bank `b` (R234 step I1). -/
def initialDelays (cfg : Cfg) (b : BankIdx) : List Delay := List.replicate (cfg.harmonics.get b) Config.delay0

/-- I1 for one bank (R234): every axis, every motor in use, every harmonic; nothing for a disabled bank, which has no
harmonics. -/
def initBank (cfg : Cfg) (b : BankIdx) (bk : Bank) : Bank where
  coef := Vector.ofFn fun axis => Vector.ofFn fun m =>
    if m.val < cfg.motorCount then Memory.writeFrom ((bk.coef.get axis).get m) 0 (initialCoefs cfg b)
    else (bk.coef.get axis).get m
  delay := Vector.ofFn fun axis => Vector.ofFn fun m =>
    if m.val < cfg.motorCount then Memory.writeFrom ((bk.delay.get axis).get m) 0 (initialDelays cfg b)
    else (bk.delay.get axis).get m

/-- `erpmToHz = 100 / 60 / (motorPoles/2)` (R236), every division in `Num`. -/
def erpmToHzOf (cfg : Cfg) : Num := cfg.div (cfg.div 100 60) (cfg.div (cfg.motorPoles : Num) 2)

/-- The number of triples (R231, R234 step I3). -/
def totalOf (cfg : Cfg) : Nat := cfg.motorCount * (cfg.harmonics.get 0 + cfg.harmonics.get 1)

/-- `BudgetOf(total)` (R237): the `K` of the scheduler. -/
def budgetOf (cfg : Cfg) (total : Nat) : Nat :=
  (roundNearest (cfg.add (cfg.div (total : Num) (cfg.div cfg.minUpdateInterval cfg.tLoop)) cfg.system.c049)).toNat

/-- The first enabled bank (R249). -/
def firstBank (cfg : Cfg) : BankIdx := if 0 < cfg.harmonics.get 0 then 0 else 1

/-- The first triple in the order of R231, absent when there is none (R234 step I4). -/
def firstTriple (cfg : Cfg) : Option Cursor :=
  if totalOf cfg = 0 then none else some { m := 0, b := firstBank cfg, h := 0 }

/-- A per-motor value set for every motor in use and kept for the others. -/
def perMotor (cfg : Cfg) (old : Vector Num 16) (f : MotorIdx → Num) : Vector Num 16 :=
  Vector.ofFn fun m => if m.val < cfg.motorCount then f m else old.get m

/-- I1 to I5 (R234, R239). -/
def rpmInitialise (s : State) : State :=
  { s with
    bank := Vector.ofFn fun b => initBank s.cfg b (s.bank.get b)
    sched :=
      { inited := true
        cur := firstTriple s.cfg
        budget := budgetOf s.cfg (totalOf s.cfg)
        total := totalOf s.cfg
        erpmToHz := erpmToHzOf s.cfg
        smoothed := perMotor s.cfg s.sched.smoothed fun _ => 0
        freqBase := perMotor s.cfg s.sched.freqBase fun _ => 0 } }

/-- `RPMINIT` (R234). -/
def execRpminit (s : State) : Host.Outcome State Fault Refusal :=
  if s.sched.inited then .next (markRefused .rpmInitTwice s)
  else if ¬ CfgLegal s.cfg then .next (markRefused .rpmBadConfig s)
  else .next (rpmInitialise s)

/-! ## RPMUPD (R240 to R250) -/

/-- `Pt1Step(s, x) = s + k*(x - s)` with the configured gain `k` (R241). -/
def pt1Step (cfg : Cfg) (s x : Num) : Num := cfg.add s (cfg.mul cfg.gain (cfg.sub x s))

/-- U1: every motor's smoothed speed (R240, R241). -/
def smoothAll (s : State) : State :=
  { s with
    sched :=
      { s.sched with
        smoothed := perMotor s.cfg s.sched.smoothed fun m =>
          pt1Step s.cfg (s.sched.smoothed.get m) (toNum (s.ch m).telemetryValue) } }

/-- The frequency policy (R247): deactivated below half of `minHz`, clamped up to `minHz`, then down to 1000. -/
def policy (cfg : Cfg) (f minHz : Num) : Num :=
  let f1 := if f < minHz then (if f < cfg.mul (1 / 2) minHz then 1000 else minHz) else f
  if 1000 < f1 then 1000 else f1

/-- The frequency given to a triple (R244, R247). -/
def tripleFreq (s : State) (c : Cursor) : Num :=
  policy s.cfg (s.cfg.mul ((c.h : Num) + 1) (s.sched.freqBase.get c.m)) (s.cfg.minHz.get c.b)

/-- The motor after `m` (R249). -/
def nextMotor (cfg : Cfg) (m : MotorIdx) : MotorIdx := Fin.ofNat 16 ((m.val + 1) % cfg.motorCount)

/-- The motor refreshed when the cursor leaves motor `m` (R250, `REFRESH_TARGET`). -/
def refreshMotor (cfg : Cfg) (m : MotorIdx) : MotorIdx :=
  match cfg.refreshTarget with
  | .completed => m
  | .next => nextMotor cfg m

/-- `sched.freqBase[m] <- sched.erpmToHz * sched.smoothed[m]` (R250). -/
def refreshBase (m : MotorIdx) (s : State) : State :=
  { s with
    sched :=
      { s.sched with freqBase := s.sched.freqBase.set m.val (s.cfg.mul s.sched.erpmToHz (s.sched.smoothed.get m)) m.isLt } }

/-- `sched.cur <- c`. -/
def setCursor (c : Cursor) (s : State) : State := { s with sched := { s.sched with cur := some c } }

/-- `Advance()` from cursor `c` (R249, R250). -/
def advance (c : Cursor) (s : State) : State :=
  if c.h + 1 = s.cfg.harmonics.get c.b then
    if c.b = 0 ∧ 0 < s.cfg.harmonics.get 1 then setCursor { m := c.m, b := 1, h := 0 } s
    else
      setCursor { m := nextMotor s.cfg c.m, b := firstBank s.cfg, h := 0 }
        (refreshBase (refreshMotor s.cfg c.m) s)
  else setCursor { m := c.m, b := c.b, h := c.h + 1 } s

/-- The coefficients of the cursor's triple, axis 0 recomputed and cloned to axes 1 and 2 (R243, R248). -/
def recomputeAt (c : Cursor) (s : State) : State :=
  let v := bankCoeffs s.cfg c.b (tripleFreq s c)
  setCoef c.b 2 c.m c.h v (setCoef c.b 1 c.m c.h v (setCoef c.b 0 c.m c.h v s))

/-- `RecomputeOne()` (R243). -/
def recomputeOne (s : State) : State :=
  match s.sched.cur with
  | some c => advance c (recomputeAt c s)
  | none => s

/-- U2: exactly `K` recomputations, if there is a triple (R240). -/
def recomputeMany (s : State) : State := if 0 < s.sched.total then recomputeOne^[s.sched.budget] s else s

/-- `RPMUPD` (R240). -/
def execRpmupd (s : State) : Host.Outcome State Fault Refusal :=
  if s.sched.inited = false then .next (markRefused .rpmNotInited s) else .next (recomputeMany (smoothAll s))

/-! ## FGYRO and FDTERM (R255 to R257) -/

/-- The notches a sample passes, motor outer, harmonic inner (R257). -/
def notchesOf (cfg : Cfg) (b : BankIdx) : List (MotorIdx × Nat) :=
  (motorsOf cfg).flatMap fun m => (List.range (cfg.harmonics.get b)).map fun h => (m, h)

/-- An entry that nothing has written stands among the given notches (R72). -/
def notchesLack (s : State) (b : BankIdx) (axis : Axis) (ns : List (MotorIdx × Nat)) : Bool :=
  ns.any fun p => (coefAt s b axis p.1 p.2).isNone || (delayAt s b axis p.1 p.2).isNone

/-- The coefficients of the notch number `k` of a filter call, a free value where none were written (R72, R257). -/
def notchCoef (s : State) (b : BankIdx) (axis : Axis) (k : Nat) (p : MotorIdx × Nat) : Coef :=
  (coefAt s b axis p.1 p.2).getD (Config.freeCoef s.free k)

/-- The sample memory of the notch number `k` of a filter call, a free value where none was written (R72, R257). -/
def notchDelay (s : State) (b : BankIdx) (axis : Axis) (k : Nat) (p : MotorIdx × Nat) : Delay :=
  (delayAt s b axis p.1 p.2).getD (Config.freeDelay s.free k)

/-- The sample through the given notches in series, the first of them number `k`, updating their sample memories (R257). -/
def filterThrough (b : BankIdx) (axis : Axis) : Nat → List (MotorIdx × Nat) → Num → State → Num × State
  | _, [], x, s => (x, s)
  | k, p :: r, x, s =>
    let step := Config.biquadApply (notchCoef s b axis k p) (notchDelay s b axis k p) x
    filterThrough b axis (k + 1) r step.1 (setDelay b axis p.1 p.2 step.2 s)

/-- `Apply(b, axis, x)` (R257): pass-through before RPMINIT or with the bank disabled. A read of an entry nothing has written
is recorded (R72). -/
def applyBank (b : BankIdx) (axis : Axis) (x : Num) (s : State) : Num × State :=
  if s.sched.inited = false ∨ s.cfg.harmonics.get b = 0 then (x, s)
  else
    let r := filterThrough b axis 0 (notchesOf s.cfg b) x s
    (r.1, noteUnwritten (notchesLack s b axis (notchesOf s.cfg b)) r.2)

/-- `Apply` on the sample of the operand port, the result on the response port (R119, R121, R257). -/
def filterSample (b : BankIdx) (axis : Axis) (s : State) : Host.Outcome State Fault Refusal :=
  let r := applyBank b axis s.opnd s
  .next (respond (.sample r.1) r.2)

/-- `FGYRO axis` (R255). -/
def execFgyro (axis : Axis) (s : State) : Host.Outcome State Fault Refusal := filterSample 0 axis s

/-- `FDTERM axis` (R256). -/
def execFdterm (axis : Axis) (s : State) : Host.Outcome State Fault Refusal := filterSample 1 axis s

end Sys2Proof.Machine
end

