-- ==== Sys2Proof/Machine/Dispatch.lean ====
section
/-! DEFINITION. One arm per host operation (30_encoding.md R110). -/

namespace Sys2Proof.Machine

def exec (i : Instr) (s : State) : Host.Outcome State Fault Refusal :=
  match i with
  | .cfg idx timer ch n => Sys2Proof.Machine.execCfg idx timer ch n s
  | .beginUpdate => Sys2Proof.Machine.execBeginUpdate s
  | .tx idx value tr => Sys2Proof.Machine.execTx idx value tr s
  | .go => Sys2Proof.Machine.execGo s
  | .gett idx => Sys2Proof.Machine.execGett idx s
  | .rpminit => Sys2Proof.Machine.execRpminit s
  | .rpmupd => Sys2Proof.Machine.execRpmupd s
  | .fgyro axis => Sys2Proof.Machine.execFgyro axis s
  | .fdterm axis => Sys2Proof.Machine.execFdterm axis s

end Sys2Proof.Machine
end

