-- ==== Sys2Proof/Machine/Completion.lean ====
section
/-! DEFINITION. The completion interrupt handler, which is the per-channel direction state machine, and the beats of the
DMA agents (42_completion_fsm.md; 60_exceptions.md R290 to R294). -/

namespace Sys2Proof.Machine

/-! ## The interrupt (R201 to R207, R290 to R294) -/

/-- `Handler(i)` in full (R207); `t` is the time drawn for the switch to input (R215). Entry saves nothing and return
restores nothing (R293, R294). -/
def handlerBody (i : MotorIdx) (t : Timestamp) (s : State) : State :=
  let s1 := s.modCh i fun c => { c with tcFlag := false }
  if (s.ch i).isInput then
    s1.modCh i fun c => { c with hasTelemetry := true, dmaArmed := false, reqEn := false }
  else
    let s2 := s1.modCh i fun c => { c with dmaArmed := false, reqEn := false }
    if s.cfg.telemetryEnabled then setDirectionInput i t s2 else s2

/-- A run of the handler: enabled exactly when `tcFlag` is 1 (R201, R290). -/
def runHandler (i : MotorIdx) (t : Timestamp) (s : State) : Host.Outcome State Fault Refusal :=
  if (s.ch i).tcFlag then .next (handlerBody i t s) else .refused .notEnabled

/-! ## Beats of a channel's DMA agent (R208 to R212) -/

/-- Channel `i` has a DMA agent of its own and a transfer in flight in direction `d` (R208, R16). -/
def beatEnabled (s : State) (i : MotorIdx) (d : DmaDir) : Bool :=
  !s.cfg.burst && (s.ch i).configured && (s.ch i).inFlight && decide ((s.ch i).dmaDir = d)

/-- The duty value the next output beat of channel `i` reads (R209). -/
def outDuty (s : State) (i : MotorIdx) : Duty :=
  Memory.readOr (Config.freeDuty s.free) (s.ch i).outBuf (s.ch i).dmaPos

/-- `OutBeat(i)` (R209); a read of an element nothing has written is recorded (R72). -/
def runOutBeat (i : MotorIdx) (s : State) : Host.Outcome State Fault Refusal :=
  if beatEnabled s i .toTimer = false then .refused .notEnabled
  else if s.cfg.outLenMax ≤ (s.ch i).dmaPos then .refused .bufIndexOutOfRange
  else
    .next <|
      (emit (.dutyOut i (s.ch i).dmaPos (outDuty s i) (s.ch i).outEn)
        (noteUnwritten (Memory.read (s.ch i).outBuf (s.ch i).dmaPos).isNone s)).modCh i Chan.afterBeat

/-- `InBeat(i)` (R211); `t` is the captured count drawn. -/
def runInBeat (i : MotorIdx) (t : Timestamp) (s : State) : Host.Outcome State Fault Refusal :=
  if beatEnabled s i .fromTimer = false then .refused .notEnabled
  else if inBufLen s.cfg ≤ (s.ch i).dmaPos then .refused .bufIndexOutOfRange
  else
    .next ((emit (.captured i (s.ch i).dmaPos (drawStamp s.cfg t)) s).modCh i fun c =>
      { c with inBuf := Memory.write c.inBuf c.dmaPos (drawStamp s.cfg t) }.afterBeat)

/-! ## The beat of a group's DMA agent, burst variant (R213) -/

/-- The configured channels of group `g`, ascending (R213). -/
def groupMembers (s : State) (g : Nat) : List MotorIdx :=
  (List.finRange 16).filter fun i => (s.ch i).configured && decide (groupOf s i = some g)

/-- The element the group's beat reads of the lane of channel `i` (R213), if it was written. -/
def laneRead (gr : Group) (s : State) (i : MotorIdx) : Option Duty :=
  Memory.read (gr.burstBuf.get (s.ch i).ch) gr.dmaPos

/-- The duty value the group's beat moves for channel `i` (R213). -/
def laneDuty (gr : Group) (s : State) (i : MotorIdx) : Duty := (laneRead gr s i).getD (Config.freeDuty s.free i.val)

/-- One `DutyOut` for each of the given channels, in order, from its own lane (R213). A lane bound to no channel is not read:
assumption log 28. A read of an element nothing has written is recorded (R72; U15). -/
def groupDuties (gr : Group) (is : List MotorIdx) (s : State) : State :=
  noteUnwritten (is.any fun i => (laneRead gr s i).isNone)
    { s with log := s.log ++ is.map fun i => .dutyOut i gr.dmaPos (laneDuty gr s i) (s.ch i).outEn }

/-- The bookkeeping of one beat of a group (R213). The last beat ends the transfer: the group's request is disabled and its
transfer disarmed, so that nothing starts before the next GO (R333, R334); DEDUCED, assumption log 19. -/
def Group.afterBeat (gr : Group) : Group :=
  { gr with
    dmaPos := gr.dmaPos + 1, dmaCount := gr.dmaCount - 1, dmaArmed := gr.dmaArmed && !decide (gr.dmaCount - 1 = 0),
    reqEn := gr.reqEn && !decide (gr.dmaCount - 1 = 0) }

/-- Transfer-complete on every given channel (R213). -/
def raiseTcOn (is : List MotorIdx) (s : State) : State :=
  is.foldl (fun s i => s.modCh i fun c => { c with tcFlag := true }) s

/-- A beat of the DMA agent of group `g` (R213). -/
def runGroupBeat (g : Nat) (s : State) : Host.Outcome State Fault Refusal :=
  match s.grp[g]? with
  | none => .refused .notEnabled
  | some gr =>
    if groupBeatEnabled s g = false then .refused .notEnabled
    else if s.cfg.outLenMax ≤ gr.dmaPos then .refused .bufIndexOutOfRange
    else
      let s1 := (groupDuties gr (groupMembers s g) s).modGrp g Group.afterBeat
      .next (if gr.dmaCount - 1 = 0 then raiseTcOn (groupMembers s g) s1 else s1)

/-- The collaborator changes its lines (R47). -/
def runCollab (c : Collab) (s : State) : Host.Outcome State Fault Refusal := .next { s with collab := c }

end Sys2Proof.Machine
end

