-- ==== Sys2Proof/Machine/Main.lean ====
section
/-! DEFINITION. MAIN's operations as the atomic actions of 40_channel_driver.md R151 and 60_exceptions.md R291, so that a
handler run, a beat or an input change may fall between any two of them (20_memory.md R81). The actions are the same
functions the `exec*` meanings compose. -/

namespace Sys2Proof.Machine

/-- The atomic actions an operation starts with (R131, R136, R141, R147, R150, R291). -/
def firstActs (i : Instr) (s : State) : List MainAct :=
  match i with
  | .cfg idx timer ch n => [.c1 idx timer ch n]
  | .beginUpdate =>
    (if s.cfg.telemetryEnabled then (motorsOf s.cfg).map .b1 else []) ++ (motorsOf s.cfg).map .b6
  | .tx idx value tr => [.t0 idx value tr]
  | .go => [.g0]
  | .gett idx => [.getT idx]
  | .rpminit => [.rpmInit]
  | .rpmupd => [.rpmUpd]
  | .fgyro axis => [.filt 0 axis]
  | .fdterm axis => [.filt 1 axis]

/-- MAIN enters an operation (R81): nothing of it has happened yet. -/
def startOp (i : Instr) (s : State) : State := { s with micro := firstActs i s }

/-- The actions of one group of GO (R147). -/
def groupActs (g : Nat) : List MainAct := [.g1 g, .g2 g, .g3 g]

/-- One atomic action. `s` is the state with the action already taken off `micro`; what follows it is pushed back. -/
def runAct (a : MainAct) (s : State) : Host.Outcome State Fault Refusal :=
  match a with
  | .c1 idx timer ch n =>
    match cfgRefusal idx timer ch s with
    | some r => .next (markRefused r s)
    | none => .next (s.push [.c2 idx timer ch n])
  | .c2 idx timer ch n =>
    match findOrInsertGroup timer s with
    | none => .next (markRefused .cfgTimerTableFull s)
    | some s1 => .next (s1.push [.c3 idx timer ch n])
  | .c3 idx timer ch n => .next ((cfgBind idx timer ch n s).push [.c4 idx])
  | .c4 idx => .next (cfgFinish idx s)
  | .b1 i =>
    if (s.ch i).configured then .next (s.push (if (s.ch i).hasTelemetry then [.b2 i] else [.b5 i false]))
    else .next s
  | .b2 i => .next ((noteCapture i s).push [.b3 i (decodeCapture s.cfg (capture s i))])
  | .b3 i r => .next ((recordDecoded i r s).push [.b4 i])
  | .b4 i => .next ((clearTelemetry i s).push [.b5 i true])
  | .b5 i f => .next (switchIfWanted i f s)
  | .b6 i => .next (enableOutput i s)
  | .t0 idx value tr => if (s.ch idx).configured then .next (s.push [.t1 idx value tr]) else .next s
  | .t1 idx value tr =>
    if s.busy idx then .next (markFault (.overrun idx) s) else .next (s.push [.t2 idx value tr])
  | .t2 idx value tr => .next ((txOperands idx value tr s).push [.t3 idx])
  | .t3 idx => .next ((txCommand idx s).push [.t4 idx])
  | .t4 idx => .next ((txClearRequest idx s).push [.t5 idx (txPacket idx s)])
  | .t5 idx packet =>
    .next ((txFrame idx (expand s.cfg packet) s).push [.t6 idx (expand s.cfg packet).length])
  | .t6 idx len => .next ((txArm idx len s).push [.t7 idx])
  | .t7 idx => .next (txSource idx s)
  | .g0 => if goSkipped s then .next s else .next (s.push ((List.range s.grp.length).flatMap groupActs))
  | .g1 g => .next (goReset g s)
  | .g2 g => .next (goEnable g s)
  | .g3 g => .next (goClear g s)
  | .getT idx => execGett idx s
  | .rpmInit => execRpminit s
  | .rpmUpd => execRpmupd s
  | .filt b axis => filterSample b axis s

/-- MAIN takes the next atomic action of the operation it is in. -/
def runNextAct (s : State) : Host.Outcome State Fault Refusal :=
  match s.micro with
  | [] => .refused .notEnabled
  | a :: rest => runAct a { s with micro := rest }

/-- MAIN takes up to `n` atomic actions with nothing between them, until the operation is over. -/
def runActs : Nat → State → Host.Outcome State Fault Refusal
  | 0, s => .next s
  | n + 1, s =>
    match s.micro with
    | [] => .next s
    | a :: rest =>
      match runAct a { s with micro := rest } with
      | .next s1 => runActs n s1
      | .fault f => .fault f
      | .refused r => .refused r

end Sys2Proof.Machine
end

