-- ==== Sys2Proof/Machine/Moves.lean ====
section
/-! DEFINITION. One move of one agent (00_scope.md R16; 20_memory.md R80, R81): how a command word reaches an operation,
and the moves of the other agents. Machine/Step.lean only calls it. -/

namespace Sys2Proof.Machine

/-- The operand port beside a word (R119): the sample is on the port while the operation runs. -/
def withOpnd (x : Num) (s : State) : State := { s with opnd := x }

/-- MAIN issues word `w` with sample `x` (R111, R119) and does with the operation what `k` says; a reserved word is refused
and changes nothing else (R122). MAIN issues no word while it is inside an operation. -/
def issue (k : Instr → State → Host.Outcome State Fault Refusal) (w : Word) (x : Num) (s : State) :
    Host.Outcome State Fault Refusal :=
  match s.micro with
  | _ :: _ => .refused .notEnabled
  | [] =>
    match decode s.cfg.nMotorsMax w with
    | .ok i => k i (withOpnd x s)
    | .error _ => .next (markRefused .reservedWord s)

/-- One move; `ex` is the meaning of an operation. -/
def runMove (ex : Instr → State → Host.Outcome State Fault Refusal) (mv : Move) (s : State) :
    Host.Outcome State Fault Refusal :=
  match mv with
  | .op w x => issue ex w x s
  | .start w x => issue (fun i s => .next (startOp i s)) w x s
  | .act => runNextAct s
  | .handler i t => runHandler i t s
  | .outBeat i => runOutBeat i s
  | .inBeat i t => runInBeat i t s
  | .groupBeat g => runGroupBeat g s
  | .collab c => runCollab c s

/-- The next move of the schedule. A configuration that is refused at launch takes no move at all (R283); with no move
scheduled nothing happens and the state stays as it is (R200, R342). -/
def stepWith (ex : Instr → State → Host.Outcome State Fault Refusal) (s : State) : Host.Outcome State Fault Refusal :=
  match launchRefusal s.cfg with
  | some r => .refused r
  | none =>
    match s.moves with
    | [] => .next s
    | mv :: rest => runMove ex mv { s with moves := rest }

/-- A word of the table's numbering as a command word (30_encoding.md R111): the bits from `nbits` up are zero. -/
def tableWord (nbits w : Nat) : Word := BitVec.ofNat 32 (w % 2 ^ nbits)

/-- The state in which the very next step issues the word (assumption log 7): it stands first in the schedule, the operand
port keeps its sample, and MAIN is inside no operation. -/
def fetchWord (s : State) (nbits w : Nat) : State :=
  { s with moves := .op (tableWord nbits w) s.opnd :: s.moves, micro := [] }

end Sys2Proof.Machine
end

