-- ==== Sys2Proof/Machine/Step.lean ====
section
/-! DEFINITION. One step of the machine: the next move of the schedule (20_memory.md R80). -/

namespace Sys2Proof.Machine

/-- One step: the first move of the schedule, with `exec` the meaning of a whole operation. -/
def step (s : State) : Host.Outcome State Fault Refusal := stepWith exec s

/-- `s` with the word of the table's numbering where the next step finds it. -/
def State.withFetchWord (s : State) (nbits w : Nat) : State := fetchWord s nbits w

end Sys2Proof.Machine
end

