-- ==== Sys2Proof/Safety.lean ====
section
/-! DEFINITION. What counts as a safe run: the premises the spec's claims take (10_state.md R46, 70_reset_and_hazards.md
R330, R331, R341, R342), the properties every step keeps (10_state.md R23, R31, R38; 43_rpm_notch.md R248; 20_memory.md
R72), and runs. Nothing here is used by a definition of the machine. -/

namespace Sys2Proof.Machine

/-! ## Premises of claims -/

/-- "no fault and nothing refused" (R46, R283): the premise every claim of the spec takes. -/
abbrev State.clean (s : State) : Prop := s.faults = [] ∧ s.refused = []

/-- The optional premise on the sampled inputs (R47): a command is queued exactly when one is queued for some motor. -/
abbrev CmdLinked (s : State) : Prop := s.collab.cmdQueued = true ↔ ∃ i, cmdFor s i ≠ none

/-- The move a state takes next. -/
def State.nextMove (s : State) : Option Move := s.moves.head?

/-- MAIN is about to issue operation `i`, whole or action by action (R80, R81). -/
def Issues (s : State) (i : Instr) : Prop :=
  ∃ w x, (s.nextMove = some (.op w x) ∨ s.nextMove = some (.start w x)) ∧ decode s.cfg.nMotorsMax w = .ok i

/-- Along the schedule of `s`, channel `i` takes no further input beat before it is switched to output (R331). -/
def NoBeatBeforeOutput (s : State) (i : MotorIdx) : Prop :=
  ∀ k t tm, Host.Core.run core k s = .next t → t.nextMove = some (.inBeat i tm) →
    ∃ j t', j ≤ k ∧ Host.Core.run core j s = .next t' ∧ (t'.ch i).isInput = false

/-- The first part of `PeriodLongEnough` (R331), at a BEGIN: every configured channel has finished, or is receiving with
no completion pending and a capture that takes no further beat before its `SetDirectionOutput`. That no completion may be
pending there, and that the request of a burst group counts, are read from R337 and R333: assumption log 27. -/
def QuietAtBegin (s : State) : Prop :=
  ∀ i, (s.ch i).configured = true →
    (s.ch i).tcFlag = false ∧
      (((s.ch i).reqEn = false ∧ groupRequest s i = false) ∨ ((s.ch i).isInput = true ∧ NoBeatBeforeOutput s i))

/-- The second part of `PeriodLongEnough` (R331), at a `TX i`. -/
abbrev QuietAtTx (s : State) (i : MotorIdx) : Prop := s.busy i = false

/-- MAIN is at `TX i`: it is about to issue it, or to test `Busy(i)` inside it (R141 step T1). -/
def AtTx (s : State) (i : MotorIdx) : Prop :=
  (∃ value tr, Issues s (.tx i value tr)) ∨
    (s.nextMove = some .act ∧ ∃ value tr, s.micro.head? = some (.t1 i value tr))

/-- `PeriodLongEnough` (R331), of the run that the schedule of `s` lists. -/
def PeriodLongEnough (s : State) : Prop :=
  ∀ k t, Host.Core.run core k s = .next t →
    (Issues t .beginUpdate → QuietAtBegin t) ∧ ∀ i, AtTx t i → QuietAtTx t i

/-- The operations that may stand anywhere in a cycle (R330). -/
def freeInCycle : Instr → Bool
  | .gett _ => true
  | .fgyro _ => true
  | .fdterm _ => true
  | .cfg _ _ _ _ => false
  | .beginUpdate => false
  | .tx _ _ _ => false
  | .go => false
  | .rpminit => false
  | .rpmupd => false

/-- The motors of the `TX`s at the head of a list, and what follows them (R330). -/
def leadingTxs : List Instr → List MotorIdx × List Instr
  | .tx idx _ _ :: r => (idx :: (leadingTxs r).1, (leadingTxs r).2)
  | r => ([], r)

/-- One control cycle (R330): BEGIN, a `TX` for each of any motors at most once, GO, RPMUPD, with any number of GETT,
FGYRO, FDTERM anywhere. -/
abbrev IsCycle (is : List Instr) : Prop :=
  match is.filter fun i => !freeInCycle i with
  | .beginUpdate :: r => (leadingTxs r).1.Nodup ∧ (leadingTxs r).2 = [.go, .rpmupd]
  | _ => False

/-- Channel `i` is loaded and waiting for a `GO` (R33, R341). In the burst variant its group is, and the channel's own bit
is in the accumulated set (R142; assumption log 19). -/
def channelLoaded (s : State) (i : MotorIdx) : Bool :=
  if s.cfg.burst then
    match groupOf s i with
    | some g =>
      match s.grp[g]? with
      | some gr =>
        (s.ch i).configured && gr.dmaArmed && !gr.reqEn && decide (gr.timerDmaSources &&& chanBit (s.ch i).ch ≠ 0)
      | none => false
    | none => false
  else (s.ch i).loaded

/-- The channels whose receive transfer is armed (R341). -/
def armedReceives (s : State) : List MotorIdx :=
  (List.finRange 16).filter fun i => decide ((s.ch i).dmaDir = .fromTimer) && (s.ch i).inFlight

/-- The run is over (R341): MAIN has nothing left to do, no completion is pending, no output transfer of a channel or of a
group is in flight, every channel that is loaded is one the claim lists, and the receives still armed are the listed ones. -/
def RunOver (s : State) (loaded receiving : List MotorIdx) : Prop :=
  s.moves = [] ∧ s.micro = [] ∧
    (∀ i, (s.ch i).tcFlag = false ∧ ((s.ch i).dmaDir = .toTimer → (s.ch i).inFlight = false)) ∧
    (∀ g, groupBeatEnabled s g = false) ∧
    (∀ i, channelLoaded s i = true → i ∈ loaded) ∧
    receiving = armedReceives s

/-! ## What every step keeps -/

/-- R31(a): the three views of a channel's direction agree. -/
abbrev DirectionsAgree (s : State) : Prop :=
  ∀ i, ((s.ch i).isInput = true ↔ (s.ch i).chanMode = .inputCapture) ∧
    ((s.ch i).chanMode = .inputCapture ↔ (s.ch i).dmaDir = .fromTimer)

/-- R10, R23, R35, R37, R41: every value is in its width: the speeds 12 bits, the times and counters `W_TS` or
`W_CNT`. -/
def ValuesInRange (s : State) : Prop :=
  (∀ i, (s.ch i).telemetryValue.toNat ≤ 4095 ∧ (s.dbgValue.get i).toNat ≤ 4095 ∧ s.switchTime.get i < 2 ^ s.cfg.wTs ∧
      ∀ k t, Memory.read (s.ch i).inBuf k = some t → t < 2 ^ s.cfg.wTs) ∧
    (∀ gr ∈ s.grp, gr.counter < 2 ^ s.cfg.wTs) ∧ s.invalidCount < 2 ^ s.cfg.wCnt

/-- R38: no timer has two groups, and the table is not over full. -/
abbrev GroupsDistinct (s : State) : Prop := (s.grp.map Group.timer).Nodup ∧ s.grp.length ≤ s.cfg.nTimersMax

/-- What MAIN still has to do on a channel it is binding finds a group (R131 steps C2 to C4). -/
def ActHasGroup (s : State) : MainAct → Prop
  | .c3 _ timer _ _ => findGroup s timer ≠ none
  | .c4 idx => groupOf s idx ≠ none
  | _ => True

/-- Every configured channel has a group (R38, R14). -/
def ConfiguredHaveGroup (s : State) : Prop :=
  (∀ i, (s.ch i).configured = true → groupOf s i ≠ none) ∧ ∀ a ∈ s.micro, ActHasGroup s a

/-- The action is one of `CFG` (R131). -/
def MainAct.ofCfg : MainAct → Bool
  | .c1 _ _ _ _ => true
  | .c2 _ _ _ _ => true
  | .c3 _ _ _ _ => true
  | .c4 _ => true
  | _ => false

/-- The channel that an action of `CFG` after C1 binds (R131). -/
def MainAct.binds : MainAct → Option MotorIdx
  | .c2 idx _ _ _ => some idx
  | .c3 idx _ _ _ => some idx
  | .c4 idx => some idx
  | _ => none

/-- R131: what MAIN still has to do of a `CFG` is one action, and it binds a channel that is not configured. -/
def PendingCfgIsFresh (s : State) : Prop :=
  (∀ a ∈ s.micro, a.ofCfg = false) ∨
    ∃ a, s.micro = [a] ∧ ∀ idx, a.binds = some idx → (s.ch idx).configured = false

/-- What MAIN still has to do to load a channel is done to a configured one (R141). -/
def ActConfigured (s : State) : MainAct → Prop
  | .t1 idx _ _ => (s.ch idx).configured = true
  | .t2 idx _ _ => (s.ch idx).configured = true
  | .t3 idx => (s.ch idx).configured = true
  | .t4 idx => (s.ch idx).configured = true
  | .t5 idx _ => (s.ch idx).configured = true
  | .t6 idx _ => (s.ch idx).configured = true
  | .t7 idx => (s.ch idx).configured = true
  | _ => True

/-- Every flag of a channel other than `configured` is 0 (R25, R30, R31(e)). -/
abbrev Chan.quiet (c : Chan) : Prop :=
  c.isInput = false ∧ c.requestTelemetry = false ∧ c.hasTelemetry = false ∧ c.outEn = false ∧ c.dmaArmed = false ∧
    c.reqEn = false ∧ c.tcFlag = false

/-- R31(e): an unconfigured channel has no flag set. -/
def UnconfiguredQuiet (s : State) : Prop :=
  (∀ i, (s.ch i).configured = false → (s.ch i).quiet) ∧ ∀ a ∈ s.micro, ActConfigured s a

/-- R248: the axis cloning invariant. -/
abbrev AxesCloned (s : State) : Prop :=
  ∀ b m h, coefAt s b 1 m h = coefAt s b 0 m h ∧ coefAt s b 2 m h = coefAt s b 0 m h

/-- R234, R322: once the scheduler is initialised every notch of every motor in use holds a value. -/
abbrev NotchesWritten (s : State) : Prop :=
  s.sched.inited = true → ∀ b axis m h, m.val < s.cfg.motorCount → h < s.cfg.harmonics.get b →
    coefAt s b axis m h ≠ none ∧ delayAt s b axis m h ≠ none

/-- A cursor stands at a triple (R231). -/
abbrev Cursor.inRange (cfg : Cfg) (c : Cursor) : Prop := c.m.val < cfg.motorCount ∧ c.h < cfg.harmonics.get c.b

/-- `Pos(m, b, h)` (R231). -/
def Cursor.pos (cfg : Cfg) (c : Cursor) : Nat :=
  c.m.val * (cfg.harmonics.get 0 + cfg.harmonics.get 1) + (if c.b = 1 then cfg.harmonics.get 0 else 0) + c.h

/-- R231, R234: once the scheduler is initialised it holds the number of triples, and a cursor at one of them unless
there is none. -/
abbrev CursorAtTriple (s : State) : Prop :=
  s.sched.inited = true →
    s.sched.total = totalOf s.cfg ∧
      match s.sched.cur with
      | some c => c.inRange s.cfg
      | none => s.sched.total = 0

/-- Every memory of the block is in canonical form (R70, R72; assumption log 12). -/
abbrev MemoriesCanonical (s : State) : Prop :=
  (∀ i, Memory.wf (s.ch i).outBuf ∧ Memory.wf (s.ch i).inBuf) ∧
    (∀ gr ∈ s.grp, ∀ c : HwChannel, Memory.wf (gr.burstBuf.get c)) ∧
    (∀ (b : BankIdx) (axis : Axis) (m : MotorIdx),
      Memory.wf (((s.bank.get b).coef.get axis).get m) ∧ Memory.wf (((s.bank.get b).delay.get axis).get m))

/-! ## Runs and fairness (R342) -/

/-- An infinite run: each state is the step of the one before it. -/
def InfiniteRun (run : Nat → State) : Prop := ∀ n, step (run n) = .next (run (n + 1))

/-- Weak fairness of one kind of move: where it stays enabled it is eventually taken. -/
def WeaklyFair (enabled : State → Prop) (taken : Move → Prop) (run : Nat → State) : Prop :=
  ∀ n, (∀ k, n ≤ k → enabled (run k)) → ∃ k, n ≤ k ∧ ∃ mv, (run k).nextMove = some mv ∧ taken mv

/-- R212, R342: output beats, of a channel's DMA agent and of a group's, and handler runs are weakly fair; input beats and
MAIN are never forced. -/
def FairRun (run : Nat → State) : Prop :=
  (∀ i, WeaklyFair (fun s => beatEnabled s i .toTimer = true) (fun mv => mv = .outBeat i) run) ∧
    (∀ g, WeaklyFair (fun s => groupBeatEnabled s g = true) (fun mv => mv = .groupBeat g) run) ∧
    (∀ i, WeaklyFair (fun s => (s.ch i).tcFlag = true) (fun mv => ∃ t, mv = .handler i t) run)

end Sys2Proof.Machine
end

