-- ==== Sys2Proof/Certificates/Slice0/Obligations.lean ====
section
/-! DEFINITION. The statements for the provers, from the numbered rules of spec/. A statement about an operation gives the
whole next state, as the state before with the fields named replaced, so that it is its own frame. -/

section Statements

open Sys2Proof Sys2Proof.Machine

/-! ## Command words (30_encoding.md) -/

/-- R111 to R120: every operation the block has comes back from its own word, every operand at every value. -/
def Obligations.DecodeOfEncodeIsTheOperation : Prop :=
  ∀ (n : Nat) (i : Instr), i.wellFormed n = true → decode n (encode i) = .ok i

/-- R111 to R120, R122: an accepted word is the word of the operation it selects, and the operation is one the block has;
no bit of an accepted word is dropped. -/
def Obligations.EncodeOfDecodeIsTheWord : Prop :=
  ∀ (n : Nat) (w : Word) (i : Instr), decode n w = .ok i → encode i = w ∧ i.wellFormed n = true

/-- R112 to R120: the accepted words are exactly the words of the nine matches and masks, with `IDX` in the table and
`AXIS` not 3. -/
def Obligations.AcceptedWordsAreTheTable : Prop :=
  ∀ (n : Nat) (w : Word),
    (∃ i, decode n w = .ok i) ↔
      (w &&& 0xF001FFFF#32 = 0x10000000#32 ∧ w.toNat / 2 ^ 24 % 16 < n) ∨
      w = 0x20000000#32 ∨
      (w &&& 0xF0FE0000#32 = 0x30000000#32 ∧ w.toNat / 2 ^ 24 % 16 < n) ∨
      w = 0x40000000#32 ∨
      (w &&& 0xF0FFFFFF#32 = 0x50000000#32 ∧ w.toNat / 2 ^ 24 % 16 < n) ∨
      w = 0x60000000#32 ∨
      w = 0x70000000#32 ∨
      (w &&& 0xFCFFFFFF#32 = 0x80000000#32 ∧ w.toNat / 2 ^ 24 % 4 ≠ 3) ∨
      (w &&& 0xFCFFFFFF#32 = 0x90000000#32 ∧ w.toNat / 2 ^ 24 % 4 ≠ 3)

/-- R122: a word with an unassigned `OP`, with a must-be-zero bit set, with `AXIS` 3 or with `IDX` beyond the table is
refused: the refusal is recorded, the move is consumed and nothing else changes. The move is the model's (assumption log 7). -/
def Obligations.ReservedWordIsRefused : Prop :=
  ∀ (s : State) (w : Word) (x : Rat) (rest : List Move),
    launchRefusal s.cfg = none → s.micro = [] → s.moves = .op w x :: rest ∨ s.moves = .start w x :: rest →
    ((w.toNat / 2 ^ 28 = 0 ∨ 10 ≤ w.toNat / 2 ^ 28) ∨
      (w.toNat / 2 ^ 28 ∈ [2, 4, 6, 7] ∧ w &&& 0x0FFFFFFF#32 ≠ 0) ∨
      (w.toNat / 2 ^ 28 = 1 ∧ w &&& 0x0001FFFF#32 ≠ 0) ∨
      (w.toNat / 2 ^ 28 = 3 ∧ w &&& 0x00FE0000#32 ≠ 0) ∨
      (w.toNat / 2 ^ 28 = 5 ∧ w &&& 0x00FFFFFF#32 ≠ 0) ∨
      (w.toNat / 2 ^ 28 ∈ [8, 9] ∧ (w &&& 0x0CFFFFFF#32 ≠ 0 ∨ w.toNat / 2 ^ 24 % 4 = 3)) ∨
      (w.toNat / 2 ^ 28 ∈ [1, 3, 5] ∧ s.cfg.nMotorsMax ≤ w.toNat / 2 ^ 24 % 16)) →
    step s =
      .next { s with
        moves := rest
        refused := if s.refused.contains .reservedWord then s.refused else s.refused ++ [.reservedWord] }

/-- R125 and the vectors V1: words written out from the formats select the operations they stand for. -/
def Obligations.SampleWordsDecode : Prop :=
  decode 16 0x10180000 = .ok (.cfg 0 1 2 false) ∧
  decode 16 0x12360000 = .ok (.cfg 2 3 1 true) ∧
  decode 16 0x20000000 = .ok .beginUpdate ∧
  decode 16 0x33010417 = .ok (.tx 3 1047 true) ∧
  decode 16 0x40000000 = .ok .go ∧
  decode 16 0x52000000 = .ok (.gett 2) ∧
  decode 16 0x60000000 = .ok .rpminit ∧
  decode 16 0x70000000 = .ok .rpmupd ∧
  decode 16 0x81000000 = .ok (.fgyro 1) ∧
  decode 16 0x92000000 = .ok (.fdterm 2)

/-- R126, R330: `CYCLE v0, ..., v(n-1)` is `BEGIN`, then `TX k, vk, 0` for `k` from 0 to `n - 1` in order, then `GO`, then
`RPMUPD`; and it keeps the cycle protocol. -/
def Obligations.CycleExpandsToOneControlCycle : Prop :=
  ∀ vs : List (BitVec 16), vs.length ≤ 16 →
    (expandCycle vs).length = vs.length + 3 ∧
    (expandCycle vs)[0]? = some .beginUpdate ∧
    (∀ (k : MotorIdx) (v : BitVec 16), vs[k.val]? = some v → (expandCycle vs)[k.val + 1]? = some (.tx k v false)) ∧
    (expandCycle vs)[vs.length + 1]? = some .go ∧
    (expandCycle vs)[vs.length + 2]? = some .rpmupd ∧
    IsCycle (expandCycle vs)

/-! ## One step (00_scope.md R16; 20_memory.md R80, R81; 60_exceptions.md R283, R291) -/

/-- A word that decodes is run: the step is the operation at the state with the word taken off the schedule and its sample
on the operand port; and the word that `withFetchWord` places is the one the next step runs. The schedule is the model's
choice (assumption log 7). -/
def Obligations.StepRunsTheDecodedOperation : Prop :=
  (∀ (s : State) (w : Word) (x : Rat) (rest : List Move) (i : Instr),
    launchRefusal s.cfg = none → s.micro = [] → s.moves = .op w x :: rest → decode s.cfg.nMotorsMax w = .ok i →
    step s = exec i { s with moves := rest, opnd := x }) ∧
  (∀ (s : State) (nbits w : Nat) (i : Instr),
    launchRefusal s.cfg = none → decode s.cfg.nMotorsMax (BitVec.ofNat 32 (w % 2 ^ nbits)) = .ok i →
    step (s.withFetchWord nbits w) = exec i { s with micro := [] })

/-- R10, R40, R283, U13, D15: a configuration outside the legal values, or burst DMA together with telemetry, takes no step at
all, and no other one is turned away. That the refusal at launch is made at every step (assumption log 23) and that `W_TS`,
`W_CNT` or `CH_PER_TIMER` 0 is outside the legal values (log 16) is the model's choice. -/
def Obligations.IllegalConfigurationTakesNoStep : Prop :=
  ∀ s : State,
    let illegal : Prop :=
      s.cfg.nMotorsMax = 0 ∨ 16 < s.cfg.nMotorsMax ∨ s.cfg.nTimersMax = 0 ∨ 16 < s.cfg.nTimersMax ∨
        s.cfg.chPerTimer = 0 ∨ s.cfg.wTs = 0 ∨ s.cfg.wCnt = 0 ∨ s.cfg.nMotorsMax < s.cfg.motorCount ∨
        s.cfg.motorPoles = 0 ∨ (s.cfg.pairStride ≠ 1 ∧ s.cfg.pairStride ≠ 2) ∨ s.cfg.proshotM = 0 ∨
        s.cfg.proshotW = 0 ∨ s.cfg.outLenMax = 0 ∨
        (∃ b : BankIdx,
          s.cfg.harmMax < s.cfg.harmonics.get b ∨ s.cfg.minHz.get b ≤ 0 ∨ 1000 < s.cfg.minHz.get b ∨
            s.cfg.qFactor.get b ≤ 0 ∨ s.cfg.loopPeriod.get b ≤ 0) ∨
        s.cfg.tLoop ≤ 0 ∨ s.cfg.minUpdateInterval ≤ 0 ∨ s.cfg.gain ≤ 0 ∨ 1 < s.cfg.gain
    (illegal → step s = .refused .badConfig) ∧
    (¬ illegal → s.cfg.burst = true → s.cfg.telemetryEnabled = true → step s = .refused .burstWithTelemetry) ∧
    (¬ illegal → ¬ (s.cfg.burst = true ∧ s.cfg.telemetryEnabled = true) → launchRefusal s.cfg = none)

/-- R151, R291: the atomic actions of an operation, taken one after another with nothing between them, make exactly the
operation. -/
def Obligations.AtomicActionsComposeToTheOperation : Prop :=
  ∀ (s : State) (w : Word) (x : Rat) (i : Instr),
    launchRefusal s.cfg = none → s.micro = [] → decode s.cfg.nMotorsMax w = .ok i →
    ∃ n, Host.Core.run core (n + 1) { s with moves := .start w x :: List.replicate n .act } =
      exec i { s with moves := [], opnd := x }

/-! ## CFG (40_channel_driver.md R131, R132) -/

/-- R131, R132: `CFG` in full, refusals in the order the rule tests them; the group is found by the scan or inserted at the
end. That a hardware channel which the timer does not have is refused, and as `CfgBadIndex`, is the model's choice
(assumption log 16), and so are the burst fields of a new group (log 29). -/
def Obligations.CfgInFull : Prop :=
  ∀ (idx : MotorIdx) (timer : TimerId) (ch : HwChannel) (n : Bool) (s : State),
    exec (.cfg idx timer ch n) s =
      if s.cfg.motorCount ≤ idx.val ∨ s.cfg.chPerTimer ≤ ch.val then .next (markRefused .cfgBadIndex s)
      else if (s.ch idx).configured = true then .next (markRefused .cfgTwice s)
      else if ∃ j, j ≠ idx ∧ (s.ch j).configured = true ∧ (s.ch j).timer = timer ∧ (s.ch j).ch = ch then
        .next (markRefused .cfgDuplicateBinding s)
      else if (∀ g ∈ s.grp, g.timer ≠ timer) ∧ s.grp.length = s.cfg.nTimersMax then
        .next (markRefused .cfgTimerTableFull s)
      else
        .next { s with
          chan :=
            s.chan.set idx.val
              { s.ch idx with
                timer := timer, ch := ch, outputN := n, chanMode := .outputCompare, dmaDir := .toTimer,
                isInput := false, outEn := false, configured := true }
              idx.isLt
          grp :=
            if ∃ g ∈ s.grp, g.timer = timer then s.grp
            else
              s.grp ++
                [{ timer := timer, timerDmaSources := 0, counter := 0, burstBuf := Vector.replicate 4 [], dmaPos := 0,
                   dmaCount := 0, dmaArmed := false, reqEn := false }] }

/-- R131: where `CFG` is accepted it completes: the channel is configured, bound and has a group, nothing is refused, and
no other channel changes. -/
def Obligations.CfgBindsAFreshChannel : Prop :=
  ∀ (idx : MotorIdx) (timer : TimerId) (ch : HwChannel) (n : Bool) (s : State),
    idx.val < s.cfg.motorCount → ch.val < s.cfg.chPerTimer → (s.ch idx).configured = false →
    (∀ j, j ≠ idx → (s.ch j).configured = true → ¬ ((s.ch j).timer = timer ∧ (s.ch j).ch = ch)) →
    (∃ g ∈ s.grp, g.timer = timer) ∨ s.grp.length < s.cfg.nTimersMax →
    ∃ t, exec (.cfg idx timer ch n) s = .next t ∧
      (t.ch idx).configured = true ∧ (t.ch idx).timer = timer ∧ (t.ch idx).ch = ch ∧ (t.ch idx).outputN = n ∧
      groupOf t idx ≠ none ∧ t.refused = s.refused ∧ t.faults = s.faults ∧ t.log = s.log ∧
      (∀ j, j ≠ idx → t.ch j = s.ch j) ∧
      (t.ch idx).outBuf = (s.ch idx).outBuf ∧ (t.ch idx).inBuf = (s.ch idx).inBuf

/-- R46, R122, R143: a mark is recorded, once, and nothing else changes. -/
def Obligations.MarksChangeNothingElse : Prop :=
  ∀ s : State,
    (∀ r : RefuseMark,
      markRefused r s = { s with refused := (markRefused r s).refused } ∧
      (∀ q, q ∈ (markRefused r s).refused ↔ q = r ∨ q ∈ s.refused) ∧
      (r ∈ s.refused → markRefused r s = s)) ∧
    (∀ f : FaultMark,
      markFault f s = { s with faults := (markFault f s).faults } ∧
      (∀ g, g ∈ (markFault f s).faults ↔ g = f ∨ g ∈ s.faults) ∧
      (f ∈ s.faults → markFault f s = s))

/-! ## BEGIN (40_channel_driver.md R136 to R139) -/

/-- R136 to R139: `BEGIN` in full. Where the capture of every flagged channel was written, `BEGIN` completes; a channel
that is not in use or not configured is left alone; on the others a flagged capture is decoded into the cache or costs
one count, the flag is cleared, a channel for which the switch is wanted is returned to output, and the output enable is
issued. With telemetry disabled only the output enable is. -/
def Obligations.BeginInFull : Prop :=
  ∀ s : State,
    (∀ i : MotorIdx, s.cfg.telemetryEnabled = true → i.val < s.cfg.motorCount → (s.ch i).configured = true →
      (s.ch i).hasTelemetry = true → ∀ k, k < inLen s.cfg → Memory.read (s.ch i).inBuf k ≠ none) →
    let used := fun i : MotorIdx => decide (i.val < s.cfg.motorCount) && (s.ch i).configured
    let flagged := fun i : MotorIdx => s.cfg.telemetryEnabled && (s.ch i).hasTelemetry
    let result := fun i : MotorIdx => decodeCapture s.cfg ((List.range (inLen s.cfg)).map fun k => (Memory.read (s.ch i).inBuf k).getD 0)
    let failed := (List.finRange 16).countP fun i => used i && flagged i && decide (result i = .invalid)
    let switched := fun i : MotorIdx =>
      s.cfg.telemetryEnabled &&
        (match s.cfg.switchScope with
        | .allReceiving => (s.ch i).isInput
        | .flaggedOnly => (s.ch i).hasTelemetry)
    let speed := fun (i : MotorIdx) (old : BitVec 16) =>
      if flagged i then
        (match result i with
        | .valid p => p.setWidth 16
        | .invalid => old)
      else old
    exec .beginUpdate s =
      .next { s with
        chan := Vector.ofFn fun i =>
          if used i then
            { s.ch i with
              telemetryValue := speed i (s.ch i).telemetryValue
              hasTelemetry := (s.ch i).hasTelemetry && !s.cfg.telemetryEnabled
              dmaArmed := (s.ch i).dmaArmed && !switched i
              reqEn := (s.ch i).reqEn && !switched i
              chanMode := if switched i then .outputCompare else (s.ch i).chanMode
              dmaDir := if switched i then .toTimer else (s.ch i).dmaDir
              isInput := (s.ch i).isInput && !switched i
              outEn := true }
          else s.ch i
        dbgValue := Vector.ofFn fun i => if used i then speed i (s.dbgValue.get i) else s.dbgValue.get i
        invalidCount := if failed = 0 then s.invalidCount else (s.invalidCount + failed) % 2 ^ s.cfg.wCnt
        log :=
          s.log ++ (List.finRange 16).flatMap fun i =>
            if used i then
              (if flagged i then [.decoded i (result i)] else []) ++ (if switched i then [.dirToOutput i] else [])
            else [] }

/-- R72, R136, R283: `BEGIN` over captures with elements nothing has written. It does what it does where those elements hold
some values `v`, of which nothing is known but their width; the captures stay as they are, and the mark `ReadUnwritten` is
recorded exactly where a flagged capture it decodes lacks an element. That such an element reads as a free value, and the
counting of the draws, is the model's choice (assumption log 10). -/
def Obligations.BeginMarksUnwrittenCaptures : Prop :=
  ∀ s : State,
    let lacking := fun i : MotorIdx =>
      s.cfg.telemetryEnabled && decide (i.val < s.cfg.motorCount) && (s.ch i).configured && (s.ch i).hasTelemetry &&
        (List.range (inLen s.cfg)).any fun k => (Memory.read (s.ch i).inBuf k).isNone
    let draws := (List.finRange 16).countP lacking
    ∃ (v : MotorIdx → Nat → Timestamp) (t : State),
      (∀ i k, v i k < 2 ^ s.cfg.wTs) ∧
      exec .beginUpdate
          { s with
            chan := Vector.ofFn fun i =>
              { s.ch i with
                inBuf :=
                  Memory.writeFrom [] 0
                    ((List.range (inLen s.cfg)).map fun k => (Memory.read (s.ch i).inBuf k).getD (v i k)) } } =
        .next t ∧
      exec .beginUpdate s =
        .next { t with
          chan := Vector.ofFn fun i => { t.ch i with inBuf := (s.ch i).inBuf }
          faults := if draws = 0 then s.faults else (markFault .readUnwritten s).faults
          free := s.free + draws }

/-! ## TX (40_channel_driver.md R140 to R143) -/

/-- R141: `TX` in full, per-channel DMA. A channel that is not configured changes nothing; a busy one is the fault
`Overrun`; any other is loaded with the frame of its packet, armed with the frame's length, and its bit joins the
accumulated set of its group. A queued command overrides the value and forces the telemetry request. -/
def Obligations.TxInFull : Prop :=
  ∀ (idx : MotorIdx) (value : BitVec 16) (tr : Bool) (s : State),
    s.cfg.burst = false → ((s.ch idx).configured = true → groupOf s idx ≠ none) →
    let v := ((s.collab.cmdFor.get idx).getD value)
    let ask := (s.ch idx).requestTelemetry || tr || (s.collab.cmdFor.get idx).isSome
    let frame := expand s.cfg (Config.packetOf v ask)
    exec (.tx idx value tr) s =
      if (s.ch idx).configured = false then .next s
      else if (s.ch idx).isInput = true ∨ (s.ch idx).reqEn = true ∨ (s.ch idx).tcFlag = true then
        .next (markFault (.overrun idx) s)
      else
        .next { s with
          chan :=
            s.chan.set idx.val
              { s.ch idx with
                value := v, requestTelemetry := false, outBuf := Memory.writeFrom (s.ch idx).outBuf 0 frame,
                outLen := frame.length, dmaPos := 0, dmaCount := frame.length, dmaArmed := true }
              idx.isLt
          grp :=
            s.grp.modify ((groupOf s idx).getD 0) fun gr =>
              { gr with timerDmaSources := gr.timerDmaSources ||| 1#4 <<< (s.ch idx).ch.val } }

/-- R36, R141: the elements `TX` stores are the first `length(frame)` of the channel's own output buffer; every other
element of every memory of the block reads as before. -/
def Obligations.TxStoresItsFrameAndNothingElse : Prop :=
  ∀ (idx : MotorIdx) (value : BitVec 16) (tr : Bool) (s t : State),
    s.cfg.burst = false → (s.ch idx).configured = true → (s.ch idx).busy = false →
    exec (.tx idx value tr) s = .next t →
    let v := ((s.collab.cmdFor.get idx).getD value)
    let ask := (s.ch idx).requestTelemetry || tr || (s.collab.cmdFor.get idx).isSome
    let frame := expand s.cfg (Config.packetOf v ask)
    (∀ k, k < frame.length → Memory.read (t.ch idx).outBuf k = frame[k]?) ∧
    (∀ k, frame.length ≤ k → Memory.read (t.ch idx).outBuf k = Memory.read (s.ch idx).outBuf k) ∧
    (∀ j, j ≠ idx → (t.ch j).outBuf = (s.ch j).outBuf) ∧
    (∀ j, (t.ch j).inBuf = (s.ch j).inBuf) ∧
    (t.grp.map Group.burstBuf = s.grp.map Group.burstBuf) ∧
    (∀ b axis m h, coefAt t b axis m h = coefAt s b axis m h ∧ delayAt t b axis m h = delayAt s b axis m h)

/-- R134: a frame has between 1 and `OUT_LEN_MAX` elements, in every legal configuration. -/
def Obligations.FramesFitTheOutputBuffer : Prop :=
  ∀ (cfg : Cfg) (packet : BitVec 16), CfgLegal cfg →
    1 ≤ (expand cfg packet).length ∧ (expand cfg packet).length ≤ cfg.outLenMax

/-- R142: `TX` in the burst variant. On a channel that is not configured it changes nothing. Otherwise the frame goes into the channel's lane of its group, and the group's transfer is
armed with its length; the lane form is the spec's decision D15. That the channel keeps the frame's length, and that the
group's own request makes the channel busy, is the model's choice (assumption log 19). -/
def Obligations.TxBurstInFull : Prop :=
  ∀ (idx : MotorIdx) (value : BitVec 16) (tr : Bool) (s : State) (g : Nat) (gr : Group),
    s.cfg.burst = true → ((s.ch idx).configured = true → groupOf s idx = some g ∧ s.grp[g]? = some gr) →
    let v := ((s.collab.cmdFor.get idx).getD value)
    let ask := (s.ch idx).requestTelemetry || tr || (s.collab.cmdFor.get idx).isSome
    let frame := expand s.cfg (Config.packetOf v ask)
    let lane := (s.ch idx).ch
    exec (.tx idx value tr) s =
      if (s.ch idx).configured = false then .next s
      else if (s.ch idx).isInput = true ∨ (s.ch idx).reqEn = true ∨ (s.ch idx).tcFlag = true ∨ gr.reqEn = true then
        .next (markFault (.overrun idx) s)
      else
        .next { s with
          chan :=
            s.chan.set idx.val { s.ch idx with value := v, requestTelemetry := false, outLen := frame.length } idx.isLt
          grp :=
            s.grp.set g
              { gr with
                burstBuf := gr.burstBuf.set lane.val (Memory.writeFrom (gr.burstBuf.get lane) 0 frame) lane.isLt
                dmaPos := 0, dmaCount := frame.length, dmaArmed := true
                timerDmaSources := gr.timerDmaSources ||| 1#4 <<< lane.val } }

/-! ## GO (40_channel_driver.md R145 to R148) -/

/-- R146, R147: `GO` in full, per-channel DMA. With a command queued and output not enabled nothing changes. Otherwise
each group in order has its counter reset, one `SourcesEnabled` logged with its accumulated set, and the set cleared; the
channels started are exactly the configured ones whose bit is in the set of their group. -/
def Obligations.GoInFull : Prop :=
  ∀ s : State, s.cfg.burst = false →
    if s.collab.cmdQueued = true ∧ s.collab.cmdOutputEnabled = false then exec .go s = .next s
    else
      ∃ t, exec .go s = .next t ∧
        t = { s with
          chan := t.chan
          grp := s.grp.map fun gr => { gr with counter := 0, timerDmaSources := 0 }
          log :=
            s.log ++ s.grp.flatMap fun gr => [.counterReset gr.timer, .sourcesEnabled gr.timer gr.timerDmaSources] } ∧
        ∀ i, t.ch i = { s.ch i with reqEn := (t.ch i).reqEn } ∧
          ((t.ch i).reqEn = true ↔
            (s.ch i).reqEn = true ∨
              ((s.ch i).configured = true ∧
                ∃ g gr, groupOf s i = some g ∧ s.grp[g]? = some gr ∧
                  gr.timerDmaSources &&& 1#4 <<< (s.ch i).ch.val ≠ 0))

/-- R146, R148: `GO` in the burst variant: as `GO`, with the same skip, but what is enabled is the one DMA request of each group
with a non-empty accumulated set (decision D15). -/
def Obligations.GoBurstInFull : Prop :=
  ∀ s : State, s.cfg.burst = true →
    exec .go s =
      if s.collab.cmdQueued = true ∧ s.collab.cmdOutputEnabled = false then .next s
      else
        .next { s with
          grp :=
            s.grp.map fun gr =>
              { gr with counter := 0, timerDmaSources := 0, reqEn := gr.reqEn || decide (gr.timerDmaSources ≠ 0) }
          log :=
            s.log ++ s.grp.flatMap fun gr => [.counterReset gr.timer, .sourcesEnabled gr.timer gr.timerDmaSources] }

/-- R82, R145, R147: two channels bound to one timer and both loaded in a cycle are started by exactly one enable call of
their timer, which covers both. -/
def Obligations.OneEnableCallStartsBothChannels : Prop :=
  ∀ (s : State) (i j : MotorIdx) (vi vj : BitVec 16) (ri rj : Bool),
    i ≠ j → CfgLegal s.cfg → s.cfg.burst = false → goSkipped s = false → GroupsDistinct s →
    (s.ch i).configured = true → (s.ch j).configured = true → (s.ch i).busy = false → (s.ch j).busy = false →
    (s.ch i).timer = (s.ch j).timer → groupOf s i ≠ none →
    ∃ t1 t2 t3, exec (.tx i vi ri) s = .next t1 ∧ exec (.tx j vj rj) t1 = .next t2 ∧ exec .go t2 = .next t3 ∧
      (t3.ch i).inFlight = true ∧ (t3.ch j).inFlight = true ∧
      ∃ m, m &&& 1#4 <<< (s.ch i).ch.val ≠ 0 ∧ m &&& 1#4 <<< (s.ch j).ch.val ≠ 0 ∧
        ((t3.log.drop s.log.length).filter fun e =>
          match e with
          | .sourcesEnabled k _ => decide (k = (s.ch i).timer)
          | _ => false) = [.sourcesEnabled (s.ch i).timer m]

/-! ## GETT (40_channel_driver.md R150) -/

/-- R150: the response is the cached speed, and nothing else changes. -/
def Obligations.GettInFull : Prop :=
  ∀ (idx : MotorIdx) (s : State), exec (.gett idx) s = .next { s with resp := .speed (s.ch idx).telemetryValue }

/-! ## RPMINIT (43_rpm_notch.md R234 to R239) -/

/-- R234 to R237, R239: `RPMINIT` in full. A second one, or one with an ill-formed configuration, is refused. Otherwise
every notch of every enabled bank and motor in use gets the coefficients of `minHz * h` and a cleared sample memory on
all three axes, and the scheduler its constants, zero speeds and the first triple. In the exact number system the constants
are the rational numbers of the rules. The model's choices are: which operations another system has a say in (assumption
log 13); that a width or `CH_PER_TIMER` of 0 is ill-formed (log 16); that a rounded budget below 0 is 0 (log 22). -/
def Obligations.RpminitInFull : Prop :=
  ∀ s : State,
    if s.sched.inited = true then exec .rpminit s = .next (markRefused .rpmInitTwice s)
    else if ¬ CfgLegal s.cfg then exec .rpminit s = .next (markRefused .rpmBadConfig s)
    else
      ∃ t, exec .rpminit s = .next t ∧
        t = { s with bank := t.bank, sched := t.sched } ∧
        (∀ (b : BankIdx) (axis : Axis) (m : MotorIdx) (h : Nat),
          coefAt t b axis m h =
            (if m.val < s.cfg.motorCount ∧ h < s.cfg.harmonics.get b then
              some (Config.notchCoeffs (s.cfg.mul (s.cfg.minHz.get b) h) (s.cfg.loopPeriod.get b) (s.cfg.qFactor.get b))
            else coefAt s b axis m h) ∧
          delayAt t b axis m h =
            (if m.val < s.cfg.motorCount ∧ h < s.cfg.harmonics.get b then some Config.delay0
            else delayAt s b axis m h)) ∧
        t.sched.inited = true ∧
        t.sched.erpmToHz = s.cfg.div (s.cfg.div 100 60) (s.cfg.div s.cfg.motorPoles 2) ∧
        t.sched.total = s.cfg.motorCount * (s.cfg.harmonics.get 0 + s.cfg.harmonics.get 1) ∧
        t.sched.budget =
          (roundNearest
            (s.cfg.add (s.cfg.div t.sched.total (s.cfg.div s.cfg.minUpdateInterval s.cfg.tLoop))
              s.cfg.system.c049)).toNat ∧
        (s.cfg.numerics = .exact →
          t.sched.erpmToHz = 10 / (3 * (s.cfg.motorPoles : Rat)) ∧
          (t.sched.budget : Int) =
            roundNearest ((t.sched.total : Rat) / (s.cfg.minUpdateInterval / s.cfg.tLoop) + 49 / 100)) ∧
        (∀ m : MotorIdx, t.sched.smoothed.get m = (if m.val < s.cfg.motorCount then 0 else s.sched.smoothed.get m) ∧
          t.sched.freqBase.get m = (if m.val < s.cfg.motorCount then 0 else s.sched.freqBase.get m)) ∧
        t.sched.cur =
          (if s.cfg.motorCount * (s.cfg.harmonics.get 0 + s.cfg.harmonics.get 1) = 0 then none
          else if 0 < s.cfg.harmonics.get 0 then some { m := 0, b := 0, h := 0 }
          else some { m := 0, b := 1, h := 0 })

/-- R237: `RoundNearest` gives the nearest integer, and the even one of two that are equally near. -/
def Obligations.RoundNearestIsNearestTiesToEven : Prop :=
  ∀ x : Rat,
    |x - roundNearest x| ≤ 1 / 2 ∧ (|x - roundNearest x| = 1 / 2 → 2 ∣ roundNearest x)

/-! ## RPMUPD (43_rpm_notch.md R240 to R252) -/

/-- R240, R241: `RPMUPD` in full, over one recomputation. Before `RPMINIT` it is refused. Otherwise every motor in use is
smoothed by the single pole and then, if there is a triple, `K` recomputations happen. -/
def Obligations.RpmupdInFull : Prop :=
  ∀ s : State,
    exec .rpmupd s =
      if s.sched.inited = false then .next (markRefused .rpmNotInited s)
      else
        let s1 : State :=
          { s with
            sched :=
              { s.sched with
                smoothed := Vector.ofFn fun m =>
                  if m.val < s.cfg.motorCount then
                    s.cfg.add (s.sched.smoothed.get m)
                      (s.cfg.mul s.cfg.gain
                        (s.cfg.sub ((s.ch m).telemetryValue.toNat : Rat) (s.sched.smoothed.get m)))
                  else s.sched.smoothed.get m } }
        .next (Nat.iterate recomputeOne (if 0 < s.sched.total then s.sched.budget else 0) s1)

/-- R243, R244, R247 to R250: one recomputation in full. The frequency of the cursor's triple is put through the policy
and designed once; the coefficients go to axis 0 and are cloned to axes 1 and 2; no sample memory is written; the cursor
steps harmonic first, then bank, then motor; and on leaving a motor one frequency base is refreshed. -/
def Obligations.RecomputeOneInFull : Prop :=
  ∀ (s : State) (c : Cursor), s.sched.cur = some c →
    let minHz := s.cfg.minHz.get c.b
    let f0 := s.cfg.mul ((c.h : Rat) + 1) (s.sched.freqBase.get c.m)
    let f1 := if f0 < minHz then (if f0 < s.cfg.mul (1 / 2) minHz then 1000 else minHz) else f0
    let f := if 1000 < f1 then 1000 else f1
    let v := Config.notchCoeffs f (s.cfg.loopPeriod.get c.b) (s.cfg.qFactor.get c.b)
    let harmonicsDone : Bool := decide (c.h + 1 = s.cfg.harmonics.get c.b)
    let nextBank : Bool := decide (c.b = 0) && decide (0 < s.cfg.harmonics.get 1)
    let next : MotorIdx := Fin.ofNat 16 ((c.m.val + 1) % s.cfg.motorCount)
    let target : MotorIdx :=
      match s.cfg.refreshTarget with
      | .completed => c.m
      | .next => next
    let t := recomputeOne s
    t = { s with
      bank := t.bank
      sched :=
        { s.sched with
          cur := some
            (if harmonicsDone then
              (if nextBank then { m := c.m, b := 1, h := 0 }
              else { m := next, b := if 0 < s.cfg.harmonics.get 0 then 0 else 1, h := 0 })
            else { m := c.m, b := c.b, h := c.h + 1 })
          freqBase :=
            if harmonicsDone && !nextBank then
              s.sched.freqBase.set target.val (s.cfg.mul s.sched.erpmToHz (s.sched.smoothed.get target))
                target.isLt
            else s.sched.freqBase } } ∧
    (∀ (b : BankIdx) (axis : Axis) (m : MotorIdx) (h : Nat),
      coefAt t b axis m h = (if b = c.b ∧ m = c.m ∧ h = c.h then some v else coefAt s b axis m h) ∧
      delayAt t b axis m h = delayAt s b axis m h)

/-- R247: the frequency policy over every well-formed `minHz` and beyond it, and the source's four boundary examples, in every
number system; in the exact one its lower threshold is half of `minHz`. -/
def Obligations.FrequencyPolicyRanges : Prop :=
  (∀ (cfg : Cfg) (f minHz : Rat), minHz ≤ 1000 →
    (f < minHz → f < cfg.mul (1 / 2) minHz → policy cfg f minHz = 1000) ∧
    (cfg.mul (1 / 2) minHz ≤ f → f < minHz → policy cfg f minHz = minHz) ∧
    (minHz ≤ f → f ≤ 1000 → policy cfg f minHz = f) ∧
    (1000 < f → policy cfg f minHz = 1000)) ∧
  (∀ (cfg : Cfg) (f minHz : Rat), 1000 < minHz → policy cfg f minHz = 1000) ∧
  (∀ cfg : Cfg,
    policy cfg 40 100 = 1000 ∧ policy cfg 60 100 = 100 ∧ policy cfg 1200 100 = 1000 ∧ policy cfg 500 100 = 500) ∧
  (∀ cfg : Cfg, cfg.numerics = .exact → ∀ f minHz : Rat, 0 < minHz → minHz ≤ 1000 →
    (f < 1 / 2 * minHz → policy cfg f minHz = 1000) ∧
    (1 / 2 * minHz ≤ f → f < minHz → policy cfg f minHz = minHz))

/-- R249: in positions, `RPMUPD` moves the cursor up by `K` modulo the number of triples, so `n` of them move it by
`n * K`, and the cursor is back where it was exactly when the number of triples divides `n * K`. -/
def Obligations.CursorAfterTicks : Prop :=
  ∀ (s : State) (c : Cursor) (n : Nat), CfgLegal s.cfg → s.sched.inited = true → CursorAtTriple s →
    s.sched.cur = some c →
    ∃ (run : Nat → State) (d : Cursor),
      run 0 = s ∧ (∀ k, k < n → exec .rpmupd (run k) = .next (run (k + 1))) ∧
      (run n).sched.cur = some d ∧ d.inRange s.cfg ∧
      d.pos s.cfg = (c.pos s.cfg + n * s.sched.budget) % totalOf s.cfg ∧
      (d = c ↔ totalOf s.cfg ∣ n * s.sched.budget)

/-- R252: coverage. With a budget of at least 1, every triple is the one recomputed at some point of any
`ceil(total / K)` consecutive ticks. -/
def Obligations.EveryTripleIsRecomputed : Prop :=
  ∀ (s : State) (c : Cursor), CfgLegal s.cfg → s.sched.inited = true → CursorAtTriple s → 1 ≤ s.sched.budget →
    c.inRange s.cfg →
    ∃ (run : Nat → State) (k j : Nat),
      run 0 = s ∧ (∀ i, i ≤ k → exec .rpmupd (run i) = .next (run (i + 1))) ∧
      k * s.sched.budget < totalOf s.cfg ∧ j < s.sched.budget ∧
      (Nat.iterate recomputeOne j (smoothAll (run k))).sched.cur = some c ∧
      run (k + 1) = Nat.iterate recomputeOne s.sched.budget (smoothAll (run k))

/-! ## FGYRO and FDTERM (43_rpm_notch.md R255 to R257) -/

/-- R257: before `RPMINIT`, or with the bank disabled, the sample comes back unchanged and nothing else changes. -/
def Obligations.DisabledFilterPassesThrough : Prop :=
  ∀ (axis : Axis) (s : State),
    (s.sched.inited = false ∨ s.cfg.harmonics.get 0 = 0 →
      exec (.fgyro axis) s = .next { s with resp := .sample s.opnd }) ∧
    (s.sched.inited = false ∨ s.cfg.harmonics.get 1 = 0 →
      exec (.fdterm axis) s = .next { s with resp := .sample s.opnd })

/-- R255 to R257: a filtered sample goes through every notch of the bank for its axis in series, motor outer and harmonic
inner; each notch's sample memory is the one its own step left, and nothing else changes. `xs k` is the sample before
notch number `k`, `cs` and `ds` the coefficients and the sample memories read. An entry nothing has written (R72) reads as a
free value and leaves the mark `ReadUnwritten`, which is the model's choice (assumption log 10). -/
def Obligations.FilterIsTheCascade : Prop :=
  ∀ (axis : Axis) (s : State) (i : Instr) (b : BankIdx),
    (i = .fgyro axis ∧ b = 0) ∨ (i = .fdterm axis ∧ b = 1) →
    CfgLegal s.cfg → s.sched.inited = true → 0 < s.cfg.harmonics.get b →
    let inUse := fun (m : MotorIdx) (h : Nat) => m.val < s.cfg.motorCount ∧ h < s.cfg.harmonics.get b
    let lacking := ∃ m h, inUse m h ∧ (coefAt s b axis m h = none ∨ delayAt s b axis m h = none)
    ∃ (t : State) (xs : Nat → Rat) (cs : MotorIdx → Nat → Coef) (ds : MotorIdx → Nat → Delay),
      exec i s = .next t ∧
      t = { s with
        bank := t.bank, resp := .sample (xs (s.cfg.motorCount * s.cfg.harmonics.get b)), faults := t.faults,
        free := t.free } ∧
      (lacking → t.faults = (markFault .readUnwritten s).faults ∧ t.free = s.free + 1) ∧
      (¬ lacking → t.faults = s.faults ∧ t.free = s.free) ∧
      xs 0 = s.opnd ∧
      (∀ (m : MotorIdx) (h : Nat), inUse m h →
        (∀ c, coefAt s b axis m h = some c → cs m h = c) ∧
        (∀ d, delayAt s b axis m h = some d → ds m h = d) ∧
        xs (m.val * s.cfg.harmonics.get b + h + 1) =
          (Config.biquadApply (cs m h) (ds m h) (xs (m.val * s.cfg.harmonics.get b + h))).1 ∧
        delayAt t b axis m h =
          some (Config.biquadApply (cs m h) (ds m h) (xs (m.val * s.cfg.harmonics.get b + h))).2) ∧
      (∀ b' axis' m h, coefAt t b' axis' m h = coefAt s b' axis' m h) ∧
      (∀ (b' : BankIdx) (axis' : Axis) (m : MotorIdx) (h : Nat), ¬ (b' = b ∧ axis' = axis ∧ inUse m h) →
        delayAt t b' axis' m h = delayAt s b' axis' m h)

/-! ## The interrupt and the DMA agents (42_completion_fsm.md) -/

/-- R201 to R207, R215: the completion handler in full, as a step. It runs exactly where transfer-complete is pending; that a
scheduled run anywhere else is refused, as `notEnabled`, is the model's choice (assumption log 7). On a
transmit completion it disarms the channel and, with telemetry enabled, turns it to receive with a fresh capture armed
and started; on a receive completion it flags the capture. It touches its own channel, its own switch time and the
log. -/
def Obligations.HandlerInFull : Prop :=
  ∀ (s : State) (i : MotorIdx) (tm : Timestamp) (rest : List Move),
    launchRefusal s.cfg = none → s.moves = .handler i tm :: rest →
    step s =
      if (s.ch i).tcFlag = false then .refused .notEnabled
      else if (s.ch i).isInput = true then
        .next { s with
          moves := rest
          chan :=
            s.chan.set i.val { s.ch i with tcFlag := false, hasTelemetry := true, dmaArmed := false, reqEn := false }
              i.isLt }
      else if s.cfg.telemetryEnabled = true then
        .next { s with
          moves := rest
          chan :=
            s.chan.set i.val
              { s.ch i with
                tcFlag := false, chanMode := .inputCapture, dmaDir := .fromTimer, outEn := false, isInput := true,
                dmaPos := 0
                dmaCount :=
                  2 + s.cfg.pairStride *
                    (match s.cfg.protocol with
                    | .dshot => 15
                    | .proshot => 3)
                dmaArmed := true, reqEn := true }
              i.isLt
          switchTime := s.switchTime.set i.val (tm % 2 ^ s.cfg.wTs) i.isLt
          log := s.log ++ [.dirToInput i] }
      else
        .next { s with
          moves := rest
          chan := s.chan.set i.val { s.ch i with tcFlag := false, dmaArmed := false, reqEn := false } i.isLt }

/-- R207, R292: handler runs of different channels commute, but for the order of their entries in the event log. -/
def Obligations.HandlersOfDifferentChannelsCommute : Prop :=
  ∀ (s : State) (i j : MotorIdx) (ti tj : Timestamp), i ≠ j →
    let s1 := handlerBody j tj (handlerBody i ti s)
    let s2 := handlerBody i ti (handlerBody j tj s)
    s1 = { s2 with log := s1.log } ∧ s1.log.Perm s2.log

/-- R208, R209, R283: the output beat in full, as a step: one element `d` goes out, the position goes up, the count goes down,
and the last beat raises transfer-complete. Where nothing has written the element (R72) the beat completes with the mark
`ReadUnwritten`; that `d` is a free value then is the model's choice (assumption log 10). -/
def Obligations.OutBeatInFull : Prop :=
  ∀ (s : State) (i : MotorIdx) (rest : List Move),
    launchRefusal s.cfg = none → s.moves = .outBeat i :: rest → s.cfg.burst = false →
    (s.ch i).configured = true → (s.ch i).dmaArmed = true → (s.ch i).reqEn = true → 0 < (s.ch i).dmaCount →
    (s.ch i).dmaDir = .toTimer → (s.ch i).dmaPos < s.cfg.outLenMax →
    let lacking : Bool := (Memory.read (s.ch i).outBuf (s.ch i).dmaPos).isNone
    ∃ d : Duty,
      (∀ v, Memory.read (s.ch i).outBuf (s.ch i).dmaPos = some v → d = v) ∧
      step s =
        .next { s with
          moves := rest
          log := s.log ++ [.dutyOut i (s.ch i).dmaPos d (s.ch i).outEn]
          faults := if lacking then (markFault .readUnwritten s).faults else s.faults
          free := if lacking then s.free + 1 else s.free
          chan :=
            s.chan.set i.val
              { s.ch i with
                dmaPos := (s.ch i).dmaPos + 1
                dmaCount := (s.ch i).dmaCount - 1
                tcFlag := (s.ch i).tcFlag || decide ((s.ch i).dmaCount = 1) }
              i.isLt }

/-- R208, R211: the input beat in full, as a step: the drawn count, in the `W_TS` bits of a timestamp, is stored at
the position, and the bookkeeping is that of the output beat. -/
def Obligations.InBeatInFull : Prop :=
  ∀ (s : State) (i : MotorIdx) (tm : Timestamp) (rest : List Move),
    launchRefusal s.cfg = none → s.moves = .inBeat i tm :: rest → s.cfg.burst = false →
    s.cfg.telemetryEnabled = true →
    (s.ch i).configured = true → (s.ch i).dmaArmed = true → (s.ch i).reqEn = true → 0 < (s.ch i).dmaCount →
    (s.ch i).dmaDir = .fromTimer → (s.ch i).dmaPos < inLen s.cfg →
    let x := tm % 2 ^ s.cfg.wTs
    step s =
        .next { s with
          moves := rest
          log := s.log ++ [.captured i (s.ch i).dmaPos x]
          chan :=
            s.chan.set i.val
              { s.ch i with
                inBuf := Memory.write (s.ch i).inBuf (s.ch i).dmaPos x
                dmaPos := (s.ch i).dmaPos + 1
                dmaCount := (s.ch i).dmaCount - 1
                tcFlag := (s.ch i).tcFlag || decide ((s.ch i).dmaCount = 1) }
              i.isLt } ∧
      (∀ k, Memory.read (Memory.write (s.ch i).inBuf (s.ch i).dmaPos x) k =
        if k = (s.ch i).dmaPos then some x else Memory.read (s.ch i).inBuf k)

/-- R208, R213: no beat of a channel is enabled unless its transfer is in flight in the beat's own direction, and none of a
group unless the group's is. That a scheduled beat that is not enabled is refused, as `notEnabled`, is the model's choice
(assumption log 7), and so is what a transfer of a group is (log 19). -/
def Obligations.BeatsNeedATransferInFlight : Prop :=
  ∀ (s : State) (i : MotorIdx) (g : Nat) (tm : Timestamp) (rest : List Move), launchRefusal s.cfg = none →
    (s.moves = .outBeat i :: rest →
      (s.ch i).dmaArmed = false ∨ (s.ch i).reqEn = false ∨ (s.ch i).dmaCount = 0 ∨ (s.ch i).dmaDir = .fromTimer →
      step s = .refused .notEnabled) ∧
    (s.moves = .inBeat i tm :: rest →
      (s.ch i).dmaArmed = false ∨ (s.ch i).reqEn = false ∨ (s.ch i).dmaCount = 0 ∨ (s.ch i).dmaDir = .toTimer →
      step s = .refused .notEnabled) ∧
    (s.moves = .groupBeat g :: rest →
      s.cfg.burst = false ∨
        (∀ gr, s.grp[g]? = some gr → gr.dmaArmed = false ∨ gr.reqEn = false ∨ gr.dmaCount = 0) →
      step s = .refused .notEnabled)

/-- R213: a beat of a group's DMA agent, burst variant: one `DutyOut` for each configured channel of the group, from its
own lane, and at count 0 transfer-complete on each of them. `duty i` is the element the beat reads of channel `i`'s lane.
The lanes are the spec's decision D15. The model's choices are: the ascending order, and that a lane bound to no channel is
not read (assumption log 28); the bookkeeping of a group's transfer, and that its last beat disarms it and disables its
request (log 19); the free value of an element nothing has written (log 10). -/
def Obligations.GroupBeatInFull : Prop :=
  ∀ (s : State) (g : Nat) (gr : Group) (rest : List Move),
    launchRefusal s.cfg = none → s.moves = .groupBeat g :: rest → s.cfg.burst = true → s.grp[g]? = some gr →
    gr.dmaArmed = true → gr.reqEn = true → 0 < gr.dmaCount → gr.dmaPos < s.cfg.outLenMax →
    let member := fun i : MotorIdx => (s.ch i).configured && decide (groupOf s i = some g)
    let read := fun i : MotorIdx => Memory.read (gr.burstBuf.get (s.ch i).ch) gr.dmaPos
    let lacking : Bool := (List.finRange 16).any fun i => member i && (read i).isNone
    ∃ duty : MotorIdx → Duty,
      (∀ i v, read i = some v → duty i = v) ∧
      step s =
        .next { s with
          moves := rest
          log :=
            s.log ++ ((List.finRange 16).filter member).map fun i => .dutyOut i gr.dmaPos (duty i) (s.ch i).outEn
          faults := if lacking then (markFault .readUnwritten s).faults else s.faults
          free := if lacking then s.free + 1 else s.free
          grp :=
            s.grp.set g
              { gr with
                dmaPos := gr.dmaPos + 1
                dmaCount := gr.dmaCount - 1
                dmaArmed := decide (1 < gr.dmaCount)
                reqEn := decide (1 < gr.dmaCount) }
          chan := Vector.ofFn fun i =>
            if member i && decide (gr.dmaCount = 1) then { s.ch i with tcFlag := true } else s.ch i }

/-- R209: a whole frame is `outLen` output beats with the position going from 0 up; every element goes out in order, and
the last beat raises transfer-complete. -/
def Obligations.WholeFrameIsSentInOrder : Prop :=
  ∀ (s : State) (i : MotorIdx) (frame : List Duty),
    launchRefusal s.cfg = none → s.cfg.burst = false → frame ≠ [] → frame.length ≤ s.cfg.outLenMax →
    (s.ch i).configured = true → (s.ch i).dmaArmed = true → (s.ch i).reqEn = true → (s.ch i).dmaDir = .toTimer →
    (s.ch i).dmaPos = 0 → (s.ch i).dmaCount = frame.length →
    (∀ k, k < frame.length → Memory.read (s.ch i).outBuf k = frame[k]?) →
    s.moves = List.replicate frame.length (.outBeat i) →
    Host.Core.run core frame.length s =
      .next { s with
        moves := []
        log := s.log ++ frame.mapIdx fun k d => .dutyOut i k d (s.ch i).outEn
        chan :=
          s.chan.set i.val { s.ch i with dmaPos := frame.length, dmaCount := 0, tcFlag := true } i.isLt }

/-- R216: the direction-switch scenario along `TX; GO; OutBeat x L; Handler; InBeat x InLen; Handler; BEGIN`, from a
configured idle channel. After `n` of these moves the capture is flagged exactly between the second handler run and
`BEGIN`, the channel is receiving exactly from the first handler run until `BEGIN`, and `BEGIN` leaves in the cache what
the decoder makes of the drawn counts (R137). -/
def Obligations.DirectionSwitchScenario : Prop :=
  ∀ (s : State) (i : MotorIdx) (value : BitVec 16) (tr : Bool) (t1 t2 : Timestamp) (draws : List Timestamp),
    launchRefusal s.cfg = none → s.cfg.burst = false → s.cfg.telemetryEnabled = true → s.micro = [] →
    goSkipped s = false → i.val < s.cfg.motorCount → (s.ch i).configured = true → (s.ch i).busy = false →
    (s.ch i).dmaDir = .toTimer → groupOf s i ≠ none → (∀ j, (s.ch j).hasTelemetry = false) →
    draws.length = inLen s.cfg →
    let ask := (s.ch i).requestTelemetry || tr || (s.collab.cmdFor.get i).isSome
    let L := (expand s.cfg (Config.packetOf ((s.collab.cmdFor.get i).getD value) ask)).length
    let N := L + inLen s.cfg
    s.moves =
      [.op (encode (.tx i value tr)) 0, .op (encode .go) 0] ++ List.replicate L (.outBeat i) ++ [.handler i t1] ++
        draws.map (.inBeat i) ++ [.handler i t2, .op (encode .beginUpdate) 0] →
    ∀ n, n ≤ N + 5 →
      ∃ t : State, Host.Core.run core n s = .next t ∧
        ((t.ch i).hasTelemetry = true ↔ n = N + 4) ∧
        ((t.ch i).isInput = true ↔ L + 3 ≤ n ∧ n ≤ N + 4) ∧
        (n = N + 5 →
          (t.ch i).telemetryValue =
            (match decodeCapture s.cfg (draws.map (· % 2 ^ s.cfg.wTs)) with
            | .valid p => p.setWidth 16
            | .invalid => (s.ch i).telemetryValue))

/-! ## Rules over every step -/

/-- R200, R214: nothing changes a channel's direction but the rows of the transition table: it turns to receive only by its own
handler, with transfer-complete pending and telemetry enabled, and back only by `BEGIN`. `CFG` changes no direction, since it
writes 0 over 0; the premises are the invariants that say so. -/
def Obligations.DirectionChangesOnlyByTheTable : Prop :=
  ∀ (s t : State) (i : MotorIdx), UnconfiguredQuiet s → PendingCfgIsFresh s → step s = .next t →
    ((s.ch i).isInput = false → (t.ch i).isInput = true →
      ∃ tm rest, s.moves = .handler i tm :: rest ∧ (s.ch i).tcFlag = true ∧ s.cfg.telemetryEnabled = true) ∧
    ((s.ch i).isInput = true → (t.ch i).isInput = false →
      (s.ch i).configured = true ∧
      ((∃ w x rest, s.moves = .op w x :: rest ∧ decode s.cfg.nMotorsMax w = .ok .beginUpdate ∧
          i.val < s.cfg.motorCount ∧ s.cfg.telemetryEnabled = true) ∨
        (∃ rest more f, s.moves = .act :: rest ∧ s.micro = .b5 i f :: more)))

/-- R32, R332: only `BEGIN` sets the output enable, and every change of a channel's mode clears it (`BEGIN`, which switches
and then enables in one operation, leaves it set). -/
def Obligations.OutputEnableIsSetOnlyByBegin : Prop :=
  ∀ (s t : State) (i : MotorIdx), step s = .next t →
    ((s.ch i).outEn = false → (t.ch i).outEn = true →
      (∃ w x rest, s.moves = .op w x :: rest ∧ decode s.cfg.nMotorsMax w = .ok .beginUpdate) ∨
      (∃ rest more, s.moves = .act :: rest ∧ s.micro = .b6 i :: more)) ∧
    ((s.ch i).chanMode ≠ (t.ch i).chanMode → (t.ch i).outEn = true →
      ∃ w x rest, s.moves = .op w x :: rest ∧ decode s.cfg.nMotorsMax w = .ok .beginUpdate)

/-- R22, R137, R176: a cached speed is written only by `BEGIN`, and what it becomes is a 12-bit value. -/
def Obligations.SpeedIsWrittenOnlyByBegin : Prop :=
  ∀ (s t : State) (i : MotorIdx), step s = .next t → (s.ch i).telemetryValue ≠ (t.ch i).telemetryValue →
    (t.ch i).telemetryValue.toNat ≤ 4095 ∧
    ((∃ w x rest, s.moves = .op w x :: rest ∧ decode s.cfg.nMotorsMax w = .ok .beginUpdate) ∨
      (∃ p rest more, s.moves = .act :: rest ∧ s.micro = .b3 i (.valid p) :: more))

/-- R11, R25, R45 to R47, R320: no step writes the configuration, undoes a binding or an initialisation, drops a group, or
takes anything out of the log or the marks; and the collaborator's lines change only by the collaborator's own move, which
sets them to what it gives and changes nothing else. The premise of the first part is the invariant that MAIN binds no
channel that is configured already. -/
def Obligations.NothingIsUndone : Prop :=
  (∀ s t : State, PendingCfgIsFresh s → step s = .next t →
    t.cfg = s.cfg ∧
    (∀ i, (s.ch i).configured = true →
      (t.ch i).configured = true ∧ (t.ch i).timer = (s.ch i).timer ∧ (t.ch i).ch = (s.ch i).ch ∧
        (t.ch i).outputN = (s.ch i).outputN) ∧
    (s.sched.inited = true → t.sched.inited = true) ∧
    s.grp.map Group.timer <+: t.grp.map Group.timer ∧
    s.log <+: t.log ∧ s.faults <+: t.faults ∧ s.refused <+: t.refused ∧
    (s.collab = t.collab ∨ ∃ rest, s.moves = .collab t.collab :: rest)) ∧
  (∀ (s : State) (c : Collab) (rest : List Move), launchRefusal s.cfg = none → s.moves = .collab c :: rest →
    step s = .next { s with moves := rest, collab := c })

/-! ## What every step keeps -/

/-- R31(a): a channel's direction, timer mode and DMA direction agree. -/
def Obligations.StepKeepsDirectionsAgree : Prop :=
  ∀ s t : State, DirectionsAgree s → step s = .next t → DirectionsAgree t

/-- R10, R23, R35, R37, R41: every value is in its width: the speeds 12 bits, the times and counters `W_TS` or `W_CNT`. -/
def Obligations.StepKeepsValuesInRange : Prop :=
  ∀ s t : State, ValuesInRange s → step s = .next t → ValuesInRange t

/-- R131: of a `CFG` that MAIN takes action by action one action is left, and it binds a channel that is not configured. The
actions left are the model's state (assumption log 8). -/
def Obligations.StepKeepsPendingCfgFresh : Prop :=
  ∀ s t : State, PendingCfgIsFresh s → step s = .next t → PendingCfgIsFresh t

/-- R38: no timer is registered twice, and the group table is never over full. -/
def Obligations.StepKeepsGroupsDistinct : Prop :=
  ∀ s t : State, GroupsDistinct s → step s = .next t → GroupsDistinct t

/-- R38, R131: every configured channel has a group. -/
def Obligations.StepKeepsConfiguredHaveGroup : Prop :=
  ∀ s t : State, ConfiguredHaveGroup s → step s = .next t → ConfiguredHaveGroup t

/-- R31(e), R25: an unconfigured channel has no flag set. -/
def Obligations.StepKeepsUnconfiguredQuiet : Prop :=
  ∀ s t : State, UnconfiguredQuiet s → step s = .next t → UnconfiguredQuiet t

/-- R248: the axis cloning invariant. -/
def Obligations.StepKeepsAxesCloned : Prop :=
  ∀ s t : State, AxesCloned s → step s = .next t → AxesCloned t

/-- R234, R322: after `RPMINIT` every notch of every motor in use holds a value. -/
def Obligations.StepKeepsNotchesWritten : Prop :=
  ∀ s t : State, NotchesWritten s → step s = .next t → NotchesWritten t

/-- R231, R249: after `RPMINIT` the cursor stands at a triple, unless there is none. -/
def Obligations.StepKeepsCursorAtTriple : Prop :=
  ∀ s t : State, CursorAtTriple s → step s = .next t → CursorAtTriple t

/-- R70, R72: every memory keeps its canonical form. That form is the model's choice (assumption log 12). -/
def Obligations.StepKeepsMemoriesCanonical : Prop :=
  ∀ s t : State, MemoriesCanonical s → step s = .next t → MemoriesCanonical t

/-- The state after reset has every property above. -/
def Obligations.ResetHasEveryInvariant : Prop :=
  DirectionsAgree State.reset ∧ ValuesInRange State.reset ∧ PendingCfgIsFresh State.reset ∧
    GroupsDistinct State.reset ∧
    ConfiguredHaveGroup State.reset ∧ UnconfiguredQuiet State.reset ∧ AxesCloned State.reset ∧
    NotchesWritten State.reset ∧ CursorAtTriple State.reset ∧ MemoriesCanonical State.reset

/-- R49: the reset values the spec gives. -/
def Obligations.ResetValues : Prop :=
  (∀ i, (State.reset.ch i).configured = false ∧ (State.reset.ch i).isInput = false ∧ (State.reset.ch i).value = 0 ∧
    (State.reset.ch i).requestTelemetry = false ∧ (State.reset.ch i).hasTelemetry = false ∧
    (State.reset.ch i).telemetryValue = 0 ∧ (State.reset.ch i).chanMode = .outputCompare ∧
    (State.reset.ch i).dmaDir = .toTimer ∧ (State.reset.ch i).outEn = false ∧ (State.reset.ch i).dmaArmed = false ∧
    (State.reset.ch i).reqEn = false ∧ (State.reset.ch i).tcFlag = false ∧ (State.reset.ch i).dmaCount = 0 ∧
    (State.reset.ch i).dmaPos = 0 ∧ (State.reset.ch i).outLen = 0 ∧
    (∀ k, Memory.read (State.reset.ch i).outBuf k = none ∧ Memory.read (State.reset.ch i).inBuf k = none) ∧
    State.reset.dbgValue.get i = 0 ∧ State.reset.switchTime.get i = 0) ∧
  State.reset.grp = [] ∧ State.reset.invalidCount = 0 ∧
  (∀ b axis m h, coefAt State.reset b axis m h = none ∧ delayAt State.reset b axis m h = none) ∧
  State.reset.sched.inited = false ∧ State.reset.log = [] ∧ State.reset.faults = [] ∧ State.reset.refused = []

/-! ## The decoders (30_encoding.md R104; 41_decoders.md) -/

/-- R104: a word is valid exactly when its four nibbles cancel, so each payload has exactly one valid checksum. -/
def Obligations.FoldIsTheNibbleSum : Prop :=
  (∀ w : BitVec 16,
    fold w = w.extractLsb' 12 4 ^^^ w.extractLsb' 8 4 ^^^ w.extractLsb' 4 4 ^^^ w.extractLsb' 0 4) ∧
  (∀ (p : BitVec 12) (c : BitVec 4),
    fold (p ++ c) = 0 ↔ c = p.extractLsb' 8 4 ^^^ p.extractLsb' 4 4 ^^^ p.extractLsb' 0 4)

/-- R173: the four ranges of the bit rule. -/
def Obligations.BitRuleRanges : Prop :=
  ∀ d : Int,
    (11 ≤ d → bitOf d = true) ∧ (1 ≤ d → d ≤ 10 → bitOf d = false) ∧ (-9 ≤ d → d ≤ 0 → bitOf d = true) ∧
      (d ≤ -10 → bitOf d = false)

/-- R174: the pair difference is the true difference wherever that fits in `W_TS` signed bits, and otherwise the wrapped
one. -/
def Obligations.PairDifferenceIsSignedAndWraps : Prop :=
  ∀ (w stride : Nat) (t : List Timestamp) (j : Nat), 1 ≤ w →
    let a : Int := stamp t (1 + stride * j - 1)
    let b : Int := stamp t (1 + stride * j)
    let d := pairDiff w stride t j
    d < 2 ^ (w - 1) ∧ -2 ^ (w - 1) ≤ d ∧ (2 ^ w : Int) ∣ d - (b - a) ∧
      (-2 ^ (w - 1) ≤ b - a → b - a < 2 ^ (w - 1) → d = b - a)

/-- R137, R172, R173, R177, R178: for every capture, bit `15 - j` of the DSHOT word is the bit rule's of pair `j`, and DSHOT
decoding is the checksum test of that word. A capture whose pair differences spell a payload and a checksum nibble then
decodes to the payload when the nibble is the payload's checksum, and to `INVALID` when it is any other; and flipping one bit
of a valid word makes it invalid. -/
def Obligations.DshotDecodesWhatIsSpelled : Prop :=
  (∀ (wTs stride : Nat) (t : List Timestamp) (j : Nat), j < 16 →
    (dshotWord wTs stride t).getLsbD (15 - j) = bitOf (pairDiff wTs stride t j)) ∧
  (∀ (cfg : Cfg) (t : List Timestamp) (p : BitVec 12) (c : BitVec 4), dshotWord cfg.wTs cfg.pairStride t = p ++ c →
    decodeDshot cfg t =
      if c = p.extractLsb' 8 4 ^^^ p.extractLsb' 4 4 ^^^ p.extractLsb' 0 4 then .valid p else .invalid) ∧
  (∀ (cfg : Cfg) (t : List Timestamp), cfg.protocol = .dshot → decodeCapture cfg t = decodeDshot cfg t) ∧
  (∀ (cfg : Cfg) (t : List Timestamp) (p : BitVec 12) (c : BitVec 4),
    (∀ j, j < 16 →
      if (p ++ c).getLsbD (15 - j) = true then 11 ≤ pairDiff cfg.wTs cfg.pairStride t j
      else 1 ≤ pairDiff cfg.wTs cfg.pairStride t j ∧ pairDiff cfg.wTs cfg.pairStride t j ≤ 10) →
    decodeDshot cfg t =
      if c = p.extractLsb' 8 4 ^^^ p.extractLsb' 4 4 ^^^ p.extractLsb' 0 4 then .valid p else .invalid) ∧
  (∀ (w : BitVec 16) (k : Nat), k < 16 → fold w = 0 → resultOf (w ^^^ (1#16 <<< k)) = .invalid)

/-- R137, R181 to R185: for every capture, nibble `j` of the Proshot word, the first in the highest place, is 0 where the
distance of pair `j` less the base is negative, and otherwise that distance rounded to the nearest step, masked to 4 bits; and
Proshot decoding is the checksum test of that word. A capture whose pair distances are within half a step of the symbols then
decodes to the nibbles they stand for. -/
def Obligations.ProshotDecodesWithinHalfAStep : Prop :=
  (∀ (cfg : Cfg) (t : List Timestamp) (j : Nat), j < 4 →
    let d : Int :=
      ((stamp t (1 + cfg.pairStride * j) : Int) + cfg.proshotM - stamp t (1 + cfg.pairStride * j - 1)) % cfg.proshotM -
        cfg.proshotBase
    (((proshotWord cfg t).extractLsb' (4 * (3 - j)) 4).toNat : Int) =
      if d < 0 then 0 else (d + (cfg.proshotW / 2 : Nat)) / cfg.proshotW % 16) ∧
  (∀ (cfg : Cfg) (t : List Timestamp) (p : BitVec 12) (c : BitVec 4), proshotWord cfg t = p ++ c →
    decodeProshot cfg t =
      if c = p.extractLsb' 8 4 ^^^ p.extractLsb' 4 4 ^^^ p.extractLsb' 0 4 then .valid p else .invalid) ∧
  (∀ (cfg : Cfg) (t : List Timestamp), cfg.protocol = .proshot → decodeCapture cfg t = decodeProshot cfg t) ∧
  (∀ (cfg : Cfg) (t : List Timestamp) (n : Nat → BitVec 4) (e : Nat → Int) (p : BitVec 12) (c : BitVec 4),
    0 < cfg.proshotW → cfg.proshotBase + cfg.proshotW * 15 + (cfg.proshotW - 1) / 2 < cfg.proshotM →
    (∀ j, j < 4 → |e j| ≤ ((cfg.proshotW - 1) / 2 : Nat)) →
    (∀ j, j < 4 →
      ((stamp t (1 + cfg.pairStride * j) : Int) - stamp t (1 + cfg.pairStride * j - 1)) % cfg.proshotM =
        cfg.proshotBase + cfg.proshotW * (n j).toNat + e j) →
    p ++ c = n 0 ++ n 1 ++ n 2 ++ n 3 →
    proshotWord cfg t = p ++ c ∧
      decodeProshot cfg t =
        if c = p.extractLsb' 8 4 ^^^ p.extractLsb' 4 4 ^^^ p.extractLsb' 0 4 then .valid p else .invalid)

end Statements
end

