-- ==== Sys2Proof/Laws/Memory.lean ====
section
/-! SUPPORT. What reading and writing a memory do (20_memory.md R72), and the canonical form every write keeps. -/

namespace Sys2Proof.Machine

variable {α : Type}

theorem Memory.read_write_self (m : Memory α) (k : Nat) (v : α) : Memory.read (Memory.write m k v) k = some v := by
  induction m with
  | nil => simp [Memory.write, Memory.read]
  | cons p m ih =>
    obtain ⟨a, x⟩ := p
    simp only [Memory.write]
    split
    · simp [Memory.read]
    · split
      · simp [Memory.read]
      · simp only [Memory.read]
        rw [if_neg (by assumption)]
        exact ih

theorem Memory.read_write_ne (m : Memory α) {k j : Nat} (v : α) (h : j ≠ k) :
    Memory.read (Memory.write m k v) j = Memory.read m j := by
  induction m with
  | nil => simp [Memory.write, Memory.read, h]
  | cons p m ih =>
    obtain ⟨a, x⟩ := p
    simp only [Memory.write]
    split
    · simp [Memory.read, h]
    · split
      · next h2 => simp only [Memory.read]; rw [if_neg h, if_neg (by omega)]
      · simp only [Memory.read, ih]

theorem Memory.read_write (m : Memory α) (k j : Nat) (v : α) :
    Memory.read (Memory.write m k v) j = if j = k then some v else Memory.read m j := by
  split
  · next h => subst h; exact read_write_self m j v
  · next h => exact read_write_ne m v h

theorem Memory.mem_keys_write (m : Memory α) (k : Nat) (v : α) (a : Nat) :
    a ∈ (Memory.write m k v).map Prod.fst ↔ a = k ∨ a ∈ m.map Prod.fst := by
  induction m with
  | nil => simp [Memory.write]
  | cons p m ih =>
    obtain ⟨b, x⟩ := p
    simp only [Memory.write]
    split
    · simp
    · split
      · next h => subst h; simp
      · simp only [List.map_cons, List.mem_cons, ih]
        tauto

theorem Memory.wf_nil : Memory.wf ([] : Memory α) := by simp [Memory.wf]

theorem Memory.wf_write {m : Memory α} (hm : Memory.wf m) (k : Nat) (v : α) : Memory.wf (Memory.write m k v) := by
  induction m with
  | nil => simp [Memory.write, Memory.wf]
  | cons p m ih =>
    obtain ⟨a, x⟩ := p
    simp only [Memory.wf, List.map_cons, List.pairwise_cons] at hm
    simp only [Memory.write]
    split
    · next h =>
      simp only [Memory.wf, List.map_cons, List.pairwise_cons, List.mem_cons]
      refine ⟨?_, hm⟩
      rintro b (rfl | hb)
      · exact h
      · exact Nat.lt_trans h (hm.1 b hb)
    · split
      · next h => subst h; simpa [Memory.wf] using hm
      · next h1 h2 =>
        have h3 := ih hm.2
        simp only [Memory.wf, List.map_cons, List.pairwise_cons] at h3 ⊢
        refine ⟨?_, h3⟩
        intro b hb
        rcases (mem_keys_write m k v b).1 hb with rfl | hb
        · omega
        · exact hm.1 b hb

theorem Memory.wf_writeFrom {m : Memory α} (hm : Memory.wf m) (k : Nat) (vs : List α) :
    Memory.wf (Memory.writeFrom m k vs) := by
  induction vs generalizing m k with
  | nil => exact hm
  | cons v vs ih => exact ih (wf_write hm k v) (k + 1)

theorem Memory.read_writeFrom (m : Memory α) (k : Nat) (vs : List α) (j : Nat) :
    Memory.read (Memory.writeFrom m k vs) j =
      if k ≤ j ∧ j < k + vs.length then vs[j - k]? else Memory.read m j := by
  induction vs generalizing m k with
  | nil =>
    simp only [Memory.writeFrom, List.length_nil, Nat.add_zero]
    rw [if_neg (by omega)]
  | cons v vs ih =>
    simp only [Memory.writeFrom, ih, List.length_cons]
    by_cases h1 : j = k
    · subst h1
      rw [if_neg (by omega), if_pos (by omega), read_write_self]
      simp
    · rw [read_write_ne _ _ h1]
      by_cases h2 : k + 1 ≤ j ∧ j < k + 1 + vs.length
      · rw [if_pos h2, if_pos (by omega)]
        have : j - k = (j - (k + 1)) + 1 := by omega
        rw [this, List.getElem?_cons_succ]
      · rw [if_neg h2, if_neg (by omega)]

/-- What a read answers is listed. -/
theorem Memory.mem_of_read {m : Memory α} {k : Nat} {v : α} (h : Memory.read m k = some v) : (k, v) ∈ m := by
  induction m with
  | nil => cases h
  | cons p m ih =>
    obtain ⟨a, x⟩ := p
    simp only [Memory.read] at h
    split at h
    · next hk => cases h; simp [hk]
    · exact List.mem_cons_of_mem _ (ih h)

/-- Some of the first `n` elements lacks a value exactly where one of them was never written (R72). -/
theorem Memory.lacks_iff (m : Memory α) (n : Nat) : Memory.lacks m n = true ↔ ∃ k, k < n ∧ Memory.read m k = none := by
  simp [Memory.lacks]

/-- A written element reads as it was written, whatever the free values are (R72). -/
theorem Memory.readOr_of_read {free : Nat → α} {m : Memory α} {k : Nat} {v : α} (h : Memory.read m k = some v) :
    Memory.readOr free m k = v := by
  simp [Memory.readOr, h]

/-- Where no element lacks a value the free values are not looked at. -/
theorem Memory.readOr_of_lacks_eq_false {m : Memory α} {n : Nat} (h : Memory.lacks m n = false) (f g : Nat → α) {k : Nat}
    (hk : k < n) : Memory.readOr f m k = Memory.readOr g m k := by
  have : Memory.read m k ≠ none := fun hn => by
    rw [(Memory.lacks_iff m n).2 ⟨k, hk, hn⟩] at h
    cases h
  obtain ⟨v, hv⟩ := Option.ne_none_iff_exists'.1 this
  rw [readOr_of_read hv, readOr_of_read hv]

/-- Memories in canonical form are equal when they read alike. -/
theorem Memory.ext_of_wf {m1 m2 : Memory α} (h1 : Memory.wf m1) (h2 : Memory.wf m2)
    (h : ∀ k, Memory.read m1 k = Memory.read m2 k) : m1 = m2 := by
  have absent : ∀ (m : Memory α) (k : Nat), (∀ a ∈ m.map Prod.fst, k < a) → Memory.read m k = none := by
    intro m k hk
    induction m with
    | nil => rfl
    | cons p m ih =>
      obtain ⟨a, x⟩ := p
      have := hk a (by simp)
      simp only [Memory.read]
      rw [if_neg (by omega)]
      exact ih fun b hb => hk b (by simp at hb ⊢; tauto)
  induction m1 generalizing m2 with
  | nil =>
    cases m2 with
    | nil => rfl
    | cons p m2 =>
      obtain ⟨a, x⟩ := p
      have := h a
      simp [Memory.read] at this
  | cons p m1 ih =>
    obtain ⟨a, x⟩ := p
    simp only [Memory.wf, List.map_cons, List.pairwise_cons] at h1
    cases m2 with
    | nil =>
      have := h a
      simp [Memory.read] at this
    | cons q m2 =>
      obtain ⟨b, y⟩ := q
      simp only [Memory.wf, List.map_cons, List.pairwise_cons] at h2
      have hab : a = b := by
        by_contra hne
        rcases Nat.lt_or_gt_of_ne hne with hlt | hgt
        · have := h a
          simp only [Memory.read, if_pos, if_neg hne] at this
          rw [absent m2 a fun c hc => Nat.lt_trans hlt (h2.1 c hc)] at this
          simp at this
        · have := h b
          simp only [Memory.read, if_pos, if_neg (Ne.symm hne)] at this
          rw [absent m1 b fun c hc => Nat.lt_trans hgt (h1.1 c hc)] at this
          simp at this
      subst hab
      have hxy := h a
      simp only [Memory.read, if_pos, Option.some.injEq] at hxy
      subst hxy
      congr 1
      refine ih h1.2 h2.2 fun k => ?_
      by_cases hk : k = a
      · subst hk
        rw [absent m1 k h1.1, absent m2 k h2.1]
      · have := h k
        simpa only [Memory.read, if_neg hk] using this

end Sys2Proof.Machine
end

