-- ==== Sys2Proof/Laws/State.lean ====
section
/-! SUPPORT. One lemma per field per update: what each named update of the state leaves alone. -/

namespace Sys2Proof.Machine

/-! ### emit -/

@[simp] theorem emit_cfg (e : Event) (s : State) : (emit e s).cfg = s.cfg := rfl
@[simp] theorem emit_chan (e : Event) (s : State) : (emit e s).chan = s.chan := rfl
@[simp] theorem emit_grp (e : Event) (s : State) : (emit e s).grp = s.grp := rfl
@[simp] theorem emit_invalidCount (e : Event) (s : State) : (emit e s).invalidCount = s.invalidCount := rfl
@[simp] theorem emit_dbgValue (e : Event) (s : State) : (emit e s).dbgValue = s.dbgValue := rfl
@[simp] theorem emit_switchTime (e : Event) (s : State) : (emit e s).switchTime = s.switchTime := rfl
@[simp] theorem emit_bank (e : Event) (s : State) : (emit e s).bank = s.bank := rfl
@[simp] theorem emit_sched (e : Event) (s : State) : (emit e s).sched = s.sched := rfl
@[simp] theorem emit_faults (e : Event) (s : State) : (emit e s).faults = s.faults := rfl
@[simp] theorem emit_refused (e : Event) (s : State) : (emit e s).refused = s.refused := rfl
@[simp] theorem emit_collab (e : Event) (s : State) : (emit e s).collab = s.collab := rfl
@[simp] theorem emit_opnd (e : Event) (s : State) : (emit e s).opnd = s.opnd := rfl
@[simp] theorem emit_resp (e : Event) (s : State) : (emit e s).resp = s.resp := rfl
@[simp] theorem emit_micro (e : Event) (s : State) : (emit e s).micro = s.micro := rfl
@[simp] theorem emit_moves (e : Event) (s : State) : (emit e s).moves = s.moves := rfl
@[simp] theorem emit_free (e : Event) (s : State) : (emit e s).free = s.free := rfl
@[simp] theorem emit_ch (e : Event) (s : State) (j : MotorIdx) : (emit e s).ch j = s.ch j := rfl
@[simp] theorem coefAt_emit (e : Event) (s : State) (b' : BankIdx) (a' : Axis) (m' : MotorIdx) (h' : Nat) :
    coefAt (emit e s) b' a' m' h' = coefAt s b' a' m' h' := rfl
@[simp] theorem delayAt_emit (e : Event) (s : State) (b' : BankIdx) (a' : Axis) (m' : MotorIdx) (h' : Nat) :
    delayAt (emit e s) b' a' m' h' = delayAt s b' a' m' h' := rfl
@[simp] theorem findGroup_emit (e : Event) (s : State) (k : TimerId) : findGroup (emit e s) k = findGroup s k := rfl

/-! ### markFault -/

@[simp] theorem markFault_cfg (f : FaultMark) (s : State) : (markFault f s).cfg = s.cfg := rfl
@[simp] theorem markFault_chan (f : FaultMark) (s : State) : (markFault f s).chan = s.chan := rfl
@[simp] theorem markFault_grp (f : FaultMark) (s : State) : (markFault f s).grp = s.grp := rfl
@[simp] theorem markFault_invalidCount (f : FaultMark) (s : State) : (markFault f s).invalidCount = s.invalidCount := rfl
@[simp] theorem markFault_dbgValue (f : FaultMark) (s : State) : (markFault f s).dbgValue = s.dbgValue := rfl
@[simp] theorem markFault_switchTime (f : FaultMark) (s : State) : (markFault f s).switchTime = s.switchTime := rfl
@[simp] theorem markFault_bank (f : FaultMark) (s : State) : (markFault f s).bank = s.bank := rfl
@[simp] theorem markFault_sched (f : FaultMark) (s : State) : (markFault f s).sched = s.sched := rfl
@[simp] theorem markFault_log (f : FaultMark) (s : State) : (markFault f s).log = s.log := rfl
@[simp] theorem markFault_refused (f : FaultMark) (s : State) : (markFault f s).refused = s.refused := rfl
@[simp] theorem markFault_collab (f : FaultMark) (s : State) : (markFault f s).collab = s.collab := rfl
@[simp] theorem markFault_opnd (f : FaultMark) (s : State) : (markFault f s).opnd = s.opnd := rfl
@[simp] theorem markFault_resp (f : FaultMark) (s : State) : (markFault f s).resp = s.resp := rfl
@[simp] theorem markFault_micro (f : FaultMark) (s : State) : (markFault f s).micro = s.micro := rfl
@[simp] theorem markFault_moves (f : FaultMark) (s : State) : (markFault f s).moves = s.moves := rfl
@[simp] theorem markFault_free (f : FaultMark) (s : State) : (markFault f s).free = s.free := rfl
@[simp] theorem markFault_ch (f : FaultMark) (s : State) (j : MotorIdx) : (markFault f s).ch j = s.ch j := rfl
@[simp] theorem coefAt_markFault (f : FaultMark) (s : State) (b' : BankIdx) (a' : Axis) (m' : MotorIdx) (h' : Nat) :
    coefAt (markFault f s) b' a' m' h' = coefAt s b' a' m' h' := rfl
@[simp] theorem delayAt_markFault (f : FaultMark) (s : State) (b' : BankIdx) (a' : Axis) (m' : MotorIdx) (h' : Nat) :
    delayAt (markFault f s) b' a' m' h' = delayAt s b' a' m' h' := rfl
@[simp] theorem findGroup_markFault (f : FaultMark) (s : State) (k : TimerId) : findGroup (markFault f s) k = findGroup s k := rfl

/-! ### noteUnwritten -/

@[simp] theorem noteUnwritten_cfg (lacking : Bool) (s : State) : (noteUnwritten lacking s).cfg = s.cfg := by cases lacking <;> rfl
@[simp] theorem noteUnwritten_chan (lacking : Bool) (s : State) : (noteUnwritten lacking s).chan = s.chan := by cases lacking <;> rfl
@[simp] theorem noteUnwritten_grp (lacking : Bool) (s : State) : (noteUnwritten lacking s).grp = s.grp := by cases lacking <;> rfl
@[simp] theorem noteUnwritten_invalidCount (lacking : Bool) (s : State) : (noteUnwritten lacking s).invalidCount = s.invalidCount := by cases lacking <;> rfl
@[simp] theorem noteUnwritten_dbgValue (lacking : Bool) (s : State) : (noteUnwritten lacking s).dbgValue = s.dbgValue := by cases lacking <;> rfl
@[simp] theorem noteUnwritten_switchTime (lacking : Bool) (s : State) : (noteUnwritten lacking s).switchTime = s.switchTime := by cases lacking <;> rfl
@[simp] theorem noteUnwritten_bank (lacking : Bool) (s : State) : (noteUnwritten lacking s).bank = s.bank := by cases lacking <;> rfl
@[simp] theorem noteUnwritten_sched (lacking : Bool) (s : State) : (noteUnwritten lacking s).sched = s.sched := by cases lacking <;> rfl
@[simp] theorem noteUnwritten_log (lacking : Bool) (s : State) : (noteUnwritten lacking s).log = s.log := by cases lacking <;> rfl
@[simp] theorem noteUnwritten_refused (lacking : Bool) (s : State) : (noteUnwritten lacking s).refused = s.refused := by cases lacking <;> rfl
@[simp] theorem noteUnwritten_collab (lacking : Bool) (s : State) : (noteUnwritten lacking s).collab = s.collab := by cases lacking <;> rfl
@[simp] theorem noteUnwritten_opnd (lacking : Bool) (s : State) : (noteUnwritten lacking s).opnd = s.opnd := by cases lacking <;> rfl
@[simp] theorem noteUnwritten_resp (lacking : Bool) (s : State) : (noteUnwritten lacking s).resp = s.resp := by cases lacking <;> rfl
@[simp] theorem noteUnwritten_micro (lacking : Bool) (s : State) : (noteUnwritten lacking s).micro = s.micro := by cases lacking <;> rfl
@[simp] theorem noteUnwritten_moves (lacking : Bool) (s : State) : (noteUnwritten lacking s).moves = s.moves := by cases lacking <;> rfl
@[simp] theorem noteUnwritten_ch (lacking : Bool) (s : State) (j : MotorIdx) : (noteUnwritten lacking s).ch j = s.ch j := by
  simp only [State.ch, noteUnwritten_chan]
@[simp] theorem coefAt_noteUnwritten (lacking : Bool) (s : State) (b' : BankIdx) (a' : Axis) (m' : MotorIdx) (h' : Nat) :
    coefAt (noteUnwritten lacking s) b' a' m' h' = coefAt s b' a' m' h' := by
  simp only [coefAt, noteUnwritten_bank]
@[simp] theorem delayAt_noteUnwritten (lacking : Bool) (s : State) (b' : BankIdx) (a' : Axis) (m' : MotorIdx) (h' : Nat) :
    delayAt (noteUnwritten lacking s) b' a' m' h' = delayAt s b' a' m' h' := by
  simp only [delayAt, noteUnwritten_bank]
@[simp] theorem findGroup_noteUnwritten (lacking : Bool) (s : State) (k : TimerId) : findGroup (noteUnwritten lacking s) k = findGroup s k := by
  simp only [findGroup, noteUnwritten_grp]

/-! ### markRefused -/

@[simp] theorem markRefused_cfg (r : RefuseMark) (s : State) : (markRefused r s).cfg = s.cfg := rfl
@[simp] theorem markRefused_chan (r : RefuseMark) (s : State) : (markRefused r s).chan = s.chan := rfl
@[simp] theorem markRefused_grp (r : RefuseMark) (s : State) : (markRefused r s).grp = s.grp := rfl
@[simp] theorem markRefused_invalidCount (r : RefuseMark) (s : State) : (markRefused r s).invalidCount = s.invalidCount := rfl
@[simp] theorem markRefused_dbgValue (r : RefuseMark) (s : State) : (markRefused r s).dbgValue = s.dbgValue := rfl
@[simp] theorem markRefused_switchTime (r : RefuseMark) (s : State) : (markRefused r s).switchTime = s.switchTime := rfl
@[simp] theorem markRefused_bank (r : RefuseMark) (s : State) : (markRefused r s).bank = s.bank := rfl
@[simp] theorem markRefused_sched (r : RefuseMark) (s : State) : (markRefused r s).sched = s.sched := rfl
@[simp] theorem markRefused_log (r : RefuseMark) (s : State) : (markRefused r s).log = s.log := rfl
@[simp] theorem markRefused_faults (r : RefuseMark) (s : State) : (markRefused r s).faults = s.faults := rfl
@[simp] theorem markRefused_collab (r : RefuseMark) (s : State) : (markRefused r s).collab = s.collab := rfl
@[simp] theorem markRefused_opnd (r : RefuseMark) (s : State) : (markRefused r s).opnd = s.opnd := rfl
@[simp] theorem markRefused_resp (r : RefuseMark) (s : State) : (markRefused r s).resp = s.resp := rfl
@[simp] theorem markRefused_micro (r : RefuseMark) (s : State) : (markRefused r s).micro = s.micro := rfl
@[simp] theorem markRefused_moves (r : RefuseMark) (s : State) : (markRefused r s).moves = s.moves := rfl
@[simp] theorem markRefused_free (r : RefuseMark) (s : State) : (markRefused r s).free = s.free := rfl
@[simp] theorem markRefused_ch (r : RefuseMark) (s : State) (j : MotorIdx) : (markRefused r s).ch j = s.ch j := rfl
@[simp] theorem coefAt_markRefused (r : RefuseMark) (s : State) (b' : BankIdx) (a' : Axis) (m' : MotorIdx) (h' : Nat) :
    coefAt (markRefused r s) b' a' m' h' = coefAt s b' a' m' h' := rfl
@[simp] theorem delayAt_markRefused (r : RefuseMark) (s : State) (b' : BankIdx) (a' : Axis) (m' : MotorIdx) (h' : Nat) :
    delayAt (markRefused r s) b' a' m' h' = delayAt s b' a' m' h' := rfl
@[simp] theorem findGroup_markRefused (r : RefuseMark) (s : State) (k : TimerId) : findGroup (markRefused r s) k = findGroup s k := rfl

/-! ### setCh -/

@[simp] theorem setCh_cfg (s : State) (i : MotorIdx) (c : Chan) : (s.setCh i c).cfg = s.cfg := rfl
@[simp] theorem setCh_grp (s : State) (i : MotorIdx) (c : Chan) : (s.setCh i c).grp = s.grp := rfl
@[simp] theorem setCh_invalidCount (s : State) (i : MotorIdx) (c : Chan) : (s.setCh i c).invalidCount = s.invalidCount := rfl
@[simp] theorem setCh_dbgValue (s : State) (i : MotorIdx) (c : Chan) : (s.setCh i c).dbgValue = s.dbgValue := rfl
@[simp] theorem setCh_switchTime (s : State) (i : MotorIdx) (c : Chan) : (s.setCh i c).switchTime = s.switchTime := rfl
@[simp] theorem setCh_bank (s : State) (i : MotorIdx) (c : Chan) : (s.setCh i c).bank = s.bank := rfl
@[simp] theorem setCh_sched (s : State) (i : MotorIdx) (c : Chan) : (s.setCh i c).sched = s.sched := rfl
@[simp] theorem setCh_log (s : State) (i : MotorIdx) (c : Chan) : (s.setCh i c).log = s.log := rfl
@[simp] theorem setCh_faults (s : State) (i : MotorIdx) (c : Chan) : (s.setCh i c).faults = s.faults := rfl
@[simp] theorem setCh_refused (s : State) (i : MotorIdx) (c : Chan) : (s.setCh i c).refused = s.refused := rfl
@[simp] theorem setCh_collab (s : State) (i : MotorIdx) (c : Chan) : (s.setCh i c).collab = s.collab := rfl
@[simp] theorem setCh_opnd (s : State) (i : MotorIdx) (c : Chan) : (s.setCh i c).opnd = s.opnd := rfl
@[simp] theorem setCh_resp (s : State) (i : MotorIdx) (c : Chan) : (s.setCh i c).resp = s.resp := rfl
@[simp] theorem setCh_micro (s : State) (i : MotorIdx) (c : Chan) : (s.setCh i c).micro = s.micro := rfl
@[simp] theorem setCh_moves (s : State) (i : MotorIdx) (c : Chan) : (s.setCh i c).moves = s.moves := rfl
@[simp] theorem setCh_free (s : State) (i : MotorIdx) (c : Chan) : (s.setCh i c).free = s.free := rfl
@[simp] theorem coefAt_setCh (s : State) (i : MotorIdx) (c : Chan) (b' : BankIdx) (a' : Axis) (m' : MotorIdx) (h' : Nat) :
    coefAt (s.setCh i c) b' a' m' h' = coefAt s b' a' m' h' := rfl
@[simp] theorem delayAt_setCh (s : State) (i : MotorIdx) (c : Chan) (b' : BankIdx) (a' : Axis) (m' : MotorIdx) (h' : Nat) :
    delayAt (s.setCh i c) b' a' m' h' = delayAt s b' a' m' h' := rfl
@[simp] theorem findGroup_setCh (s : State) (i : MotorIdx) (c : Chan) (k : TimerId) : findGroup (s.setCh i c) k = findGroup s k := rfl

/-! ### modCh -/

@[simp] theorem modCh_cfg (s : State) (i : MotorIdx) (f : Chan → Chan) : (s.modCh i f).cfg = s.cfg := rfl
@[simp] theorem modCh_grp (s : State) (i : MotorIdx) (f : Chan → Chan) : (s.modCh i f).grp = s.grp := rfl
@[simp] theorem modCh_invalidCount (s : State) (i : MotorIdx) (f : Chan → Chan) : (s.modCh i f).invalidCount = s.invalidCount := rfl
@[simp] theorem modCh_dbgValue (s : State) (i : MotorIdx) (f : Chan → Chan) : (s.modCh i f).dbgValue = s.dbgValue := rfl
@[simp] theorem modCh_switchTime (s : State) (i : MotorIdx) (f : Chan → Chan) : (s.modCh i f).switchTime = s.switchTime := rfl
@[simp] theorem modCh_bank (s : State) (i : MotorIdx) (f : Chan → Chan) : (s.modCh i f).bank = s.bank := rfl
@[simp] theorem modCh_sched (s : State) (i : MotorIdx) (f : Chan → Chan) : (s.modCh i f).sched = s.sched := rfl
@[simp] theorem modCh_log (s : State) (i : MotorIdx) (f : Chan → Chan) : (s.modCh i f).log = s.log := rfl
@[simp] theorem modCh_faults (s : State) (i : MotorIdx) (f : Chan → Chan) : (s.modCh i f).faults = s.faults := rfl
@[simp] theorem modCh_refused (s : State) (i : MotorIdx) (f : Chan → Chan) : (s.modCh i f).refused = s.refused := rfl
@[simp] theorem modCh_collab (s : State) (i : MotorIdx) (f : Chan → Chan) : (s.modCh i f).collab = s.collab := rfl
@[simp] theorem modCh_opnd (s : State) (i : MotorIdx) (f : Chan → Chan) : (s.modCh i f).opnd = s.opnd := rfl
@[simp] theorem modCh_resp (s : State) (i : MotorIdx) (f : Chan → Chan) : (s.modCh i f).resp = s.resp := rfl
@[simp] theorem modCh_micro (s : State) (i : MotorIdx) (f : Chan → Chan) : (s.modCh i f).micro = s.micro := rfl
@[simp] theorem modCh_moves (s : State) (i : MotorIdx) (f : Chan → Chan) : (s.modCh i f).moves = s.moves := rfl
@[simp] theorem modCh_free (s : State) (i : MotorIdx) (f : Chan → Chan) : (s.modCh i f).free = s.free := rfl
@[simp] theorem coefAt_modCh (s : State) (i : MotorIdx) (f : Chan → Chan) (b' : BankIdx) (a' : Axis) (m' : MotorIdx) (h' : Nat) :
    coefAt (s.modCh i f) b' a' m' h' = coefAt s b' a' m' h' := rfl
@[simp] theorem delayAt_modCh (s : State) (i : MotorIdx) (f : Chan → Chan) (b' : BankIdx) (a' : Axis) (m' : MotorIdx) (h' : Nat) :
    delayAt (s.modCh i f) b' a' m' h' = delayAt s b' a' m' h' := rfl
@[simp] theorem findGroup_modCh (s : State) (i : MotorIdx) (f : Chan → Chan) (k : TimerId) : findGroup (s.modCh i f) k = findGroup s k := rfl

/-! ### mapCh -/

@[simp] theorem mapCh_cfg (s : State) (f : MotorIdx → Chan → Chan) : (s.mapCh f).cfg = s.cfg := by simp only [State.mapCh]
@[simp] theorem mapCh_grp (s : State) (f : MotorIdx → Chan → Chan) : (s.mapCh f).grp = s.grp := by simp only [State.mapCh]
@[simp] theorem mapCh_invalidCount (s : State) (f : MotorIdx → Chan → Chan) : (s.mapCh f).invalidCount = s.invalidCount := by simp only [State.mapCh]
@[simp] theorem mapCh_dbgValue (s : State) (f : MotorIdx → Chan → Chan) : (s.mapCh f).dbgValue = s.dbgValue := by simp only [State.mapCh]
@[simp] theorem mapCh_switchTime (s : State) (f : MotorIdx → Chan → Chan) : (s.mapCh f).switchTime = s.switchTime := by simp only [State.mapCh]
@[simp] theorem mapCh_bank (s : State) (f : MotorIdx → Chan → Chan) : (s.mapCh f).bank = s.bank := by simp only [State.mapCh]
@[simp] theorem mapCh_sched (s : State) (f : MotorIdx → Chan → Chan) : (s.mapCh f).sched = s.sched := by simp only [State.mapCh]
@[simp] theorem mapCh_log (s : State) (f : MotorIdx → Chan → Chan) : (s.mapCh f).log = s.log := by simp only [State.mapCh]
@[simp] theorem mapCh_faults (s : State) (f : MotorIdx → Chan → Chan) : (s.mapCh f).faults = s.faults := by simp only [State.mapCh]
@[simp] theorem mapCh_refused (s : State) (f : MotorIdx → Chan → Chan) : (s.mapCh f).refused = s.refused := by simp only [State.mapCh]
@[simp] theorem mapCh_collab (s : State) (f : MotorIdx → Chan → Chan) : (s.mapCh f).collab = s.collab := by simp only [State.mapCh]
@[simp] theorem mapCh_opnd (s : State) (f : MotorIdx → Chan → Chan) : (s.mapCh f).opnd = s.opnd := by simp only [State.mapCh]
@[simp] theorem mapCh_resp (s : State) (f : MotorIdx → Chan → Chan) : (s.mapCh f).resp = s.resp := by simp only [State.mapCh]
@[simp] theorem mapCh_micro (s : State) (f : MotorIdx → Chan → Chan) : (s.mapCh f).micro = s.micro := by simp only [State.mapCh]
@[simp] theorem mapCh_moves (s : State) (f : MotorIdx → Chan → Chan) : (s.mapCh f).moves = s.moves := by simp only [State.mapCh]
@[simp] theorem mapCh_free (s : State) (f : MotorIdx → Chan → Chan) : (s.mapCh f).free = s.free := by simp only [State.mapCh]
@[simp] theorem coefAt_mapCh (s : State) (f : MotorIdx → Chan → Chan) (b' : BankIdx) (a' : Axis) (m' : MotorIdx) (h' : Nat) :
    coefAt (s.mapCh f) b' a' m' h' = coefAt s b' a' m' h' := by
  simp only [coefAt, mapCh_bank]
@[simp] theorem delayAt_mapCh (s : State) (f : MotorIdx → Chan → Chan) (b' : BankIdx) (a' : Axis) (m' : MotorIdx) (h' : Nat) :
    delayAt (s.mapCh f) b' a' m' h' = delayAt s b' a' m' h' := by
  simp only [delayAt, mapCh_bank]
@[simp] theorem findGroup_mapCh (s : State) (f : MotorIdx → Chan → Chan) (k : TimerId) : findGroup (s.mapCh f) k = findGroup s k := by
  simp only [findGroup, mapCh_grp]

/-! ### modGrp -/

@[simp] theorem modGrp_cfg (s : State) (g : Nat) (f : Group → Group) : (s.modGrp g f).cfg = s.cfg := rfl
@[simp] theorem modGrp_chan (s : State) (g : Nat) (f : Group → Group) : (s.modGrp g f).chan = s.chan := rfl
@[simp] theorem modGrp_invalidCount (s : State) (g : Nat) (f : Group → Group) : (s.modGrp g f).invalidCount = s.invalidCount := rfl
@[simp] theorem modGrp_dbgValue (s : State) (g : Nat) (f : Group → Group) : (s.modGrp g f).dbgValue = s.dbgValue := rfl
@[simp] theorem modGrp_switchTime (s : State) (g : Nat) (f : Group → Group) : (s.modGrp g f).switchTime = s.switchTime := rfl
@[simp] theorem modGrp_bank (s : State) (g : Nat) (f : Group → Group) : (s.modGrp g f).bank = s.bank := rfl
@[simp] theorem modGrp_sched (s : State) (g : Nat) (f : Group → Group) : (s.modGrp g f).sched = s.sched := rfl
@[simp] theorem modGrp_log (s : State) (g : Nat) (f : Group → Group) : (s.modGrp g f).log = s.log := rfl
@[simp] theorem modGrp_faults (s : State) (g : Nat) (f : Group → Group) : (s.modGrp g f).faults = s.faults := rfl
@[simp] theorem modGrp_refused (s : State) (g : Nat) (f : Group → Group) : (s.modGrp g f).refused = s.refused := rfl
@[simp] theorem modGrp_collab (s : State) (g : Nat) (f : Group → Group) : (s.modGrp g f).collab = s.collab := rfl
@[simp] theorem modGrp_opnd (s : State) (g : Nat) (f : Group → Group) : (s.modGrp g f).opnd = s.opnd := rfl
@[simp] theorem modGrp_resp (s : State) (g : Nat) (f : Group → Group) : (s.modGrp g f).resp = s.resp := rfl
@[simp] theorem modGrp_micro (s : State) (g : Nat) (f : Group → Group) : (s.modGrp g f).micro = s.micro := rfl
@[simp] theorem modGrp_moves (s : State) (g : Nat) (f : Group → Group) : (s.modGrp g f).moves = s.moves := rfl
@[simp] theorem modGrp_free (s : State) (g : Nat) (f : Group → Group) : (s.modGrp g f).free = s.free := rfl
@[simp] theorem modGrp_ch (s : State) (g : Nat) (f : Group → Group) (j : MotorIdx) : (s.modGrp g f).ch j = s.ch j := rfl
@[simp] theorem coefAt_modGrp (s : State) (g : Nat) (f : Group → Group) (b' : BankIdx) (a' : Axis) (m' : MotorIdx) (h' : Nat) :
    coefAt (s.modGrp g f) b' a' m' h' = coefAt s b' a' m' h' := rfl
@[simp] theorem delayAt_modGrp (s : State) (g : Nat) (f : Group → Group) (b' : BankIdx) (a' : Axis) (m' : MotorIdx) (h' : Nat) :
    delayAt (s.modGrp g f) b' a' m' h' = delayAt s b' a' m' h' := rfl

/-! ### push -/

@[simp] theorem push_cfg (s : State) (as : List MainAct) : (s.push as).cfg = s.cfg := rfl
@[simp] theorem push_chan (s : State) (as : List MainAct) : (s.push as).chan = s.chan := rfl
@[simp] theorem push_grp (s : State) (as : List MainAct) : (s.push as).grp = s.grp := rfl
@[simp] theorem push_invalidCount (s : State) (as : List MainAct) : (s.push as).invalidCount = s.invalidCount := rfl
@[simp] theorem push_dbgValue (s : State) (as : List MainAct) : (s.push as).dbgValue = s.dbgValue := rfl
@[simp] theorem push_switchTime (s : State) (as : List MainAct) : (s.push as).switchTime = s.switchTime := rfl
@[simp] theorem push_bank (s : State) (as : List MainAct) : (s.push as).bank = s.bank := rfl
@[simp] theorem push_sched (s : State) (as : List MainAct) : (s.push as).sched = s.sched := rfl
@[simp] theorem push_log (s : State) (as : List MainAct) : (s.push as).log = s.log := rfl
@[simp] theorem push_faults (s : State) (as : List MainAct) : (s.push as).faults = s.faults := rfl
@[simp] theorem push_refused (s : State) (as : List MainAct) : (s.push as).refused = s.refused := rfl
@[simp] theorem push_collab (s : State) (as : List MainAct) : (s.push as).collab = s.collab := rfl
@[simp] theorem push_opnd (s : State) (as : List MainAct) : (s.push as).opnd = s.opnd := rfl
@[simp] theorem push_resp (s : State) (as : List MainAct) : (s.push as).resp = s.resp := rfl
@[simp] theorem push_moves (s : State) (as : List MainAct) : (s.push as).moves = s.moves := rfl
@[simp] theorem push_free (s : State) (as : List MainAct) : (s.push as).free = s.free := rfl
@[simp] theorem push_ch (s : State) (as : List MainAct) (j : MotorIdx) : (s.push as).ch j = s.ch j := rfl
@[simp] theorem coefAt_push (s : State) (as : List MainAct) (b' : BankIdx) (a' : Axis) (m' : MotorIdx) (h' : Nat) :
    coefAt (s.push as) b' a' m' h' = coefAt s b' a' m' h' := rfl
@[simp] theorem delayAt_push (s : State) (as : List MainAct) (b' : BankIdx) (a' : Axis) (m' : MotorIdx) (h' : Nat) :
    delayAt (s.push as) b' a' m' h' = delayAt s b' a' m' h' := rfl
@[simp] theorem findGroup_push (s : State) (as : List MainAct) (k : TimerId) : findGroup (s.push as) k = findGroup s k := rfl

/-! ### respond -/

@[simp] theorem respond_cfg (r : Response) (s : State) : (respond r s).cfg = s.cfg := rfl
@[simp] theorem respond_chan (r : Response) (s : State) : (respond r s).chan = s.chan := rfl
@[simp] theorem respond_grp (r : Response) (s : State) : (respond r s).grp = s.grp := rfl
@[simp] theorem respond_invalidCount (r : Response) (s : State) : (respond r s).invalidCount = s.invalidCount := rfl
@[simp] theorem respond_dbgValue (r : Response) (s : State) : (respond r s).dbgValue = s.dbgValue := rfl
@[simp] theorem respond_switchTime (r : Response) (s : State) : (respond r s).switchTime = s.switchTime := rfl
@[simp] theorem respond_bank (r : Response) (s : State) : (respond r s).bank = s.bank := rfl
@[simp] theorem respond_sched (r : Response) (s : State) : (respond r s).sched = s.sched := rfl
@[simp] theorem respond_log (r : Response) (s : State) : (respond r s).log = s.log := rfl
@[simp] theorem respond_faults (r : Response) (s : State) : (respond r s).faults = s.faults := rfl
@[simp] theorem respond_refused (r : Response) (s : State) : (respond r s).refused = s.refused := rfl
@[simp] theorem respond_collab (r : Response) (s : State) : (respond r s).collab = s.collab := rfl
@[simp] theorem respond_opnd (r : Response) (s : State) : (respond r s).opnd = s.opnd := rfl
@[simp] theorem respond_micro (r : Response) (s : State) : (respond r s).micro = s.micro := rfl
@[simp] theorem respond_moves (r : Response) (s : State) : (respond r s).moves = s.moves := rfl
@[simp] theorem respond_free (r : Response) (s : State) : (respond r s).free = s.free := rfl
@[simp] theorem respond_ch (r : Response) (s : State) (j : MotorIdx) : (respond r s).ch j = s.ch j := rfl
@[simp] theorem coefAt_respond (r : Response) (s : State) (b' : BankIdx) (a' : Axis) (m' : MotorIdx) (h' : Nat) :
    coefAt (respond r s) b' a' m' h' = coefAt s b' a' m' h' := rfl
@[simp] theorem delayAt_respond (r : Response) (s : State) (b' : BankIdx) (a' : Axis) (m' : MotorIdx) (h' : Nat) :
    delayAt (respond r s) b' a' m' h' = delayAt s b' a' m' h' := rfl
@[simp] theorem findGroup_respond (r : Response) (s : State) (k : TimerId) : findGroup (respond r s) k = findGroup s k := rfl

/-! ### withOpnd -/

@[simp] theorem withOpnd_cfg (x : Num) (s : State) : (withOpnd x s).cfg = s.cfg := rfl
@[simp] theorem withOpnd_chan (x : Num) (s : State) : (withOpnd x s).chan = s.chan := rfl
@[simp] theorem withOpnd_grp (x : Num) (s : State) : (withOpnd x s).grp = s.grp := rfl
@[simp] theorem withOpnd_invalidCount (x : Num) (s : State) : (withOpnd x s).invalidCount = s.invalidCount := rfl
@[simp] theorem withOpnd_dbgValue (x : Num) (s : State) : (withOpnd x s).dbgValue = s.dbgValue := rfl
@[simp] theorem withOpnd_switchTime (x : Num) (s : State) : (withOpnd x s).switchTime = s.switchTime := rfl
@[simp] theorem withOpnd_bank (x : Num) (s : State) : (withOpnd x s).bank = s.bank := rfl
@[simp] theorem withOpnd_sched (x : Num) (s : State) : (withOpnd x s).sched = s.sched := rfl
@[simp] theorem withOpnd_log (x : Num) (s : State) : (withOpnd x s).log = s.log := rfl
@[simp] theorem withOpnd_faults (x : Num) (s : State) : (withOpnd x s).faults = s.faults := rfl
@[simp] theorem withOpnd_refused (x : Num) (s : State) : (withOpnd x s).refused = s.refused := rfl
@[simp] theorem withOpnd_collab (x : Num) (s : State) : (withOpnd x s).collab = s.collab := rfl
@[simp] theorem withOpnd_resp (x : Num) (s : State) : (withOpnd x s).resp = s.resp := rfl
@[simp] theorem withOpnd_micro (x : Num) (s : State) : (withOpnd x s).micro = s.micro := rfl
@[simp] theorem withOpnd_moves (x : Num) (s : State) : (withOpnd x s).moves = s.moves := rfl
@[simp] theorem withOpnd_free (x : Num) (s : State) : (withOpnd x s).free = s.free := rfl
@[simp] theorem withOpnd_ch (x : Num) (s : State) (j : MotorIdx) : (withOpnd x s).ch j = s.ch j := rfl
@[simp] theorem coefAt_withOpnd (x : Num) (s : State) (b' : BankIdx) (a' : Axis) (m' : MotorIdx) (h' : Nat) :
    coefAt (withOpnd x s) b' a' m' h' = coefAt s b' a' m' h' := rfl
@[simp] theorem delayAt_withOpnd (x : Num) (s : State) (b' : BankIdx) (a' : Axis) (m' : MotorIdx) (h' : Nat) :
    delayAt (withOpnd x s) b' a' m' h' = delayAt s b' a' m' h' := rfl
@[simp] theorem findGroup_withOpnd (x : Num) (s : State) (k : TimerId) : findGroup (withOpnd x s) k = findGroup s k := rfl

/-! ### startOp -/

@[simp] theorem startOp_cfg (i : Instr) (s : State) : (startOp i s).cfg = s.cfg := rfl
@[simp] theorem startOp_chan (i : Instr) (s : State) : (startOp i s).chan = s.chan := rfl
@[simp] theorem startOp_grp (i : Instr) (s : State) : (startOp i s).grp = s.grp := rfl
@[simp] theorem startOp_invalidCount (i : Instr) (s : State) : (startOp i s).invalidCount = s.invalidCount := rfl
@[simp] theorem startOp_dbgValue (i : Instr) (s : State) : (startOp i s).dbgValue = s.dbgValue := rfl
@[simp] theorem startOp_switchTime (i : Instr) (s : State) : (startOp i s).switchTime = s.switchTime := rfl
@[simp] theorem startOp_bank (i : Instr) (s : State) : (startOp i s).bank = s.bank := rfl
@[simp] theorem startOp_sched (i : Instr) (s : State) : (startOp i s).sched = s.sched := rfl
@[simp] theorem startOp_log (i : Instr) (s : State) : (startOp i s).log = s.log := rfl
@[simp] theorem startOp_faults (i : Instr) (s : State) : (startOp i s).faults = s.faults := rfl
@[simp] theorem startOp_refused (i : Instr) (s : State) : (startOp i s).refused = s.refused := rfl
@[simp] theorem startOp_collab (i : Instr) (s : State) : (startOp i s).collab = s.collab := rfl
@[simp] theorem startOp_opnd (i : Instr) (s : State) : (startOp i s).opnd = s.opnd := rfl
@[simp] theorem startOp_resp (i : Instr) (s : State) : (startOp i s).resp = s.resp := rfl
@[simp] theorem startOp_moves (i : Instr) (s : State) : (startOp i s).moves = s.moves := rfl
@[simp] theorem startOp_free (i : Instr) (s : State) : (startOp i s).free = s.free := rfl
@[simp] theorem startOp_ch (i : Instr) (s : State) (j : MotorIdx) : (startOp i s).ch j = s.ch j := rfl
@[simp] theorem coefAt_startOp (i : Instr) (s : State) (b' : BankIdx) (a' : Axis) (m' : MotorIdx) (h' : Nat) :
    coefAt (startOp i s) b' a' m' h' = coefAt s b' a' m' h' := rfl
@[simp] theorem delayAt_startOp (i : Instr) (s : State) (b' : BankIdx) (a' : Axis) (m' : MotorIdx) (h' : Nat) :
    delayAt (startOp i s) b' a' m' h' = delayAt s b' a' m' h' := rfl
@[simp] theorem findGroup_startOp (i : Instr) (s : State) (k : TimerId) : findGroup (startOp i s) k = findGroup s k := rfl

/-! ### setDirectionOutput -/

@[simp] theorem setDirectionOutput_cfg (i : MotorIdx) (s : State) : (setDirectionOutput i s).cfg = s.cfg := by simp [setDirectionOutput]
@[simp] theorem setDirectionOutput_grp (i : MotorIdx) (s : State) : (setDirectionOutput i s).grp = s.grp := by simp [setDirectionOutput]
@[simp] theorem setDirectionOutput_invalidCount (i : MotorIdx) (s : State) : (setDirectionOutput i s).invalidCount = s.invalidCount := by simp [setDirectionOutput]
@[simp] theorem setDirectionOutput_dbgValue (i : MotorIdx) (s : State) : (setDirectionOutput i s).dbgValue = s.dbgValue := by simp [setDirectionOutput]
@[simp] theorem setDirectionOutput_switchTime (i : MotorIdx) (s : State) : (setDirectionOutput i s).switchTime = s.switchTime := by simp [setDirectionOutput]
@[simp] theorem setDirectionOutput_bank (i : MotorIdx) (s : State) : (setDirectionOutput i s).bank = s.bank := by simp [setDirectionOutput]
@[simp] theorem setDirectionOutput_sched (i : MotorIdx) (s : State) : (setDirectionOutput i s).sched = s.sched := by simp [setDirectionOutput]
@[simp] theorem setDirectionOutput_faults (i : MotorIdx) (s : State) : (setDirectionOutput i s).faults = s.faults := by simp [setDirectionOutput]
@[simp] theorem setDirectionOutput_refused (i : MotorIdx) (s : State) : (setDirectionOutput i s).refused = s.refused := by simp [setDirectionOutput]
@[simp] theorem setDirectionOutput_collab (i : MotorIdx) (s : State) : (setDirectionOutput i s).collab = s.collab := by simp [setDirectionOutput]
@[simp] theorem setDirectionOutput_opnd (i : MotorIdx) (s : State) : (setDirectionOutput i s).opnd = s.opnd := by simp [setDirectionOutput]
@[simp] theorem setDirectionOutput_resp (i : MotorIdx) (s : State) : (setDirectionOutput i s).resp = s.resp := by simp [setDirectionOutput]
@[simp] theorem setDirectionOutput_micro (i : MotorIdx) (s : State) : (setDirectionOutput i s).micro = s.micro := by simp [setDirectionOutput]
@[simp] theorem setDirectionOutput_moves (i : MotorIdx) (s : State) : (setDirectionOutput i s).moves = s.moves := by simp [setDirectionOutput]
@[simp] theorem setDirectionOutput_free (i : MotorIdx) (s : State) : (setDirectionOutput i s).free = s.free := by simp [setDirectionOutput]
@[simp] theorem coefAt_setDirectionOutput (i : MotorIdx) (s : State) (b' : BankIdx) (a' : Axis) (m' : MotorIdx) (h' : Nat) :
    coefAt (setDirectionOutput i s) b' a' m' h' = coefAt s b' a' m' h' := by
  simp only [coefAt, setDirectionOutput_bank]
@[simp] theorem delayAt_setDirectionOutput (i : MotorIdx) (s : State) (b' : BankIdx) (a' : Axis) (m' : MotorIdx) (h' : Nat) :
    delayAt (setDirectionOutput i s) b' a' m' h' = delayAt s b' a' m' h' := by
  simp only [delayAt, setDirectionOutput_bank]
@[simp] theorem findGroup_setDirectionOutput (i : MotorIdx) (s : State) (k : TimerId) : findGroup (setDirectionOutput i s) k = findGroup s k := by
  simp only [findGroup, setDirectionOutput_grp]

/-! ### setDirectionInput -/

@[simp] theorem setDirectionInput_cfg (i : MotorIdx) (t : Timestamp) (s : State) : (setDirectionInput i t s).cfg = s.cfg := by simp [setDirectionInput]
@[simp] theorem setDirectionInput_grp (i : MotorIdx) (t : Timestamp) (s : State) : (setDirectionInput i t s).grp = s.grp := by simp [setDirectionInput]
@[simp] theorem setDirectionInput_invalidCount (i : MotorIdx) (t : Timestamp) (s : State) : (setDirectionInput i t s).invalidCount = s.invalidCount := by simp [setDirectionInput]
@[simp] theorem setDirectionInput_dbgValue (i : MotorIdx) (t : Timestamp) (s : State) : (setDirectionInput i t s).dbgValue = s.dbgValue := by simp [setDirectionInput]
@[simp] theorem setDirectionInput_bank (i : MotorIdx) (t : Timestamp) (s : State) : (setDirectionInput i t s).bank = s.bank := by simp [setDirectionInput]
@[simp] theorem setDirectionInput_sched (i : MotorIdx) (t : Timestamp) (s : State) : (setDirectionInput i t s).sched = s.sched := by simp [setDirectionInput]
@[simp] theorem setDirectionInput_faults (i : MotorIdx) (t : Timestamp) (s : State) : (setDirectionInput i t s).faults = s.faults := by simp [setDirectionInput]
@[simp] theorem setDirectionInput_refused (i : MotorIdx) (t : Timestamp) (s : State) : (setDirectionInput i t s).refused = s.refused := by simp [setDirectionInput]
@[simp] theorem setDirectionInput_collab (i : MotorIdx) (t : Timestamp) (s : State) : (setDirectionInput i t s).collab = s.collab := by simp [setDirectionInput]
@[simp] theorem setDirectionInput_opnd (i : MotorIdx) (t : Timestamp) (s : State) : (setDirectionInput i t s).opnd = s.opnd := by simp [setDirectionInput]
@[simp] theorem setDirectionInput_resp (i : MotorIdx) (t : Timestamp) (s : State) : (setDirectionInput i t s).resp = s.resp := by simp [setDirectionInput]
@[simp] theorem setDirectionInput_micro (i : MotorIdx) (t : Timestamp) (s : State) : (setDirectionInput i t s).micro = s.micro := by simp [setDirectionInput]
@[simp] theorem setDirectionInput_moves (i : MotorIdx) (t : Timestamp) (s : State) : (setDirectionInput i t s).moves = s.moves := by simp [setDirectionInput]
@[simp] theorem setDirectionInput_free (i : MotorIdx) (t : Timestamp) (s : State) : (setDirectionInput i t s).free = s.free := by simp [setDirectionInput]
@[simp] theorem coefAt_setDirectionInput (i : MotorIdx) (t : Timestamp) (s : State) (b' : BankIdx) (a' : Axis) (m' : MotorIdx) (h' : Nat) :
    coefAt (setDirectionInput i t s) b' a' m' h' = coefAt s b' a' m' h' := by
  simp only [coefAt, setDirectionInput_bank]
@[simp] theorem delayAt_setDirectionInput (i : MotorIdx) (t : Timestamp) (s : State) (b' : BankIdx) (a' : Axis) (m' : MotorIdx) (h' : Nat) :
    delayAt (setDirectionInput i t s) b' a' m' h' = delayAt s b' a' m' h' := by
  simp only [delayAt, setDirectionInput_bank]
@[simp] theorem findGroup_setDirectionInput (i : MotorIdx) (t : Timestamp) (s : State) (k : TimerId) : findGroup (setDirectionInput i t s) k = findGroup s k := by
  simp only [findGroup, setDirectionInput_grp]

/-! ### cfgBind -/

@[simp] theorem cfgBind_cfg (i : MotorIdx) (tm : TimerId) (c : HwChannel) (n : Bool) (s : State) : (cfgBind i tm c n s).cfg = s.cfg := rfl
@[simp] theorem cfgBind_grp (i : MotorIdx) (tm : TimerId) (c : HwChannel) (n : Bool) (s : State) : (cfgBind i tm c n s).grp = s.grp := rfl
@[simp] theorem cfgBind_invalidCount (i : MotorIdx) (tm : TimerId) (c : HwChannel) (n : Bool) (s : State) : (cfgBind i tm c n s).invalidCount = s.invalidCount := rfl
@[simp] theorem cfgBind_dbgValue (i : MotorIdx) (tm : TimerId) (c : HwChannel) (n : Bool) (s : State) : (cfgBind i tm c n s).dbgValue = s.dbgValue := rfl
@[simp] theorem cfgBind_switchTime (i : MotorIdx) (tm : TimerId) (c : HwChannel) (n : Bool) (s : State) : (cfgBind i tm c n s).switchTime = s.switchTime := rfl
@[simp] theorem cfgBind_bank (i : MotorIdx) (tm : TimerId) (c : HwChannel) (n : Bool) (s : State) : (cfgBind i tm c n s).bank = s.bank := rfl
@[simp] theorem cfgBind_sched (i : MotorIdx) (tm : TimerId) (c : HwChannel) (n : Bool) (s : State) : (cfgBind i tm c n s).sched = s.sched := rfl
@[simp] theorem cfgBind_log (i : MotorIdx) (tm : TimerId) (c : HwChannel) (n : Bool) (s : State) : (cfgBind i tm c n s).log = s.log := rfl
@[simp] theorem cfgBind_faults (i : MotorIdx) (tm : TimerId) (c : HwChannel) (n : Bool) (s : State) : (cfgBind i tm c n s).faults = s.faults := rfl
@[simp] theorem cfgBind_refused (i : MotorIdx) (tm : TimerId) (c : HwChannel) (n : Bool) (s : State) : (cfgBind i tm c n s).refused = s.refused := rfl
@[simp] theorem cfgBind_collab (i : MotorIdx) (tm : TimerId) (c : HwChannel) (n : Bool) (s : State) : (cfgBind i tm c n s).collab = s.collab := rfl
@[simp] theorem cfgBind_opnd (i : MotorIdx) (tm : TimerId) (c : HwChannel) (n : Bool) (s : State) : (cfgBind i tm c n s).opnd = s.opnd := rfl
@[simp] theorem cfgBind_resp (i : MotorIdx) (tm : TimerId) (c : HwChannel) (n : Bool) (s : State) : (cfgBind i tm c n s).resp = s.resp := rfl
@[simp] theorem cfgBind_micro (i : MotorIdx) (tm : TimerId) (c : HwChannel) (n : Bool) (s : State) : (cfgBind i tm c n s).micro = s.micro := rfl
@[simp] theorem cfgBind_moves (i : MotorIdx) (tm : TimerId) (c : HwChannel) (n : Bool) (s : State) : (cfgBind i tm c n s).moves = s.moves := rfl
@[simp] theorem cfgBind_free (i : MotorIdx) (tm : TimerId) (c : HwChannel) (n : Bool) (s : State) : (cfgBind i tm c n s).free = s.free := rfl
@[simp] theorem coefAt_cfgBind (i : MotorIdx) (tm : TimerId) (c : HwChannel) (n : Bool) (s : State) (b' : BankIdx) (a' : Axis) (m' : MotorIdx) (h' : Nat) :
    coefAt (cfgBind i tm c n s) b' a' m' h' = coefAt s b' a' m' h' := rfl
@[simp] theorem delayAt_cfgBind (i : MotorIdx) (tm : TimerId) (c : HwChannel) (n : Bool) (s : State) (b' : BankIdx) (a' : Axis) (m' : MotorIdx) (h' : Nat) :
    delayAt (cfgBind i tm c n s) b' a' m' h' = delayAt s b' a' m' h' := rfl
@[simp] theorem findGroup_cfgBind (i : MotorIdx) (tm : TimerId) (c : HwChannel) (n : Bool) (s : State) (k : TimerId) : findGroup (cfgBind i tm c n s) k = findGroup s k := rfl

/-! ### cfgFinish -/

@[simp] theorem cfgFinish_cfg (i : MotorIdx) (s : State) : (cfgFinish i s).cfg = s.cfg := rfl
@[simp] theorem cfgFinish_grp (i : MotorIdx) (s : State) : (cfgFinish i s).grp = s.grp := rfl
@[simp] theorem cfgFinish_invalidCount (i : MotorIdx) (s : State) : (cfgFinish i s).invalidCount = s.invalidCount := rfl
@[simp] theorem cfgFinish_dbgValue (i : MotorIdx) (s : State) : (cfgFinish i s).dbgValue = s.dbgValue := rfl
@[simp] theorem cfgFinish_switchTime (i : MotorIdx) (s : State) : (cfgFinish i s).switchTime = s.switchTime := rfl
@[simp] theorem cfgFinish_bank (i : MotorIdx) (s : State) : (cfgFinish i s).bank = s.bank := rfl
@[simp] theorem cfgFinish_sched (i : MotorIdx) (s : State) : (cfgFinish i s).sched = s.sched := rfl
@[simp] theorem cfgFinish_log (i : MotorIdx) (s : State) : (cfgFinish i s).log = s.log := rfl
@[simp] theorem cfgFinish_faults (i : MotorIdx) (s : State) : (cfgFinish i s).faults = s.faults := rfl
@[simp] theorem cfgFinish_refused (i : MotorIdx) (s : State) : (cfgFinish i s).refused = s.refused := rfl
@[simp] theorem cfgFinish_collab (i : MotorIdx) (s : State) : (cfgFinish i s).collab = s.collab := rfl
@[simp] theorem cfgFinish_opnd (i : MotorIdx) (s : State) : (cfgFinish i s).opnd = s.opnd := rfl
@[simp] theorem cfgFinish_resp (i : MotorIdx) (s : State) : (cfgFinish i s).resp = s.resp := rfl
@[simp] theorem cfgFinish_micro (i : MotorIdx) (s : State) : (cfgFinish i s).micro = s.micro := rfl
@[simp] theorem cfgFinish_moves (i : MotorIdx) (s : State) : (cfgFinish i s).moves = s.moves := rfl
@[simp] theorem cfgFinish_free (i : MotorIdx) (s : State) : (cfgFinish i s).free = s.free := rfl
@[simp] theorem coefAt_cfgFinish (i : MotorIdx) (s : State) (b' : BankIdx) (a' : Axis) (m' : MotorIdx) (h' : Nat) :
    coefAt (cfgFinish i s) b' a' m' h' = coefAt s b' a' m' h' := rfl
@[simp] theorem delayAt_cfgFinish (i : MotorIdx) (s : State) (b' : BankIdx) (a' : Axis) (m' : MotorIdx) (h' : Nat) :
    delayAt (cfgFinish i s) b' a' m' h' = delayAt s b' a' m' h' := rfl
@[simp] theorem findGroup_cfgFinish (i : MotorIdx) (s : State) (k : TimerId) : findGroup (cfgFinish i s) k = findGroup s k := rfl

/-! ### noteCapture -/

@[simp] theorem noteCapture_cfg (i : MotorIdx) (s : State) : (noteCapture i s).cfg = s.cfg := by simp [noteCapture]
@[simp] theorem noteCapture_chan (i : MotorIdx) (s : State) : (noteCapture i s).chan = s.chan := by simp [noteCapture]
@[simp] theorem noteCapture_grp (i : MotorIdx) (s : State) : (noteCapture i s).grp = s.grp := by simp [noteCapture]
@[simp] theorem noteCapture_invalidCount (i : MotorIdx) (s : State) : (noteCapture i s).invalidCount = s.invalidCount := by simp [noteCapture]
@[simp] theorem noteCapture_dbgValue (i : MotorIdx) (s : State) : (noteCapture i s).dbgValue = s.dbgValue := by simp [noteCapture]
@[simp] theorem noteCapture_switchTime (i : MotorIdx) (s : State) : (noteCapture i s).switchTime = s.switchTime := by simp [noteCapture]
@[simp] theorem noteCapture_bank (i : MotorIdx) (s : State) : (noteCapture i s).bank = s.bank := by simp [noteCapture]
@[simp] theorem noteCapture_sched (i : MotorIdx) (s : State) : (noteCapture i s).sched = s.sched := by simp [noteCapture]
@[simp] theorem noteCapture_log (i : MotorIdx) (s : State) : (noteCapture i s).log = s.log := by simp [noteCapture]
@[simp] theorem noteCapture_refused (i : MotorIdx) (s : State) : (noteCapture i s).refused = s.refused := by simp [noteCapture]
@[simp] theorem noteCapture_collab (i : MotorIdx) (s : State) : (noteCapture i s).collab = s.collab := by simp [noteCapture]
@[simp] theorem noteCapture_opnd (i : MotorIdx) (s : State) : (noteCapture i s).opnd = s.opnd := by simp [noteCapture]
@[simp] theorem noteCapture_resp (i : MotorIdx) (s : State) : (noteCapture i s).resp = s.resp := by simp [noteCapture]
@[simp] theorem noteCapture_micro (i : MotorIdx) (s : State) : (noteCapture i s).micro = s.micro := by simp [noteCapture]
@[simp] theorem noteCapture_moves (i : MotorIdx) (s : State) : (noteCapture i s).moves = s.moves := by simp [noteCapture]
@[simp] theorem noteCapture_ch (i : MotorIdx) (s : State) (j : MotorIdx) : (noteCapture i s).ch j = s.ch j := by
  simp only [State.ch, noteCapture_chan]
@[simp] theorem coefAt_noteCapture (i : MotorIdx) (s : State) (b' : BankIdx) (a' : Axis) (m' : MotorIdx) (h' : Nat) :
    coefAt (noteCapture i s) b' a' m' h' = coefAt s b' a' m' h' := by
  simp only [coefAt, noteCapture_bank]
@[simp] theorem delayAt_noteCapture (i : MotorIdx) (s : State) (b' : BankIdx) (a' : Axis) (m' : MotorIdx) (h' : Nat) :
    delayAt (noteCapture i s) b' a' m' h' = delayAt s b' a' m' h' := by
  simp only [delayAt, noteCapture_bank]
@[simp] theorem findGroup_noteCapture (i : MotorIdx) (s : State) (k : TimerId) : findGroup (noteCapture i s) k = findGroup s k := by
  simp only [findGroup, noteCapture_grp]

/-! ### clearTelemetry -/

@[simp] theorem clearTelemetry_cfg (i : MotorIdx) (s : State) : (clearTelemetry i s).cfg = s.cfg := rfl
@[simp] theorem clearTelemetry_grp (i : MotorIdx) (s : State) : (clearTelemetry i s).grp = s.grp := rfl
@[simp] theorem clearTelemetry_invalidCount (i : MotorIdx) (s : State) : (clearTelemetry i s).invalidCount = s.invalidCount := rfl
@[simp] theorem clearTelemetry_dbgValue (i : MotorIdx) (s : State) : (clearTelemetry i s).dbgValue = s.dbgValue := rfl
@[simp] theorem clearTelemetry_switchTime (i : MotorIdx) (s : State) : (clearTelemetry i s).switchTime = s.switchTime := rfl
@[simp] theorem clearTelemetry_bank (i : MotorIdx) (s : State) : (clearTelemetry i s).bank = s.bank := rfl
@[simp] theorem clearTelemetry_sched (i : MotorIdx) (s : State) : (clearTelemetry i s).sched = s.sched := rfl
@[simp] theorem clearTelemetry_log (i : MotorIdx) (s : State) : (clearTelemetry i s).log = s.log := rfl
@[simp] theorem clearTelemetry_faults (i : MotorIdx) (s : State) : (clearTelemetry i s).faults = s.faults := rfl
@[simp] theorem clearTelemetry_refused (i : MotorIdx) (s : State) : (clearTelemetry i s).refused = s.refused := rfl
@[simp] theorem clearTelemetry_collab (i : MotorIdx) (s : State) : (clearTelemetry i s).collab = s.collab := rfl
@[simp] theorem clearTelemetry_opnd (i : MotorIdx) (s : State) : (clearTelemetry i s).opnd = s.opnd := rfl
@[simp] theorem clearTelemetry_resp (i : MotorIdx) (s : State) : (clearTelemetry i s).resp = s.resp := rfl
@[simp] theorem clearTelemetry_micro (i : MotorIdx) (s : State) : (clearTelemetry i s).micro = s.micro := rfl
@[simp] theorem clearTelemetry_moves (i : MotorIdx) (s : State) : (clearTelemetry i s).moves = s.moves := rfl
@[simp] theorem clearTelemetry_free (i : MotorIdx) (s : State) : (clearTelemetry i s).free = s.free := rfl
@[simp] theorem coefAt_clearTelemetry (i : MotorIdx) (s : State) (b' : BankIdx) (a' : Axis) (m' : MotorIdx) (h' : Nat) :
    coefAt (clearTelemetry i s) b' a' m' h' = coefAt s b' a' m' h' := rfl
@[simp] theorem delayAt_clearTelemetry (i : MotorIdx) (s : State) (b' : BankIdx) (a' : Axis) (m' : MotorIdx) (h' : Nat) :
    delayAt (clearTelemetry i s) b' a' m' h' = delayAt s b' a' m' h' := rfl
@[simp] theorem findGroup_clearTelemetry (i : MotorIdx) (s : State) (k : TimerId) : findGroup (clearTelemetry i s) k = findGroup s k := rfl

/-! ### recordDecoded -/

@[simp] theorem recordDecoded_cfg (i : MotorIdx) (r : Telemetry) (s : State) : (recordDecoded i r s).cfg = s.cfg := by cases r <;> rfl
@[simp] theorem recordDecoded_grp (i : MotorIdx) (r : Telemetry) (s : State) : (recordDecoded i r s).grp = s.grp := by cases r <;> rfl
@[simp] theorem recordDecoded_switchTime (i : MotorIdx) (r : Telemetry) (s : State) : (recordDecoded i r s).switchTime = s.switchTime := by cases r <;> rfl
@[simp] theorem recordDecoded_bank (i : MotorIdx) (r : Telemetry) (s : State) : (recordDecoded i r s).bank = s.bank := by cases r <;> rfl
@[simp] theorem recordDecoded_sched (i : MotorIdx) (r : Telemetry) (s : State) : (recordDecoded i r s).sched = s.sched := by cases r <;> rfl
@[simp] theorem recordDecoded_faults (i : MotorIdx) (r : Telemetry) (s : State) : (recordDecoded i r s).faults = s.faults := by cases r <;> rfl
@[simp] theorem recordDecoded_refused (i : MotorIdx) (r : Telemetry) (s : State) : (recordDecoded i r s).refused = s.refused := by cases r <;> rfl
@[simp] theorem recordDecoded_collab (i : MotorIdx) (r : Telemetry) (s : State) : (recordDecoded i r s).collab = s.collab := by cases r <;> rfl
@[simp] theorem recordDecoded_opnd (i : MotorIdx) (r : Telemetry) (s : State) : (recordDecoded i r s).opnd = s.opnd := by cases r <;> rfl
@[simp] theorem recordDecoded_resp (i : MotorIdx) (r : Telemetry) (s : State) : (recordDecoded i r s).resp = s.resp := by cases r <;> rfl
@[simp] theorem recordDecoded_micro (i : MotorIdx) (r : Telemetry) (s : State) : (recordDecoded i r s).micro = s.micro := by cases r <;> rfl
@[simp] theorem recordDecoded_moves (i : MotorIdx) (r : Telemetry) (s : State) : (recordDecoded i r s).moves = s.moves := by cases r <;> rfl
@[simp] theorem recordDecoded_free (i : MotorIdx) (r : Telemetry) (s : State) : (recordDecoded i r s).free = s.free := by cases r <;> rfl
@[simp] theorem coefAt_recordDecoded (i : MotorIdx) (r : Telemetry) (s : State) (b' : BankIdx) (a' : Axis) (m' : MotorIdx) (h' : Nat) :
    coefAt (recordDecoded i r s) b' a' m' h' = coefAt s b' a' m' h' := by
  simp only [coefAt, recordDecoded_bank]
@[simp] theorem delayAt_recordDecoded (i : MotorIdx) (r : Telemetry) (s : State) (b' : BankIdx) (a' : Axis) (m' : MotorIdx) (h' : Nat) :
    delayAt (recordDecoded i r s) b' a' m' h' = delayAt s b' a' m' h' := by
  simp only [delayAt, recordDecoded_bank]
@[simp] theorem findGroup_recordDecoded (i : MotorIdx) (r : Telemetry) (s : State) (k : TimerId) : findGroup (recordDecoded i r s) k = findGroup s k := by
  simp only [findGroup, recordDecoded_grp]

/-! ### switchIfWanted -/

@[simp] theorem switchIfWanted_cfg (i : MotorIdx) (f : Bool) (s : State) : (switchIfWanted i f s).cfg = s.cfg := by
  unfold switchIfWanted
  (repeat' split) <;> rfl
@[simp] theorem switchIfWanted_grp (i : MotorIdx) (f : Bool) (s : State) : (switchIfWanted i f s).grp = s.grp := by
  unfold switchIfWanted
  (repeat' split) <;> rfl
@[simp] theorem switchIfWanted_invalidCount (i : MotorIdx) (f : Bool) (s : State) : (switchIfWanted i f s).invalidCount = s.invalidCount := by
  unfold switchIfWanted
  (repeat' split) <;> rfl
@[simp] theorem switchIfWanted_dbgValue (i : MotorIdx) (f : Bool) (s : State) : (switchIfWanted i f s).dbgValue = s.dbgValue := by
  unfold switchIfWanted
  (repeat' split) <;> rfl
@[simp] theorem switchIfWanted_switchTime (i : MotorIdx) (f : Bool) (s : State) : (switchIfWanted i f s).switchTime = s.switchTime := by
  unfold switchIfWanted
  (repeat' split) <;> rfl
@[simp] theorem switchIfWanted_bank (i : MotorIdx) (f : Bool) (s : State) : (switchIfWanted i f s).bank = s.bank := by
  unfold switchIfWanted
  (repeat' split) <;> rfl
@[simp] theorem switchIfWanted_sched (i : MotorIdx) (f : Bool) (s : State) : (switchIfWanted i f s).sched = s.sched := by
  unfold switchIfWanted
  (repeat' split) <;> rfl
@[simp] theorem switchIfWanted_faults (i : MotorIdx) (f : Bool) (s : State) : (switchIfWanted i f s).faults = s.faults := by
  unfold switchIfWanted
  (repeat' split) <;> rfl
@[simp] theorem switchIfWanted_refused (i : MotorIdx) (f : Bool) (s : State) : (switchIfWanted i f s).refused = s.refused := by
  unfold switchIfWanted
  (repeat' split) <;> rfl
@[simp] theorem switchIfWanted_collab (i : MotorIdx) (f : Bool) (s : State) : (switchIfWanted i f s).collab = s.collab := by
  unfold switchIfWanted
  (repeat' split) <;> rfl
@[simp] theorem switchIfWanted_opnd (i : MotorIdx) (f : Bool) (s : State) : (switchIfWanted i f s).opnd = s.opnd := by
  unfold switchIfWanted
  (repeat' split) <;> rfl
@[simp] theorem switchIfWanted_resp (i : MotorIdx) (f : Bool) (s : State) : (switchIfWanted i f s).resp = s.resp := by
  unfold switchIfWanted
  (repeat' split) <;> rfl
@[simp] theorem switchIfWanted_micro (i : MotorIdx) (f : Bool) (s : State) : (switchIfWanted i f s).micro = s.micro := by
  unfold switchIfWanted
  (repeat' split) <;> rfl
@[simp] theorem switchIfWanted_moves (i : MotorIdx) (f : Bool) (s : State) : (switchIfWanted i f s).moves = s.moves := by
  unfold switchIfWanted
  (repeat' split) <;> rfl
@[simp] theorem switchIfWanted_free (i : MotorIdx) (f : Bool) (s : State) : (switchIfWanted i f s).free = s.free := by
  unfold switchIfWanted
  (repeat' split) <;> rfl
@[simp] theorem coefAt_switchIfWanted (i : MotorIdx) (f : Bool) (s : State) (b' : BankIdx) (a' : Axis) (m' : MotorIdx) (h' : Nat) :
    coefAt (switchIfWanted i f s) b' a' m' h' = coefAt s b' a' m' h' := by
  simp only [coefAt, switchIfWanted_bank]
@[simp] theorem delayAt_switchIfWanted (i : MotorIdx) (f : Bool) (s : State) (b' : BankIdx) (a' : Axis) (m' : MotorIdx) (h' : Nat) :
    delayAt (switchIfWanted i f s) b' a' m' h' = delayAt s b' a' m' h' := by
  simp only [delayAt, switchIfWanted_bank]
@[simp] theorem findGroup_switchIfWanted (i : MotorIdx) (f : Bool) (s : State) (k : TimerId) : findGroup (switchIfWanted i f s) k = findGroup s k := by
  simp only [findGroup, switchIfWanted_grp]

/-! ### enableOutput -/

@[simp] theorem enableOutput_cfg (i : MotorIdx) (s : State) : (enableOutput i s).cfg = s.cfg := by
  unfold enableOutput
  (repeat' split) <;> rfl
@[simp] theorem enableOutput_grp (i : MotorIdx) (s : State) : (enableOutput i s).grp = s.grp := by
  unfold enableOutput
  (repeat' split) <;> rfl
@[simp] theorem enableOutput_invalidCount (i : MotorIdx) (s : State) : (enableOutput i s).invalidCount = s.invalidCount := by
  unfold enableOutput
  (repeat' split) <;> rfl
@[simp] theorem enableOutput_dbgValue (i : MotorIdx) (s : State) : (enableOutput i s).dbgValue = s.dbgValue := by
  unfold enableOutput
  (repeat' split) <;> rfl
@[simp] theorem enableOutput_switchTime (i : MotorIdx) (s : State) : (enableOutput i s).switchTime = s.switchTime := by
  unfold enableOutput
  (repeat' split) <;> rfl
@[simp] theorem enableOutput_bank (i : MotorIdx) (s : State) : (enableOutput i s).bank = s.bank := by
  unfold enableOutput
  (repeat' split) <;> rfl
@[simp] theorem enableOutput_sched (i : MotorIdx) (s : State) : (enableOutput i s).sched = s.sched := by
  unfold enableOutput
  (repeat' split) <;> rfl
@[simp] theorem enableOutput_log (i : MotorIdx) (s : State) : (enableOutput i s).log = s.log := by
  unfold enableOutput
  (repeat' split) <;> rfl
@[simp] theorem enableOutput_faults (i : MotorIdx) (s : State) : (enableOutput i s).faults = s.faults := by
  unfold enableOutput
  (repeat' split) <;> rfl
@[simp] theorem enableOutput_refused (i : MotorIdx) (s : State) : (enableOutput i s).refused = s.refused := by
  unfold enableOutput
  (repeat' split) <;> rfl
@[simp] theorem enableOutput_collab (i : MotorIdx) (s : State) : (enableOutput i s).collab = s.collab := by
  unfold enableOutput
  (repeat' split) <;> rfl
@[simp] theorem enableOutput_opnd (i : MotorIdx) (s : State) : (enableOutput i s).opnd = s.opnd := by
  unfold enableOutput
  (repeat' split) <;> rfl
@[simp] theorem enableOutput_resp (i : MotorIdx) (s : State) : (enableOutput i s).resp = s.resp := by
  unfold enableOutput
  (repeat' split) <;> rfl
@[simp] theorem enableOutput_micro (i : MotorIdx) (s : State) : (enableOutput i s).micro = s.micro := by
  unfold enableOutput
  (repeat' split) <;> rfl
@[simp] theorem enableOutput_moves (i : MotorIdx) (s : State) : (enableOutput i s).moves = s.moves := by
  unfold enableOutput
  (repeat' split) <;> rfl
@[simp] theorem enableOutput_free (i : MotorIdx) (s : State) : (enableOutput i s).free = s.free := by
  unfold enableOutput
  (repeat' split) <;> rfl
@[simp] theorem coefAt_enableOutput (i : MotorIdx) (s : State) (b' : BankIdx) (a' : Axis) (m' : MotorIdx) (h' : Nat) :
    coefAt (enableOutput i s) b' a' m' h' = coefAt s b' a' m' h' := by
  simp only [coefAt, enableOutput_bank]
@[simp] theorem delayAt_enableOutput (i : MotorIdx) (s : State) (b' : BankIdx) (a' : Axis) (m' : MotorIdx) (h' : Nat) :
    delayAt (enableOutput i s) b' a' m' h' = delayAt s b' a' m' h' := by
  simp only [delayAt, enableOutput_bank]
@[simp] theorem findGroup_enableOutput (i : MotorIdx) (s : State) (k : TimerId) : findGroup (enableOutput i s) k = findGroup s k := by
  simp only [findGroup, enableOutput_grp]

/-! ### txOperands -/

@[simp] theorem txOperands_cfg (i : MotorIdx) (v : BitVec 16) (tr : Bool) (s : State) : (txOperands i v tr s).cfg = s.cfg := rfl
@[simp] theorem txOperands_grp (i : MotorIdx) (v : BitVec 16) (tr : Bool) (s : State) : (txOperands i v tr s).grp = s.grp := rfl
@[simp] theorem txOperands_invalidCount (i : MotorIdx) (v : BitVec 16) (tr : Bool) (s : State) : (txOperands i v tr s).invalidCount = s.invalidCount := rfl
@[simp] theorem txOperands_dbgValue (i : MotorIdx) (v : BitVec 16) (tr : Bool) (s : State) : (txOperands i v tr s).dbgValue = s.dbgValue := rfl
@[simp] theorem txOperands_switchTime (i : MotorIdx) (v : BitVec 16) (tr : Bool) (s : State) : (txOperands i v tr s).switchTime = s.switchTime := rfl
@[simp] theorem txOperands_bank (i : MotorIdx) (v : BitVec 16) (tr : Bool) (s : State) : (txOperands i v tr s).bank = s.bank := rfl
@[simp] theorem txOperands_sched (i : MotorIdx) (v : BitVec 16) (tr : Bool) (s : State) : (txOperands i v tr s).sched = s.sched := rfl
@[simp] theorem txOperands_log (i : MotorIdx) (v : BitVec 16) (tr : Bool) (s : State) : (txOperands i v tr s).log = s.log := rfl
@[simp] theorem txOperands_faults (i : MotorIdx) (v : BitVec 16) (tr : Bool) (s : State) : (txOperands i v tr s).faults = s.faults := rfl
@[simp] theorem txOperands_refused (i : MotorIdx) (v : BitVec 16) (tr : Bool) (s : State) : (txOperands i v tr s).refused = s.refused := rfl
@[simp] theorem txOperands_collab (i : MotorIdx) (v : BitVec 16) (tr : Bool) (s : State) : (txOperands i v tr s).collab = s.collab := rfl
@[simp] theorem txOperands_opnd (i : MotorIdx) (v : BitVec 16) (tr : Bool) (s : State) : (txOperands i v tr s).opnd = s.opnd := rfl
@[simp] theorem txOperands_resp (i : MotorIdx) (v : BitVec 16) (tr : Bool) (s : State) : (txOperands i v tr s).resp = s.resp := rfl
@[simp] theorem txOperands_micro (i : MotorIdx) (v : BitVec 16) (tr : Bool) (s : State) : (txOperands i v tr s).micro = s.micro := rfl
@[simp] theorem txOperands_moves (i : MotorIdx) (v : BitVec 16) (tr : Bool) (s : State) : (txOperands i v tr s).moves = s.moves := rfl
@[simp] theorem txOperands_free (i : MotorIdx) (v : BitVec 16) (tr : Bool) (s : State) : (txOperands i v tr s).free = s.free := rfl
@[simp] theorem coefAt_txOperands (i : MotorIdx) (v : BitVec 16) (tr : Bool) (s : State) (b' : BankIdx) (a' : Axis) (m' : MotorIdx) (h' : Nat) :
    coefAt (txOperands i v tr s) b' a' m' h' = coefAt s b' a' m' h' := rfl
@[simp] theorem delayAt_txOperands (i : MotorIdx) (v : BitVec 16) (tr : Bool) (s : State) (b' : BankIdx) (a' : Axis) (m' : MotorIdx) (h' : Nat) :
    delayAt (txOperands i v tr s) b' a' m' h' = delayAt s b' a' m' h' := rfl
@[simp] theorem findGroup_txOperands (i : MotorIdx) (v : BitVec 16) (tr : Bool) (s : State) (k : TimerId) : findGroup (txOperands i v tr s) k = findGroup s k := rfl

/-! ### txCommand -/

@[simp] theorem txCommand_cfg (i : MotorIdx) (s : State) : (txCommand i s).cfg = s.cfg := by
  unfold txCommand
  (repeat' split) <;> rfl
@[simp] theorem txCommand_grp (i : MotorIdx) (s : State) : (txCommand i s).grp = s.grp := by
  unfold txCommand
  (repeat' split) <;> rfl
@[simp] theorem txCommand_invalidCount (i : MotorIdx) (s : State) : (txCommand i s).invalidCount = s.invalidCount := by
  unfold txCommand
  (repeat' split) <;> rfl
@[simp] theorem txCommand_dbgValue (i : MotorIdx) (s : State) : (txCommand i s).dbgValue = s.dbgValue := by
  unfold txCommand
  (repeat' split) <;> rfl
@[simp] theorem txCommand_switchTime (i : MotorIdx) (s : State) : (txCommand i s).switchTime = s.switchTime := by
  unfold txCommand
  (repeat' split) <;> rfl
@[simp] theorem txCommand_bank (i : MotorIdx) (s : State) : (txCommand i s).bank = s.bank := by
  unfold txCommand
  (repeat' split) <;> rfl
@[simp] theorem txCommand_sched (i : MotorIdx) (s : State) : (txCommand i s).sched = s.sched := by
  unfold txCommand
  (repeat' split) <;> rfl
@[simp] theorem txCommand_log (i : MotorIdx) (s : State) : (txCommand i s).log = s.log := by
  unfold txCommand
  (repeat' split) <;> rfl
@[simp] theorem txCommand_faults (i : MotorIdx) (s : State) : (txCommand i s).faults = s.faults := by
  unfold txCommand
  (repeat' split) <;> rfl
@[simp] theorem txCommand_refused (i : MotorIdx) (s : State) : (txCommand i s).refused = s.refused := by
  unfold txCommand
  (repeat' split) <;> rfl
@[simp] theorem txCommand_collab (i : MotorIdx) (s : State) : (txCommand i s).collab = s.collab := by
  unfold txCommand
  (repeat' split) <;> rfl
@[simp] theorem txCommand_opnd (i : MotorIdx) (s : State) : (txCommand i s).opnd = s.opnd := by
  unfold txCommand
  (repeat' split) <;> rfl
@[simp] theorem txCommand_resp (i : MotorIdx) (s : State) : (txCommand i s).resp = s.resp := by
  unfold txCommand
  (repeat' split) <;> rfl
@[simp] theorem txCommand_micro (i : MotorIdx) (s : State) : (txCommand i s).micro = s.micro := by
  unfold txCommand
  (repeat' split) <;> rfl
@[simp] theorem txCommand_moves (i : MotorIdx) (s : State) : (txCommand i s).moves = s.moves := by
  unfold txCommand
  (repeat' split) <;> rfl
@[simp] theorem txCommand_free (i : MotorIdx) (s : State) : (txCommand i s).free = s.free := by
  unfold txCommand
  (repeat' split) <;> rfl
@[simp] theorem coefAt_txCommand (i : MotorIdx) (s : State) (b' : BankIdx) (a' : Axis) (m' : MotorIdx) (h' : Nat) :
    coefAt (txCommand i s) b' a' m' h' = coefAt s b' a' m' h' := by
  simp only [coefAt, txCommand_bank]
@[simp] theorem delayAt_txCommand (i : MotorIdx) (s : State) (b' : BankIdx) (a' : Axis) (m' : MotorIdx) (h' : Nat) :
    delayAt (txCommand i s) b' a' m' h' = delayAt s b' a' m' h' := by
  simp only [delayAt, txCommand_bank]
@[simp] theorem findGroup_txCommand (i : MotorIdx) (s : State) (k : TimerId) : findGroup (txCommand i s) k = findGroup s k := by
  simp only [findGroup, txCommand_grp]

/-! ### txClearRequest -/

@[simp] theorem txClearRequest_cfg (i : MotorIdx) (s : State) : (txClearRequest i s).cfg = s.cfg := rfl
@[simp] theorem txClearRequest_grp (i : MotorIdx) (s : State) : (txClearRequest i s).grp = s.grp := rfl
@[simp] theorem txClearRequest_invalidCount (i : MotorIdx) (s : State) : (txClearRequest i s).invalidCount = s.invalidCount := rfl
@[simp] theorem txClearRequest_dbgValue (i : MotorIdx) (s : State) : (txClearRequest i s).dbgValue = s.dbgValue := rfl
@[simp] theorem txClearRequest_switchTime (i : MotorIdx) (s : State) : (txClearRequest i s).switchTime = s.switchTime := rfl
@[simp] theorem txClearRequest_bank (i : MotorIdx) (s : State) : (txClearRequest i s).bank = s.bank := rfl
@[simp] theorem txClearRequest_sched (i : MotorIdx) (s : State) : (txClearRequest i s).sched = s.sched := rfl
@[simp] theorem txClearRequest_log (i : MotorIdx) (s : State) : (txClearRequest i s).log = s.log := rfl
@[simp] theorem txClearRequest_faults (i : MotorIdx) (s : State) : (txClearRequest i s).faults = s.faults := rfl
@[simp] theorem txClearRequest_refused (i : MotorIdx) (s : State) : (txClearRequest i s).refused = s.refused := rfl
@[simp] theorem txClearRequest_collab (i : MotorIdx) (s : State) : (txClearRequest i s).collab = s.collab := rfl
@[simp] theorem txClearRequest_opnd (i : MotorIdx) (s : State) : (txClearRequest i s).opnd = s.opnd := rfl
@[simp] theorem txClearRequest_resp (i : MotorIdx) (s : State) : (txClearRequest i s).resp = s.resp := rfl
@[simp] theorem txClearRequest_micro (i : MotorIdx) (s : State) : (txClearRequest i s).micro = s.micro := rfl
@[simp] theorem txClearRequest_moves (i : MotorIdx) (s : State) : (txClearRequest i s).moves = s.moves := rfl
@[simp] theorem txClearRequest_free (i : MotorIdx) (s : State) : (txClearRequest i s).free = s.free := rfl
@[simp] theorem coefAt_txClearRequest (i : MotorIdx) (s : State) (b' : BankIdx) (a' : Axis) (m' : MotorIdx) (h' : Nat) :
    coefAt (txClearRequest i s) b' a' m' h' = coefAt s b' a' m' h' := rfl
@[simp] theorem delayAt_txClearRequest (i : MotorIdx) (s : State) (b' : BankIdx) (a' : Axis) (m' : MotorIdx) (h' : Nat) :
    delayAt (txClearRequest i s) b' a' m' h' = delayAt s b' a' m' h' := rfl
@[simp] theorem findGroup_txClearRequest (i : MotorIdx) (s : State) (k : TimerId) : findGroup (txClearRequest i s) k = findGroup s k := rfl

/-! ### txLane -/

@[simp] theorem txLane_cfg (i : MotorIdx) (fr : List Duty) (s : State) : (txLane i fr s).cfg = s.cfg := by
  unfold txLane
  (repeat' split) <;> rfl
@[simp] theorem txLane_chan (i : MotorIdx) (fr : List Duty) (s : State) : (txLane i fr s).chan = s.chan := by
  unfold txLane
  (repeat' split) <;> rfl
@[simp] theorem txLane_invalidCount (i : MotorIdx) (fr : List Duty) (s : State) : (txLane i fr s).invalidCount = s.invalidCount := by
  unfold txLane
  (repeat' split) <;> rfl
@[simp] theorem txLane_dbgValue (i : MotorIdx) (fr : List Duty) (s : State) : (txLane i fr s).dbgValue = s.dbgValue := by
  unfold txLane
  (repeat' split) <;> rfl
@[simp] theorem txLane_switchTime (i : MotorIdx) (fr : List Duty) (s : State) : (txLane i fr s).switchTime = s.switchTime := by
  unfold txLane
  (repeat' split) <;> rfl
@[simp] theorem txLane_bank (i : MotorIdx) (fr : List Duty) (s : State) : (txLane i fr s).bank = s.bank := by
  unfold txLane
  (repeat' split) <;> rfl
@[simp] theorem txLane_sched (i : MotorIdx) (fr : List Duty) (s : State) : (txLane i fr s).sched = s.sched := by
  unfold txLane
  (repeat' split) <;> rfl
@[simp] theorem txLane_log (i : MotorIdx) (fr : List Duty) (s : State) : (txLane i fr s).log = s.log := by
  unfold txLane
  (repeat' split) <;> rfl
@[simp] theorem txLane_faults (i : MotorIdx) (fr : List Duty) (s : State) : (txLane i fr s).faults = s.faults := by
  unfold txLane
  (repeat' split) <;> rfl
@[simp] theorem txLane_refused (i : MotorIdx) (fr : List Duty) (s : State) : (txLane i fr s).refused = s.refused := by
  unfold txLane
  (repeat' split) <;> rfl
@[simp] theorem txLane_collab (i : MotorIdx) (fr : List Duty) (s : State) : (txLane i fr s).collab = s.collab := by
  unfold txLane
  (repeat' split) <;> rfl
@[simp] theorem txLane_opnd (i : MotorIdx) (fr : List Duty) (s : State) : (txLane i fr s).opnd = s.opnd := by
  unfold txLane
  (repeat' split) <;> rfl
@[simp] theorem txLane_resp (i : MotorIdx) (fr : List Duty) (s : State) : (txLane i fr s).resp = s.resp := by
  unfold txLane
  (repeat' split) <;> rfl
@[simp] theorem txLane_micro (i : MotorIdx) (fr : List Duty) (s : State) : (txLane i fr s).micro = s.micro := by
  unfold txLane
  (repeat' split) <;> rfl
@[simp] theorem txLane_moves (i : MotorIdx) (fr : List Duty) (s : State) : (txLane i fr s).moves = s.moves := by
  unfold txLane
  (repeat' split) <;> rfl
@[simp] theorem txLane_free (i : MotorIdx) (fr : List Duty) (s : State) : (txLane i fr s).free = s.free := by
  unfold txLane
  (repeat' split) <;> rfl
@[simp] theorem txLane_ch (i : MotorIdx) (fr : List Duty) (s : State) (j : MotorIdx) : (txLane i fr s).ch j = s.ch j := by
  simp only [State.ch, txLane_chan]
@[simp] theorem coefAt_txLane (i : MotorIdx) (fr : List Duty) (s : State) (b' : BankIdx) (a' : Axis) (m' : MotorIdx) (h' : Nat) :
    coefAt (txLane i fr s) b' a' m' h' = coefAt s b' a' m' h' := by
  simp only [coefAt, txLane_bank]
@[simp] theorem delayAt_txLane (i : MotorIdx) (fr : List Duty) (s : State) (b' : BankIdx) (a' : Axis) (m' : MotorIdx) (h' : Nat) :
    delayAt (txLane i fr s) b' a' m' h' = delayAt s b' a' m' h' := by
  simp only [delayAt, txLane_bank]

/-! ### txFrame -/

@[simp] theorem txFrame_cfg (i : MotorIdx) (fr : List Duty) (s : State) : (txFrame i fr s).cfg = s.cfg := by
  unfold txFrame
  split <;> simp
@[simp] theorem txFrame_invalidCount (i : MotorIdx) (fr : List Duty) (s : State) : (txFrame i fr s).invalidCount = s.invalidCount := by
  unfold txFrame
  split <;> simp
@[simp] theorem txFrame_dbgValue (i : MotorIdx) (fr : List Duty) (s : State) : (txFrame i fr s).dbgValue = s.dbgValue := by
  unfold txFrame
  split <;> simp
@[simp] theorem txFrame_switchTime (i : MotorIdx) (fr : List Duty) (s : State) : (txFrame i fr s).switchTime = s.switchTime := by
  unfold txFrame
  split <;> simp
@[simp] theorem txFrame_bank (i : MotorIdx) (fr : List Duty) (s : State) : (txFrame i fr s).bank = s.bank := by
  unfold txFrame
  split <;> simp
@[simp] theorem txFrame_sched (i : MotorIdx) (fr : List Duty) (s : State) : (txFrame i fr s).sched = s.sched := by
  unfold txFrame
  split <;> simp
@[simp] theorem txFrame_log (i : MotorIdx) (fr : List Duty) (s : State) : (txFrame i fr s).log = s.log := by
  unfold txFrame
  split <;> simp
@[simp] theorem txFrame_faults (i : MotorIdx) (fr : List Duty) (s : State) : (txFrame i fr s).faults = s.faults := by
  unfold txFrame
  split <;> simp
@[simp] theorem txFrame_refused (i : MotorIdx) (fr : List Duty) (s : State) : (txFrame i fr s).refused = s.refused := by
  unfold txFrame
  split <;> simp
@[simp] theorem txFrame_collab (i : MotorIdx) (fr : List Duty) (s : State) : (txFrame i fr s).collab = s.collab := by
  unfold txFrame
  split <;> simp
@[simp] theorem txFrame_opnd (i : MotorIdx) (fr : List Duty) (s : State) : (txFrame i fr s).opnd = s.opnd := by
  unfold txFrame
  split <;> simp
@[simp] theorem txFrame_resp (i : MotorIdx) (fr : List Duty) (s : State) : (txFrame i fr s).resp = s.resp := by
  unfold txFrame
  split <;> simp
@[simp] theorem txFrame_micro (i : MotorIdx) (fr : List Duty) (s : State) : (txFrame i fr s).micro = s.micro := by
  unfold txFrame
  split <;> simp
@[simp] theorem txFrame_moves (i : MotorIdx) (fr : List Duty) (s : State) : (txFrame i fr s).moves = s.moves := by
  unfold txFrame
  split <;> simp
@[simp] theorem txFrame_free (i : MotorIdx) (fr : List Duty) (s : State) : (txFrame i fr s).free = s.free := by
  unfold txFrame
  split <;> simp
@[simp] theorem coefAt_txFrame (i : MotorIdx) (fr : List Duty) (s : State) (b' : BankIdx) (a' : Axis) (m' : MotorIdx) (h' : Nat) :
    coefAt (txFrame i fr s) b' a' m' h' = coefAt s b' a' m' h' := by
  simp only [coefAt, txFrame_bank]
@[simp] theorem delayAt_txFrame (i : MotorIdx) (fr : List Duty) (s : State) (b' : BankIdx) (a' : Axis) (m' : MotorIdx) (h' : Nat) :
    delayAt (txFrame i fr s) b' a' m' h' = delayAt s b' a' m' h' := by
  simp only [delayAt, txFrame_bank]

/-! ### txArm -/

@[simp] theorem txArm_cfg (i : MotorIdx) (n : Nat) (s : State) : (txArm i n s).cfg = s.cfg := by
  unfold txArm
  (repeat' split) <;> rfl
@[simp] theorem txArm_invalidCount (i : MotorIdx) (n : Nat) (s : State) : (txArm i n s).invalidCount = s.invalidCount := by
  unfold txArm
  (repeat' split) <;> rfl
@[simp] theorem txArm_dbgValue (i : MotorIdx) (n : Nat) (s : State) : (txArm i n s).dbgValue = s.dbgValue := by
  unfold txArm
  (repeat' split) <;> rfl
@[simp] theorem txArm_switchTime (i : MotorIdx) (n : Nat) (s : State) : (txArm i n s).switchTime = s.switchTime := by
  unfold txArm
  (repeat' split) <;> rfl
@[simp] theorem txArm_bank (i : MotorIdx) (n : Nat) (s : State) : (txArm i n s).bank = s.bank := by
  unfold txArm
  (repeat' split) <;> rfl
@[simp] theorem txArm_sched (i : MotorIdx) (n : Nat) (s : State) : (txArm i n s).sched = s.sched := by
  unfold txArm
  (repeat' split) <;> rfl
@[simp] theorem txArm_log (i : MotorIdx) (n : Nat) (s : State) : (txArm i n s).log = s.log := by
  unfold txArm
  (repeat' split) <;> rfl
@[simp] theorem txArm_faults (i : MotorIdx) (n : Nat) (s : State) : (txArm i n s).faults = s.faults := by
  unfold txArm
  (repeat' split) <;> rfl
@[simp] theorem txArm_refused (i : MotorIdx) (n : Nat) (s : State) : (txArm i n s).refused = s.refused := by
  unfold txArm
  (repeat' split) <;> rfl
@[simp] theorem txArm_collab (i : MotorIdx) (n : Nat) (s : State) : (txArm i n s).collab = s.collab := by
  unfold txArm
  (repeat' split) <;> rfl
@[simp] theorem txArm_opnd (i : MotorIdx) (n : Nat) (s : State) : (txArm i n s).opnd = s.opnd := by
  unfold txArm
  (repeat' split) <;> rfl
@[simp] theorem txArm_resp (i : MotorIdx) (n : Nat) (s : State) : (txArm i n s).resp = s.resp := by
  unfold txArm
  (repeat' split) <;> rfl
@[simp] theorem txArm_micro (i : MotorIdx) (n : Nat) (s : State) : (txArm i n s).micro = s.micro := by
  unfold txArm
  (repeat' split) <;> rfl
@[simp] theorem txArm_moves (i : MotorIdx) (n : Nat) (s : State) : (txArm i n s).moves = s.moves := by
  unfold txArm
  (repeat' split) <;> rfl
@[simp] theorem txArm_free (i : MotorIdx) (n : Nat) (s : State) : (txArm i n s).free = s.free := by
  unfold txArm
  (repeat' split) <;> rfl
@[simp] theorem coefAt_txArm (i : MotorIdx) (n : Nat) (s : State) (b' : BankIdx) (a' : Axis) (m' : MotorIdx) (h' : Nat) :
    coefAt (txArm i n s) b' a' m' h' = coefAt s b' a' m' h' := by
  simp only [coefAt, txArm_bank]
@[simp] theorem delayAt_txArm (i : MotorIdx) (n : Nat) (s : State) (b' : BankIdx) (a' : Axis) (m' : MotorIdx) (h' : Nat) :
    delayAt (txArm i n s) b' a' m' h' = delayAt s b' a' m' h' := by
  simp only [delayAt, txArm_bank]

/-! ### txSource -/

@[simp] theorem txSource_cfg (i : MotorIdx) (s : State) : (txSource i s).cfg = s.cfg := by
  unfold txSource
  (repeat' split) <;> rfl
@[simp] theorem txSource_chan (i : MotorIdx) (s : State) : (txSource i s).chan = s.chan := by
  unfold txSource
  (repeat' split) <;> rfl
@[simp] theorem txSource_invalidCount (i : MotorIdx) (s : State) : (txSource i s).invalidCount = s.invalidCount := by
  unfold txSource
  (repeat' split) <;> rfl
@[simp] theorem txSource_dbgValue (i : MotorIdx) (s : State) : (txSource i s).dbgValue = s.dbgValue := by
  unfold txSource
  (repeat' split) <;> rfl
@[simp] theorem txSource_switchTime (i : MotorIdx) (s : State) : (txSource i s).switchTime = s.switchTime := by
  unfold txSource
  (repeat' split) <;> rfl
@[simp] theorem txSource_bank (i : MotorIdx) (s : State) : (txSource i s).bank = s.bank := by
  unfold txSource
  (repeat' split) <;> rfl
@[simp] theorem txSource_sched (i : MotorIdx) (s : State) : (txSource i s).sched = s.sched := by
  unfold txSource
  (repeat' split) <;> rfl
@[simp] theorem txSource_log (i : MotorIdx) (s : State) : (txSource i s).log = s.log := by
  unfold txSource
  (repeat' split) <;> rfl
@[simp] theorem txSource_faults (i : MotorIdx) (s : State) : (txSource i s).faults = s.faults := by
  unfold txSource
  (repeat' split) <;> rfl
@[simp] theorem txSource_refused (i : MotorIdx) (s : State) : (txSource i s).refused = s.refused := by
  unfold txSource
  (repeat' split) <;> rfl
@[simp] theorem txSource_collab (i : MotorIdx) (s : State) : (txSource i s).collab = s.collab := by
  unfold txSource
  (repeat' split) <;> rfl
@[simp] theorem txSource_opnd (i : MotorIdx) (s : State) : (txSource i s).opnd = s.opnd := by
  unfold txSource
  (repeat' split) <;> rfl
@[simp] theorem txSource_resp (i : MotorIdx) (s : State) : (txSource i s).resp = s.resp := by
  unfold txSource
  (repeat' split) <;> rfl
@[simp] theorem txSource_micro (i : MotorIdx) (s : State) : (txSource i s).micro = s.micro := by
  unfold txSource
  (repeat' split) <;> rfl
@[simp] theorem txSource_moves (i : MotorIdx) (s : State) : (txSource i s).moves = s.moves := by
  unfold txSource
  (repeat' split) <;> rfl
@[simp] theorem txSource_free (i : MotorIdx) (s : State) : (txSource i s).free = s.free := by
  unfold txSource
  (repeat' split) <;> rfl
@[simp] theorem txSource_ch (i : MotorIdx) (s : State) (j : MotorIdx) : (txSource i s).ch j = s.ch j := by
  simp only [State.ch, txSource_chan]
@[simp] theorem coefAt_txSource (i : MotorIdx) (s : State) (b' : BankIdx) (a' : Axis) (m' : MotorIdx) (h' : Nat) :
    coefAt (txSource i s) b' a' m' h' = coefAt s b' a' m' h' := by
  simp only [coefAt, txSource_bank]
@[simp] theorem delayAt_txSource (i : MotorIdx) (s : State) (b' : BankIdx) (a' : Axis) (m' : MotorIdx) (h' : Nat) :
    delayAt (txSource i s) b' a' m' h' = delayAt s b' a' m' h' := by
  simp only [delayAt, txSource_bank]

/-! ### goReset -/

@[simp] theorem goReset_cfg (g : Nat) (s : State) : (goReset g s).cfg = s.cfg := by
  unfold goReset
  (repeat' split) <;> rfl
@[simp] theorem goReset_chan (g : Nat) (s : State) : (goReset g s).chan = s.chan := by
  unfold goReset
  (repeat' split) <;> rfl
@[simp] theorem goReset_invalidCount (g : Nat) (s : State) : (goReset g s).invalidCount = s.invalidCount := by
  unfold goReset
  (repeat' split) <;> rfl
@[simp] theorem goReset_dbgValue (g : Nat) (s : State) : (goReset g s).dbgValue = s.dbgValue := by
  unfold goReset
  (repeat' split) <;> rfl
@[simp] theorem goReset_switchTime (g : Nat) (s : State) : (goReset g s).switchTime = s.switchTime := by
  unfold goReset
  (repeat' split) <;> rfl
@[simp] theorem goReset_bank (g : Nat) (s : State) : (goReset g s).bank = s.bank := by
  unfold goReset
  (repeat' split) <;> rfl
@[simp] theorem goReset_sched (g : Nat) (s : State) : (goReset g s).sched = s.sched := by
  unfold goReset
  (repeat' split) <;> rfl
@[simp] theorem goReset_faults (g : Nat) (s : State) : (goReset g s).faults = s.faults := by
  unfold goReset
  (repeat' split) <;> rfl
@[simp] theorem goReset_refused (g : Nat) (s : State) : (goReset g s).refused = s.refused := by
  unfold goReset
  (repeat' split) <;> rfl
@[simp] theorem goReset_collab (g : Nat) (s : State) : (goReset g s).collab = s.collab := by
  unfold goReset
  (repeat' split) <;> rfl
@[simp] theorem goReset_opnd (g : Nat) (s : State) : (goReset g s).opnd = s.opnd := by
  unfold goReset
  (repeat' split) <;> rfl
@[simp] theorem goReset_resp (g : Nat) (s : State) : (goReset g s).resp = s.resp := by
  unfold goReset
  (repeat' split) <;> rfl
@[simp] theorem goReset_micro (g : Nat) (s : State) : (goReset g s).micro = s.micro := by
  unfold goReset
  (repeat' split) <;> rfl
@[simp] theorem goReset_moves (g : Nat) (s : State) : (goReset g s).moves = s.moves := by
  unfold goReset
  (repeat' split) <;> rfl
@[simp] theorem goReset_free (g : Nat) (s : State) : (goReset g s).free = s.free := by
  unfold goReset
  (repeat' split) <;> rfl
@[simp] theorem goReset_ch (g : Nat) (s : State) (j : MotorIdx) : (goReset g s).ch j = s.ch j := by
  simp only [State.ch, goReset_chan]
@[simp] theorem coefAt_goReset (g : Nat) (s : State) (b' : BankIdx) (a' : Axis) (m' : MotorIdx) (h' : Nat) :
    coefAt (goReset g s) b' a' m' h' = coefAt s b' a' m' h' := by
  simp only [coefAt, goReset_bank]
@[simp] theorem delayAt_goReset (g : Nat) (s : State) (b' : BankIdx) (a' : Axis) (m' : MotorIdx) (h' : Nat) :
    delayAt (goReset g s) b' a' m' h' = delayAt s b' a' m' h' := by
  simp only [delayAt, goReset_bank]

/-! ### goEnable -/

@[simp] theorem goEnable_cfg (g : Nat) (s : State) : (goEnable g s).cfg = s.cfg := by
  unfold goEnable
  split
  · dsimp only; split <;> simp
  · rfl
@[simp] theorem goEnable_invalidCount (g : Nat) (s : State) : (goEnable g s).invalidCount = s.invalidCount := by
  unfold goEnable
  split
  · dsimp only; split <;> simp
  · rfl
@[simp] theorem goEnable_dbgValue (g : Nat) (s : State) : (goEnable g s).dbgValue = s.dbgValue := by
  unfold goEnable
  split
  · dsimp only; split <;> simp
  · rfl
@[simp] theorem goEnable_switchTime (g : Nat) (s : State) : (goEnable g s).switchTime = s.switchTime := by
  unfold goEnable
  split
  · dsimp only; split <;> simp
  · rfl
@[simp] theorem goEnable_bank (g : Nat) (s : State) : (goEnable g s).bank = s.bank := by
  unfold goEnable
  split
  · dsimp only; split <;> simp
  · rfl
@[simp] theorem goEnable_sched (g : Nat) (s : State) : (goEnable g s).sched = s.sched := by
  unfold goEnable
  split
  · dsimp only; split <;> simp
  · rfl
@[simp] theorem goEnable_faults (g : Nat) (s : State) : (goEnable g s).faults = s.faults := by
  unfold goEnable
  split
  · dsimp only; split <;> simp
  · rfl
@[simp] theorem goEnable_refused (g : Nat) (s : State) : (goEnable g s).refused = s.refused := by
  unfold goEnable
  split
  · dsimp only; split <;> simp
  · rfl
@[simp] theorem goEnable_collab (g : Nat) (s : State) : (goEnable g s).collab = s.collab := by
  unfold goEnable
  split
  · dsimp only; split <;> simp
  · rfl
@[simp] theorem goEnable_opnd (g : Nat) (s : State) : (goEnable g s).opnd = s.opnd := by
  unfold goEnable
  split
  · dsimp only; split <;> simp
  · rfl
@[simp] theorem goEnable_resp (g : Nat) (s : State) : (goEnable g s).resp = s.resp := by
  unfold goEnable
  split
  · dsimp only; split <;> simp
  · rfl
@[simp] theorem goEnable_micro (g : Nat) (s : State) : (goEnable g s).micro = s.micro := by
  unfold goEnable
  split
  · dsimp only; split <;> simp
  · rfl
@[simp] theorem goEnable_moves (g : Nat) (s : State) : (goEnable g s).moves = s.moves := by
  unfold goEnable
  split
  · dsimp only; split <;> simp
  · rfl
@[simp] theorem goEnable_free (g : Nat) (s : State) : (goEnable g s).free = s.free := by
  unfold goEnable
  split
  · dsimp only; split <;> simp
  · rfl
@[simp] theorem coefAt_goEnable (g : Nat) (s : State) (b' : BankIdx) (a' : Axis) (m' : MotorIdx) (h' : Nat) :
    coefAt (goEnable g s) b' a' m' h' = coefAt s b' a' m' h' := by
  simp only [coefAt, goEnable_bank]
@[simp] theorem delayAt_goEnable (g : Nat) (s : State) (b' : BankIdx) (a' : Axis) (m' : MotorIdx) (h' : Nat) :
    delayAt (goEnable g s) b' a' m' h' = delayAt s b' a' m' h' := by
  simp only [delayAt, goEnable_bank]

/-! ### goClear -/

@[simp] theorem goClear_cfg (g : Nat) (s : State) : (goClear g s).cfg = s.cfg := rfl
@[simp] theorem goClear_chan (g : Nat) (s : State) : (goClear g s).chan = s.chan := rfl
@[simp] theorem goClear_invalidCount (g : Nat) (s : State) : (goClear g s).invalidCount = s.invalidCount := rfl
@[simp] theorem goClear_dbgValue (g : Nat) (s : State) : (goClear g s).dbgValue = s.dbgValue := rfl
@[simp] theorem goClear_switchTime (g : Nat) (s : State) : (goClear g s).switchTime = s.switchTime := rfl
@[simp] theorem goClear_bank (g : Nat) (s : State) : (goClear g s).bank = s.bank := rfl
@[simp] theorem goClear_sched (g : Nat) (s : State) : (goClear g s).sched = s.sched := rfl
@[simp] theorem goClear_log (g : Nat) (s : State) : (goClear g s).log = s.log := rfl
@[simp] theorem goClear_faults (g : Nat) (s : State) : (goClear g s).faults = s.faults := rfl
@[simp] theorem goClear_refused (g : Nat) (s : State) : (goClear g s).refused = s.refused := rfl
@[simp] theorem goClear_collab (g : Nat) (s : State) : (goClear g s).collab = s.collab := rfl
@[simp] theorem goClear_opnd (g : Nat) (s : State) : (goClear g s).opnd = s.opnd := rfl
@[simp] theorem goClear_resp (g : Nat) (s : State) : (goClear g s).resp = s.resp := rfl
@[simp] theorem goClear_micro (g : Nat) (s : State) : (goClear g s).micro = s.micro := rfl
@[simp] theorem goClear_moves (g : Nat) (s : State) : (goClear g s).moves = s.moves := rfl
@[simp] theorem goClear_free (g : Nat) (s : State) : (goClear g s).free = s.free := rfl
@[simp] theorem goClear_ch (g : Nat) (s : State) (j : MotorIdx) : (goClear g s).ch j = s.ch j := rfl
@[simp] theorem coefAt_goClear (g : Nat) (s : State) (b' : BankIdx) (a' : Axis) (m' : MotorIdx) (h' : Nat) :
    coefAt (goClear g s) b' a' m' h' = coefAt s b' a' m' h' := rfl
@[simp] theorem delayAt_goClear (g : Nat) (s : State) (b' : BankIdx) (a' : Axis) (m' : MotorIdx) (h' : Nat) :
    delayAt (goClear g s) b' a' m' h' = delayAt s b' a' m' h' := rfl

/-! ### setCoef -/

@[simp] theorem setCoef_cfg (b : BankIdx) (a : Axis) (m : MotorIdx) (h : Nat) (c : Coef) (s : State) : (setCoef b a m h c s).cfg = s.cfg := rfl
@[simp] theorem setCoef_chan (b : BankIdx) (a : Axis) (m : MotorIdx) (h : Nat) (c : Coef) (s : State) : (setCoef b a m h c s).chan = s.chan := rfl
@[simp] theorem setCoef_grp (b : BankIdx) (a : Axis) (m : MotorIdx) (h : Nat) (c : Coef) (s : State) : (setCoef b a m h c s).grp = s.grp := rfl
@[simp] theorem setCoef_invalidCount (b : BankIdx) (a : Axis) (m : MotorIdx) (h : Nat) (c : Coef) (s : State) : (setCoef b a m h c s).invalidCount = s.invalidCount := rfl
@[simp] theorem setCoef_dbgValue (b : BankIdx) (a : Axis) (m : MotorIdx) (h : Nat) (c : Coef) (s : State) : (setCoef b a m h c s).dbgValue = s.dbgValue := rfl
@[simp] theorem setCoef_switchTime (b : BankIdx) (a : Axis) (m : MotorIdx) (h : Nat) (c : Coef) (s : State) : (setCoef b a m h c s).switchTime = s.switchTime := rfl
@[simp] theorem setCoef_sched (b : BankIdx) (a : Axis) (m : MotorIdx) (h : Nat) (c : Coef) (s : State) : (setCoef b a m h c s).sched = s.sched := rfl
@[simp] theorem setCoef_log (b : BankIdx) (a : Axis) (m : MotorIdx) (h : Nat) (c : Coef) (s : State) : (setCoef b a m h c s).log = s.log := rfl
@[simp] theorem setCoef_faults (b : BankIdx) (a : Axis) (m : MotorIdx) (h : Nat) (c : Coef) (s : State) : (setCoef b a m h c s).faults = s.faults := rfl
@[simp] theorem setCoef_refused (b : BankIdx) (a : Axis) (m : MotorIdx) (h : Nat) (c : Coef) (s : State) : (setCoef b a m h c s).refused = s.refused := rfl
@[simp] theorem setCoef_collab (b : BankIdx) (a : Axis) (m : MotorIdx) (h : Nat) (c : Coef) (s : State) : (setCoef b a m h c s).collab = s.collab := rfl
@[simp] theorem setCoef_opnd (b : BankIdx) (a : Axis) (m : MotorIdx) (h : Nat) (c : Coef) (s : State) : (setCoef b a m h c s).opnd = s.opnd := rfl
@[simp] theorem setCoef_resp (b : BankIdx) (a : Axis) (m : MotorIdx) (h : Nat) (c : Coef) (s : State) : (setCoef b a m h c s).resp = s.resp := rfl
@[simp] theorem setCoef_micro (b : BankIdx) (a : Axis) (m : MotorIdx) (h : Nat) (c : Coef) (s : State) : (setCoef b a m h c s).micro = s.micro := rfl
@[simp] theorem setCoef_moves (b : BankIdx) (a : Axis) (m : MotorIdx) (h : Nat) (c : Coef) (s : State) : (setCoef b a m h c s).moves = s.moves := rfl
@[simp] theorem setCoef_free (b : BankIdx) (a : Axis) (m : MotorIdx) (h : Nat) (c : Coef) (s : State) : (setCoef b a m h c s).free = s.free := rfl
@[simp] theorem setCoef_ch (b : BankIdx) (a : Axis) (m : MotorIdx) (h : Nat) (c : Coef) (s : State) (j : MotorIdx) : (setCoef b a m h c s).ch j = s.ch j := rfl
@[simp] theorem findGroup_setCoef (b : BankIdx) (a : Axis) (m : MotorIdx) (h : Nat) (c : Coef) (s : State) (k : TimerId) : findGroup (setCoef b a m h c s) k = findGroup s k := rfl

/-! ### setDelay -/

@[simp] theorem setDelay_cfg (b : BankIdx) (a : Axis) (m : MotorIdx) (h : Nat) (d : Delay) (s : State) : (setDelay b a m h d s).cfg = s.cfg := rfl
@[simp] theorem setDelay_chan (b : BankIdx) (a : Axis) (m : MotorIdx) (h : Nat) (d : Delay) (s : State) : (setDelay b a m h d s).chan = s.chan := rfl
@[simp] theorem setDelay_grp (b : BankIdx) (a : Axis) (m : MotorIdx) (h : Nat) (d : Delay) (s : State) : (setDelay b a m h d s).grp = s.grp := rfl
@[simp] theorem setDelay_invalidCount (b : BankIdx) (a : Axis) (m : MotorIdx) (h : Nat) (d : Delay) (s : State) : (setDelay b a m h d s).invalidCount = s.invalidCount := rfl
@[simp] theorem setDelay_dbgValue (b : BankIdx) (a : Axis) (m : MotorIdx) (h : Nat) (d : Delay) (s : State) : (setDelay b a m h d s).dbgValue = s.dbgValue := rfl
@[simp] theorem setDelay_switchTime (b : BankIdx) (a : Axis) (m : MotorIdx) (h : Nat) (d : Delay) (s : State) : (setDelay b a m h d s).switchTime = s.switchTime := rfl
@[simp] theorem setDelay_sched (b : BankIdx) (a : Axis) (m : MotorIdx) (h : Nat) (d : Delay) (s : State) : (setDelay b a m h d s).sched = s.sched := rfl
@[simp] theorem setDelay_log (b : BankIdx) (a : Axis) (m : MotorIdx) (h : Nat) (d : Delay) (s : State) : (setDelay b a m h d s).log = s.log := rfl
@[simp] theorem setDelay_faults (b : BankIdx) (a : Axis) (m : MotorIdx) (h : Nat) (d : Delay) (s : State) : (setDelay b a m h d s).faults = s.faults := rfl
@[simp] theorem setDelay_refused (b : BankIdx) (a : Axis) (m : MotorIdx) (h : Nat) (d : Delay) (s : State) : (setDelay b a m h d s).refused = s.refused := rfl
@[simp] theorem setDelay_collab (b : BankIdx) (a : Axis) (m : MotorIdx) (h : Nat) (d : Delay) (s : State) : (setDelay b a m h d s).collab = s.collab := rfl
@[simp] theorem setDelay_opnd (b : BankIdx) (a : Axis) (m : MotorIdx) (h : Nat) (d : Delay) (s : State) : (setDelay b a m h d s).opnd = s.opnd := rfl
@[simp] theorem setDelay_resp (b : BankIdx) (a : Axis) (m : MotorIdx) (h : Nat) (d : Delay) (s : State) : (setDelay b a m h d s).resp = s.resp := rfl
@[simp] theorem setDelay_micro (b : BankIdx) (a : Axis) (m : MotorIdx) (h : Nat) (d : Delay) (s : State) : (setDelay b a m h d s).micro = s.micro := rfl
@[simp] theorem setDelay_moves (b : BankIdx) (a : Axis) (m : MotorIdx) (h : Nat) (d : Delay) (s : State) : (setDelay b a m h d s).moves = s.moves := rfl
@[simp] theorem setDelay_free (b : BankIdx) (a : Axis) (m : MotorIdx) (h : Nat) (d : Delay) (s : State) : (setDelay b a m h d s).free = s.free := rfl
@[simp] theorem setDelay_ch (b : BankIdx) (a : Axis) (m : MotorIdx) (h : Nat) (d : Delay) (s : State) (j : MotorIdx) : (setDelay b a m h d s).ch j = s.ch j := rfl
@[simp] theorem findGroup_setDelay (b : BankIdx) (a : Axis) (m : MotorIdx) (h : Nat) (d : Delay) (s : State) (k : TimerId) : findGroup (setDelay b a m h d s) k = findGroup s k := rfl

/-! ### refreshBase -/

@[simp] theorem refreshBase_cfg (m : MotorIdx) (s : State) : (refreshBase m s).cfg = s.cfg := rfl
@[simp] theorem refreshBase_chan (m : MotorIdx) (s : State) : (refreshBase m s).chan = s.chan := rfl
@[simp] theorem refreshBase_grp (m : MotorIdx) (s : State) : (refreshBase m s).grp = s.grp := rfl
@[simp] theorem refreshBase_invalidCount (m : MotorIdx) (s : State) : (refreshBase m s).invalidCount = s.invalidCount := rfl
@[simp] theorem refreshBase_dbgValue (m : MotorIdx) (s : State) : (refreshBase m s).dbgValue = s.dbgValue := rfl
@[simp] theorem refreshBase_switchTime (m : MotorIdx) (s : State) : (refreshBase m s).switchTime = s.switchTime := rfl
@[simp] theorem refreshBase_bank (m : MotorIdx) (s : State) : (refreshBase m s).bank = s.bank := rfl
@[simp] theorem refreshBase_log (m : MotorIdx) (s : State) : (refreshBase m s).log = s.log := rfl
@[simp] theorem refreshBase_faults (m : MotorIdx) (s : State) : (refreshBase m s).faults = s.faults := rfl
@[simp] theorem refreshBase_refused (m : MotorIdx) (s : State) : (refreshBase m s).refused = s.refused := rfl
@[simp] theorem refreshBase_collab (m : MotorIdx) (s : State) : (refreshBase m s).collab = s.collab := rfl
@[simp] theorem refreshBase_opnd (m : MotorIdx) (s : State) : (refreshBase m s).opnd = s.opnd := rfl
@[simp] theorem refreshBase_resp (m : MotorIdx) (s : State) : (refreshBase m s).resp = s.resp := rfl
@[simp] theorem refreshBase_micro (m : MotorIdx) (s : State) : (refreshBase m s).micro = s.micro := rfl
@[simp] theorem refreshBase_moves (m : MotorIdx) (s : State) : (refreshBase m s).moves = s.moves := rfl
@[simp] theorem refreshBase_free (m : MotorIdx) (s : State) : (refreshBase m s).free = s.free := rfl
@[simp] theorem refreshBase_ch (m : MotorIdx) (s : State) (j : MotorIdx) : (refreshBase m s).ch j = s.ch j := rfl
@[simp] theorem coefAt_refreshBase (m : MotorIdx) (s : State) (b' : BankIdx) (a' : Axis) (m' : MotorIdx) (h' : Nat) :
    coefAt (refreshBase m s) b' a' m' h' = coefAt s b' a' m' h' := rfl
@[simp] theorem delayAt_refreshBase (m : MotorIdx) (s : State) (b' : BankIdx) (a' : Axis) (m' : MotorIdx) (h' : Nat) :
    delayAt (refreshBase m s) b' a' m' h' = delayAt s b' a' m' h' := rfl
@[simp] theorem findGroup_refreshBase (m : MotorIdx) (s : State) (k : TimerId) : findGroup (refreshBase m s) k = findGroup s k := rfl

/-! ### setCursor -/

@[simp] theorem setCursor_cfg (c : Cursor) (s : State) : (setCursor c s).cfg = s.cfg := rfl
@[simp] theorem setCursor_chan (c : Cursor) (s : State) : (setCursor c s).chan = s.chan := rfl
@[simp] theorem setCursor_grp (c : Cursor) (s : State) : (setCursor c s).grp = s.grp := rfl
@[simp] theorem setCursor_invalidCount (c : Cursor) (s : State) : (setCursor c s).invalidCount = s.invalidCount := rfl
@[simp] theorem setCursor_dbgValue (c : Cursor) (s : State) : (setCursor c s).dbgValue = s.dbgValue := rfl
@[simp] theorem setCursor_switchTime (c : Cursor) (s : State) : (setCursor c s).switchTime = s.switchTime := rfl
@[simp] theorem setCursor_bank (c : Cursor) (s : State) : (setCursor c s).bank = s.bank := rfl
@[simp] theorem setCursor_log (c : Cursor) (s : State) : (setCursor c s).log = s.log := rfl
@[simp] theorem setCursor_faults (c : Cursor) (s : State) : (setCursor c s).faults = s.faults := rfl
@[simp] theorem setCursor_refused (c : Cursor) (s : State) : (setCursor c s).refused = s.refused := rfl
@[simp] theorem setCursor_collab (c : Cursor) (s : State) : (setCursor c s).collab = s.collab := rfl
@[simp] theorem setCursor_opnd (c : Cursor) (s : State) : (setCursor c s).opnd = s.opnd := rfl
@[simp] theorem setCursor_resp (c : Cursor) (s : State) : (setCursor c s).resp = s.resp := rfl
@[simp] theorem setCursor_micro (c : Cursor) (s : State) : (setCursor c s).micro = s.micro := rfl
@[simp] theorem setCursor_moves (c : Cursor) (s : State) : (setCursor c s).moves = s.moves := rfl
@[simp] theorem setCursor_free (c : Cursor) (s : State) : (setCursor c s).free = s.free := rfl
@[simp] theorem setCursor_ch (c : Cursor) (s : State) (j : MotorIdx) : (setCursor c s).ch j = s.ch j := rfl
@[simp] theorem coefAt_setCursor (c : Cursor) (s : State) (b' : BankIdx) (a' : Axis) (m' : MotorIdx) (h' : Nat) :
    coefAt (setCursor c s) b' a' m' h' = coefAt s b' a' m' h' := rfl
@[simp] theorem delayAt_setCursor (c : Cursor) (s : State) (b' : BankIdx) (a' : Axis) (m' : MotorIdx) (h' : Nat) :
    delayAt (setCursor c s) b' a' m' h' = delayAt s b' a' m' h' := rfl
@[simp] theorem findGroup_setCursor (c : Cursor) (s : State) (k : TimerId) : findGroup (setCursor c s) k = findGroup s k := rfl

/-! ### smoothAll -/

@[simp] theorem smoothAll_cfg (s : State) : (smoothAll s).cfg = s.cfg := by simp only [smoothAll]
@[simp] theorem smoothAll_chan (s : State) : (smoothAll s).chan = s.chan := by simp only [smoothAll]
@[simp] theorem smoothAll_grp (s : State) : (smoothAll s).grp = s.grp := by simp only [smoothAll]
@[simp] theorem smoothAll_invalidCount (s : State) : (smoothAll s).invalidCount = s.invalidCount := by simp only [smoothAll]
@[simp] theorem smoothAll_dbgValue (s : State) : (smoothAll s).dbgValue = s.dbgValue := by simp only [smoothAll]
@[simp] theorem smoothAll_switchTime (s : State) : (smoothAll s).switchTime = s.switchTime := by simp only [smoothAll]
@[simp] theorem smoothAll_bank (s : State) : (smoothAll s).bank = s.bank := by simp only [smoothAll]
@[simp] theorem smoothAll_log (s : State) : (smoothAll s).log = s.log := by simp only [smoothAll]
@[simp] theorem smoothAll_faults (s : State) : (smoothAll s).faults = s.faults := by simp only [smoothAll]
@[simp] theorem smoothAll_refused (s : State) : (smoothAll s).refused = s.refused := by simp only [smoothAll]
@[simp] theorem smoothAll_collab (s : State) : (smoothAll s).collab = s.collab := by simp only [smoothAll]
@[simp] theorem smoothAll_opnd (s : State) : (smoothAll s).opnd = s.opnd := by simp only [smoothAll]
@[simp] theorem smoothAll_resp (s : State) : (smoothAll s).resp = s.resp := by simp only [smoothAll]
@[simp] theorem smoothAll_micro (s : State) : (smoothAll s).micro = s.micro := by simp only [smoothAll]
@[simp] theorem smoothAll_moves (s : State) : (smoothAll s).moves = s.moves := by simp only [smoothAll]
@[simp] theorem smoothAll_free (s : State) : (smoothAll s).free = s.free := by simp only [smoothAll]
@[simp] theorem smoothAll_ch (s : State) (j : MotorIdx) : (smoothAll s).ch j = s.ch j := by
  simp only [State.ch, smoothAll_chan]
@[simp] theorem coefAt_smoothAll (s : State) (b' : BankIdx) (a' : Axis) (m' : MotorIdx) (h' : Nat) :
    coefAt (smoothAll s) b' a' m' h' = coefAt s b' a' m' h' := by
  simp only [coefAt, smoothAll_bank]
@[simp] theorem delayAt_smoothAll (s : State) (b' : BankIdx) (a' : Axis) (m' : MotorIdx) (h' : Nat) :
    delayAt (smoothAll s) b' a' m' h' = delayAt s b' a' m' h' := by
  simp only [delayAt, smoothAll_bank]
@[simp] theorem findGroup_smoothAll (s : State) (k : TimerId) : findGroup (smoothAll s) k = findGroup s k := by
  simp only [findGroup, smoothAll_grp]

/-! ### rpmInitialise -/

@[simp] theorem rpmInitialise_cfg (s : State) : (rpmInitialise s).cfg = s.cfg := rfl
@[simp] theorem rpmInitialise_chan (s : State) : (rpmInitialise s).chan = s.chan := rfl
@[simp] theorem rpmInitialise_grp (s : State) : (rpmInitialise s).grp = s.grp := rfl
@[simp] theorem rpmInitialise_invalidCount (s : State) : (rpmInitialise s).invalidCount = s.invalidCount := rfl
@[simp] theorem rpmInitialise_dbgValue (s : State) : (rpmInitialise s).dbgValue = s.dbgValue := rfl
@[simp] theorem rpmInitialise_switchTime (s : State) : (rpmInitialise s).switchTime = s.switchTime := rfl
@[simp] theorem rpmInitialise_log (s : State) : (rpmInitialise s).log = s.log := rfl
@[simp] theorem rpmInitialise_faults (s : State) : (rpmInitialise s).faults = s.faults := rfl
@[simp] theorem rpmInitialise_refused (s : State) : (rpmInitialise s).refused = s.refused := rfl
@[simp] theorem rpmInitialise_collab (s : State) : (rpmInitialise s).collab = s.collab := rfl
@[simp] theorem rpmInitialise_opnd (s : State) : (rpmInitialise s).opnd = s.opnd := rfl
@[simp] theorem rpmInitialise_resp (s : State) : (rpmInitialise s).resp = s.resp := rfl
@[simp] theorem rpmInitialise_micro (s : State) : (rpmInitialise s).micro = s.micro := rfl
@[simp] theorem rpmInitialise_moves (s : State) : (rpmInitialise s).moves = s.moves := rfl
@[simp] theorem rpmInitialise_free (s : State) : (rpmInitialise s).free = s.free := rfl
@[simp] theorem rpmInitialise_ch (s : State) (j : MotorIdx) : (rpmInitialise s).ch j = s.ch j := rfl
@[simp] theorem findGroup_rpmInitialise (s : State) (k : TimerId) : findGroup (rpmInitialise s) k = findGroup s k := rfl

/-! ### advance -/

@[simp] theorem advance_cfg (c : Cursor) (s : State) : (advance c s).cfg = s.cfg := by
  unfold advance
  (repeat' split) <;> simp
@[simp] theorem advance_chan (c : Cursor) (s : State) : (advance c s).chan = s.chan := by
  unfold advance
  (repeat' split) <;> simp
@[simp] theorem advance_grp (c : Cursor) (s : State) : (advance c s).grp = s.grp := by
  unfold advance
  (repeat' split) <;> simp
@[simp] theorem advance_invalidCount (c : Cursor) (s : State) : (advance c s).invalidCount = s.invalidCount := by
  unfold advance
  (repeat' split) <;> simp
@[simp] theorem advance_dbgValue (c : Cursor) (s : State) : (advance c s).dbgValue = s.dbgValue := by
  unfold advance
  (repeat' split) <;> simp
@[simp] theorem advance_switchTime (c : Cursor) (s : State) : (advance c s).switchTime = s.switchTime := by
  unfold advance
  (repeat' split) <;> simp
@[simp] theorem advance_bank (c : Cursor) (s : State) : (advance c s).bank = s.bank := by
  unfold advance
  (repeat' split) <;> simp
@[simp] theorem advance_log (c : Cursor) (s : State) : (advance c s).log = s.log := by
  unfold advance
  (repeat' split) <;> simp
@[simp] theorem advance_faults (c : Cursor) (s : State) : (advance c s).faults = s.faults := by
  unfold advance
  (repeat' split) <;> simp
@[simp] theorem advance_refused (c : Cursor) (s : State) : (advance c s).refused = s.refused := by
  unfold advance
  (repeat' split) <;> simp
@[simp] theorem advance_collab (c : Cursor) (s : State) : (advance c s).collab = s.collab := by
  unfold advance
  (repeat' split) <;> simp
@[simp] theorem advance_opnd (c : Cursor) (s : State) : (advance c s).opnd = s.opnd := by
  unfold advance
  (repeat' split) <;> simp
@[simp] theorem advance_resp (c : Cursor) (s : State) : (advance c s).resp = s.resp := by
  unfold advance
  (repeat' split) <;> simp
@[simp] theorem advance_micro (c : Cursor) (s : State) : (advance c s).micro = s.micro := by
  unfold advance
  (repeat' split) <;> simp
@[simp] theorem advance_moves (c : Cursor) (s : State) : (advance c s).moves = s.moves := by
  unfold advance
  (repeat' split) <;> simp
@[simp] theorem advance_free (c : Cursor) (s : State) : (advance c s).free = s.free := by
  unfold advance
  (repeat' split) <;> simp
@[simp] theorem advance_ch (c : Cursor) (s : State) (j : MotorIdx) : (advance c s).ch j = s.ch j := by
  simp only [State.ch, advance_chan]
@[simp] theorem coefAt_advance (c : Cursor) (s : State) (b' : BankIdx) (a' : Axis) (m' : MotorIdx) (h' : Nat) :
    coefAt (advance c s) b' a' m' h' = coefAt s b' a' m' h' := by
  simp only [coefAt, advance_bank]
@[simp] theorem delayAt_advance (c : Cursor) (s : State) (b' : BankIdx) (a' : Axis) (m' : MotorIdx) (h' : Nat) :
    delayAt (advance c s) b' a' m' h' = delayAt s b' a' m' h' := by
  simp only [delayAt, advance_bank]
@[simp] theorem findGroup_advance (c : Cursor) (s : State) (k : TimerId) : findGroup (advance c s) k = findGroup s k := by
  simp only [findGroup, advance_grp]

/-! ### recomputeAt -/

@[simp] theorem recomputeAt_cfg (c : Cursor) (s : State) : (recomputeAt c s).cfg = s.cfg := by simp [recomputeAt]
@[simp] theorem recomputeAt_chan (c : Cursor) (s : State) : (recomputeAt c s).chan = s.chan := by simp [recomputeAt]
@[simp] theorem recomputeAt_grp (c : Cursor) (s : State) : (recomputeAt c s).grp = s.grp := by simp [recomputeAt]
@[simp] theorem recomputeAt_invalidCount (c : Cursor) (s : State) : (recomputeAt c s).invalidCount = s.invalidCount := by simp [recomputeAt]
@[simp] theorem recomputeAt_dbgValue (c : Cursor) (s : State) : (recomputeAt c s).dbgValue = s.dbgValue := by simp [recomputeAt]
@[simp] theorem recomputeAt_switchTime (c : Cursor) (s : State) : (recomputeAt c s).switchTime = s.switchTime := by simp [recomputeAt]
@[simp] theorem recomputeAt_sched (c : Cursor) (s : State) : (recomputeAt c s).sched = s.sched := by simp [recomputeAt]
@[simp] theorem recomputeAt_log (c : Cursor) (s : State) : (recomputeAt c s).log = s.log := by simp [recomputeAt]
@[simp] theorem recomputeAt_faults (c : Cursor) (s : State) : (recomputeAt c s).faults = s.faults := by simp [recomputeAt]
@[simp] theorem recomputeAt_refused (c : Cursor) (s : State) : (recomputeAt c s).refused = s.refused := by simp [recomputeAt]
@[simp] theorem recomputeAt_collab (c : Cursor) (s : State) : (recomputeAt c s).collab = s.collab := by simp [recomputeAt]
@[simp] theorem recomputeAt_opnd (c : Cursor) (s : State) : (recomputeAt c s).opnd = s.opnd := by simp [recomputeAt]
@[simp] theorem recomputeAt_resp (c : Cursor) (s : State) : (recomputeAt c s).resp = s.resp := by simp [recomputeAt]
@[simp] theorem recomputeAt_micro (c : Cursor) (s : State) : (recomputeAt c s).micro = s.micro := by simp [recomputeAt]
@[simp] theorem recomputeAt_moves (c : Cursor) (s : State) : (recomputeAt c s).moves = s.moves := by simp [recomputeAt]
@[simp] theorem recomputeAt_free (c : Cursor) (s : State) : (recomputeAt c s).free = s.free := by simp [recomputeAt]
@[simp] theorem recomputeAt_ch (c : Cursor) (s : State) (j : MotorIdx) : (recomputeAt c s).ch j = s.ch j := by
  simp only [State.ch, recomputeAt_chan]
@[simp] theorem findGroup_recomputeAt (c : Cursor) (s : State) (k : TimerId) : findGroup (recomputeAt c s) k = findGroup s k := by
  simp only [findGroup, recomputeAt_grp]

/-! ### recomputeOne -/

@[simp] theorem recomputeOne_cfg (s : State) : (recomputeOne s).cfg = s.cfg := by
  unfold recomputeOne
  split <;> simp
@[simp] theorem recomputeOne_chan (s : State) : (recomputeOne s).chan = s.chan := by
  unfold recomputeOne
  split <;> simp
@[simp] theorem recomputeOne_grp (s : State) : (recomputeOne s).grp = s.grp := by
  unfold recomputeOne
  split <;> simp
@[simp] theorem recomputeOne_invalidCount (s : State) : (recomputeOne s).invalidCount = s.invalidCount := by
  unfold recomputeOne
  split <;> simp
@[simp] theorem recomputeOne_dbgValue (s : State) : (recomputeOne s).dbgValue = s.dbgValue := by
  unfold recomputeOne
  split <;> simp
@[simp] theorem recomputeOne_switchTime (s : State) : (recomputeOne s).switchTime = s.switchTime := by
  unfold recomputeOne
  split <;> simp
@[simp] theorem recomputeOne_log (s : State) : (recomputeOne s).log = s.log := by
  unfold recomputeOne
  split <;> simp
@[simp] theorem recomputeOne_faults (s : State) : (recomputeOne s).faults = s.faults := by
  unfold recomputeOne
  split <;> simp
@[simp] theorem recomputeOne_refused (s : State) : (recomputeOne s).refused = s.refused := by
  unfold recomputeOne
  split <;> simp
@[simp] theorem recomputeOne_collab (s : State) : (recomputeOne s).collab = s.collab := by
  unfold recomputeOne
  split <;> simp
@[simp] theorem recomputeOne_opnd (s : State) : (recomputeOne s).opnd = s.opnd := by
  unfold recomputeOne
  split <;> simp
@[simp] theorem recomputeOne_resp (s : State) : (recomputeOne s).resp = s.resp := by
  unfold recomputeOne
  split <;> simp
@[simp] theorem recomputeOne_micro (s : State) : (recomputeOne s).micro = s.micro := by
  unfold recomputeOne
  split <;> simp
@[simp] theorem recomputeOne_moves (s : State) : (recomputeOne s).moves = s.moves := by
  unfold recomputeOne
  split <;> simp
@[simp] theorem recomputeOne_free (s : State) : (recomputeOne s).free = s.free := by
  unfold recomputeOne
  split <;> simp
@[simp] theorem recomputeOne_ch (s : State) (j : MotorIdx) : (recomputeOne s).ch j = s.ch j := by
  simp only [State.ch, recomputeOne_chan]
@[simp] theorem findGroup_recomputeOne (s : State) (k : TimerId) : findGroup (recomputeOne s) k = findGroup s k := by
  simp only [findGroup, recomputeOne_grp]

/-! ### handlerBody -/

@[simp] theorem handlerBody_cfg (i : MotorIdx) (t : Timestamp) (s : State) : (handlerBody i t s).cfg = s.cfg := by
  unfold handlerBody
  dsimp only
  (repeat' split) <;> simp
@[simp] theorem handlerBody_grp (i : MotorIdx) (t : Timestamp) (s : State) : (handlerBody i t s).grp = s.grp := by
  unfold handlerBody
  dsimp only
  (repeat' split) <;> simp
@[simp] theorem handlerBody_invalidCount (i : MotorIdx) (t : Timestamp) (s : State) : (handlerBody i t s).invalidCount = s.invalidCount := by
  unfold handlerBody
  dsimp only
  (repeat' split) <;> simp
@[simp] theorem handlerBody_dbgValue (i : MotorIdx) (t : Timestamp) (s : State) : (handlerBody i t s).dbgValue = s.dbgValue := by
  unfold handlerBody
  dsimp only
  (repeat' split) <;> simp
@[simp] theorem handlerBody_bank (i : MotorIdx) (t : Timestamp) (s : State) : (handlerBody i t s).bank = s.bank := by
  unfold handlerBody
  dsimp only
  (repeat' split) <;> simp
@[simp] theorem handlerBody_sched (i : MotorIdx) (t : Timestamp) (s : State) : (handlerBody i t s).sched = s.sched := by
  unfold handlerBody
  dsimp only
  (repeat' split) <;> simp
@[simp] theorem handlerBody_faults (i : MotorIdx) (t : Timestamp) (s : State) : (handlerBody i t s).faults = s.faults := by
  unfold handlerBody
  dsimp only
  (repeat' split) <;> simp
@[simp] theorem handlerBody_refused (i : MotorIdx) (t : Timestamp) (s : State) : (handlerBody i t s).refused = s.refused := by
  unfold handlerBody
  dsimp only
  (repeat' split) <;> simp
@[simp] theorem handlerBody_collab (i : MotorIdx) (t : Timestamp) (s : State) : (handlerBody i t s).collab = s.collab := by
  unfold handlerBody
  dsimp only
  (repeat' split) <;> simp
@[simp] theorem handlerBody_opnd (i : MotorIdx) (t : Timestamp) (s : State) : (handlerBody i t s).opnd = s.opnd := by
  unfold handlerBody
  dsimp only
  (repeat' split) <;> simp
@[simp] theorem handlerBody_resp (i : MotorIdx) (t : Timestamp) (s : State) : (handlerBody i t s).resp = s.resp := by
  unfold handlerBody
  dsimp only
  (repeat' split) <;> simp
@[simp] theorem handlerBody_micro (i : MotorIdx) (t : Timestamp) (s : State) : (handlerBody i t s).micro = s.micro := by
  unfold handlerBody
  dsimp only
  (repeat' split) <;> simp
@[simp] theorem handlerBody_moves (i : MotorIdx) (t : Timestamp) (s : State) : (handlerBody i t s).moves = s.moves := by
  unfold handlerBody
  dsimp only
  (repeat' split) <;> simp
@[simp] theorem handlerBody_free (i : MotorIdx) (t : Timestamp) (s : State) : (handlerBody i t s).free = s.free := by
  unfold handlerBody
  dsimp only
  (repeat' split) <;> simp
@[simp] theorem coefAt_handlerBody (i : MotorIdx) (t : Timestamp) (s : State) (b' : BankIdx) (a' : Axis) (m' : MotorIdx) (h' : Nat) :
    coefAt (handlerBody i t s) b' a' m' h' = coefAt s b' a' m' h' := by
  simp only [coefAt, handlerBody_bank]
@[simp] theorem delayAt_handlerBody (i : MotorIdx) (t : Timestamp) (s : State) (b' : BankIdx) (a' : Axis) (m' : MotorIdx) (h' : Nat) :
    delayAt (handlerBody i t s) b' a' m' h' = delayAt s b' a' m' h' := by
  simp only [delayAt, handlerBody_bank]
@[simp] theorem findGroup_handlerBody (i : MotorIdx) (t : Timestamp) (s : State) (k : TimerId) : findGroup (handlerBody i t s) k = findGroup s k := by
  simp only [findGroup, handlerBody_grp]

/-! ### groupDuties -/

@[simp] theorem groupDuties_cfg (gr : Group) (is : List MotorIdx) (s : State) : (groupDuties gr is s).cfg = s.cfg := by simp [groupDuties]
@[simp] theorem groupDuties_chan (gr : Group) (is : List MotorIdx) (s : State) : (groupDuties gr is s).chan = s.chan := by simp [groupDuties]
@[simp] theorem groupDuties_grp (gr : Group) (is : List MotorIdx) (s : State) : (groupDuties gr is s).grp = s.grp := by simp [groupDuties]
@[simp] theorem groupDuties_invalidCount (gr : Group) (is : List MotorIdx) (s : State) : (groupDuties gr is s).invalidCount = s.invalidCount := by simp [groupDuties]
@[simp] theorem groupDuties_dbgValue (gr : Group) (is : List MotorIdx) (s : State) : (groupDuties gr is s).dbgValue = s.dbgValue := by simp [groupDuties]
@[simp] theorem groupDuties_switchTime (gr : Group) (is : List MotorIdx) (s : State) : (groupDuties gr is s).switchTime = s.switchTime := by simp [groupDuties]
@[simp] theorem groupDuties_bank (gr : Group) (is : List MotorIdx) (s : State) : (groupDuties gr is s).bank = s.bank := by simp [groupDuties]
@[simp] theorem groupDuties_sched (gr : Group) (is : List MotorIdx) (s : State) : (groupDuties gr is s).sched = s.sched := by simp [groupDuties]
@[simp] theorem groupDuties_refused (gr : Group) (is : List MotorIdx) (s : State) : (groupDuties gr is s).refused = s.refused := by simp [groupDuties]
@[simp] theorem groupDuties_collab (gr : Group) (is : List MotorIdx) (s : State) : (groupDuties gr is s).collab = s.collab := by simp [groupDuties]
@[simp] theorem groupDuties_opnd (gr : Group) (is : List MotorIdx) (s : State) : (groupDuties gr is s).opnd = s.opnd := by simp [groupDuties]
@[simp] theorem groupDuties_resp (gr : Group) (is : List MotorIdx) (s : State) : (groupDuties gr is s).resp = s.resp := by simp [groupDuties]
@[simp] theorem groupDuties_micro (gr : Group) (is : List MotorIdx) (s : State) : (groupDuties gr is s).micro = s.micro := by simp [groupDuties]
@[simp] theorem groupDuties_moves (gr : Group) (is : List MotorIdx) (s : State) : (groupDuties gr is s).moves = s.moves := by simp [groupDuties]
@[simp] theorem groupDuties_ch (gr : Group) (is : List MotorIdx) (s : State) (j : MotorIdx) : (groupDuties gr is s).ch j = s.ch j := by
  simp only [State.ch, groupDuties_chan]
@[simp] theorem coefAt_groupDuties (gr : Group) (is : List MotorIdx) (s : State) (b' : BankIdx) (a' : Axis) (m' : MotorIdx) (h' : Nat) :
    coefAt (groupDuties gr is s) b' a' m' h' = coefAt s b' a' m' h' := by
  simp only [coefAt, groupDuties_bank]
@[simp] theorem delayAt_groupDuties (gr : Group) (is : List MotorIdx) (s : State) (b' : BankIdx) (a' : Axis) (m' : MotorIdx) (h' : Nat) :
    delayAt (groupDuties gr is s) b' a' m' h' = delayAt s b' a' m' h' := by
  simp only [delayAt, groupDuties_bank]
@[simp] theorem findGroup_groupDuties (gr : Group) (is : List MotorIdx) (s : State) (k : TimerId) : findGroup (groupDuties gr is s) k = findGroup s k := by
  simp only [findGroup, groupDuties_grp]

end Sys2Proof.Machine
end

