-- ==== Sys2Proof/Laws/Ops.lean ====
section
/-! SUPPORT. What the shared operations over channels, groups and marks do, said once each (Machine/Ops.lean). -/

namespace Sys2Proof.Machine

/-! ## Tables -/

theorem vget_eq {α : Type} {n : Nat} (v : Vector α n) (i : Fin n) : v.get i = v[i.val] := rfl

/-- A table with one entry replaced, read at any entry. -/
theorem vget_set {α : Type} {n : Nat} (v : Vector α n) (i j : Fin n) (x : α) :
    (v.set i.val x i.isLt).get j = if j = i then x else v.get j := by
  rw [vget_eq, vget_eq, Vector.getElem_set]
  simp only [Fin.ext_iff, eq_comm]

@[simp] theorem vget_set_self {α : Type} {n : Nat} (v : Vector α n) (i : Fin n) (x : α) :
    (v.set i.val x i.isLt).get i = x := by
  rw [vget_set, if_pos rfl]

@[simp] theorem vget_ofFn {α : Type} {n : Nat} (f : Fin n → α) (i : Fin n) : (Vector.ofFn f).get i = f i := by
  rw [vget_eq, Vector.getElem_ofFn]

theorem vext {α : Type} {n : Nat} {v w : Vector α n} (h : ∀ i, v.get i = w.get i) : v = w := by
  ext i hi
  exact h ⟨i, hi⟩

/-! ## Channels -/

theorem ch_setCh_ne (s : State) {i j : MotorIdx} (c : Chan) (h : j ≠ i) : (s.setCh i c).ch j = s.ch j := by
  simp [State.ch, State.setCh, vget_set, h]

@[simp] theorem ch_setCh_self (s : State) (i : MotorIdx) (c : Chan) : (s.setCh i c).ch i = c := by
  simp [State.ch, State.setCh]

theorem ch_setCh (s : State) (i j : MotorIdx) (c : Chan) : (s.setCh i c).ch j = if j = i then c else s.ch j := by
  split
  · next h => subst h; exact ch_setCh_self s j c
  · next h => exact ch_setCh_ne s c h

@[simp] theorem ch_modCh_self (s : State) (i : MotorIdx) (f : Chan → Chan) : (s.modCh i f).ch i = f (s.ch i) := by
  simp [State.modCh]

theorem ch_modCh_ne (s : State) {i j : MotorIdx} (f : Chan → Chan) (h : j ≠ i) : (s.modCh i f).ch j = s.ch j := by
  simp [State.modCh, ch_setCh_ne s _ h]

theorem ch_modCh (s : State) (i j : MotorIdx) (f : Chan → Chan) :
    (s.modCh i f).ch j = if j = i then f (s.ch i) else s.ch j := by
  simp [State.modCh, ch_setCh]

@[simp] theorem ch_mapCh (s : State) (f : MotorIdx → Chan → Chan) (j : MotorIdx) :
    (s.mapCh f).ch j = f j (s.ch j) := by
  simp [State.ch, State.mapCh]

theorem setCh_setCh (s : State) (i : MotorIdx) (c d : Chan) : (s.setCh i c).setCh i d = s.setCh i d := by
  simp [State.setCh]

theorem modCh_modCh (s : State) (i : MotorIdx) (f g : Chan → Chan) :
    (s.modCh i f).modCh i g = s.modCh i fun c => g (f c) := by
  simp [State.modCh, setCh_setCh]

/-- An update that leaves the channel as it is changes nothing. -/
theorem setCh_self (s : State) (i : MotorIdx) : s.setCh i (s.ch i) = s := by
  have : s.chan.set i.val (s.ch i) i.isLt = s.chan := vext fun j => by
    rw [vget_set]
    split
    · next h => rw [h, State.ch]
    · rfl
  simp only [State.setCh, this]

/-- Two tables of channels are equal when each channel is. -/
theorem chan_ext {s t : State} (h : ∀ i, s.ch i = t.ch i) : s.chan = t.chan := vext h

/-- Updates of two different channels commute. -/
theorem modCh_comm (s : State) {i j : MotorIdx} (f g : Chan → Chan) (h : i ≠ j) :
    (s.modCh i f).modCh j g = (s.modCh j g).modCh i f := by
  have : ((s.modCh i f).modCh j g).chan = ((s.modCh j g).modCh i f).chan := by
    apply chan_ext
    intro k
    simp only [ch_modCh]
    split <;> split <;> simp_all
  simp only [State.modCh, State.setCh] at this ⊢
  rw [this]

/-- What `SetDirectionOutput` does (R138). -/
theorem setDirectionOutput_ch (i j : MotorIdx) (s : State) :
    (setDirectionOutput i s).ch j =
      if j = i then
        { s.ch i with
          dmaArmed := false, reqEn := false, chanMode := .outputCompare, dmaDir := .toTimer, outEn := false,
          isInput := false }
      else s.ch j := by
  simp [setDirectionOutput, ch_modCh]

@[simp] theorem setDirectionOutput_log (i : MotorIdx) (s : State) :
    (setDirectionOutput i s).log = s.log ++ [.dirToOutput i] := rfl

/-- What `SetDirectionInput` does (R215). -/
theorem setDirectionInput_ch (i j : MotorIdx) (t : Timestamp) (s : State) :
    (setDirectionInput i t s).ch j =
      if j = i then
        { s.ch i with
          chanMode := .inputCapture, dmaDir := .fromTimer, outEn := false, isInput := true, dmaPos := 0,
          dmaCount := inLen s.cfg, dmaArmed := true, reqEn := true }
      else s.ch j := by
  unfold setDirectionInput
  rw [emit_ch]
  exact ch_modCh s i j fun c =>
    { c with
      chanMode := .inputCapture, dmaDir := .fromTimer, outEn := false, isInput := true, dmaPos := 0,
      dmaCount := inLen s.cfg, dmaArmed := true, reqEn := true }

@[simp] theorem setDirectionInput_log (i : MotorIdx) (t : Timestamp) (s : State) :
    (setDirectionInput i t s).log = s.log ++ [.dirToInput i] := rfl

/-! ## Timer groups (R37 to R39) -/

/-- Where the linear scan of R38 finds a timer. -/
theorem findGroup_eq_some {s : State} {timer : TimerId} {g : Nat} (h : findGroup s timer = some g) :
    ∃ gr, s.grp[g]? = some gr ∧ gr.timer = timer := by
  unfold findGroup at h
  rw [List.findIdx?_eq_some_iff_getElem] at h
  obtain ⟨h1, h2, -⟩ := h
  exact ⟨s.grp[g], by simp [h1], by simpa using h2⟩

theorem findGroup_eq_none {s : State} {timer : TimerId} :
    findGroup s timer = none ↔ ∀ gr ∈ s.grp, gr.timer ≠ timer := by
  simp [findGroup, List.findIdx?_eq_none_iff]

/-- The scan looks at nothing but the timers of the groups. -/
theorem findGroup_congr {s t : State} (h : s.grp.map Group.timer = t.grp.map Group.timer) (timer : TimerId) :
    findGroup s timer = findGroup t timer := by
  have key : ∀ u : State, findGroup u timer = (u.grp.map Group.timer).findIdx? fun k => decide (k = timer) := by
    intro u
    unfold findGroup
    rw [List.findIdx?_map]
    rfl
  rw [key, key, h]

theorem modGrp_timers (s : State) (g : Nat) (f : Group → Group) (hf : ∀ gr, (f gr).timer = gr.timer) :
    (s.modGrp g f).grp.map Group.timer = s.grp.map Group.timer := by
  simp only [State.modGrp]
  apply List.ext_getElem
  · simp
  · intro n h1 h2
    simp only [List.getElem_map, List.getElem_modify]
    split <;> simp [hf]

@[simp] theorem grp_getElem?_modGrp (s : State) (g k : Nat) (f : Group → Group) :
    (s.modGrp g f).grp[k]? = if g = k then (s.grp[k]?).map f else s.grp[k]? := by
  simp only [State.modGrp, List.getElem?_modify]
  split <;> simp

@[simp] theorem length_modGrp (s : State) (g : Nat) (f : Group → Group) :
    (s.modGrp g f).grp.length = s.grp.length := by
  simp [State.modGrp]

/-- `FindOrInsertGroup` (R132): what it leaves when it does not refuse. -/
theorem findOrInsertGroup_some {timer : TimerId} {s t : State} (h : findOrInsertGroup timer s = some t) :
    findGroup t timer ≠ none ∧
      ((findGroup s timer ≠ none ∧ t = s) ∨
        (findGroup s timer = none ∧ s.grp.length ≠ s.cfg.nTimersMax ∧
          t = { s with grp := s.grp ++ [Group.fresh timer] })) := by
  unfold findOrInsertGroup at h
  split at h
  · next g hg =>
    simp only [Option.some.injEq] at h
    subst h
    simp [hg]
  · next hg =>
    split at h
    · simp at h
    · next hl =>
      simp only [Option.some.injEq] at h
      refine ⟨?_, Or.inr ⟨hg, hl, h.symm⟩⟩
      subst h
      intro hn
      have := findGroup_eq_none.1 hn (Group.fresh timer) (by simp)
      exact this rfl

/-- `FindOrInsertGroup` refuses exactly when the timer is new and the table is full (R132). -/
theorem findOrInsertGroup_none {timer : TimerId} {s : State} :
    findOrInsertGroup timer s = none ↔ findGroup s timer = none ∧ s.grp.length = s.cfg.nTimersMax := by
  unfold findOrInsertGroup
  split
  · next g hg => simp [hg]
  · next hg => split <;> simp_all

/-! ## The motors in use (R21) -/

theorem mem_motorsOf {cfg : Cfg} {i : MotorIdx} : i ∈ motorsOf cfg ↔ i.val < cfg.motorCount := by
  simp [motorsOf]

theorem nodup_motorsOf (cfg : Cfg) : (motorsOf cfg).Nodup := by
  unfold motorsOf
  exact (List.nodup_finRange 16).filter _

/-! ## Marks (R46) -/

theorem mem_markFault (f g : FaultMark) (s : State) :
    g ∈ (markFault f s).faults ↔ g = f ∨ g ∈ s.faults := by
  by_cases h : f ∈ s.faults <;> simp [markFault, h] <;> aesop

theorem mem_markRefused (r q : RefuseMark) (s : State) :
    q ∈ (markRefused r s).refused ↔ q = r ∨ q ∈ s.refused := by
  by_cases h : r ∈ s.refused <;> simp [markRefused, h] <;> aesop

/-- What `noteUnwritten` leaves where an element was lacking (R72, R283). -/
theorem noteUnwritten_true (s : State) :
    noteUnwritten true s =
      { s with
        free := s.free + 1
        faults := if s.faults.contains .readUnwritten then s.faults else s.faults ++ [.readUnwritten] } := rfl

@[simp] theorem noteUnwritten_false (s : State) : noteUnwritten false s = s := rfl

@[simp] theorem noteUnwritten_free (b : Bool) (s : State) :
    (noteUnwritten b s).free = if b = true then s.free + 1 else s.free := by
  cases b <;> rfl

theorem mem_noteUnwritten (b : Bool) (g : FaultMark) (s : State) :
    g ∈ (noteUnwritten b s).faults ↔ (b = true ∧ g = .readUnwritten) ∨ g ∈ s.faults := by
  cases b
  · simp
  · rw [show noteUnwritten true s = markFault .readUnwritten { s with free := s.free + 1 } from rfl, mem_markFault]
    simp

end Sys2Proof.Machine
end

