-- ==== Sys2Proof/Laws/Channel.lean ====
section
/-! SUPPORT. What each atomic action of CFG, BEGIN, TX and GO does to the fields it writes (40_channel_driver.md R131 to
R148); the fields it leaves alone are in Laws/State.lean. -/

namespace Sys2Proof.Machine

/-- Two states are equal when their fields are. -/
theorem State.ext_fields {s t : State} (hcfg : s.cfg = t.cfg) (hchan : s.chan = t.chan) (hgrp : s.grp = t.grp)
    (hinvalid : s.invalidCount = t.invalidCount) (hdbg : s.dbgValue = t.dbgValue)
    (hswitch : s.switchTime = t.switchTime) (hbank : s.bank = t.bank) (hsched : s.sched = t.sched)
    (hlog : s.log = t.log) (hfaults : s.faults = t.faults) (hrefused : s.refused = t.refused)
    (hcollab : s.collab = t.collab) (hopnd : s.opnd = t.opnd) (hresp : s.resp = t.resp) (hmicro : s.micro = t.micro)
    (hmoves : s.moves = t.moves) (hfree : s.free = t.free) : s = t := by
  cases s
  cases t
  simp only [State.mk.injEq]
  exact ⟨hcfg, hchan, hgrp, hinvalid, hdbg, hswitch, hbank, hsched, hlog, hfaults, hrefused, hcollab, hopnd, hresp,
    hmicro, hmoves, hfree⟩

/-! ## CFG -/

theorem cfgBind_ch (i j : MotorIdx) (timer : TimerId) (ch : HwChannel) (n : Bool) (s : State) :
    (cfgBind i timer ch n s).ch j =
      if j = i then
        { s.ch i with
          timer := timer, ch := ch, outputN := n, chanMode := .outputCompare, dmaDir := .toTimer, isInput := false,
          outEn := false }
      else s.ch j := ch_modCh s i j _

theorem cfgFinish_ch (i j : MotorIdx) (s : State) :
    (cfgFinish i s).ch j = if j = i then { s.ch i with configured := true } else s.ch j := ch_modCh s i j _

/-- CFG refuses for a reason of C1 exactly as R131 lists them. -/
theorem bindingTaken_iff (s : State) (idx : MotorIdx) (timer : TimerId) (ch : HwChannel) :
    bindingTaken s idx timer ch = true ↔
      ∃ j, j ≠ idx ∧ (s.ch j).configured = true ∧ (s.ch j).timer = timer ∧ (s.ch j).ch = ch := by
  simp [bindingTaken, and_assoc]

/-! ## BEGIN -/

theorem clearTelemetry_ch (i j : MotorIdx) (s : State) :
    (clearTelemetry i s).ch j = if j = i then { s.ch i with hasTelemetry := false } else s.ch j := ch_modCh s i j _

theorem recordDecoded_ch (i j : MotorIdx) (r : Telemetry) (s : State) :
    (recordDecoded i r s).ch j =
      if j = i then
        { s.ch i with
          telemetryValue :=
            match r with
            | .valid p => p.setWidth 16
            | .invalid => (s.ch i).telemetryValue }
      else s.ch j := by
  cases r with
  | valid p =>
    unfold recordDecoded
    rw [emit_ch]
    exact ch_modCh s i j fun c => { c with telemetryValue := p.setWidth 16 }
  | invalid =>
    by_cases hj : j = i
    · subst hj
      rw [if_pos rfl]
      rfl
    · rw [if_neg hj]
      rfl

theorem recordDecoded_log (i : MotorIdx) (r : Telemetry) (s : State) :
    (recordDecoded i r s).log = s.log ++ [.decoded i r] := by
  cases r <;> rfl

theorem recordDecoded_invalidCount (i : MotorIdx) (r : Telemetry) (s : State) :
    (recordDecoded i r s).invalidCount =
      match r with
      | .valid _ => s.invalidCount
      | .invalid => (s.invalidCount + 1) % 2 ^ s.cfg.wCnt := by
  cases r <;> rfl

theorem recordDecoded_dbgValue (i j : MotorIdx) (r : Telemetry) (s : State) :
    (recordDecoded i r s).dbgValue.get j =
      if j = i then
        match r with
        | .valid p => p.setWidth 16
        | .invalid => s.dbgValue.get i
      else s.dbgValue.get j := by
  cases r with
  | valid p => exact vget_set s.dbgValue i j (p.setWidth 16)
  | invalid => split <;> simp_all [recordDecoded, emit]

theorem switchIfWanted_ch (i j : MotorIdx) (f : Bool) (s : State) :
    (switchIfWanted i f s).ch j =
      if j = i ∧ switchWanted s.cfg (s.ch i) f = true then
        { s.ch i with
          dmaArmed := false, reqEn := false, chanMode := .outputCompare, dmaDir := .toTimer, outEn := false,
          isInput := false }
      else s.ch j := by
  unfold switchIfWanted
  split
  · next h => simp [setDirectionOutput_ch, h]
  · next h => simp [h]

theorem switchIfWanted_log (i : MotorIdx) (f : Bool) (s : State) :
    (switchIfWanted i f s).log = s.log ++ if switchWanted s.cfg (s.ch i) f = true then [.dirToOutput i] else [] := by
  unfold switchIfWanted
  split <;> simp

theorem enableOutput_ch (i j : MotorIdx) (s : State) :
    (enableOutput i s).ch j =
      if j = i ∧ (s.ch i).configured = true then { s.ch i with outEn := true } else s.ch j := by
  unfold enableOutput
  split
  · next h => simp [ch_modCh, h]
  · next h => simp [h]

/-- A captured element reads as it was captured (R136). -/
theorem capture_getElem (s : State) (i : MotorIdx) (k : Nat) (hk : k < inLen s.cfg) :
    (capture s i)[k]? =
      some ((Memory.read (s.ch i).inBuf k).getD (drawStamp s.cfg (Config.freeStamp s.free k))) := by
  simp [capture, hk, Memory.readOr]

@[simp] theorem length_capture (s : State) (i : MotorIdx) : (capture s i).length = inLen s.cfg := by
  simp [capture]

/-- A capture lacks exactly where one of its elements was never written (R72). -/
theorem captureLacks_iff (s : State) (i : MotorIdx) :
    captureLacks s i = true ↔ ∃ k, k < inLen s.cfg ∧ Memory.read (s.ch i).inBuf k = none :=
  Memory.lacks_iff _ _

/-- A capture that lacks nothing is the channel's buffer and nothing else. -/
theorem capture_of_lacks_eq_false {s : State} {i : MotorIdx} (h : captureLacks s i = false) :
    capture s i = (List.range (inLen s.cfg)).map fun k => (Memory.read (s.ch i).inBuf k).getD 0 := by
  refine List.map_congr_left fun k hk => ?_
  exact Memory.readOr_of_lacks_eq_false h _ (fun _ => 0) (List.mem_range.1 hk)

/-- B2 of a capture that lacks nothing records nothing. -/
theorem noteCapture_of_lacks_eq_false {s : State} {i : MotorIdx} (h : captureLacks s i = false) :
    noteCapture i s = s := by
  simp [noteCapture, h]

/-- B2 to B4 of a flagged channel: the flag is cleared and a valid speed replaces the cache (R136, R137). -/
theorem consumeCapture_ch (i j : MotorIdx) (s : State) :
    (consumeCapture i s).ch j =
      if j = i then
        { s.ch i with
          telemetryValue :=
            match decodeCapture s.cfg (capture s i) with
            | .valid p => p.setWidth 16
            | .invalid => (s.ch i).telemetryValue
          hasTelemetry := false }
      else s.ch j := by
  unfold consumeCapture
  by_cases hj : j = i
  · subst hj
    simp [clearTelemetry_ch, recordDecoded_ch]
  · simp [clearTelemetry_ch, recordDecoded_ch, hj]

@[simp] theorem consumeCapture_free (i : MotorIdx) (s : State) :
    (consumeCapture i s).free = if captureLacks s i = true then s.free + 1 else s.free := by
  simp [consumeCapture, noteCapture]

theorem mem_consumeCapture_faults (i : MotorIdx) (g : FaultMark) (s : State) :
    g ∈ (consumeCapture i s).faults ↔ (captureLacks s i = true ∧ g = .readUnwritten) ∨ g ∈ s.faults := by
  simp [consumeCapture, noteCapture, mem_noteUnwritten]

/-! ## TX -/

theorem txOperands_ch (i j : MotorIdx) (v : BitVec 16) (tr : Bool) (s : State) :
    (txOperands i v tr s).ch j =
      if j = i then { s.ch i with value := v, requestTelemetry := (s.ch i).requestTelemetry || tr } else s.ch j :=
  ch_modCh s i j _

theorem txCommand_ch (i j : MotorIdx) (s : State) :
    (txCommand i s).ch j =
      if j = i then
        { s.ch i with
          value := (cmdFor s i).getD (s.ch i).value
          requestTelemetry := (s.ch i).requestTelemetry || (cmdFor s i).isSome }
      else s.ch j := by
  unfold txCommand
  split
  · next v h => simp [ch_modCh, h]
  · next h =>
    rw [h]
    split
    · next hj => subst hj; simp
    · rfl

theorem txClearRequest_ch (i j : MotorIdx) (s : State) :
    (txClearRequest i s).ch j = if j = i then { s.ch i with requestTelemetry := false } else s.ch j := ch_modCh s i j _

/-- A frame is never empty and never longer than the output buffer, where that holds an element at all (R134). -/
theorem length_expand (cfg : Cfg) (packet : BitVec 16) :
    (expand cfg packet).length = min cfg.outLenMax ((Config.frameTail cfg.protocol packet).length + 1) := by
  simp [expand]

/-! ## The handler and the beats -/

theorem handlerBody_ch (i j : MotorIdx) (t : Timestamp) (s : State) :
    (handlerBody i t s).ch j =
      if j = i then
        if (s.ch i).isInput then
          { s.ch i with tcFlag := false, hasTelemetry := true, dmaArmed := false, reqEn := false }
        else if s.cfg.telemetryEnabled then
          { s.ch i with
            tcFlag := false, chanMode := .inputCapture, dmaDir := .fromTimer, outEn := false, isInput := true, dmaPos := 0,
            dmaCount := inLen s.cfg, dmaArmed := true, reqEn := true }
        else { s.ch i with tcFlag := false, dmaArmed := false, reqEn := false }
      else s.ch j := by
  unfold handlerBody
  dsimp only
  by_cases hj : j = i
  · subst hj
    simp only [if_true]
    split
    · simp
    · split <;> simp [setDirectionInput_ch]
  · simp only [if_neg hj]
    split
    · simp [ch_modCh_ne _ _ hj]
    · split <;> simp [setDirectionInput_ch, ch_modCh_ne _ _ hj, hj]

theorem handlerBody_log (i : MotorIdx) (t : Timestamp) (s : State) :
    (handlerBody i t s).log =
      s.log ++ if (s.ch i).isInput = false ∧ s.cfg.telemetryEnabled = true then [.dirToInput i] else [] := by
  unfold handlerBody
  dsimp only
  split
  · next h => simp [h]
  · next h => split <;> simp_all

theorem handlerBody_switchTime (i j : MotorIdx) (t : Timestamp) (s : State) :
    (handlerBody i t s).switchTime.get j =
      if j = i ∧ (s.ch i).isInput = false ∧ s.cfg.telemetryEnabled = true then drawStamp s.cfg t
      else s.switchTime.get j := by
  unfold handlerBody
  dsimp only
  split
  · next h => simp [h]
  · next h =>
    split
    · next h2 =>
      have : (s.ch i).isInput = false := by simpa using h
      simp [setDirectionInput, vget_set, h2, this]
    · next h2 => simp [h2]

end Sys2Proof.Machine
end

