-- ==== Sys2Proof/Laws/Completion.lean ====
section
/-! SUPPORT. What the handler and the beats can do, each once (R201, R208 to R213): where one answers a next state, what that
state is. -/

namespace Sys2Proof.Machine

theorem beatEnabled_iff (s : State) (i : MotorIdx) (d : DmaDir) :
    beatEnabled s i d = true ↔
      s.cfg.burst = false ∧ (s.ch i).configured = true ∧ (s.ch i).dmaArmed = true ∧ (s.ch i).reqEn = true ∧
        0 < (s.ch i).dmaCount ∧ (s.ch i).dmaDir = d := by
  simp [beatEnabled, Chan.inFlight, and_assoc]

/-- With per-channel DMA a channel is busy by its own flags (R33). -/
theorem busy_of_burst_eq_false {s : State} (h : s.cfg.burst = false) (i : MotorIdx) : s.busy i = (s.ch i).busy := by
  unfold State.busy groupRequest
  split
  · split <;> simp [h]
  · simp

/-- In the burst variant the request of its group makes a configured channel busy too (R143, R148). -/
theorem busy_of_group {s : State} {i : MotorIdx} {g : Nat} {gr : Group} (h : s.cfg.burst = true)
    (hc : (s.ch i).configured = true) (hg : groupOf s i = some g) (hgr : s.grp[g]? = some gr) :
    s.busy i = ((s.ch i).busy || gr.reqEn) := by
  simp [State.busy, groupRequest, hg, hgr, h, hc]

/-- A channel that is not configured is busy by its own flags only (R22, R284). -/
theorem busy_of_unconfigured {s : State} {i : MotorIdx} (hc : (s.ch i).configured = false) :
    s.busy i = (s.ch i).busy := by
  unfold State.busy groupRequest
  split
  · split <;> simp [hc]
  · simp

theorem groupBeatEnabled_iff (s : State) (g : Nat) :
    groupBeatEnabled s g = true ↔
      s.cfg.burst = true ∧
        ∃ gr, s.grp[g]? = some gr ∧ gr.dmaArmed = true ∧ gr.reqEn = true ∧ 0 < gr.dmaCount := by
  unfold groupBeatEnabled
  split
  · next gr h => simp [h, Group.inFlight, and_assoc]
  · next h => simp [h]

theorem runHandler_next {i : MotorIdx} {t : Timestamp} {s s' : State} (h : runHandler i t s = .next s') :
    (s.ch i).tcFlag = true ∧ s' = handlerBody i t s := by
  unfold runHandler at h
  split at h
  · next hc => exact ⟨hc, by cases h; rfl⟩
  · cases h

theorem runOutBeat_next {i : MotorIdx} {s s' : State} (h : runOutBeat i s = .next s') :
    beatEnabled s i .toTimer = true ∧ (s.ch i).dmaPos < s.cfg.outLenMax ∧
      s' = (emit (.dutyOut i (s.ch i).dmaPos (outDuty s i) (s.ch i).outEn)
        (noteUnwritten (Memory.read (s.ch i).outBuf (s.ch i).dmaPos).isNone s)).modCh i Chan.afterBeat := by
  unfold runOutBeat at h
  split at h
  · cases h
  · next h1 =>
    split at h
    · cases h
    · next h2 => exact ⟨by simpa using h1, by omega, by cases h; rfl⟩

/-- The duty value of a beat is the element read, where that was written (R209). -/
theorem outDuty_of_read {s : State} {i : MotorIdx} {d : Duty} (h : Memory.read (s.ch i).outBuf (s.ch i).dmaPos = some d) :
    outDuty s i = d :=
  Memory.readOr_of_read h

theorem runInBeat_next {i : MotorIdx} {t : Timestamp} {s s' : State} (h : runInBeat i t s = .next s') :
    beatEnabled s i .fromTimer = true ∧ (s.ch i).dmaPos < inBufLen s.cfg ∧
      s' = (emit (.captured i (s.ch i).dmaPos (drawStamp s.cfg t)) s).modCh i fun c =>
        { c with inBuf := Memory.write c.inBuf c.dmaPos (drawStamp s.cfg t) }.afterBeat := by
  unfold runInBeat at h
  split at h
  · cases h
  · next h1 =>
    split at h
    · cases h
    · next h2 => exact ⟨by simpa using h1, by omega, by cases h; rfl⟩

/-- The duties of a group beat are logged in order, after what the log held (R213). -/
theorem groupDuties_log (gr : Group) (is : List MotorIdx) (s : State) :
    (groupDuties gr is s).log = s.log ++ is.map fun i => .dutyOut i gr.dmaPos (laneDuty gr s i) (s.ch i).outEn := by
  simp [groupDuties]

/-- The last beat of a group's transfer leaves it disarmed with its request disabled, any other leaves both as they are
(R213, R333, R334). -/
theorem Group.afterBeat_inFlight (gr : Group) (h : gr.inFlight = true) :
    gr.afterBeat.inFlight = decide (1 < gr.dmaCount) ∧
      (gr.afterBeat.dmaArmed = decide (1 < gr.dmaCount)) ∧ (gr.afterBeat.reqEn = decide (1 < gr.dmaCount)) := by
  simp only [Group.inFlight, Bool.and_eq_true, decide_eq_true_eq] at h
  obtain ⟨⟨h1, h2⟩, h3⟩ := h
  by_cases h4 : 1 < gr.dmaCount
  · have h5 : gr.dmaCount - 1 ≠ 0 := by omega
    simp [Group.inFlight, Group.afterBeat, h1, h2, h4, h5]
  · have h5 : gr.dmaCount - 1 = 0 := by omega
    simp [Group.inFlight, Group.afterBeat, h4, h5]

theorem raiseTcOn_ch (is : List MotorIdx) (s : State) (j : MotorIdx) :
    (raiseTcOn is s).ch j = if j ∈ is then { s.ch j with tcFlag := true } else s.ch j := by
  induction is generalizing s with
  | nil => rfl
  | cons i is ih =>
    have : raiseTcOn (i :: is) s = raiseTcOn is (s.modCh i fun c => { c with tcFlag := true }) := rfl
    rw [this, ih, ch_modCh]
    by_cases hj : j = i
    · subst hj; simp
    · simp [hj]

theorem runGroupBeat_next {g : Nat} {s s' : State} (h : runGroupBeat g s = .next s') :
    ∃ gr, s.grp[g]? = some gr ∧ groupBeatEnabled s g = true ∧ gr.dmaPos < s.cfg.outLenMax ∧
      s' =
        if gr.dmaCount - 1 = 0 then
          raiseTcOn (groupMembers s g) ((groupDuties gr (groupMembers s g) s).modGrp g Group.afterBeat)
        else (groupDuties gr (groupMembers s g) s).modGrp g Group.afterBeat := by
  unfold runGroupBeat at h
  split at h
  · cases h
  · next gr hgr =>
    split at h
    · cases h
    · next h1 =>
      split at h
      · cases h
      · next h2 => exact ⟨gr, hgr, by simpa using h1, by omega, by cases h; rfl⟩

end Sys2Proof.Machine
end

