-- ==== Sys2Proof/Laws/Encoding.lean ====
section
/-! SUPPORT. Command words as numbers (30_encoding.md R111): the number of each operation's word, and what a field of a
word is. -/

namespace Sys2Proof

theorem toNat_append_eq {m n : Nat} (x : BitVec m) (y : BitVec n) : (x ++ y).toNat = x.toNat * 2 ^ n + y.toNat := by
  rw [BitVec.toNat_append, Nat.shiftLeft_eq, Nat.mul_comm, Nat.two_pow_add_eq_or_of_lt y.isLt]

/-- A field of a word (R12). -/
theorem wordField_toNat (w : Word) (lo len : Nat) : (wordField w lo len).toNat = w.toNat / 2 ^ lo % 2 ^ len := by
  simp [wordField, BitVec.extractLsb'_toNat, Nat.shiftRight_eq_div_pow]

theorem encode_cfg_toNat (idx : MotorIdx) (timer : TimerId) (ch : HwChannel) (n : Bool) :
    (encode (.cfg idx timer ch n)).toNat =
      2 ^ 28 + idx.val * 2 ^ 24 + timer.val * 2 ^ 20 + ch.val * 2 ^ 18 + n.toNat * 2 ^ 17 := by
  unfold encode
  repeat rw [toNat_append_eq]
  simp
  omega

theorem encode_beginUpdate_toNat : (encode .beginUpdate).toNat = 2 * 2 ^ 28 := by decide

theorem encode_tx_toNat (idx : MotorIdx) (value : BitVec 16) (tr : Bool) :
    (encode (.tx idx value tr)).toNat = 3 * 2 ^ 28 + idx.val * 2 ^ 24 + tr.toNat * 2 ^ 16 + value.toNat := by
  unfold encode
  repeat rw [toNat_append_eq]
  simp
  omega

theorem encode_go_toNat : (encode .go).toNat = 4 * 2 ^ 28 := by decide

theorem encode_gett_toNat (idx : MotorIdx) : (encode (.gett idx)).toNat = 5 * 2 ^ 28 + idx.val * 2 ^ 24 := by
  unfold encode encodeI
  repeat rw [toNat_append_eq]
  simp
  omega

theorem encode_rpminit_toNat : (encode .rpminit).toNat = 6 * 2 ^ 28 := by decide

theorem encode_rpmupd_toNat : (encode .rpmupd).toNat = 7 * 2 ^ 28 := by decide

theorem encode_fgyro_toNat (axis : Axis) : (encode (.fgyro axis)).toNat = 8 * 2 ^ 28 + axis.val * 2 ^ 24 := by
  unfold encode encodeA
  repeat rw [toNat_append_eq]
  simp
  omega

theorem encode_fdterm_toNat (axis : Axis) : (encode (.fdterm axis)).toNat = 9 * 2 ^ 28 + axis.val * 2 ^ 24 := by
  unfold encode encodeA
  repeat rw [toNat_append_eq]
  simp
  omega

/-! ## Decoding in numbers -/

theorem wordField_eq_zero (w : Word) (lo len : Nat) : wordField w lo len = 0 ↔ w.toNat / 2 ^ lo % 2 ^ len = 0 := by
  rw [← wordField_toNat, ← BitVec.toNat_inj]
  simp

theorem opField_eq_ofNat (w : Word) (k : Nat) (hk : k < 16) : opField w = BitVec.ofNat 4 k ↔ w.toNat / 2 ^ 28 = k := by
  have := w.isLt
  rw [opField, ← BitVec.toNat_inj, wordField_toNat, BitVec.toNat_ofNat]
  omega

theorem idxField_val (w : Word) : (idxField w).val = w.toNat / 2 ^ 24 % 16 := wordField_toNat w 24 4

theorem timerField_val (w : Word) : (timerField w).val = w.toNat / 2 ^ 20 % 16 := wordField_toNat w 20 4

theorem chField_val (w : Word) : (chField w).val = w.toNat / 2 ^ 18 % 4 := wordField_toNat w 18 2

theorem valueField_toNat (w : Word) : (valueField w).toNat = w.toNat % 2 ^ 16 := by
  rw [valueField, wordField_toNat]
  simp

theorem getLsbD_toNat (w : Word) (k : Nat) : (w.getLsbD k).toNat = w.toNat / 2 ^ k % 2 := by
  rw [BitVec.getLsbD, Nat.testBit_eq_decide_div_mod_eq]
  rcases Nat.mod_two_eq_zero_or_one (w.toNat / 2 ^ k) with h | h <;> simp [h]

theorem nField_toNat (w : Word) : (nField w).toNat = w.toNat / 2 ^ 17 % 2 := getLsbD_toNat w 17

theorem trField_toNat (w : Word) : (trField w).toNat = w.toNat / 2 ^ 16 % 2 := getLsbD_toNat w 16

/-- The decoder (R110 to R122) with every test a test on the word's number. -/
theorem decode_eq (n : Nat) (w : Word) :
    decode n w =
      if w.toNat / 2 ^ 28 = 1 then
        if w.toNat % 2 ^ 17 = 0 then
          if w.toNat / 2 ^ 24 % 16 < n then .ok (.cfg (idxField w) (timerField w) (chField w) (nField w))
          else .error .idxBeyondTable
        else .error .mustBeZero
      else if w.toNat / 2 ^ 28 = 2 then if w.toNat % 2 ^ 28 = 0 then .ok .beginUpdate else .error .mustBeZero
      else if w.toNat / 2 ^ 28 = 3 then
        if w.toNat / 2 ^ 17 % 2 ^ 7 = 0 then
          if w.toNat / 2 ^ 24 % 16 < n then .ok (.tx (idxField w) (valueField w) (trField w))
          else .error .idxBeyondTable
        else .error .mustBeZero
      else if w.toNat / 2 ^ 28 = 4 then if w.toNat % 2 ^ 28 = 0 then .ok .go else .error .mustBeZero
      else if w.toNat / 2 ^ 28 = 5 then
        if w.toNat % 2 ^ 24 = 0 then
          if w.toNat / 2 ^ 24 % 16 < n then .ok (.gett (idxField w)) else .error .idxBeyondTable
        else .error .mustBeZero
      else if w.toNat / 2 ^ 28 = 6 then if w.toNat % 2 ^ 28 = 0 then .ok .rpminit else .error .mustBeZero
      else if w.toNat / 2 ^ 28 = 7 then if w.toNat % 2 ^ 28 = 0 then .ok .rpmupd else .error .mustBeZero
      else if w.toNat / 2 ^ 28 = 8 then decodeA .fgyro w
      else if w.toNat / 2 ^ 28 = 9 then decodeA .fdterm w
      else .error .unassignedOp := by
  have h1 : opField w = 1 ↔ w.toNat / 2 ^ 28 = 1 := opField_eq_ofNat w 1 (by decide)
  have h2 : opField w = 2 ↔ w.toNat / 2 ^ 28 = 2 := opField_eq_ofNat w 2 (by decide)
  have h3 : opField w = 3 ↔ w.toNat / 2 ^ 28 = 3 := opField_eq_ofNat w 3 (by decide)
  have h4 : opField w = 4 ↔ w.toNat / 2 ^ 28 = 4 := opField_eq_ofNat w 4 (by decide)
  have h5 : opField w = 5 ↔ w.toNat / 2 ^ 28 = 5 := opField_eq_ofNat w 5 (by decide)
  have h6 : opField w = 6 ↔ w.toNat / 2 ^ 28 = 6 := opField_eq_ofNat w 6 (by decide)
  have h7 : opField w = 7 ↔ w.toNat / 2 ^ 28 = 7 := opField_eq_ofNat w 7 (by decide)
  have h8 : opField w = 8 ↔ w.toNat / 2 ^ 28 = 8 := opField_eq_ofNat w 8 (by decide)
  have h9 : opField w = 9 ↔ w.toNat / 2 ^ 28 = 9 := opField_eq_ofNat w 9 (by decide)
  have hidx : ∀ i : Instr, i.motorIdx = some (idxField w) →
      checkIdx n i = if w.toNat / 2 ^ 24 % 16 < n then .ok i else .error .idxBeyondTable := by
    intro i hi
    simp only [checkIdx, Instr.wellFormed, hi, idxField_val, decide_eq_true_eq]
  have hz : ∀ len, wordField w 0 len = 0 ↔ w.toNat % 2 ^ len = 0 := by
    intro len
    rw [wordField_eq_zero, Nat.pow_zero, Nat.div_one]
  simp only [decode, decodeC, decodeT, decodeI, decodeZ, h1, h2, h3, h4, h5, h6, h7, h8, h9, hz]
  rw [hidx _ rfl, hidx _ rfl, hidx _ rfl]
  simp only [wordField_eq_zero]

/-- A format A word in numbers (R111, R119, R120). -/
theorem decodeA_eq_ok (mk : Axis → Instr) (w : Word) (i : Instr) :
    decodeA mk w = .ok i ↔
      w.toNat / 2 ^ 26 % 4 = 0 ∧ w.toNat % 2 ^ 24 = 0 ∧ ∃ a : Axis, w.toNat / 2 ^ 24 % 4 = a.val ∧ i = mk a := by
  have hz : wordField w 0 24 = 0 ↔ w.toNat % 2 ^ 24 = 0 := by
    rw [wordField_eq_zero, Nat.pow_zero, Nat.div_one]
  have hf : (wordField w 24 2).toNat = w.toNat / 2 ^ 24 % 4 := wordField_toNat w 24 2
  have h26 : wordField w 26 2 = 0 ↔ w.toNat / 2 ^ 26 % 4 = 0 := wordField_eq_zero w 26 2
  unfold decodeA
  simp only [h26, hz]
  split
  · next h =>
    split
    · next h3 =>
      simp only [Except.ok.injEq]
      constructor
      · rintro rfl
        exact ⟨h.1, h.2, ⟨_, h3⟩, hf.symm, rfl⟩
      · rintro ⟨-, -, a, ha, rfl⟩
        congr 1
        exact Fin.ext (by show (wordField w 24 2).toNat = a.val; omega)
    · next h3 =>
      simp only [reduceCtorEq, false_iff]
      rintro ⟨-, -, a, ha, -⟩
      have := a.isLt
      omega
  · next h =>
    simp only [reduceCtorEq, false_iff]
    rintro ⟨h1, h2, -⟩
    exact h ⟨h1, h2⟩

end Sys2Proof
end

