-- ==== Sys2Proof/Laws/PerInstr.lean ====
section
/-! SUPPORT. One lemma per constructor of Instr: the operation code its command word carries (30_encoding.md R110). -/

namespace Sys2Proof.Laws.EncodedOp

/-- The `OP` of R110's table. -/
def opcodeOf : Instr → Nat
  | .cfg _ _ _ _ => 1
  | .beginUpdate => 2
  | .tx _ _ _ => 3
  | .go => 4
  | .gett _ => 5
  | .rpminit => 6
  | .rpmupd => 7
  | .fgyro _ => 8
  | .fdterm _ => 9

/-- The command word of an operation carries its `OP` in bits 31:28 (R110, R111). -/
def Statement (i : Instr) : Prop := (opField (encode i)).toNat = opcodeOf i

theorem cfg (idx : MotorIdx) (timer : TimerId) (ch : HwChannel) (n : Bool) : Statement (.cfg idx timer ch n) := by
  have h := n.toNat_lt
  rw [Statement, opField, wordField_toNat, encode_cfg_toNat, opcodeOf]
  omega

theorem beginUpdate : Statement .beginUpdate := by
  rw [Statement, opField, wordField_toNat, encode_beginUpdate_toNat, opcodeOf]
  decide

theorem tx (idx : MotorIdx) (value : BitVec 16) (tr : Bool) : Statement (.tx idx value tr) := by
  have h := tr.toNat_lt
  have h2 := value.isLt
  rw [Statement, opField, wordField_toNat, encode_tx_toNat, opcodeOf]
  omega

theorem go : Statement .go := by
  rw [Statement, opField, wordField_toNat, encode_go_toNat, opcodeOf]
  decide

theorem gett (idx : MotorIdx) : Statement (.gett idx) := by
  rw [Statement, opField, wordField_toNat, encode_gett_toNat, opcodeOf]
  omega

theorem rpminit : Statement .rpminit := by
  rw [Statement, opField, wordField_toNat, encode_rpminit_toNat, opcodeOf]
  decide

theorem rpmupd : Statement .rpmupd := by
  rw [Statement, opField, wordField_toNat, encode_rpmupd_toNat, opcodeOf]
  decide

theorem fgyro (axis : Axis) : Statement (.fgyro axis) := by
  rw [Statement, opField, wordField_toNat, encode_fgyro_toNat, opcodeOf]
  omega

theorem fdterm (axis : Axis) : Statement (.fdterm axis) := by
  rw [Statement, opField, wordField_toNat, encode_fdterm_toNat, opcodeOf]
  omega

end Sys2Proof.Laws.EncodedOp
end

