-- ==== Sys2Proof/Laws/Rpm.lean ====
section
/-! SUPPORT. What each operation over the notch table and the scheduler does to an entry and to the cursor (R42, R234, R243,
R248, R249, R257). -/

namespace Sys2Proof.Machine

/-- Writing a coefficient is seen at its own entry only. -/
theorem coefAt_setCoef (b b' : BankIdx) (a a' : Axis) (m m' : MotorIdx) (h h' : Nat) (c : Coef) (s : State) :
    coefAt (setCoef b a m h c s) b' a' m' h' =
      if b' = b ∧ a' = a ∧ m' = m ∧ h' = h then some c else coefAt s b' a' m' h' := by
  simp only [coefAt, setCoef, vget_set]
  by_cases hb : b' = b
  · subst hb
    by_cases ha : a' = a
    · subst ha
      by_cases hm : m' = m
      · subst hm; simp [Memory.read_write]
      · simp [vget_set, hm]
    · simp [vget_set, ha]
  · simp [hb]

/-- Writing a sample memory is seen at its own entry only. -/
theorem delayAt_setDelay (b b' : BankIdx) (a a' : Axis) (m m' : MotorIdx) (h h' : Nat) (d : Delay) (s : State) :
    delayAt (setDelay b a m h d s) b' a' m' h' =
      if b' = b ∧ a' = a ∧ m' = m ∧ h' = h then some d else delayAt s b' a' m' h' := by
  simp only [delayAt, setDelay, vget_set]
  by_cases hb : b' = b
  · subst hb
    by_cases ha : a' = a
    · subst ha
      by_cases hm : m' = m
      · subst hm; simp [Memory.read_write]
      · simp [vget_set, hm]
    · simp [vget_set, ha]
  · simp [hb]

/-- Writing a coefficient leaves every sample memory. -/
@[simp] theorem delayAt_setCoef (b b' : BankIdx) (a a' : Axis) (m m' : MotorIdx) (h h' : Nat) (c : Coef) (s : State) :
    delayAt (setCoef b a m h c s) b' a' m' h' = delayAt s b' a' m' h' := by
  simp only [delayAt, setCoef, vget_set]
  by_cases hb : b' = b
  · subst hb; simp
  · simp [hb]

/-- Writing a sample memory leaves every coefficient. -/
@[simp] theorem coefAt_setDelay (b b' : BankIdx) (a a' : Axis) (m m' : MotorIdx) (h h' : Nat) (d : Delay) (s : State) :
    coefAt (setDelay b a m h d s) b' a' m' h' = coefAt s b' a' m' h' := by
  simp only [coefAt, setDelay, vget_set]
  by_cases hb : b' = b
  · subst hb; simp
  · simp [hb]

/-- A recomputation writes the three axes of one triple and nothing else of the table (R243, R248). -/
theorem coefAt_recomputeAt (c : Cursor) (s : State) (b : BankIdx) (a : Axis) (m : MotorIdx) (h : Nat) :
    coefAt (recomputeAt c s) b a m h =
      if b = c.b ∧ m = c.m ∧ h = c.h then some (bankCoeffs s.cfg c.b (tripleFreq s c)) else coefAt s b a m h := by
  simp only [recomputeAt, coefAt_setCoef]
  have ha : a = 0 ∨ a = 1 ∨ a = 2 := (show ∀ x : Axis, x = 0 ∨ x = 1 ∨ x = 2 by decide) a
  by_cases hk : b = c.b ∧ m = c.m ∧ h = c.h
  · obtain ⟨rfl, rfl, rfl⟩ := hk
    rcases ha with rfl | rfl | rfl <;> simp
  · rw [if_neg hk, if_neg (by tauto), if_neg (by tauto), if_neg (by tauto)]

@[simp] theorem delayAt_recomputeAt (c : Cursor) (s : State) (b : BankIdx) (a : Axis) (m : MotorIdx) (h : Nat) :
    delayAt (recomputeAt c s) b a m h = delayAt s b a m h := by
  simp [recomputeAt]

/-- RPMINIT writes every notch of every motor in use (R234 step I1, R235). -/
theorem coefAt_rpmInitialise (s : State) (b : BankIdx) (a : Axis) (m : MotorIdx) (h : Nat) :
    coefAt (rpmInitialise s) b a m h =
      if m.val < s.cfg.motorCount ∧ h < s.cfg.harmonics.get b then some (bankCoeffs s.cfg b (s.cfg.mul (s.cfg.minHz.get b) h))
      else coefAt s b a m h := by
  simp only [coefAt, rpmInitialise, vget_ofFn, initBank]
  by_cases hm : m.val < s.cfg.motorCount
  · rw [if_pos hm, Memory.read_writeFrom]
    simp only [initialCoefs, List.length_map, List.length_range, Nat.zero_le, true_and, Nat.zero_add, hm, Nat.sub_zero]
    by_cases hh : h < s.cfg.harmonics.get b
    · simp [hh]
    · simp [hh]
  · simp [hm]

theorem delayAt_rpmInitialise (s : State) (b : BankIdx) (a : Axis) (m : MotorIdx) (h : Nat) :
    delayAt (rpmInitialise s) b a m h =
      if m.val < s.cfg.motorCount ∧ h < s.cfg.harmonics.get b then some Config.delay0 else delayAt s b a m h := by
  simp only [delayAt, rpmInitialise, vget_ofFn, initBank]
  by_cases hm : m.val < s.cfg.motorCount
  · rw [if_pos hm, Memory.read_writeFrom]
    simp only [initialDelays, List.length_replicate, Nat.zero_le, true_and, Nat.zero_add, hm, Nat.sub_zero]
    by_cases hh : h < s.cfg.harmonics.get b
    · simp [hh]
    · simp [hh]
  · simp [hm]

/-- The operations of the exact number system are those of the rationals (R258). -/
theorem arith_exact {cfg : Cfg} (h : cfg.numerics = .exact) (x y : Num) :
    cfg.add x y = x + y ∧ cfg.sub x y = x - y ∧ cfg.mul x y = x * y ∧ cfg.div x y = x / y ∧
      cfg.system.c049 = 49 / 100 := by
  simp [Cfg.add, Cfg.sub, Cfg.mul, Cfg.div, Cfg.system, h]

/-- `x * 1 = x` in every number system (R258). -/
@[simp] theorem mul_one_num (cfg : Cfg) (x : Num) : cfg.mul x 1 = x := cfg.system.mul_one x

/-- The fundamental of a motor is its frequency base, in every number system (R244, R258). -/
@[simp] theorem one_mul_num (cfg : Cfg) (x : Num) : cfg.mul 1 x = x := cfg.system.one_mul x

/-- What the clamp examples of R247 say of the threshold for `minHz = 100`, in every number system (R258). -/
theorem half_hundred_num (cfg : Cfg) :
    cfg.mul (1 / 2) 100 ≤ 60 ∧ 40 < cfg.mul (1 / 2) 100 := cfg.system.half_hundred.symm

/-- A sample that passes notches writes sample memories and nothing else (R257). -/
theorem filterThrough_state (b : BankIdx) (axis : Axis) (k : Nat) (ns : List (MotorIdx × Nat)) (x : Num) (s : State) :
    (filterThrough b axis k ns x s).2 = { s with bank := (filterThrough b axis k ns x s).2.bank } := by
  induction ns generalizing k x s with
  | nil => rfl
  | cons p ns ih =>
    simp only [filterThrough]
    rw [ih]
    rfl

/-- No coefficient changes under a filter call (R257). -/
theorem coefAt_filterThrough (b : BankIdx) (axis : Axis) (k : Nat) (ns : List (MotorIdx × Nat)) (x : Num) (s : State)
    (b' : BankIdx) (a' : Axis) (m' : MotorIdx) (h' : Nat) :
    coefAt (filterThrough b axis k ns x s).2 b' a' m' h' = coefAt s b' a' m' h' := by
  induction ns generalizing k x s with
  | nil => rfl
  | cons p ns ih => simp [filterThrough, ih]

/-- A notch that the sample does not pass keeps its sample memory (R257). -/
theorem delayAt_filterThrough_of_not_mem (b : BankIdx) (axis : Axis) (k : Nat) (ns : List (MotorIdx × Nat)) (x : Num)
    (s : State) (b' : BankIdx) (a' : Axis) (m' : MotorIdx) (h' : Nat) (hn : ¬ (b' = b ∧ a' = axis ∧ (m', h') ∈ ns)) :
    delayAt (filterThrough b axis k ns x s).2 b' a' m' h' = delayAt s b' a' m' h' := by
  induction ns generalizing k x s with
  | nil => rfl
  | cons p ns ih =>
    obtain ⟨m, h⟩ := p
    simp only [List.mem_cons, Prod.mk.injEq] at hn
    simp only [filterThrough]
    rw [ih _ _ _ (by tauto), delayAt_setDelay, if_neg (by tauto)]

/-- The three places Advance can put the cursor (R249). -/
theorem advance_cur (c : Cursor) (s : State) :
    (advance c s).sched.cur = some
      (if c.h + 1 = s.cfg.harmonics.get c.b then
        (if c.b = 0 ∧ 0 < s.cfg.harmonics.get 1 then { m := c.m, b := 1, h := 0 }
        else { m := nextMotor s.cfg c.m, b := firstBank s.cfg, h := 0 })
      else { m := c.m, b := c.b, h := c.h + 1 }) := by
  unfold advance
  split
  · split <;> rfl
  · rfl

/-- Advance writes the cursor and, on leaving a motor, one frequency base (R250). -/
theorem advance_freqBase (c : Cursor) (s : State) :
    (advance c s).sched.freqBase =
      if c.h + 1 = s.cfg.harmonics.get c.b ∧ ¬ (c.b = 0 ∧ 0 < s.cfg.harmonics.get 1) then
        s.sched.freqBase.set (refreshMotor s.cfg c.m).val
          (s.cfg.mul s.sched.erpmToHz (s.sched.smoothed.get (refreshMotor s.cfg c.m))) (refreshMotor s.cfg c.m).isLt
      else s.sched.freqBase := by
  unfold advance
  by_cases h1 : c.h + 1 = s.cfg.harmonics.get c.b
  · by_cases h2 : c.b = 0 ∧ 0 < s.cfg.harmonics.get 1
    · rw [if_pos h1, if_pos h2, if_neg (by tauto)]; rfl
    · rw [if_pos h1, if_neg h2, if_pos ⟨h1, h2⟩]; rfl
  · rw [if_neg h1, if_neg (by tauto)]; rfl

@[simp] theorem advance_inited (c : Cursor) (s : State) : (advance c s).sched.inited = s.sched.inited := by
  unfold advance
  split
  · split <;> rfl
  · rfl

@[simp] theorem advance_total (c : Cursor) (s : State) : (advance c s).sched.total = s.sched.total := by
  unfold advance
  split
  · split <;> rfl
  · rfl

@[simp] theorem advance_budget (c : Cursor) (s : State) : (advance c s).sched.budget = s.sched.budget := by
  unfold advance
  split
  · split <;> rfl
  · rfl

end Sys2Proof.Machine
end

