-- ==== Sys2Proof/Tests/Slice0.lean ====
section
/-! SUPPORT. The model's own tests, expected values from 95_test_vectors.md (the vector is named at each group), and for every
statement with hypotheses a witness that meets them. -/

namespace Sys2Proof.Tests

open Sys2Proof.Machine

/-! ## WellFormed: the check refuses an ill-formed term (R122) -/

theorem test_illformed_cfg : (Instr.cfg 8 1 0 false).wellFormed 8 = false := by decide
theorem test_illformed_tx : (Instr.tx 15 0 false).wellFormed 8 = false := by decide
theorem test_illformed_gett : (Instr.gett 8).wellFormed 8 = false := by decide
theorem test_wellformed_last : (Instr.gett 7).wellFormed 8 = true := by decide

/-! ## Decode: words written out field by field from R111 to R120 (V1) -/

-- OP 0001, IDX 0010, TIMER 0011, CH 01, N 1, 17 zero bits
theorem test_decode_cfg : decode 16 0b0001_0010_0011_01_1_00000000000000000#32 = .ok (.cfg 2 3 1 true) := by decide
theorem test_decode_cfg_max : decode 16 0x1FFE0000#32 = .ok (.cfg 15 15 3 true) := by decide
theorem test_decode_begin : decode 16 0b0010_0000000000000000000000000000#32 = .ok .beginUpdate := by decide
-- OP 0011, IDX 0011, 7 zero bits, TR 1, VALUE 0x0417
theorem test_decode_tx : decode 16 0b0011_0011_0000000_1_0000010000010111#32 = .ok (.tx 3 1047 true) := by decide
theorem test_decode_tx_max : decode 16 0x3F01FFFF#32 = .ok (.tx 15 0xFFFF true) := by decide
theorem test_decode_go : decode 16 0b0100_0000000000000000000000000000#32 = .ok .go := by decide
theorem test_decode_gett : decode 16 0b0101_0010_000000000000000000000000#32 = .ok (.gett 2) := by decide
theorem test_decode_rpminit : decode 16 0b0110_0000000000000000000000000000#32 = .ok .rpminit := by decide
theorem test_decode_rpmupd : decode 16 0b0111_0000000000000000000000000000#32 = .ok .rpmupd := by decide
theorem test_decode_fgyro : decode 16 0b1000_00_01_000000000000000000000000#32 = .ok (.fgyro 1) := by decide
theorem test_decode_fdterm : decode 16 0b1001_00_10_000000000000000000000000#32 = .ok (.fdterm 2) := by decide

theorem test_encode_words :
    [Instr.cfg 0 1 2 false, .beginUpdate, .tx 0 500 true, .go, .gett 2, .rpminit, .rpmupd, .fgyro 1, .fdterm 2].map encode =
      [0x10180000#32, 0x20000000#32, 0x300101F4#32, 0x40000000#32, 0x52000000#32, 0x60000000#32, 0x70000000#32,
        0x81000000#32, 0x92000000#32] := by decide

theorem test_cycle_words :
    (expandCycle [100, 200, 300]).map encode =
      [0x20000000#32, 0x30000064#32, 0x310000C8#32, 0x3200012C#32, 0x40000000#32, 0x70000000#32] := by decide

/-- The reserved words of V1. -/
def reservedWords : List Word :=
  [0x00000000, 0xA0000000, 0xFFFFFFFF, 0x20000001, 0x40800000, 0x10180001, 0x30020000, 0x50000001, 0x83000000, 0x93000000,
    0x84000000, 0x58000000, 0x38000000]

theorem test_reserved_words : reservedWords.all (fun w => (decode 8 w).toOption == none) = true := by decide
theorem test_table_word_reserved : decodeTableWord 32 0x83000000 = none := by decide
theorem test_table_word_bits : decodeTableWord 32 0x133010417 = some (.tx 3 1047 true) := by decide

-- the examples of R125
theorem test_assemble :
    assembleLine 3 "CFG 0, 1, 2, 0".toList = some [(0x10180000, 0)] ∧
      assembleLine 3 "TX 3, 0x417,1 ; full packet".toList = some [(0x33010417, 0)] ∧
      assembleLine 3 "GETT 2".toList = some [(0x52000000, 0)] ∧
      assembleLine 3 "FDTERM 2, 0.0".toList = some [(0x92000000, 0)] ∧
      assembleLine 3 "FGYRO 0, 12.5".toList = some [(0x80000000, 25 / 2)] ∧
      (assembleLine 3 "CYCLE 100, 200, 300".toList).map (fun ws => ws.map Prod.fst) =
        some [0x20000000, 0x30000064, 0x310000C8, 0x3200012C, 0x40000000, 0x70000000] := by decide +kernel
theorem test_assemble_rejects :
    assembleLine 3 "FGYRO 3, 1.0".toList = none ∧ assembleLine 3 "TX 16, 0, 0".toList = none ∧
      assembleLine 3 "GO 1".toList = none ∧ assembleLine 3 "; nothing".toList = some [] := by decide +kernel

/-! ## Fold, words and decoders (V2 to V5) -/

theorem test_fold :
    [0x834F#16, 0x834E#16, 0x8340#16, 0x824F#16, 0x034F#16, 0x0000#16, 0xFFFF#16, 0x0001#16].map fold =
      [0, 1, 0xF, 1, 8, 0, 0, 1] := by decide
theorem test_wordOf :
    [0x000#12, 0x001#12, 0x123#12, 0x0A8#12, 0x0D2#12, 0x834#12, 0xABC#12, 0xFFF#12].map wordOf =
      [0x0000, 0x0011, 0x1230, 0x0A82, 0x0D2F, 0x834F, 0xABCD, 0xFFFF] := by decide
theorem test_bitOf :
    [(-2147483648 : Int), -20, -11, -10, -9, -1, 0, 1, 10, 11, 12, 20, 2147483647].map bitOf =
      [false, false, false, false, true, true, true, false, false, true, true, true, true] := by decide
theorem test_pairDiff :
    [pairDiff 32 1 [14, 1] 0, pairDiff 32 1 [0xFFFFFFFA, 1] 0, pairDiff 32 1 [0, 0x80000000] 0,
      pairDiff 32 1 [0, 0x7FFFFFFF] 0] = [-13, 7, -2147483648, 2147483647] := by decide
-- the counter of a 16-bit timer wraps at 65536
theorem test_pairDiff_narrow : [pairDiff 16 1 [65530, 1] 0, pairDiff 16 1 [0, 0x8000] 0] = [7, -32768] := by decide

/-- The capture of row d of V4. -/
def captureD : List Timestamp := [0, 14, 21, 28, 35, 42, 49, 63, 77, 84, 98, 105, 112, 126, 140, 154, 168]

theorem test_dshot_d : decodeDshot resetCfg captureD = .valid 0x834 := by decide
theorem test_dshot_f :
    decodeDshot resetCfg [0, 14, 21, 35, 42, 56, 63, 77, 91, 105, 119, 126, 133, 147, 161, 168, 182] = .valid 0xABC := by decide
theorem test_dshot_i :
    decodeDshot resetCfg [0, 14, 21, 28, 35, 42, 49, 63, 77, 84, 98, 105, 112, 126, 140, 154, 161] = .invalid := by decide
theorem test_dshot_j :
    dshotWord 32 1 [0, 14, 21, 28, 35, 42, 49, 56, 77, 84, 98, 105, 112, 126, 140, 154, 168] = 0x814F#16 := by decide
theorem test_dshot_k : decodeDshot resetCfg (List.replicate 17 5) = .valid 0xFFF := by decide
theorem test_dshot_m :
    decodeDshot resetCfg [0, 14, 1, 8, 15, 2, 9, 3, 17, 4, 18, 5, 12, 6, 0, 14, 8] = .valid 0x834 := by decide
theorem test_dshot_n : decodeDshot resetCfg (captureD.map fun t => (t + 0xFFFFFFEC) % 2 ^ 32) = .valid 0x834 := by decide
theorem test_dshot_stride2 :
    decodeDshot { resetCfg with pairStride := 2 }
      [0, 14, 20, 27, 33, 40, 46, 53, 59, 66, 72, 79, 85, 99, 105, 119, 125, 132, 138, 152, 158, 165, 171, 178, 184, 198, 204,
        218, 224, 238, 244, 258] = .valid 0x834 := by decide

theorem test_nibbleOf :
    [(-24 : Int), -1, 0, 1, 2, 3, 4, 5, 6, 44, 45, 46, 47, 71].map (nibbleOf resetCfg) =
      [0, 0, 0, 0, 1, 1, 1, 2, 2, 15, 15, 15, 16, 24] := by decide
theorem test_proshot_2 : decodeProshot resetCfg [0, 48, 81, 117, 186] = .valid 0x834 := by decide
theorem test_proshot_4 : proshotWord resetCfg [0, 49, 80, 118, 185] = 0x825E#16 := by decide
-- V5 table: raw nibbles 16 and 24 are masked to 0 and 8, distance 23 is clamped, distance 69 is 15
theorem test_proshot_masked : proshotWord resetCfg [0, 72, 167, 190, 259] = 0x080F#16 := by decide
theorem test_proshot_5 : decodeProshot resetCfg [0, 48, 81, 117, 183] = .invalid := by decide
theorem test_proshot_6 : decodeProshot resetCfg [90, 42, 75, 15, 84] = .valid 0x834 := by decide
-- a base below 0 (assumption log 30): 8 = -16 + 3*8, four times
theorem test_proshot_negative_base :
    decodeProshot { resetCfg with proshotBase := -16 } [0, 8, 16, 24, 32] = .valid 0x888 := by decide
theorem test_proshot_stride2 :
    decodeProshot { resetCfg with pairStride := 2 } [0, 48, 58, 91, 101, 137, 147, 216] = .valid 0x834 := by decide

/-! ## Small states -/

/-- Two motors of a table of 8, two timers. -/
def smallCfg : Cfg := { resetCfg with nMotorsMax := 8, nTimersMax := 2, motorCount := 2 }

/-- The block after reset with the small configuration. -/
def small : State := { State.reset with cfg := smallCfg }

/-- A channel bound to timer 1, hardware channel 2, enabled and idle. -/
def idle : Chan := { Chan.reset with timer := 1, ch := 2, configured := true, outEn := true }

/-- The channel loaded with a frame of two values and started. -/
def sending : Chan := { idle with dmaArmed := true, reqEn := true, dmaCount := 2, outLen := 2, outBuf := [(0, 14), (1, 7)] }

/-- The channel receiving, with `n` counts still to come. -/
def receiving (n : Nat) : Chan :=
  { idle with
    isInput := true, chanMode := .inputCapture, dmaDir := .fromTimer, outEn := false, dmaArmed := true, reqEn := true,
    dmaPos := 17 - n, dmaCount := n, inBuf := captureD.zipIdx.map fun p => (p.2, p.1) }

/-- The channel with a whole capture flagged. -/
def flagged : Chan := { receiving 0 with dmaArmed := false, reqEn := false, hasTelemetry := true }

/-- The small block with `c` as channel 0 and a group for timer 1. -/
def one (c : Chan) : State := { small.setCh 0 c with grp := [Group.fresh 1] }

/-- The small block with the two channels of `one` on timer 1. -/
def two (c d : Chan) : State := (one c).setCh 1 { d with ch := 0 }

/-- The outcome is a next state with the property. -/
def nextSat (o : Host.Outcome State Fault Refusal) (p : State → Bool) : Bool :=
  match o with
  | .next s => p s
  | .fault _ => false
  | .refused _ => false

/-! ## One step at a time (V10, V11, P1) -/

-- V10 c, e, f, b
theorem test_cfg_accepts :
    nextSat (exec (.cfg 1 1 3 true) (one idle)) (fun t =>
      decide ((t.ch 1).configured = true ∧ (t.ch 1).timer = 1 ∧ (t.ch 1).ch = 3 ∧ (t.ch 1).outputN = true ∧ t.grp.length = 1 ∧
        t.refused = [])) = true := by decide
theorem test_cfg_refuses :
    nextSat (exec (.cfg 2 1 0 false) small) (fun t => decide (t.refused = [.cfgBadIndex])) = true ∧
      nextSat (exec (.cfg 1 1 3 false) { small with cfg := { smallCfg with chPerTimer := 3 } }) (fun t =>
        decide (t.refused = [.cfgBadIndex])) = true ∧
      nextSat (exec (.cfg 0 1 3 false) (one idle)) (fun t => decide (t.refused = [.cfgTwice])) = true ∧
      nextSat (exec (.cfg 1 1 2 false) (one idle)) (fun t => decide (t.refused = [.cfgDuplicateBinding])) = true ∧
      nextSat (exec (.cfg 1 4 0 false) { one idle with grp := [Group.fresh 1, Group.fresh 3] }) (fun t =>
        decide (t.refused = [.cfgTimerTableFull] ∧ (t.ch 1).configured = false)) = true := by decide

-- P1 step 10; V10 u
theorem test_begin_decodes :
    nextSat (exec .beginUpdate (one flagged)) (fun t =>
      decide ((t.ch 0).telemetryValue = 2100 ∧ t.dbgValue.get 0 = 2100 ∧ (t.ch 0).hasTelemetry = false ∧
        (t.ch 0).isInput = false ∧ (t.ch 0).outEn = true ∧ t.log = [.decoded 0 (.valid 0x834), .dirToOutput 0])) = true := by
  decide
-- an invalid capture costs one count, in W_CNT bits; a capture that lacks an element leaves its mark and is consumed (R72)
theorem test_begin_counts_in_width :
    nextSat (exec .beginUpdate { one { flagged with inBuf := (captureD.set 16 161).zipIdx.map fun p => (p.2, p.1) } with
        cfg := { smallCfg with wCnt := 8 }, invalidCount := 255 }) (fun t =>
      decide (t.invalidCount = 0 ∧ (t.ch 0).hasTelemetry = false ∧ t.faults = [])) = true := by decide
theorem test_begin_unwritten :
    nextSat (runAct (.b2 0) (one { flagged with inBuf := flagged.inBuf.take 16 })) (fun t =>
      decide (t.faults = [.readUnwritten] ∧ t.free = 1 ∧ t.micro.length = 1)) = true := by decide
-- V10 s: 5 of 17 beats done
theorem test_begin_silent :
    nextSat (exec .beginUpdate (one (receiving 12))) (fun t =>
      decide ((t.ch 0).dmaArmed = false ∧ (t.ch 0).isInput = false ∧ (t.ch 0).dmaPos = 5 ∧ (t.ch 0).dmaCount = 12 ∧
        (t.ch 0).outEn = true ∧ t.invalidCount = 0 ∧ t.log = [.dirToOutput 0])) = true := by decide

-- V10 n
theorem test_tx_command :
    nextSat (exec (.tx 0 1047 false)
      { one idle with collab := { cmdFor := Vector.replicate 16 (some 21), cmdQueued := true, cmdOutputEnabled := false } })
      (fun t => decide ((t.ch 0).value = 21 ∧ (t.ch 0).requestTelemetry = false ∧ (t.ch 0).dmaArmed = true ∧
        t.grp.map Group.timerDmaSources = [0b0100])) = true := by decide
-- V10 h, a
theorem test_tx_overrun :
    nextSat (exec (.tx 0 49 false) (one sending)) (fun t => decide (t.faults = [.overrun 0] ∧ t.ch 0 = sending)) = true ∧
      exec (.tx 1 100 false) small = .next small := by
  constructor
  · decide
  · rfl

-- P2 step 8
theorem test_go_starts :
    nextSat (exec .go { one { idle with dmaArmed := true, dmaCount := 2 } with
        grp := [{ Group.fresh 1 with timerDmaSources := 0b0101, counter := 9 }, Group.fresh 3] })
      (fun t => decide ((t.ch 0).reqEn = true ∧ (t.ch 1).reqEn = false ∧ t.grp.map Group.timerDmaSources = [0, 0] ∧
        t.grp.map Group.counter = [0, 0] ∧
        t.log = [.counterReset 1, .sourcesEnabled 1 0b0101, .counterReset 3, .sourcesEnabled 3 0])) = true := by decide
-- V10 l
theorem test_go_skipped :
    nextSat (exec .go { one idle with
        collab := { cmdFor := Vector.replicate 16 none, cmdQueued := true, cmdOutputEnabled := false } })
      (fun t => decide (t.log = [])) = true := by decide

-- P1 step 11; V10 q
theorem test_gett : nextSat (exec (.gett 0) (one { idle with telemetryValue := 2100 })) (fun t =>
    decide (t.resp = .speed 0x0834)) = true := by decide

-- V11 b, h, i, e, j
theorem test_last_out_beat :
    nextSat (runOutBeat 0 (one { sending with dmaPos := 1, dmaCount := 1 })) (fun t =>
      decide ((t.ch 0).dmaPos = 2 ∧ (t.ch 0).dmaCount = 0 ∧ (t.ch 0).tcFlag = true ∧ t.log = [.dutyOut 0 1 7 true])) = true := by
  decide
-- an element nothing has written: the beat completes, with the mark (R72, R283)
theorem test_unwritten_out_beat :
    nextSat (runOutBeat 0 (one { sending with outBuf := [(0, 14)], dmaPos := 1, dmaCount := 1 })) (fun t =>
      decide ((t.ch 0).dmaPos = 2 ∧ (t.ch 0).tcFlag = true ∧ t.log.length = 1 ∧ t.faults = [.readUnwritten] ∧ t.free = 1)) =
      true := by decide
theorem test_last_in_beat :
    nextSat (runInBeat 0 (168 + 2 ^ 32) (one (receiving 1))) (fun t =>
      decide ((t.ch 0).dmaPos = 17 ∧ (t.ch 0).tcFlag = true ∧ (t.ch 0).hasTelemetry = false ∧ t.log = [.captured 0 16 168])) =
      true := by decide
theorem test_handler_to_input :
    nextSat (runHandler 0 77 (one { sending with dmaCount := 0, tcFlag := true })) (fun t =>
      decide ((t.ch 0).isInput = true ∧ (t.ch 0).dmaCount = 17 ∧ (t.ch 0).outEn = false ∧ (t.ch 0).hasTelemetry = false ∧
        t.switchTime.get 0 = 77 ∧ t.log = [.dirToInput 0])) = true := by decide
theorem test_handler_flags :
    nextSat (runHandler 0 77 (one { receiving 0 with tcFlag := true })) (fun t =>
      decide ((t.ch 0).hasTelemetry = true ∧ (t.ch 0).isInput = true ∧ (t.ch 0).reqEn = false ∧ (t.ch 0).tcFlag = false ∧
        t.log = [])) = true := by decide

/-! ## The scheduler (V6 to V9, P3) -/

theorem test_budget :
    [({ resetCfg with tLoop := 1 / 8000 }, 24), ({ resetCfg with tLoop := 1 / 4000 }, 6), ({ resetCfg with tLoop := 1 / 3200 }, 24),
      ({ resetCfg with minUpdateInterval := 1 / 10 }, 4), ({ resetCfg with tLoop := 1 / 100000 }, 1),
      ({ resetCfg with tLoop := 1 / 100000 }, 201), ({ resetCfg with tLoop := 1 / 100000 }, 202)].map
      (fun p => budgetOf p.1 p.2) = [3, 2, 8, 0, 0, 2, 3] := by decide +kernel
theorem test_policy :
    [policy resetCfg 50 100, policy resetCfg (49999 / 1000) 100, policy resetCfg 1000 100, policy resetCfg (175 / 2) 100,
      policy resetCfg 75 150, policy resetCfg 400 1000] = [100, 1000, 1000, 100, 150, 1000] := by decide +kernel
theorem test_erpmToHz :
    [14, 12, 2, 7].map (fun p => erpmToHzOf { resetCfg with motorPoles := p }) = [5 / 21, 5 / 18, 5 / 3, 10 / 21] := by
  decide +kernel

/-- The configuration of P3. -/
def cfgP3 : Cfg := { resetCfg with nMotorsMax := 2, motorCount := 2, harmonics := #v[2, 1], tLoop := 1 / 4000 }

/-- P3 before `RPMINIT`. -/
def startP3 : State :=
  { State.reset with
    cfg := cfgP3
    chan := (State.reset.chan.set 0 { Chan.reset with telemetryValue := 2100 }).set 1 { Chan.reset with telemetryValue := 210 } }

/-- P3 after `RPMINIT`, its notches all with coefficients `c` and sample memory `d`. -/
def readyP3 (c : Coef) (d : Delay) : State :=
  { startP3 with
    bank :=
      #v[{ coef := Vector.replicate 3 (Vector.replicate 16 [(0, c), (1, c)])
           delay := Vector.replicate 3 (Vector.replicate 16 [(0, d), (1, d)]) },
        { coef := Vector.replicate 3 (Vector.replicate 16 [(0, c)])
          delay := Vector.replicate 3 (Vector.replicate 16 [(0, d)]) }]
    sched :=
      { inited := true, cur := some { m := 0, b := 0, h := 0 }, budget := 2, total := 6, erpmToHz := 5 / 21
        smoothed := Vector.replicate 16 0, freqBase := Vector.replicate 16 0 } }

/-- P3 after `RPMINIT` with some notch contents. -/
def ready : State := readyP3 ⟨[]⟩ ⟨[]⟩

theorem test_rpminit :
    nextSat (exec .rpminit startP3) (fun t =>
      decide (t.sched.inited = true ∧ t.sched.erpmToHz = 5 / 21 ∧ t.sched.total = 6 ∧ t.sched.budget = 2 ∧
        t.sched.cur = some { m := 0, b := 0, h := 0 } ∧ t.refused = [])) = true := by decide +kernel
theorem test_rpminit_twice : nextSat (exec .rpminit ready) (fun t => decide (t.refused = [.rpmInitTwice])) = true := by
  decide +kernel
-- P3 tick 1, and tick 2's first recomputation leaves motor 0
theorem test_rpmupd_tick :
    nextSat (exec .rpmupd ready) (fun t =>
      decide (t.sched.smoothed.get 0 = 1050 ∧ t.sched.smoothed.get 1 = 105 ∧ t.sched.freqBase.get 0 = 0 ∧
        t.sched.cur = some { m := 0, b := 1, h := 0 })) = true := by decide +kernel
theorem test_refresh :
    decide ((recomputeOne { ready with
        sched :=
          { ready.sched with cur := some { m := 0, b := 1, h := 0 }, smoothed := Vector.replicate 16 1575 } }).sched.freqBase.get 0 =
      375) = true := by decide +kernel
theorem test_filter_before_init :
    nextSat (exec (.fgyro 0) { startP3 with opnd := 7 }) (fun t => decide (t.resp = .sample 7)) = true ∧
      nextSat (exec (.fdterm 2) { startP3 with opnd := 7 }) (fun t => decide (t.resp = .sample 7)) = true := by decide +kernel
theorem test_notch_order :
    notchesOf cfgP3 0 = [(0, 0), (0, 1), (1, 0), (1, 1)] ∧ notchesOf cfgP3 1 = [(0, 0), (1, 0)] := by decide

/-! ## A step runs the word at the head of the schedule (R16, R122) -/

theorem test_step_word :
    nextSat (step ((one idle).withFetchWord 32 0x33010417)) (fun t => decide (t.moves = [] ∧ t.refused = [])) = true ∧
      nextSat (step (small.withFetchWord 32 0x10180000)) (fun t => decide ((t.ch 0).configured = true)) = true := by decide +kernel
theorem test_step_reserved :
    nextSat (step (small.withFetchWord 32 0x38000000)) (fun t => decide (t.refused = [.reservedWord] ∧ t.chan = small.chan)) =
      true := by decide +kernel

/-! ## Witnesses: the hypotheses of each statement, met together -/

theorem witness_DecodeOfEncodeIsTheOperation :
    (Instr.cfg 7 15 3 true).wellFormed 8 = true ∧ (Instr.tx 0 0xFFFF true).wellFormed 1 = true ∧
      (Instr.fdterm 2).wellFormed 1 = true := by decide

theorem witness_EncodeOfDecodeIsTheWord : decode 8 0x12360000 = .ok (.cfg 2 3 1 true) := by decide

theorem witness_AcceptedWordsAreTheTable :
    [0x17180000#32, 0x20000000, 0x37010417, 0x40000000, 0x57000000, 0x60000000, 0x70000000, 0x82000000, 0x92000000].all
      (fun w => (decode 8 w).toOption.isSome) = true := by decide

/-- The hypotheses of ReservedWordIsRefused that do not mention the word's fields. -/
theorem witness_ReservedWordIsRefused_state :
    launchRefusal small.cfg = none ∧ small.micro = [] ∧ small.cfg.nMotorsMax = 8 := by decide +kernel
/-- Each clause of ReservedWordIsRefused at boundary words. -/
theorem witness_ReservedWordIsRefused_words :
    ([0x00000000#32, 0xA0000000, 0xFFFFFFFF].all fun w => decide (w.toNat / 2 ^ 28 = 0 ∨ 10 ≤ w.toNat / 2 ^ 28)) = true ∧
    ([0x20000001#32, 0x48000000, 0x60000001, 0x78000000].all fun w =>
      decide (w.toNat / 2 ^ 28 ∈ [2, 4, 6, 7] ∧ w &&& 0x0FFFFFFF#32 ≠ 0)) = true ∧
    ([0x10000001#32, 0x10010000].all fun w => decide (w.toNat / 2 ^ 28 = 1 ∧ w &&& 0x0001FFFF#32 ≠ 0)) = true ∧
    ([0x30020000#32, 0x30800000].all fun w => decide (w.toNat / 2 ^ 28 = 3 ∧ w &&& 0x00FE0000#32 ≠ 0)) = true ∧
    ([0x50000001#32, 0x50800000].all fun w => decide (w.toNat / 2 ^ 28 = 5 ∧ w &&& 0x00FFFFFF#32 ≠ 0)) = true ∧
    ([0x84000000#32, 0x83000000, 0x93000000, 0x98000000].all fun w =>
      decide (w.toNat / 2 ^ 28 ∈ [8, 9] ∧ (w &&& 0x0CFFFFFF#32 ≠ 0 ∨ w.toNat / 2 ^ 24 % 4 = 3))) = true ∧
    ([0x18000000#32, 0x38000000, 0x58000000].all fun w =>
      decide (w.toNat / 2 ^ 28 ∈ [1, 3, 5] ∧ 8 ≤ w.toNat / 2 ^ 24 % 16)) = true := by decide

theorem witness_CycleExpandsToOneControlCycle : ([] : List (BitVec 16)).length ≤ 16 ∧ (List.replicate 16 5#16).length ≤ 16 := by
  decide

/-- `one idle` with a schedule. -/
def sched (c : Chan) (ms : List Move) : State := { one c with moves := ms }

theorem witness_StepRunsTheDecodedOperation :
    (launchRefusal smallCfg = none ∧ (sched idle [.op 0x40000000 3]).micro = [] ∧
      (sched idle [.op 0x40000000 3]).moves = .op 0x40000000 3 :: [] ∧ decode smallCfg.nMotorsMax 0x40000000 = .ok .go) ∧
    decode smallCfg.nMotorsMax (BitVec.ofNat 32 (0x51000000 % 2 ^ 32)) = .ok (.gett 1) := by decide +kernel

-- just outside each bound, and at each bound
theorem witness_IllegalConfigurationTakesNoStep :
    ([{ smallCfg with nMotorsMax := 0, motorCount := 0 }, { smallCfg with nMotorsMax := 17 }, { smallCfg with nTimersMax := 0 },
      { smallCfg with nTimersMax := 17 }, { smallCfg with chPerTimer := 0 }, { smallCfg with wTs := 0 },
      { smallCfg with wCnt := 0 }, { smallCfg with motorCount := 9 }, { smallCfg with motorPoles := 0 },
      { smallCfg with pairStride := 0 }, { smallCfg with pairStride := 3 }, { smallCfg with proshotM := 0 },
      { smallCfg with proshotW := 0 }, { smallCfg with outLenMax := 0 }].all fun c => !decide (CfgLegal c)) = true ∧
    ([{ smallCfg with harmonics := #v[3, 4] }, { smallCfg with minHz := #v[0, 100] }, { smallCfg with minHz := #v[100, 1001] },
      { smallCfg with qFactor := #v[5, 0] }, { smallCfg with loopPeriod := #v[0, 1] }, { smallCfg with tLoop := 0 },
      { smallCfg with minUpdateInterval := 0 }, { smallCfg with gain := 0 }, { smallCfg with gain := 1001 / 1000 }].all
        fun c => !decide (CfgLegal c)) = true ∧
    ([{ smallCfg with burst := true }, { smallCfg with motorCount := 8, nMotorsMax := 16, nTimersMax := 1 },
      { smallCfg with
        chPerTimer := 1, wTs := 1, wCnt := 1, motorPoles := 1, pairStride := 2, proshotM := 1, proshotW := 1
        outLenMax := 1, minHz := #v[1000, 1], gain := 1 }].all fun c => decide (CfgLegal c)) = true ∧
    launchRefusal { smallCfg with burst := true } = some .burstWithTelemetry ∧ launchRefusal smallCfg = none := by
  refine ⟨?_, ?_, ?_, ?_, ?_⟩ <;> decide +kernel

theorem witness_AtomicActionsComposeToTheOperation :
    launchRefusal (one flagged).cfg = none ∧ (one flagged).micro = [] ∧
      decode (one flagged).cfg.nMotorsMax 0x20000000 = .ok .beginUpdate := by decide +kernel

theorem witness_CfgInFull_inserts :
    nextSat (exec (.cfg 1 15 3 true) (one idle)) (fun t => decide (t.grp.map Group.timer = [1, 15])) = true := by decide

theorem witness_CfgBindsAFreshChannel :
    (∀ s ∈ [one idle], (1 : MotorIdx).val < s.cfg.motorCount ∧ (3 : HwChannel).val < s.cfg.chPerTimer ∧ (s.ch 1).configured = false ∧
      (∀ j : MotorIdx, j ≠ 1 → (s.ch j).configured = true → ¬ ((s.ch j).timer = 1 ∧ (s.ch j).ch = 3)) ∧
      (∃ g ∈ s.grp, g.timer = 1) ∧ s.grp.length < s.cfg.nTimersMax) := by decide

theorem witness_MarksChangeNothingElse :
    RefuseMark.cfgTwice ∈ ({ small with refused := [.cfgTwice] } : State).refused ∧
      FaultMark.overrun 3 ∈ ({ small with faults := [.overrun 3] } : State).faults := by decide

theorem witness_BeginInFull :
    (one flagged).cfg.telemetryEnabled = true ∧
      ∀ i : MotorIdx, i.val < (one flagged).cfg.motorCount → ((one flagged).ch i).configured = true →
        ((one flagged).ch i).hasTelemetry = true →
        ∀ k, k < inLen (one flagged).cfg → Memory.read ((one flagged).ch i).inBuf k ≠ none := by decide

-- one channel lacks an element, none lacks one
theorem witness_BeginMarksUnwrittenCaptures :
    captureLacks (one { flagged with inBuf := flagged.inBuf.take 16 }) 0 = true ∧ captureLacks (one flagged) 0 = false ∧
      (one flagged).cfg.telemetryEnabled = true := by decide

theorem witness_TxInFull :
    (one idle).cfg.burst = false ∧ groupOf (one idle) 0 = some 0 ∧ (one idle).ch 0 = idle ∧
      (small.ch 0).configured = false ∧ ((one sending).ch 0).reqEn = true := by decide

theorem witness_TxStoresItsFrameAndNothingElse :
    (one idle).cfg.burst = false ∧ ((one idle).ch 0).configured = true ∧ ((one idle).ch 0).busy = false ∧
      exec (.tx 0 49 false) (one idle) = .next (txLoad 0 49 false (one idle)) := by
  refine ⟨by decide, by decide, by decide, rfl⟩

theorem witness_FramesFitTheOutputBuffer : CfgLegal smallCfg ∧ CfgLegal { smallCfg with outLenMax := 1 } := by decide +kernel

/-- The burst variant of the small block, without telemetry. -/
def burstOne (c : Chan) (gr : Group) : State :=
  { one c with cfg := { smallCfg with burst := true, telemetryEnabled := false }, grp := [gr] }

/-- A group in flight, its lane of hardware channel 2 written. -/
def groupSending (n : Nat) : Group :=
  { Group.fresh 1 with burstBuf := #v[[], [], [(0, 14), (1, 7)], []], dmaCount := n, dmaArmed := true, reqEn := true }

theorem witness_TxBurstInFull :
    ∀ gr ∈ [Group.fresh 1, groupSending 2], ∀ c ∈ [idle, Chan.reset, { idle with tcFlag := true }],
      (burstOne { c with timer := 1 } gr).cfg.burst = true ∧ groupOf (burstOne { c with timer := 1 } gr) 0 = some 0 ∧
        (burstOne { c with timer := 1 } gr).grp[0]? = some gr := by decide
-- a channel that is not configured, and whose timer has no group; or whose reset timer 0 has one that sends (R284, R331)
theorem witness_TxBurstInFull_unconfigured :
    ((burstOne idle (Group.fresh 1)).ch 1).configured = false ∧ groupOf (burstOne idle (Group.fresh 1)) 1 = none ∧
      QuietAtTx (burstOne idle { groupSending 2 with timer := 0 }) 1 ∧
      exec (.tx 1 49 false) (burstOne idle { groupSending 2 with timer := 0 }) =
        .next (burstOne idle { groupSending 2 with timer := 0 }) := by
  refine ⟨by decide, by decide, by decide, rfl⟩
-- a TX while the group sends is an overrun; before GO it is loaded (R143, R334)
theorem test_tx_burst :
    nextSat (exec (.tx 0 49 false) (burstOne idle (groupSending 2))) (fun t => decide (t.faults = [.overrun 0])) = true ∧
      nextSat (exec (.tx 0 49 false) (burstOne idle (Group.fresh 1))) (fun t =>
        decide (t.faults = [] ∧ t.grp.map Group.inFlight = [false] ∧ t.grp.map Group.dmaArmed = [true])) = true := by decide

theorem witness_GoInFull :
    (one idle).cfg.burst = false ∧ goSkipped (one idle) = false ∧
      goSkipped { one idle with
        collab := { cmdFor := Vector.replicate 16 none, cmdQueued := true, cmdOutputEnabled := false } } = true := by decide

theorem witness_GoBurstInFull :
    (burstOne idle (Group.fresh 1)).cfg.burst = true ∧ goSkipped (burstOne idle (Group.fresh 1)) = false ∧
      goSkipped { burstOne idle (Group.fresh 1) with
        collab := { cmdFor := Vector.replicate 16 none, cmdQueued := true, cmdOutputEnabled := false } } = true := by decide

theorem witness_OneEnableCallStartsBothChannels :
    (0 : MotorIdx) ≠ 1 ∧ CfgLegal (two idle idle).cfg ∧ (two idle idle).cfg.burst = false ∧ goSkipped (two idle idle) = false ∧
      GroupsDistinct (two idle idle) ∧ ((two idle idle).ch 0).configured = true ∧ ((two idle idle).ch 1).configured = true ∧
      ((two idle idle).ch 0).busy = false ∧ ((two idle idle).ch 1).busy = false ∧
      ((two idle idle).ch 0).timer = ((two idle idle).ch 1).timer ∧ groupOf (two idle idle) 0 ≠ none := by decide +kernel

theorem witness_RpminitInFull :
    ready.sched.inited = true ∧ startP3.sched.inited = false ∧ CfgLegal startP3.cfg ∧
      ¬ CfgLegal { cfgP3 with harmonics := #v[4, 1] } ∧ CfgLegal { cfgP3 with harmonics := #v[0, 3] } ∧
      CfgLegal { cfgP3 with harmonics := #v[0, 0] } := by
  refine ⟨?_, ?_, ?_, ?_, ?_, ?_⟩ <;> decide +kernel

theorem witness_RoundNearestIsNearestTiesToEven :
    [roundNearest (1 / 2), roundNearest (3 / 2), roundNearest (5 / 2), roundNearest (-1 / 2), roundNearest (251 / 100)] =
      [0, 2, 2, 0, 3] := by decide +kernel

theorem witness_RpmupdInFull : startP3.sched.inited = false ∧ ready.sched.inited = true ∧ 0 < ready.sched.total := by decide

theorem witness_RecomputeOneInFull :
    ready.sched.cur = some { m := 0, b := 0, h := 0 } ∧
      ({ ready with sched := { ready.sched with cur := some { m := 1, b := 1, h := 0 } } } : State).sched.cur =
        some { m := 1, b := 1, h := 0 } := by decide +kernel

theorem witness_FrequencyPolicyRanges :
    resetCfg.numerics = .exact ∧ resetCfg.mul (1 / 2) 100 = 50 ∧
    (0 : Rat) < 100 ∧ (100 : Rat) ≤ 1000 ∧ (49 : Rat) < 1 / 2 * 100 ∧ 1 / 2 * 100 ≤ (50 : Rat) ∧ (50 : Rat) < 100 ∧
      (100 : Rat) ≤ 100 ∧ (1000 : Rat) ≤ 1000 ∧ (1000 : Rat) < 1001 := by decide +kernel

theorem witness_CursorAfterTicks :
    CfgLegal ready.cfg ∧ ready.sched.inited = true ∧ CursorAtTriple ready ∧
      ready.sched.cur = some { m := 0, b := 0, h := 0 } ∧ totalOf ready.cfg ∣ 3 * ready.sched.budget ∧
      ¬ totalOf ready.cfg ∣ 2 * ready.sched.budget := by
  refine ⟨by decide +kernel, by decide, fun _ => ⟨by decide, ?_⟩, by decide, by decide, by decide⟩
  show Cursor.inRange ready.cfg { m := 0, b := 0, h := 0 }
  decide

theorem witness_EveryTripleIsRecomputed :
    CfgLegal ready.cfg ∧ ready.sched.inited = true ∧ CursorAtTriple ready ∧ 1 ≤ ready.sched.budget ∧
      Cursor.inRange ready.cfg { m := 1, b := 1, h := 0 } ∧ Cursor.inRange ready.cfg { m := 0, b := 0, h := 1 } :=
  ⟨witness_CursorAfterTicks.1, witness_CursorAfterTicks.2.1, witness_CursorAfterTicks.2.2.1, by decide, by decide, by decide⟩

theorem witness_DisabledFilterPassesThrough :
    startP3.sched.inited = false ∧ ({ cfgP3 with harmonics := #v[0, 1] } : Cfg).harmonics.get 0 = 0 ∧
      ({ cfgP3 with harmonics := #v[2, 0] } : Cfg).harmonics.get 1 = 0 := by decide

theorem ready_notchesWritten : NotchesWritten ready := by
  intro _ b axis m h _ hh
  have hb : h < (#v[2, 1] : Vector Nat 2).get b := hh
  have h2 : h < 2 := lt_of_lt_of_le hb ((show ∀ b : BankIdx, (#v[2, 1] : Vector Nat 2).get b ≤ 2 by decide) b)
  have h3 : b = 1 → h < 1 := fun e => by subst e; simpa using hb
  have h4 : h = 0 ∨ h = 1 ∧ b = 0 := by
    rcases Nat.lt_or_ge h 1 with h5 | h5
    · exact .inl (by omega)
    · exact .inr ⟨by omega, by by_contra hn; exact absurd (h3 (by omega)) (by omega)⟩
  clear hb hh h3 h2
  rcases h4 with rfl | ⟨rfl, rfl⟩
  · revert b axis m; decide
  · revert axis m; decide

-- every entry written, and none
theorem witness_FilterIsTheCascade :
    (Instr.fgyro 2 = .fgyro 2 ∧ (0 : BankIdx) = 0) ∧ (Instr.fdterm 0 = .fdterm 0 ∧ (1 : BankIdx) = 1) ∧ CfgLegal ready.cfg ∧
      ready.sched.inited = true ∧ NotchesWritten ready ∧ 0 < ready.cfg.harmonics.get 0 ∧ 0 < ready.cfg.harmonics.get 1 ∧
      coefAt { ready with bank := State.reset.bank } 0 0 0 0 = none :=
  ⟨by decide, by decide, witness_CursorAfterTicks.1, by decide, ready_notchesWritten, by decide, by decide, by decide⟩
-- an entry nothing has written: the sample is filtered, with the mark (R72, R283)
theorem test_filter_unwritten :
    nextSat (exec (.fgyro 0) { ready with bank := State.reset.bank }) (fun t =>
      decide (t.faults = [.readUnwritten] ∧ t.free = 1)) = true := by decide +kernel

theorem witness_HandlerInFull :
    launchRefusal smallCfg = none ∧ launchRefusal { smallCfg with telemetryEnabled := false } = none ∧
      (sched idle [.handler 0 77]).moves = .handler 0 77 :: [] ∧ idle.tcFlag = false ∧
      ({ sending with tcFlag := true } : Chan).tcFlag = true ∧ sending.isInput = false ∧ (receiving 0).isInput = true := by
  decide +kernel

theorem witness_HandlersOfDifferentChannelsCommute : (0 : MotorIdx) ≠ 15 := by decide

theorem witness_OutBeatInFull :
    ∀ c ∈ [sending, { sending with outBuf := [] }, { sending with dmaPos := 17, dmaCount := 1 }],
      ∀ s ∈ [sched c [.outBeat 0]], launchRefusal s.cfg = none ∧ s.moves = .outBeat 0 :: [] ∧ s.cfg.burst = false ∧
      (s.ch 0).configured = true ∧ (s.ch 0).dmaArmed = true ∧ (s.ch 0).reqEn = true ∧ 0 < (s.ch 0).dmaCount ∧
      (s.ch 0).dmaDir = .toTimer ∧ (s.ch 0).dmaPos < s.cfg.outLenMax := by decide +kernel

theorem witness_InBeatInFull :
    ∀ s ∈ [sched (receiving 1) [.inBeat 0 168]], launchRefusal s.cfg = none ∧ s.moves = .inBeat 0 168 :: [] ∧
      s.cfg.burst = false ∧ s.cfg.telemetryEnabled = true ∧ (s.ch 0).configured = true ∧ (s.ch 0).dmaArmed = true ∧
      (s.ch 0).reqEn = true ∧ 0 < (s.ch 0).dmaCount ∧ (s.ch 0).dmaDir = .fromTimer ∧ (s.ch 0).dmaPos < inLen s.cfg := by
  decide +kernel

-- loaded but not started (V11 c), at count 0, disarmed, in the other direction, and a group that is not in flight
theorem witness_BeatsNeedATransferInFlight :
    launchRefusal (sched idle [.outBeat 0]).cfg = none ∧ (sched idle [.outBeat 0]).moves = .outBeat 0 :: [] ∧
      (sched idle [.inBeat 0 5]).moves = .inBeat 0 5 :: [] ∧ ({ sending with reqEn := false } : Chan).reqEn = false ∧
      (receiving 0).dmaCount = 0 ∧ idle.dmaArmed = false ∧ sending.dmaDir = .toTimer ∧ (receiving 1).dmaDir = .fromTimer ∧
      ({ burstOne idle (Group.fresh 1) with moves := [.groupBeat 0] } : State).moves = .groupBeat 0 :: [] ∧
      launchRefusal (burstOne idle (Group.fresh 1)).cfg = none ∧ (groupSending 0).dmaCount = 0 := by
  decide +kernel

theorem witness_GroupBeatInFull :
    ∀ n ∈ [1, 2], ∀ s ∈ [{ burstOne idle (groupSending n) with moves := [.groupBeat 0] }],
      launchRefusal s.cfg = none ∧ s.moves = .groupBeat 0 :: [] ∧ s.cfg.burst = true ∧ s.grp[0]? = some (groupSending n) ∧
      (groupSending n).dmaArmed = true ∧ (groupSending n).reqEn = true ∧ 0 < (groupSending n).dmaCount ∧
      (groupSending n).dmaPos < s.cfg.outLenMax := by decide +kernel
-- the last beat ends the group's transfer, and nothing of it is left for a later TX or a skipped GO (R333, R334)
theorem test_last_group_beat :
    nextSat (runGroupBeat 0 (burstOne idle (groupSending 1))) (fun t =>
      decide (t.grp.map Group.dmaArmed = [false] ∧ t.grp.map Group.reqEn = [false] ∧ (t.ch 0).tcFlag = true ∧
        t.log = [.dutyOut 0 0 14 true] ∧ t.faults = [])) = true ∧
    nextSat (runGroupBeat 0 (burstOne { idle with ch := 0 } (groupSending 2))) (fun t =>
      decide (t.grp.map Group.inFlight = [true] ∧ (t.ch 0).tcFlag = false ∧ t.faults = [.readUnwritten] ∧ t.free = 1)) =
      true := by decide

theorem witness_WholeFrameIsSentInOrder :
    ∀ s ∈ [sched sending [.outBeat 0, .outBeat 0]], launchRefusal s.cfg = none ∧ s.cfg.burst = false ∧
      [(14 : Duty), 7] ≠ [] ∧ [(14 : Duty), 7].length ≤ s.cfg.outLenMax ∧ (s.ch 0).configured = true ∧
      (s.ch 0).dmaArmed = true ∧ (s.ch 0).reqEn = true ∧ (s.ch 0).dmaDir = .toTimer ∧ (s.ch 0).dmaPos = 0 ∧
      (s.ch 0).dmaCount = [(14 : Duty), 7].length ∧
      (∀ k, k < [(14 : Duty), 7].length → Memory.read (s.ch 0).outBuf k = [(14 : Duty), 7][k]?) ∧
      s.moves = List.replicate [(14 : Duty), 7].length (.outBeat 0) := by decide +kernel

/-- The schedule of the direction-switch scenario for a frame of `L` values and the capture of V4 d. -/
def switchMoves (L : Nat) : List Move :=
  [.op (encode (.tx 0 1047 true)) 0, .op (encode .go) 0] ++ List.replicate L (.outBeat 0) ++ [.handler 0 77] ++
    captureD.map (.inBeat 0) ++ [.handler 0 78, .op (encode .beginUpdate) 0]

theorem witness_DirectionSwitchScenario :
    let s := one idle
    let ask := (s.ch 0).requestTelemetry || true || (s.collab.cmdFor.get 0).isSome
    let L := (expand s.cfg (Config.packetOf ((s.collab.cmdFor.get 0).getD 1047) ask)).length
    launchRefusal s.cfg = none ∧ s.cfg.burst = false ∧ s.cfg.telemetryEnabled = true ∧ s.micro = [] ∧ goSkipped s = false ∧
      (0 : MotorIdx).val < s.cfg.motorCount ∧ (s.ch 0).configured = true ∧ (s.ch 0).busy = false ∧
      (s.ch 0).dmaDir = .toTimer ∧ groupOf s 0 ≠ none ∧ (∀ j, (s.ch j).hasTelemetry = false) ∧
      captureD.length = inLen s.cfg ∧ ({ s with moves := switchMoves L } : State).moves = switchMoves L :=
  ⟨by decide +kernel, by decide, by decide, by decide, by decide, by decide, by decide, by decide, by decide, by decide,
    by decide, by decide, rfl⟩

/-- Channel 0 is the only one configured and MAIN is inside nothing but `as`. -/
theorem quiet_sched {c : Chan} {ms : List Move} {as : List MainAct} (hc : c.configured = true)
    (has : ∀ a ∈ as, ActConfigured { sched c ms with micro := as } a) :
    UnconfiguredQuiet { sched c ms with micro := as } := by
  refine ⟨fun i hi => ?_, has⟩
  by_cases h : i = 0
  · subst h
    have : c.configured = false := hi
    rw [hc] at this
    cases this
  · have : State.ch { sched c ms with micro := as } i = Chan.reset := by
      show ((one c).chan.get i) = _
      rw [show (one c).chan.get i = small.ch i from ch_setCh_ne small c h]
      exact (show ∀ i, small.ch i = Chan.reset by decide) i
    rw [this]
    decide

-- to receive by the handler; back by BEGIN and by the action B5
theorem witness_DirectionChangesOnlyByTheTable :
    nextSat (step (sched { sending with tcFlag := true } [.handler 0 77])) (fun t => (t.ch 0).isInput) = true ∧
      nextSat (step (sched flagged [.op 0x20000000 0])) (fun t => !(t.ch 0).isInput) = true ∧
      nextSat (step { sched (receiving 3) [.act] with micro := [.b5 0 false] }) (fun t => !(t.ch 0).isInput) = true := by
  decide +kernel
theorem witness_DirectionChangesOnlyByTheTable_premises :
    UnconfiguredQuiet { sched flagged [.op 0x20000000 0] with micro := [] } ∧
      PendingCfgIsFresh { sched flagged [.op 0x20000000 0] with micro := [] } ∧
      UnconfiguredQuiet { sched (receiving 3) [.act] with micro := [.b5 0 false] } ∧
      PendingCfgIsFresh { sched (receiving 3) [.act] with micro := [.b5 0 false] } :=
  ⟨quiet_sched rfl (by simp), .inl (by simp), quiet_sched rfl (by simp [ActConfigured]), .inl (by simp [MainAct.ofCfg])⟩

theorem witness_OutputEnableIsSetOnlyByBegin :
    nextSat (step (sched (receiving 3) [.op 0x20000000 0])) (fun t =>
        (t.ch 0).outEn && decide ((t.ch 0).chanMode = .outputCompare)) = true ∧
      nextSat (step { sched (receiving 3) [.act] with micro := [.b6 0] }) (fun t => (t.ch 0).outEn) = true := by decide +kernel

theorem witness_SpeedIsWrittenOnlyByBegin :
    nextSat (step (sched flagged [.op 0x20000000 0])) (fun t => decide ((t.ch 0).telemetryValue = 2100)) = true ∧
      nextSat (step { sched flagged [.act] with micro := [.b3 0 (.valid 0xFFF)] }) (fun t =>
        decide ((t.ch 0).telemetryValue = 4095)) = true := by decide +kernel

theorem witness_NothingIsUndone :
    PendingCfgIsFresh (sched idle [.op 0x11FC0000 0]) ∧ launchRefusal smallCfg = none ∧
    nextSat (step (sched idle [.op 0x11FC0000 0])) (fun t =>
        (t.ch 0).configured && decide (t.grp.map Group.timer = [1, 15])) = true ∧
      nextSat (step (sched idle [.collab { cmdFor := Vector.replicate 16 none, cmdQueued := true, cmdOutputEnabled := true }]))
        (fun t => t.collab.cmdQueued) = true :=
  ⟨.inl (by simp [sched, one, small, State.reset, State.setCh]), by decide +kernel, by decide +kernel, by decide +kernel⟩

/-- A state in which the receiving channel 0 has its last count to come, channel 3 holds the largest speed, two groups stand
and MAIN is inside a CFG of channel 1. -/
def busyState : State :=
  { sched (receiving 1) [.inBeat 0 168] with
    chan := (one (receiving 1)).chan.set 3 { Chan.reset with telemetryValue := 4095 }
    grp := [Group.fresh 1, Group.fresh 3]
    micro := [.t3 0, .c3 1 1 3 true] }

theorem busyState_steps : nextSat (step busyState) (fun t => (t.ch 0).tcFlag) = true := by decide +kernel
theorem witness_StepKeepsDirectionsAgree : DirectionsAgree busyState := by decide
theorem witness_StepKeepsValuesInRange : ValuesInRange busyState := by
  refine ⟨fun i => ⟨?_, ?_, ?_, ?_⟩, by decide, by decide⟩
  · exact (show ∀ i, (busyState.ch i).telemetryValue.toNat ≤ 4095 by decide) i
  · exact (show ∀ i, (busyState.dbgValue.get i).toNat ≤ 4095 by decide) i
  · exact (show ∀ i, busyState.switchTime.get i < 2 ^ busyState.cfg.wTs by decide) i
  · intro k t h
    have h2 : ∀ i, ∀ p ∈ (busyState.ch i).inBuf, p.2 < 2 ^ busyState.cfg.wTs := by decide
    exact h2 i (k, t) (Memory.mem_of_read h)
/-- MAIN is inside a CFG of channel 1, about to bind it. -/
def bindingState : State := { sched idle [.act] with micro := [.c3 1 1 3 true] }
theorem witness_StepKeepsPendingCfgFresh :
    PendingCfgIsFresh bindingState ∧ nextSat (step bindingState) (fun t => decide (t.micro = [.c4 1])) = true :=
  ⟨.inr ⟨_, rfl, fun idx h => by simp only [MainAct.binds, Option.some.injEq] at h; subst h; decide⟩, by decide +kernel⟩
theorem witness_StepKeepsGroupsDistinct : GroupsDistinct busyState := by decide
theorem witness_StepKeepsConfiguredHaveGroup : ConfiguredHaveGroup busyState := by
  refine ⟨by decide, ?_⟩
  simp only [busyState, List.forall_mem_cons, ActHasGroup, List.not_mem_nil, false_imp_iff, implies_true]
  decide
theorem witness_StepKeepsUnconfiguredQuiet : UnconfiguredQuiet busyState := by
  refine ⟨by decide, ?_⟩
  simp only [busyState, List.forall_mem_cons, ActConfigured, List.not_mem_nil, false_imp_iff, implies_true]
  decide
theorem witness_StepKeepsMemoriesCanonical : MemoriesCanonical busyState := by decide

/-- A scheduler tick about to be taken. -/
def readyTick : State := { ready with moves := [.op 0x70000000 0] }

theorem readyTick_steps : nextSat (step readyTick) (fun t => decide (t.sched.cur = some { m := 0, b := 1, h := 0 })) = true := by
  decide +kernel
theorem witness_StepKeepsAxesCloned : AxesCloned readyTick := by
  intro b m h
  fin_cases b <;> exact ⟨rfl, rfl⟩
theorem witness_StepKeepsNotchesWritten : NotchesWritten readyTick ∧ readyTick.sched.inited = true :=
  ⟨ready_notchesWritten, by decide⟩
theorem witness_StepKeepsCursorAtTriple : CursorAtTriple readyTick := witness_CursorAfterTicks.2.2.1

theorem witness_PairDifferenceIsSignedAndWraps :
    pairDiff 32 1 [9, 3] 0 = -6 ∧ (-2 ^ 31 : Int) ≤ 3 - 9 ∧ pairDiff 32 1 [0x7FFFFFFF, 0xFFFFFFFF] 0 = -2 ^ 31 ∧
      pairDiff 1 1 [0, 1] 0 = -1 ∧ (1 : Nat) ≤ 1 := by decide

theorem witness_DshotDecodesWhatIsSpelled :
    (∀ j, j < 16 →
      if (0x834#12 ++ 0xF#4).getLsbD (15 - j) = true then 11 ≤ pairDiff resetCfg.wTs resetCfg.pairStride captureD j
      else 1 ≤ pairDiff resetCfg.wTs resetCfg.pairStride captureD j ∧
        pairDiff resetCfg.wTs resetCfg.pairStride captureD j ≤ 10) ∧
    fold 0x834F = 0 ∧ (15 : Nat) < 16 ∧ dshotWord 32 1 captureD = 0x834#12 ++ 0xF#4 ∧ resetCfg.protocol = .dshot := by
  decide
-- V4 k and l: differences of 0, and of -10 and less, where the bit is 1 and 0
theorem witness_DshotDecodesWhatIsSpelled_low :
    (List.range 17).map (fun j => bitOf (pairDiff 32 1 (List.replicate 17 5) j)) = List.replicate 17 true ∧
      dshotWord 32 1 ((List.range 17).map fun k => 1000 - 10 * k) = 0 ∧
      dshotWord 32 1 ((List.range 17).map fun k => 1000 - 9 * k) = 0xFFFF#16 := by decide

theorem witness_ProshotDecodesWithinHalfAStep :
    let t : List Timestamp := [0, 49, 82, 118, 187]
    let n : Nat → BitVec 4 := fun j => [8#4, 3, 4, 15].getD j 0
    let e : Nat → Int := fun j => [1, 0, 0, 0].getD j 0
    0 < resetCfg.proshotW ∧ resetCfg.proshotBase + resetCfg.proshotW * 15 + (resetCfg.proshotW - 1) / 2 < resetCfg.proshotM ∧
      (∀ j, j < 4 → |e j| ≤ ((resetCfg.proshotW - 1) / 2 : Nat)) ∧
      (∀ j, j < 4 →
        ((stamp t (1 + resetCfg.pairStride * j) : Int) - stamp t (1 + resetCfg.pairStride * j - 1)) %
            resetCfg.proshotM = resetCfg.proshotBase + resetCfg.proshotW * (n j).toNat + e j) ∧
      0x834#12 ++ 0xF#4 = n 0 ++ n 1 ++ n 2 ++ n 3 ∧ proshotWord resetCfg t = 0x834#12 ++ 0xF#4 ∧
      ({ resetCfg with protocol := .proshot } : Cfg).protocol = .proshot ∧ (3 : Nat) < 4 := by decide

end Sys2Proof.Tests
end

/-! Proofs of the scope family (00_scope.md): which configurations are launched, what a step does with a command word, and that
no step undoes a binding, a group, an event or a mark. -/

namespace Sys2Proof.Machine

/-! ## The launch check (R283) -/

/-- The legal values of R10, R40 and U13, said by what each clause rules out. -/
theorem cfgLegal_iff_no_illegal_field (cfg : Cfg) :
    CfgLegal cfg ↔
      ¬ (cfg.nMotorsMax = 0 ∨ 16 < cfg.nMotorsMax ∨ cfg.nTimersMax = 0 ∨ 16 < cfg.nTimersMax ∨
        cfg.chPerTimer = 0 ∨ cfg.wTs = 0 ∨ cfg.wCnt = 0 ∨ cfg.nMotorsMax < cfg.motorCount ∨
        cfg.motorPoles = 0 ∨ (cfg.pairStride ≠ 1 ∧ cfg.pairStride ≠ 2) ∨ cfg.proshotM = 0 ∨
        cfg.proshotW = 0 ∨ cfg.outLenMax = 0 ∨
        (∃ b : BankIdx,
          cfg.harmMax < cfg.harmonics.get b ∨ cfg.minHz.get b ≤ 0 ∨ 1000 < cfg.minHz.get b ∨
            cfg.qFactor.get b ≤ 0 ∨ cfg.loopPeriod.get b ≤ 0) ∨
        cfg.tLoop ≤ 0 ∨ cfg.minUpdateInterval ≤ 0 ∨ cfg.gain ≤ 0 ∨ 1 < cfg.gain) := by
  simp only [CfgLegal, not_or, not_exists, not_lt, not_le, not_and, not_not, forall_and, Nat.one_le_iff_ne_zero,
    Nat.pos_iff_ne_zero, ← or_iff_not_imp_left, ne_eq, and_assoc]

theorem launchRefusal_of_not_cfgLegal {cfg : Cfg} (h : ¬ CfgLegal cfg) : launchRefusal cfg = some .badConfig := if_pos h

theorem launchRefusal_of_cfgLegal {cfg : Cfg} (h : CfgLegal cfg) :
    launchRefusal cfg = if cfg.burst && cfg.telemetryEnabled then some .burstWithTelemetry else none :=
  if_neg (not_not.2 h)

/-! ## One step, by the move it takes (R80, R283) -/

theorem step_of_launchRefusal {s : State} {r : Refusal} (h : launchRefusal s.cfg = some r) : step s = .refused r := by
  simp [step, stepWith, h]

theorem step_of_moves_nil {s : State} (hl : launchRefusal s.cfg = none) (hm : s.moves = []) : step s = .next s := by
  simp [step, stepWith, hl, hm]

theorem step_of_moves_cons {s : State} {mv : Move} {rest : List Move} (hl : launchRefusal s.cfg = none)
    (hm : s.moves = mv :: rest) : step s = runMove exec mv { s with moves := rest } := by
  simp [step, stepWith, hl, hm]

/-- Where a step answers a next state, nothing was scheduled or the first move was taken. -/
theorem step_next {s t : State} (h : step s = .next t) :
    launchRefusal s.cfg = none ∧
      ((s.moves = [] ∧ t = s) ∨
        ∃ mv rest, s.moves = mv :: rest ∧ runMove exec mv { s with moves := rest } = .next t) := by
  cases hl : launchRefusal s.cfg with
  | some r => rw [step_of_launchRefusal hl] at h; cases h
  | none =>
    refine ⟨rfl, ?_⟩
    cases hm : s.moves with
    | nil =>
      rw [step_of_moves_nil hl hm] at h
      exact .inl ⟨rfl, by cases h; rfl⟩
    | cons mv rest => exact .inr ⟨mv, rest, rfl, by rwa [step_of_moves_cons hl hm] at h⟩

/-- A word that decodes is handed to its operation, with the sample on the operand port (R111, R119). -/
theorem issue_of_decode {k : Instr → State → Host.Outcome State Fault Refusal} {w : Word} {x : Num} {s : State} {i : Instr}
    (hm : s.micro = []) (hd : decode s.cfg.nMotorsMax w = .ok i) : issue k w x s = k i (withOpnd x s) := by
  simp [issue, hm, hd]

/-- Where issuing a word answers a next state, the word was run or refused as reserved (R122). -/
theorem issue_next {k : Instr → State → Host.Outcome State Fault Refusal} {w : Word} {x : Num} {s t : State}
    (h : issue k w x s = .next t) :
    s.micro = [] ∧
      ((∃ i, decode s.cfg.nMotorsMax w = .ok i ∧ k i (withOpnd x s) = .next t) ∨ t = markRefused .reservedWord s) := by
  unfold issue at h
  split at h
  · cases h
  · next hm =>
    refine ⟨hm, ?_⟩
    split at h
    · next i hd => exact .inl ⟨i, hd, h⟩
    · exact .inr (by cases h; rfl)

theorem runNextAct_next {s t : State} (h : runNextAct s = .next t) :
    ∃ a rest, s.micro = a :: rest ∧ runAct a { s with micro := rest } = .next t := by
  unfold runNextAct at h
  split at h
  · cases h
  · next a rest hm => exact ⟨a, rest, hm, h⟩

/-! ## What is never undone (R11, R25, R45, R46) -/

/-- Whether a channel is bound, and to what (R22, R25). -/
def Chan.binding (c : Chan) : Bool × TimerId × HwChannel × Bool := (c.configured, c.timer, c.ch, c.outputN)

/-- `t` has everything of `s` that no step undoes, and the collaborator's lines as they were. Each rule below takes it through
one operation on `t`, so that the rules compose as the operations do. -/
structure State.Extends (s t : State) : Prop where
  cfg : t.cfg = s.cfg
  bindings : ∀ i, (s.ch i).configured = true → (t.ch i).binding = (s.ch i).binding
  inited : s.sched.inited = true → t.sched.inited = true
  timers : s.grp.map Group.timer <+: t.grp.map Group.timer
  log : s.log <+: t.log
  faults : s.faults <+: t.faults
  refused : s.refused <+: t.refused
  collab : t.collab = s.collab

theorem State.Extends.refl (s : State) : s.Extends s where
  cfg := rfl
  bindings _ _ := rfl
  inited h := h
  timers := List.prefix_rfl
  log := List.prefix_rfl
  faults := List.prefix_rfl
  refused := List.prefix_rfl
  collab := rfl

theorem State.Extends.configured {s t : State} (h : s.Extends t) {i : MotorIdx} (hc : (s.ch i).configured = true) :
    (t.ch i).configured = true :=
  (congrArg Prod.fst (h.bindings i hc)).trans hc

section Rules

/-! One rule for each operation over the state: its result extends what its argument extends. -/

variable {s t : State}

/-! ### Marks, events and ports -/

theorem extends_emit {e : Event} (h : s.Extends t) : s.Extends (emit e t) :=
  { h with log := h.log.trans (List.prefix_append _ _) }

/-- A mark that is recorded once stands after those already there (R46). -/
theorem isPrefix_addOnce {α : Type} [BEq α] (marks : List α) (m : α) :
    marks <+: if marks.contains m then marks else marks ++ [m] := by
  split
  · exact List.prefix_rfl
  · exact List.prefix_append _ _

theorem extends_markFault {f : FaultMark} (h : s.Extends t) : s.Extends (markFault f t) :=
  { h with faults := h.faults.trans (isPrefix_addOnce _ _) }

theorem extends_markRefused {r : RefuseMark} (h : s.Extends t) : s.Extends (markRefused r t) :=
  { h with refused := h.refused.trans (isPrefix_addOnce _ _) }

theorem extends_noteUnwritten {lacking : Bool} (h : s.Extends t) : s.Extends (noteUnwritten lacking t) := by
  cases lacking with
  | false => exact h
  | true => exact extends_markFault (t := { t with free := t.free + 1 }) { h with }

theorem extends_push {as : List MainAct} (h : s.Extends t) : s.Extends (t.push as) := { h with }

theorem extends_respond {r : Response} (h : s.Extends t) : s.Extends (respond r t) := { h with }

/-! ### Channels and groups -/

theorem extends_modCh {i : MotorIdx} {f : Chan → Chan} (h : s.Extends t) (hf : ∀ c, (f c).binding = c.binding) :
    s.Extends (t.modCh i f) :=
  { h with
    bindings := fun j hj => by
      rw [ch_modCh]
      split
      · next hji => rw [hf, ← hji, h.bindings j hj]
      · exact h.bindings j hj }

theorem extends_mapCh {f : MotorIdx → Chan → Chan} (h : s.Extends t) (hf : ∀ i c, (f i c).binding = c.binding) :
    s.Extends (t.mapCh f) :=
  { h with bindings := fun j hj => by rw [ch_mapCh, hf, h.bindings j hj] }

theorem extends_modGrp {g : Nat} {f : Group → Group} (h : s.Extends t) (hf : ∀ gr, (f gr).timer = gr.timer) :
    s.Extends (t.modGrp g f) :=
  { h with timers := by rw [modGrp_timers t g f hf]; exact h.timers }

/-- A loop of a kept operation is kept. -/
theorem extends_foldl {α : Type} {f : State → α → State} {as : List α} (h : s.Extends t)
    (hf : ∀ u a, s.Extends u → s.Extends (f u a)) : s.Extends (as.foldl f t) :=
  List.foldlRecOn as f h fun u hu a _ => hf u a hu

/-! ### CFG (R131, R132) -/

theorem unconfigured_of_cfgRefusal_eq_none {idx : MotorIdx} {timer : TimerId} {ch : HwChannel}
    (h : cfgRefusal idx timer ch s = none) : (s.ch idx).configured = false := by
  unfold cfgRefusal at h
  split at h
  · cases h
  · split at h
    · cases h
    · next hc => simpa using hc

theorem extends_findOrInsertGroup {timer : TimerId} {u : State} (h : s.Extends t)
    (hu : findOrInsertGroup timer t = some u) : s.Extends u := by
  obtain ⟨-, ⟨-, rfl⟩ | ⟨-, -, rfl⟩⟩ := findOrInsertGroup_some hu
  · exact h
  · exact { h with timers := h.timers.trans (by rw [List.map_append]; exact List.prefix_append _ _) }

theorem findOrInsertGroup_ch {timer : TimerId} {u : State} (hu : findOrInsertGroup timer t = some u) (i : MotorIdx) :
    u.ch i = t.ch i := by
  obtain ⟨-, ⟨-, rfl⟩ | ⟨-, -, rfl⟩⟩ := findOrInsertGroup_some hu <;> rfl

/-- The one operation that writes a binding keeps those that are: it is for a channel that has none. -/
theorem extends_cfgBind {idx : MotorIdx} {timer : TimerId} {ch : HwChannel} {n : Bool} (h : s.Extends t)
    (hidx : (t.ch idx).configured = false) : s.Extends (cfgBind idx timer ch n t) :=
  { h with
    bindings := fun j hj => by
      have hne : j ≠ idx := by
        rintro rfl
        rw [h.configured hj] at hidx
        cases hidx
      rw [cfgBind_ch, if_neg hne, h.bindings j hj] }

theorem extends_cfgFinish {idx : MotorIdx} (h : s.Extends t) : s.Extends (cfgFinish idx t) :=
  { h with
    bindings := fun j hj => by
      rw [cfgFinish_ch, ← h.bindings j hj]
      split
      · next hji =>
        subst hji
        simp [Chan.binding, h.configured hj]
      · rfl }

/-! ### BEGIN (R136 to R139) -/

theorem extends_setDirectionOutput {i : MotorIdx} (h : s.Extends t) : s.Extends (setDirectionOutput i t) :=
  extends_emit (extends_modCh h fun _ => rfl)

theorem extends_switchIfWanted {i : MotorIdx} {f : Bool} (h : s.Extends t) : s.Extends (switchIfWanted i f t) := by
  unfold switchIfWanted
  split
  · exact extends_setDirectionOutput h
  · exact h

theorem extends_enableOutput {i : MotorIdx} (h : s.Extends t) : s.Extends (enableOutput i t) := by
  unfold enableOutput
  split
  · exact extends_modCh h fun _ => rfl
  · exact h

theorem extends_noteCapture {i : MotorIdx} (h : s.Extends t) : s.Extends (noteCapture i t) := extends_noteUnwritten h

theorem extends_recordDecoded {i : MotorIdx} {r : Telemetry} (h : s.Extends t) : s.Extends (recordDecoded i r t) := by
  cases r with
  | invalid => exact { extends_emit (e := .decoded i .invalid) h with }
  | valid p =>
    exact { extends_emit (e := .decoded i (.valid p))
      (extends_modCh (i := i) (f := fun c => { c with telemetryValue := p.setWidth 16 }) h fun _ => rfl) with }

theorem extends_clearTelemetry {i : MotorIdx} (h : s.Extends t) : s.Extends (clearTelemetry i t) :=
  extends_modCh h fun _ => rfl

theorem extends_beginChannel {i : MotorIdx} (h : s.Extends t) : s.Extends (beginChannel i t) := by
  unfold beginChannel
  split
  · split
    · exact extends_switchIfWanted (extends_clearTelemetry (extends_recordDecoded (extends_noteCapture h)))
    · exact extends_switchIfWanted h
  · exact h

theorem extends_beginTelemetry (h : s.Extends t) : s.Extends (beginTelemetry t) := by
  unfold beginTelemetry
  split
  · exact extends_foldl h fun _ _ => extends_beginChannel
  · exact h

/-! ### TX (R140 to R143) -/

theorem extends_txOperands {idx : MotorIdx} {value : BitVec 16} {tr : Bool} (h : s.Extends t) :
    s.Extends (txOperands idx value tr t) :=
  extends_modCh h fun _ => rfl

theorem extends_txCommand {idx : MotorIdx} (h : s.Extends t) : s.Extends (txCommand idx t) := by
  unfold txCommand
  split
  · exact extends_modCh h fun _ => rfl
  · exact h

theorem extends_txClearRequest {idx : MotorIdx} (h : s.Extends t) : s.Extends (txClearRequest idx t) :=
  extends_modCh h fun _ => rfl

theorem extends_txLane {idx : MotorIdx} {frame : List Duty} (h : s.Extends t) : s.Extends (txLane idx frame t) := by
  unfold txLane
  split
  · exact extends_modGrp h fun _ => rfl
  · exact h

theorem extends_txFrame {idx : MotorIdx} {frame : List Duty} (h : s.Extends t) : s.Extends (txFrame idx frame t) := by
  unfold txFrame
  split
  · exact extends_modCh (extends_txLane h) fun _ => rfl
  · exact extends_modCh h fun _ => rfl

theorem extends_txArm {idx : MotorIdx} {len : Nat} (h : s.Extends t) : s.Extends (txArm idx len t) := by
  unfold txArm
  split
  · split
    · exact extends_modGrp h fun _ => rfl
    · exact h
  · exact extends_modCh h fun _ => rfl

theorem extends_txSource {idx : MotorIdx} (h : s.Extends t) : s.Extends (txSource idx t) := by
  unfold txSource
  split
  · exact extends_modGrp h fun _ => rfl
  · exact h

theorem extends_txLoad {idx : MotorIdx} {value : BitVec 16} {tr : Bool} (h : s.Extends t) :
    s.Extends (txLoad idx value tr t) :=
  extends_txSource (extends_txArm (extends_txFrame (extends_txClearRequest (extends_txCommand (extends_txOperands h)))))

/-! ### GO (R145 to R148) -/

theorem extends_goReset {g : Nat} (h : s.Extends t) : s.Extends (goReset g t) := by
  unfold goReset
  split
  · exact extends_emit (extends_modGrp h fun _ => rfl)
  · exact h

theorem extends_goEnable {g : Nat} (h : s.Extends t) : s.Extends (goEnable g t) := by
  unfold goEnable
  split
  · refine extends_emit ?_
    split
    · exact extends_modGrp h fun _ => rfl
    · exact extends_mapCh h fun _ _ => by split <;> rfl
  · exact h

theorem extends_goClear {g : Nat} (h : s.Extends t) : s.Extends (goClear g t) := extends_modGrp h fun _ => rfl

theorem extends_goGroup {g : Nat} (h : s.Extends t) : s.Extends (goGroup g t) :=
  extends_goClear (extends_goEnable (extends_goReset h))

/-! ### The notch table and the scheduler (R234 to R257) -/

theorem extends_rpmInitialise (h : s.Extends t) : s.Extends (rpmInitialise t) := { h with inited := fun _ => rfl }

theorem extends_smoothAll (h : s.Extends t) : s.Extends (smoothAll t) := by
  unfold smoothAll
  exact { h with }

theorem extends_recomputeAt {c : Cursor} (h : s.Extends t) : s.Extends (recomputeAt c t) := { h with }

theorem extends_advance {c : Cursor} (h : s.Extends t) : s.Extends (advance c t) := by
  unfold advance
  split
  · split
    · exact { h with }
    · exact { h with }
  · exact { h with }

theorem extends_recomputeOne (h : s.Extends t) : s.Extends (recomputeOne t) := by
  unfold recomputeOne
  split
  · exact extends_advance (extends_recomputeAt h)
  · exact h

theorem extends_recomputeMany (h : s.Extends t) : s.Extends (recomputeMany t) := by
  unfold recomputeMany
  split
  · exact Function.Iterate.rec s.Extends h (fun _ => extends_recomputeOne) t.sched.budget
  · exact h

theorem extends_filterThrough {b : BankIdx} {axis : Axis} {k : Nat} {ns : List (MotorIdx × Nat)} {x : Num}
    (h : s.Extends t) : s.Extends (filterThrough b axis k ns x t).2 := by
  rw [filterThrough_state]
  exact { h with }

theorem extends_applyBank {b : BankIdx} {axis : Axis} {x : Num} (h : s.Extends t) : s.Extends (applyBank b axis x t).2 := by
  unfold applyBank
  split
  · exact h
  · exact extends_noteUnwritten (extends_filterThrough h)

/-! ### The handler and the beats (R207 to R213) -/

theorem extends_setDirectionInput {i : MotorIdx} {tm : Timestamp} (h : s.Extends t) :
    s.Extends (setDirectionInput i tm t) :=
  { extends_emit (e := .dirToInput i)
      (extends_modCh (i := i) (f := fun c =>
        { c with
          chanMode := .inputCapture, dmaDir := .fromTimer, outEn := false, isInput := true, dmaPos := 0,
          dmaCount := inLen t.cfg, dmaArmed := true, reqEn := true }) h fun _ => rfl) with }

theorem extends_handlerBody {i : MotorIdx} {tm : Timestamp} (h : s.Extends t) : s.Extends (handlerBody i tm t) := by
  unfold handlerBody
  dsimp only
  have hclear := extends_modCh (i := i) (f := fun c => { c with tcFlag := false }) h fun _ => rfl
  split
  · exact extends_modCh hclear fun _ => rfl
  · split
    · exact extends_setDirectionInput (extends_modCh hclear fun _ => rfl)
    · exact extends_modCh hclear fun _ => rfl

theorem extends_groupDuties {gr : Group} {is : List MotorIdx} (h : s.Extends t) : s.Extends (groupDuties gr is t) :=
  extends_noteUnwritten { h with log := h.log.trans (List.prefix_append _ _) }

theorem extends_raiseTcOn {is : List MotorIdx} (h : s.Extends t) : s.Extends (raiseTcOn is t) :=
  extends_foldl h fun _ _ hu => extends_modCh hu fun _ => rfl

end Rules

/-! ## Every operation keeps it -/

theorem execCfg_extends {idx : MotorIdx} {timer : TimerId} {ch : HwChannel} {n : Bool} {s t : State}
    (h : execCfg idx timer ch n s = .next t) : s.Extends t := by
  unfold execCfg at h
  split at h
  · cases h
    exact extends_markRefused (.refl s)
  · next hr =>
    split at h
    · cases h
      exact extends_markRefused (.refl s)
    · next u hu =>
      cases h
      have hidx : (u.ch idx).configured = false := by
        rw [findOrInsertGroup_ch hu]
        exact unconfigured_of_cfgRefusal_eq_none hr
      exact extends_cfgFinish (extends_cfgBind (extends_findOrInsertGroup (.refl s) hu) hidx)

theorem execBeginUpdate_extends {s t : State} (h : execBeginUpdate s = .next t) : s.Extends t := by
  cases h
  exact extends_foldl (extends_beginTelemetry (.refl s)) fun _ _ => extends_enableOutput

theorem execTx_extends {idx : MotorIdx} {value : BitVec 16} {tr : Bool} {s t : State}
    (h : execTx idx value tr s = .next t) : s.Extends t := by
  unfold execTx at h
  split at h
  · cases h
    exact .refl s
  · split at h
    · cases h
      exact extends_markFault (.refl s)
    · cases h
      exact extends_txLoad (.refl s)

theorem execGo_extends {s t : State} (h : execGo s = .next t) : s.Extends t := by
  unfold execGo at h
  split at h
  · cases h
    exact .refl s
  · cases h
    exact extends_foldl (.refl s) fun _ _ => extends_goGroup

theorem execGett_extends {idx : MotorIdx} {s t : State} (h : execGett idx s = .next t) : s.Extends t := by
  cases h
  exact extends_respond (.refl s)

theorem execRpminit_extends {s t : State} (h : execRpminit s = .next t) : s.Extends t := by
  unfold execRpminit at h
  split at h
  · cases h
    exact extends_markRefused (.refl s)
  · split at h
    · cases h
      exact extends_markRefused (.refl s)
    · cases h
      exact extends_rpmInitialise (.refl s)

theorem execRpmupd_extends {s t : State} (h : execRpmupd s = .next t) : s.Extends t := by
  unfold execRpmupd at h
  split at h
  · cases h
    exact extends_markRefused (.refl s)
  · cases h
    exact extends_recomputeMany (extends_smoothAll (.refl s))

theorem filterSample_extends {b : BankIdx} {axis : Axis} {s t : State} (h : filterSample b axis s = .next t) :
    s.Extends t := by
  cases h
  exact extends_respond (extends_applyBank (.refl s))

theorem exec_extends {i : Instr} {s t : State} (h : exec i s = .next t) : s.Extends t := by
  cases i with
  | cfg idx timer ch n => exact execCfg_extends h
  | beginUpdate => exact execBeginUpdate_extends h
  | tx idx value tr => exact execTx_extends h
  | go => exact execGo_extends h
  | gett idx => exact execGett_extends h
  | rpminit => exact execRpminit_extends h
  | rpmupd => exact execRpmupd_extends h
  | fgyro axis => exact filterSample_extends h
  | fdterm axis => exact filterSample_extends h

/-! ## Every atomic action keeps it, where CFG binds no channel that is configured -/

theorem MainAct.ofCfg_of_binds {a : MainAct} {idx : MotorIdx} (h : a.binds = some idx) : a.ofCfg = true := by
  unfold MainAct.binds at h
  split at h
  · rfl
  · rfl
  · rfl
  · cases h

theorem PendingCfgIsFresh.head_binds_fresh {s : State} (hp : PendingCfgIsFresh s) {a : MainAct} {rest : List MainAct}
    (hm : s.micro = a :: rest) {idx : MotorIdx} (hb : a.binds = some idx) : (s.ch idx).configured = false := by
  obtain hno | ⟨a', ha', hfresh⟩ := hp
  · have hnot : a.ofCfg = false := hno a (by simp [hm])
    rw [MainAct.ofCfg_of_binds hb] at hnot
    cases hnot
  · rw [hm, List.cons.injEq] at ha'
    obtain ⟨rfl, -⟩ := ha'
    exact hfresh idx hb

theorem runAct_extends {a : MainAct} {s t : State} (hfresh : ∀ idx, a.binds = some idx → (s.ch idx).configured = false)
    (h : runAct a s = .next t) : s.Extends t := by
  have hs := State.Extends.refl s
  cases a with
  | c1 idx timer ch n =>
    simp only [runAct] at h
    split at h
    · cases h; exact extends_markRefused hs
    · cases h; exact extends_push hs
  | c2 idx timer ch n =>
    simp only [runAct] at h
    split at h
    · cases h; exact extends_markRefused hs
    · next u hu => cases h; exact extends_push (extends_findOrInsertGroup hs hu)
  | c3 idx timer ch n => cases h; exact extends_push (extends_cfgBind hs (hfresh idx rfl))
  | c4 idx => cases h; exact extends_cfgFinish hs
  | b1 i =>
    simp only [runAct] at h
    split at h
    · cases h; exact extends_push hs
    · cases h; exact hs
  | b2 i => cases h; exact extends_push (extends_noteCapture hs)
  | b3 i r => cases h; exact extends_push (extends_recordDecoded hs)
  | b4 i => cases h; exact extends_push (extends_clearTelemetry hs)
  | b5 i f => cases h; exact extends_switchIfWanted hs
  | b6 i => cases h; exact extends_enableOutput hs
  | t0 idx value tr =>
    simp only [runAct] at h
    split at h
    · cases h; exact extends_push hs
    · cases h; exact hs
  | t1 idx value tr =>
    simp only [runAct] at h
    split at h
    · cases h; exact extends_markFault hs
    · cases h; exact extends_push hs
  | t2 idx value tr => cases h; exact extends_push (extends_txOperands hs)
  | t3 idx => cases h; exact extends_push (extends_txCommand hs)
  | t4 idx => cases h; exact extends_push (extends_txClearRequest hs)
  | t5 idx packet => cases h; exact extends_push (extends_txFrame hs)
  | t6 idx len => cases h; exact extends_push (extends_txArm hs)
  | t7 idx => cases h; exact extends_txSource hs
  | g0 =>
    simp only [runAct] at h
    split at h
    · cases h; exact hs
    · cases h; exact extends_push hs
  | g1 g => cases h; exact extends_goReset hs
  | g2 g => cases h; exact extends_goEnable hs
  | g3 g => cases h; exact extends_goClear hs
  | getT idx => exact execGett_extends h
  | rpmInit => exact execRpminit_extends h
  | rpmUpd => exact execRpmupd_extends h
  | filt b axis => exact filterSample_extends h

/-! ## Every move but the collaborator's keeps it -/

theorem issue_extends {k : Instr → State → Host.Outcome State Fault Refusal} {w : Word} {x : Num} {s t : State}
    (hk : ∀ i u, k i (withOpnd x s) = .next u → (withOpnd x s).Extends u) (h : issue k w x s = .next t) :
    s.Extends t := by
  obtain ⟨-, ⟨i, -, hi⟩ | rfl⟩ := issue_next h
  · exact { hk i t hi with }
  · exact extends_markRefused (.refl s)

theorem startOp_extends {i : Instr} {s t : State}
    (h : (.next (startOp i s) : Host.Outcome State Fault Refusal) = .next t) : s.Extends t := by
  cases h
  exact { State.Extends.refl s with }

theorem runNextAct_extends {s t : State} (hp : PendingCfgIsFresh s) (h : runNextAct s = .next t) : s.Extends t := by
  obtain ⟨a, rest, hm, ha⟩ := runNextAct_next h
  exact { runAct_extends (s := { s with micro := rest }) (fun _ => hp.head_binds_fresh hm) ha with }

theorem runOutBeat_extends {i : MotorIdx} {s t : State} (h : runOutBeat i s = .next t) : s.Extends t := by
  obtain ⟨-, -, rfl⟩ := runOutBeat_next h
  exact extends_modCh (extends_emit (extends_noteUnwritten (.refl s))) fun _ => rfl

theorem runInBeat_extends {i : MotorIdx} {tm : Timestamp} {s t : State} (h : runInBeat i tm s = .next t) :
    s.Extends t := by
  obtain ⟨-, -, rfl⟩ := runInBeat_next h
  exact extends_modCh (extends_emit (.refl s)) fun _ => rfl

theorem runGroupBeat_extends {g : Nat} {s t : State} (h : runGroupBeat g s = .next t) : s.Extends t := by
  obtain ⟨gr, -, -, -, rfl⟩ := runGroupBeat_next h
  have hbeat := extends_modGrp (g := g) (f := Group.afterBeat)
    (extends_groupDuties (gr := gr) (is := groupMembers s g) (.refl s)) fun _ => rfl
  split
  · exact extends_raiseTcOn hbeat
  · exact hbeat

theorem runMove_extends_or_collab {mv : Move} {s t : State} (hp : PendingCfgIsFresh s)
    (h : runMove exec mv s = .next t) : s.Extends t ∨ ∃ c, mv = .collab c ∧ t = { s with collab := c } := by
  cases mv with
  | op w x => exact .inl (issue_extends (fun _ _ => exec_extends) h)
  | start w x => exact .inl (issue_extends (k := fun i u => .next (startOp i u)) (fun _ _ => startOp_extends) h)
  | act => exact .inl (runNextAct_extends hp h)
  | handler i tm =>
    obtain ⟨-, rfl⟩ := runHandler_next h
    exact .inl (extends_handlerBody (.refl s))
  | outBeat i => exact .inl (runOutBeat_extends h)
  | inBeat i tm => exact .inl (runInBeat_extends h)
  | groupBeat g => exact .inl (runGroupBeat_extends h)
  | collab c => exact .inr ⟨c, rfl, by cases h; rfl⟩

theorem step_extends_or_collab {s t : State} (hp : PendingCfgIsFresh s) (h : step s = .next t) :
    s.Extends t ∨ ∃ c rest, s.moves = .collab c :: rest ∧ t = { s with moves := rest, collab := c } := by
  obtain ⟨-, ⟨-, rfl⟩ | ⟨mv, rest, hm, hmv⟩⟩ := step_next h
  · exact .inl (.refl t)
  · obtain hext | ⟨c, rfl, rfl⟩ := runMove_extends_or_collab (s := { s with moves := rest }) hp hmv
    · exact .inl { hext with }
    · exact .inr ⟨c, rest, hm, rfl⟩

/-- The collaborator's move sets its lines and nothing else (R47). -/
theorem step_collab {s : State} {c : Collab} {rest : List Move} (hl : launchRefusal s.cfg = none)
    (hm : s.moves = .collab c :: rest) : step s = .next { s with moves := rest, collab := c } :=
  step_of_moves_cons hl hm

/-! ## The statements of the family -/

/-- Settles O8: the illegal values are the negation of `CfgLegal`, clause by clause, and the launch check comes first. -/
theorem illegalConfigurationTakesNoStep : Obligations.IllegalConfigurationTakesNoStep := by
  intro s illegal
  have hlegal : CfgLegal s.cfg ↔ ¬ illegal := cfgLegal_iff_no_illegal_field s.cfg
  refine ⟨fun hi => ?_, fun hi hburst htel => ?_, fun hi hboth => ?_⟩
  · exact step_of_launchRefusal (launchRefusal_of_not_cfgLegal fun hl => hlegal.1 hl hi)
  · apply step_of_launchRefusal
    simp [launchRefusal_of_cfgLegal (hlegal.2 hi), hburst, htel]
  · simpa [launchRefusal_of_cfgLegal (hlegal.2 hi)] using hboth

/-- Settles O7: the word at the head of the schedule is issued, and `withFetchWord` puts its word there. -/
theorem stepRunsTheDecodedOperation : Obligations.StepRunsTheDecodedOperation := by
  have hrun : ∀ (s : State) (w : Word) (x : Rat) (rest : List Move) (i : Instr),
      launchRefusal s.cfg = none → s.micro = [] → s.moves = .op w x :: rest → decode s.cfg.nMotorsMax w = .ok i →
      step s = exec i { s with moves := rest, opnd := x } := fun s w x rest i hl hm hmoves hd =>
    (step_of_moves_cons hl hmoves).trans (issue_of_decode (s := { s with moves := rest }) hm hd)
  exact ⟨hrun, fun s nbits w i hl hd => hrun (s.withFetchWord nbits w) _ s.opnd s.moves i hl rfl rfl hd⟩

/-- Settles O43: every move but the collaborator's extends the state, and the collaborator's writes its lines only. -/
theorem nothingIsUndone : Obligations.NothingIsUndone := by
  refine ⟨fun s t hp h => ?_, fun s c rest => step_collab⟩
  obtain hext | ⟨c, rest, hm, rfl⟩ := step_extends_or_collab hp h
  · refine ⟨hext.cfg, fun i hi => ?_, hext.inited, hext.timers, hext.log, hext.faults, hext.refused, .inl hext.collab.symm⟩
    have hb := hext.bindings i hi
    simp only [Chan.binding, Prod.mk.injEq, hi] at hb
    exact hb
  · have hsame := State.Extends.refl s
    exact ⟨rfl, fun i hi => ⟨hi, rfl, rfl, rfl⟩, id, hsame.timers, hsame.log, hsame.faults, hsame.refused,
      .inr ⟨rest, hm⟩⟩

end Sys2Proof.Machine

/-! Proofs of the state family (10_state.md): what one elementary change can do to a channel, to the groups and to the
registers, and the invariants and rules over every step that follow from it. -/

namespace Sys2Proof.Machine

/-! ## Where a change comes from -/

/-- What a step is taking when it changes the state: a whole operation, one atomic action of MAIN, or anything else. -/
inductive Origin where
  | op (i : Instr)
  | act (a : MainAct)
  | other

/-- The first move of `s`, and where it is MAIN's the head of what MAIN has to do, is of this origin (R80, R81). -/
def Origin.At (s : State) : Origin → Prop
  | .op i => ∃ w x rest, s.moves = .op w x :: rest ∧ decode s.cfg.nMotorsMax w = .ok i
  | .act a => ∃ rest more, s.moves = .act :: rest ∧ s.micro = a :: more
  | .other => True

/-- The action being taken, if one is, has property `P`. -/
def Origin.Sound (P : State → MainAct → Prop) (o : Origin) (s : State) : Prop := ∀ a, o = .act a → P s a

/-- What MAIN may be left to do in `t`: where the action being taken finds its channel configured, or its group in the table,
the action left finds it too. -/
def Origin.Leaves (o : Origin) (s t : State) (b : MainAct) : Prop :=
  (o.Sound ActConfigured s → ActConfigured t b) ∧ (o.Sound ActHasGroup s → ActHasGroup t b)

theorem Origin.Sound.act {P : State → MainAct → Prop} {a : MainAct} {s : State} (h : (Origin.act a).Sound P s) : P s a :=
  h a rfl

theorem Origin.At.sound {o : Origin} {s : State} {P : State → MainAct → Prop} (ho : o.At s)
    (hP : ∀ a ∈ s.micro, P s a) : o.Sound P s := by
  rintro a rfl
  obtain ⟨rest, more, -, hmicro⟩ := ho
  exact hP a (by simp [hmicro])

/-! ## One elementary change -/

/-- What one elementary change can make of channel `i` of `s` (R22, R30, R35). -/
inductive ChanChange (o : Origin) (s : State) (i : MotorIdx) : Chan → Prop where
  | same : ChanChange o s i (s.ch i)
  /-- C3 (R131). -/
  | bind (timer : TimerId) (ch : HwChannel) (n : Bool)
      (ho : o = .op (.cfg i timer ch n) ∨ o = .act (.c3 i timer ch n))
      (hgroup : o.Sound ActHasGroup s → findGroup s timer ≠ none) :
      ChanChange o s i
        { s.ch i with
          timer := timer, ch := ch, outputN := n, chanMode := .outputCompare, dmaDir := .toTimer, isInput := false,
          outEn := false }
  /-- C4 (R131). -/
  | finish (hgroup : o.Sound ActHasGroup s → groupOf s i ≠ none) : ChanChange o s i { s.ch i with configured := true }
  /-- B3 of a valid speed (R137). -/
  | speed (p : BitVec 12) (ho : o = .op .beginUpdate ∨ o = .act (.b3 i (.valid p))) :
      ChanChange o s i { s.ch i with telemetryValue := p.setWidth 16 }
  /-- B4 (R136). -/
  | consumed : ChanChange o s i { s.ch i with hasTelemetry := false }
  /-- B5 (R138). -/
  | toOutput (ho : o = .op .beginUpdate ∨ ∃ f, o = .act (.b5 i f)) :
      ChanChange o s i
        { s.ch i with
          dmaArmed := false, reqEn := false, chanMode := .outputCompare, dmaDir := .toTimer, outEn := false,
          isInput := false }
  /-- B6 (R139). -/
  | enable (ho : o = .op .beginUpdate ∨ o = .act (.b6 i)) (hconf : (s.ch i).configured = true) :
      ChanChange o s i { s.ch i with outEn := true }
  /-- T2 to T4 (R141). -/
  | operands (value : BitVec 16) (ask : Bool) (hconf : o.Sound ActConfigured s → (s.ch i).configured = true) :
      ChanChange o s i { s.ch i with value := value, requestTelemetry := ask }
  /-- T5 (R141). -/
  | frame (buf : Memory Duty) (len : Nat) : ChanChange o s i { s.ch i with outBuf := buf, outLen := len }
  /-- T6 (R141). -/
  | arm (len : Nat) (hconf : o.Sound ActConfigured s → (s.ch i).configured = true) :
      ChanChange o s i { s.ch i with dmaPos := 0, dmaCount := len, dmaArmed := true }
  /-- G2 (R147). -/
  | request (hconf : (s.ch i).configured = true) : ChanChange o s i { s.ch i with reqEn := true }
  /-- The handler of a receiving channel (R207). -/
  | received (htc : (s.ch i).tcFlag = true) :
      ChanChange o s i { s.ch i with tcFlag := false, hasTelemetry := true, dmaArmed := false, reqEn := false }
  /-- The handler of a sending channel, telemetry enabled (R207, R215). -/
  | toInput (ho : o = .other) (htc : (s.ch i).tcFlag = true) :
      ChanChange o s i
        { s.ch i with
          tcFlag := false, chanMode := .inputCapture, dmaDir := .fromTimer, outEn := false, isInput := true, dmaPos := 0,
          dmaCount := inLen s.cfg, dmaArmed := true, reqEn := true }
  /-- The handler of a sending channel, telemetry disabled (R207). -/
  | sent (htc : (s.ch i).tcFlag = true) :
      ChanChange o s i { s.ch i with tcFlag := false, dmaArmed := false, reqEn := false }
  /-- An output beat (R209). -/
  | outBeat (hconf : (s.ch i).configured = true) : ChanChange o s i (s.ch i).afterBeat
  /-- An input beat (R211). -/
  | inBeat (t : Timestamp) (hconf : (s.ch i).configured = true) :
      ChanChange o s i
        { s.ch i with inBuf := Memory.write (s.ch i).inBuf (s.ch i).dmaPos (drawStamp s.cfg t) }.afterBeat
  /-- The last beat of a group's transfer (R213). -/
  | complete (hconf : (s.ch i).configured = true) : ChanChange o s i { s.ch i with tcFlag := true }

/-- What one elementary change can make of the group table of `s` (R37, R38). -/
inductive GroupsChange (s : State) : List Group → Prop where
  | same : GroupsChange s s.grp
  | modify (g : Nat) (f : Group → Group) (htimer : ∀ gr, (f gr).timer = gr.timer)
      (hcounter : ∀ gr, (f gr).counter = gr.counter ∨ (f gr).counter = 0) : GroupsChange s (s.grp.modify g f)
  | insert (timer : TimerId) (hnew : findGroup s timer = none) (hroom : s.grp.length ≠ s.cfg.nTimersMax) :
      GroupsChange s (s.grp ++ [Group.fresh timer])

/-- One elementary change of the state, made by `o`. The defaults say that a part stays as it is. -/
structure Change (o : Origin) (s t : State) : Prop where
  cfg : t.cfg = s.cfg := by rfl
  chan : ∀ i, ChanChange o s i (t.ch i) := by exact fun _ => .same
  grp : GroupsChange s t.grp := by exact .same
  invalidCount : t.invalidCount = s.invalidCount ∨ t.invalidCount < 2 ^ s.cfg.wCnt := by exact .inl rfl
  dbgValue : ∀ i, t.dbgValue.get i = s.dbgValue.get i ∨ (t.dbgValue.get i).toNat ≤ 4095 := by exact fun _ => .inl rfl
  switchTime : ∀ i, t.switchTime.get i = s.switchTime.get i ∨ t.switchTime.get i < 2 ^ s.cfg.wTs := by
    exact fun _ => .inl rfl
  micro : ∀ b ∈ t.micro, b ∈ s.micro ∨ o.Leaves s t b := by exact fun _ hb => .inl hb

/-- Elementary changes made by `o`, one after another. -/
abbrev Changes (o : Origin) : State → State → Prop := Relation.ReflTransGen (Change o)

/-- The parts of the state that an invariant of this family looks at. -/
def State.core (s : State) :
    Cfg × Vector Chan 16 × List Group × Nat × Vector (BitVec 16) 16 × Vector Timestamp 16 × List MainAct :=
  (s.cfg, s.chan, s.grp, s.invalidCount, s.dbgValue, s.switchTime, s.micro)

theorem Changes.one {o : Origin} {s t : State} (h : Change o s t) : Changes o s t := .single h

theorem Changes.andThen {o : Origin} {s t u : State} (h : Changes o s t) (hc : Change o t u) : Changes o s u := h.tail hc

/-- A property that one elementary change keeps is kept by any number of them. -/
theorem Changes.keep {o : Origin} {s t : State} {P : State → Prop} (h : Changes o s t)
    (hP : ∀ u v, P u → Change o u v → P v) (hs : P s) : P t := by
  induction h with
  | refl => exact hs
  | tail _ hc ih => exact hP _ _ ih hc

/-! ## What an elementary change keeps -/

section Kept

variable {o : Origin} {s t : State}

theorem ChanChange.configured {i : MotorIdx} {c : Chan} (h : ChanChange o s i c) (hs : (s.ch i).configured = true) :
    c.configured = true := by
  cases h with
  | finish => rfl
  | _ => exact hs

/-- A channel is configured only by C4, which finds its group (R131). -/
theorem ChanChange.configured_or_group {i : MotorIdx} {c : Chan} (h : ChanChange o s i c) (ho : o.Sound ActHasGroup s)
    (hc : c.configured = true) : (s.ch i).configured = true ∨ groupOf s i ≠ none := by
  cases h with
  | finish hgroup => exact .inr (hgroup ho)
  | _ => exact .inl hc

/-- A channel's timer is changed only by C3, which finds the new timer's group (R131). -/
theorem ChanChange.timer_or_group {i : MotorIdx} {c : Chan} (h : ChanChange o s i c) (ho : o.Sound ActHasGroup s) :
    c.timer = (s.ch i).timer ∨ findGroup s c.timer ≠ none := by
  cases h with
  | bind timer ch n _ hgroup => exact .inr (hgroup ho)
  | _ => exact .inl rfl

theorem Change.configured (h : Change o s t) {i : MotorIdx} (hs : (s.ch i).configured = true) :
    (t.ch i).configured = true :=
  (h.chan i).configured hs

theorem Changes.configured (h : Changes o s t) {i : MotorIdx} (hs : (s.ch i).configured = true) :
    (t.ch i).configured = true :=
  h.keep (P := fun u => (u.ch i).configured = true) (fun _ _ hu hc => hc.configured hu) hs

theorem GroupsChange.timers {gs : List Group} (h : GroupsChange s gs) :
    s.grp.map Group.timer <+: gs.map Group.timer := by
  cases h with
  | same => exact List.prefix_rfl
  | modify g f htimer _ =>
    have htimers : (s.grp.modify g f).map Group.timer = s.grp.map Group.timer := modGrp_timers s g f htimer
    exact htimers ▸ List.prefix_rfl
  | insert timer _ _ => rw [List.map_append]; exact List.prefix_append _ _

theorem findGroup_ne_none_iff {timer : TimerId} : findGroup s timer ≠ none ↔ timer ∈ s.grp.map Group.timer := by
  simp [findGroup_eq_none]

theorem Change.findGroup_ne_none (h : Change o s t) {timer : TimerId} (hs : findGroup s timer ≠ none) :
    findGroup t timer ≠ none :=
  findGroup_ne_none_iff.2 (h.grp.timers.subset (findGroup_ne_none_iff.1 hs))

theorem Change.groupOf_ne_none (h : Change o s t) (ho : o.Sound ActHasGroup s) {i : MotorIdx}
    (hs : groupOf s i ≠ none) : groupOf t i ≠ none := by
  obtain htimer | hfound := (h.chan i).timer_or_group ho
  · exact h.findGroup_ne_none (by rwa [htimer])
  · exact h.findGroup_ne_none hfound

theorem Change.actConfigured (h : Change o s t) {a : MainAct} (ha : ActConfigured s a) : ActConfigured t a := by
  cases a with
  | t1 | t2 | t3 | t4 | t5 | t6 | t7 => exact h.configured ha
  | _ => trivial

theorem Change.actHasGroup (h : Change o s t) (ho : o.Sound ActHasGroup s) {a : MainAct} (ha : ActHasGroup s a) :
    ActHasGroup t a := by
  cases a with
  | c3 => exact h.findGroup_ne_none ha
  | c4 => exact h.groupOf_ne_none ho ha
  | _ => trivial

end Kept

/-! ## Each operation over the state as an elementary change -/

section Rules

variable {o : Origin} {s t u : State}

theorem actConfigured_congr (hch : ∀ i, u.ch i = t.ch i) {a : MainAct} (ha : ActConfigured t a) : ActConfigured u a := by
  cases a <;> simp only [ActConfigured, hch] at ha ⊢ <;> exact ha

theorem actHasGroup_congr (hch : ∀ i, u.ch i = t.ch i) (hgrp : u.grp = t.grp) {a : MainAct} (ha : ActHasGroup t a) :
    ActHasGroup u a := by
  have hfind : ∀ k, findGroup u k = findGroup t k := fun k => findGroup_congr (congrArg _ hgrp) k
  cases a <;> simp only [ActHasGroup, groupOf, hch, hfind] at ha ⊢ <;> exact ha

/-- A change is a change whatever it does beside the parts that are looked at. -/
theorem Change.congr_core (h : Change o s t) (hu : u.core = t.core) : Change o s u := by
  simp only [State.core, Prod.mk.injEq] at hu
  obtain ⟨hcfg, hchan, hgrp, hinvalid, hdbg, hswitch, hmicro⟩ := hu
  have hch : ∀ i, u.ch i = t.ch i := fun i => congrArg (fun v => Vector.get v i) hchan
  have hleaves : ∀ b, o.Leaves s t b → o.Leaves s u b := fun b ⟨hconf, hgroup⟩ =>
    ⟨fun ho => actConfigured_congr hch (hconf ho), fun ho => actHasGroup_congr hch hgrp (hgroup ho)⟩
  exact
    { cfg := hcfg.trans h.cfg
      chan := fun i => hch i ▸ h.chan i
      grp := hgrp ▸ h.grp
      invalidCount := hinvalid ▸ h.invalidCount
      dbgValue := hdbg ▸ h.dbgValue
      switchTime := hswitch ▸ h.switchTime
      micro := fun b hb => (h.micro b (hmicro ▸ hb)).imp_right (hleaves b) }

theorem Change.emit {e : Event} (h : Change o s t) : Change o s (emit e t) := h.congr_core rfl

theorem change_of_core_eq (h : t.core = s.core) : Change o s t := Change.congr_core (t := s) {} h

theorem change_modCh {i : MotorIdx} {f : Chan → Chan} (h : ChanChange o s i (f (s.ch i))) : Change o s (s.modCh i f) where
  chan j := by
    rw [ch_modCh]
    split
    · next hj => subst hj; exact h
    · exact .same

theorem change_mapCh {f : MotorIdx → Chan → Chan} (h : ∀ i, ChanChange o s i (f i (s.ch i))) :
    Change o s (s.mapCh f) where
  cfg := mapCh_cfg ..
  chan i := by rw [ch_mapCh]; exact h i
  grp := by rw [mapCh_grp]; exact .same
  invalidCount := .inl (mapCh_invalidCount ..)
  dbgValue i := .inl (by rw [mapCh_dbgValue])
  switchTime i := .inl (by rw [mapCh_switchTime])
  micro b hb := .inl (by rwa [mapCh_micro] at hb)

theorem change_modGrp {g : Nat} {f : Group → Group} (htimer : ∀ gr, (f gr).timer = gr.timer)
    (hcounter : ∀ gr, (f gr).counter = gr.counter ∨ (f gr).counter = 0) : Change o s (s.modGrp g f) where
  grp := .modify g f htimer hcounter

theorem change_micro {as : List MainAct} (h : ∀ b ∈ as, b ∈ s.micro ∨ o.Leaves s { s with micro := as } b) :
    Change o s { s with micro := as } where
  micro := h

theorem change_push {as : List MainAct} (h : ∀ b ∈ as, o.Leaves s (s.push as) b) : Change o s (s.push as) :=
  change_micro fun b hb => (List.mem_append.1 hb).elim (fun hb => .inr (h b hb)) .inl

theorem Changes.pushOne {a : MainAct} (h : Changes o s t) (hconf : o.Sound ActConfigured t → ActConfigured (t.push [a]) a)
    (hgroup : o.Sound ActHasGroup t → ActHasGroup (t.push [a]) a) : Changes o s (t.push [a]) :=
  h.andThen (change_push fun b hb => by
    cases List.mem_singleton.1 hb
    exact ⟨hconf, hgroup⟩)

theorem core_noteUnwritten (lacking : Bool) (s : State) : (noteUnwritten lacking s).core = s.core := by
  cases lacking <;> rfl

/-- A loop of changes is a chain of changes. -/
theorem changes_foldl {α : Type} {f : State → α → State} {as : List α} (h : Changes o s t)
    (hf : ∀ u, Changes o s u → ∀ a ∈ as, Changes o u (f u a)) : Changes o s (as.foldl f t) :=
  List.foldlRecOn as f h fun u hu a ha => hu.trans (hf u hu a ha)

/-! ### CFG (R131, R132) -/

theorem change_findOrInsertGroup {timer : TimerId} (h : findOrInsertGroup timer s = some t) : Change o s t := by
  obtain ⟨-, ⟨-, rfl⟩ | ⟨hnew, hroom, rfl⟩⟩ := findOrInsertGroup_some h
  · exact {}
  · exact { grp := .insert timer hnew hroom }

theorem change_cfgBind {idx : MotorIdx} {timer : TimerId} {ch : HwChannel} {n : Bool}
    (ho : o = .op (.cfg idx timer ch n) ∨ o = .act (.c3 idx timer ch n))
    (hgroup : o.Sound ActHasGroup s → findGroup s timer ≠ none) : Change o s (cfgBind idx timer ch n s) :=
  change_modCh (.bind timer ch n ho hgroup)

theorem change_cfgFinish {idx : MotorIdx} (hgroup : o.Sound ActHasGroup s → groupOf s idx ≠ none) :
    Change o s (cfgFinish idx s) :=
  change_modCh (.finish hgroup)

/-- The group of a channel just bound is its new timer's (R131). -/
theorem groupOf_cfgBind (idx : MotorIdx) (timer : TimerId) (ch : HwChannel) (n : Bool) (s : State) :
    groupOf (cfgBind idx timer ch n s) idx = findGroup s timer := by
  unfold groupOf
  rw [cfgBind_ch, if_pos rfl]
  rfl

/-! ### BEGIN (R136 to R139) -/

theorem toNat_speed_le (p : BitVec 12) : (p.setWidth 16).toNat ≤ 4095 := by
  have := p.isLt
  simp only [BitVec.toNat_setWidth]
  omega

theorem change_recordDecoded {i : MotorIdx} {r : Telemetry} (ho : o = .op .beginUpdate ∨ o = .act (.b3 i r)) :
    Change o s (recordDecoded i r s) := by
  cases r with
  | invalid => exact { invalidCount := .inr (Nat.mod_lt _ (Nat.two_pow_pos _)) }
  | valid p =>
    have hmod : Change o s (s.modCh i fun c => { c with telemetryValue := p.setWidth 16 }) := change_modCh (.speed p ho)
    refine { hmod with dbgValue := fun j => ?_ }
    rw [recordDecoded_dbgValue]
    split
    · exact .inr (toNat_speed_le p)
    · exact .inl rfl

theorem change_noteCapture {i : MotorIdx} : Change o s (noteCapture i s) := change_of_core_eq (core_noteUnwritten _ _)

theorem change_clearTelemetry {i : MotorIdx} : Change o s (clearTelemetry i s) := change_modCh .consumed

theorem change_switchIfWanted {i : MotorIdx} {f : Bool} (ho : o = .op .beginUpdate ∨ ∃ f, o = .act (.b5 i f)) :
    Change o s (switchIfWanted i f s) := by
  unfold switchIfWanted
  split
  · exact Change.emit (change_modCh (.toOutput ho))
  · exact {}

theorem change_enableOutput {i : MotorIdx} (ho : o = .op .beginUpdate ∨ o = .act (.b6 i)) :
    Change o s (enableOutput i s) := by
  unfold enableOutput
  split
  · next hconf => exact change_modCh (.enable ho hconf)
  · exact {}

theorem changes_beginChannel {i : MotorIdx} : Changes (.op .beginUpdate) s (beginChannel i s) := by
  unfold beginChannel
  split
  · split
    · exact (((Changes.one change_noteCapture).andThen (change_recordDecoded (.inl rfl))).andThen
        change_clearTelemetry).andThen (change_switchIfWanted (.inl rfl))
    · exact .one (change_switchIfWanted (.inl rfl))
  · exact .refl

theorem changes_beginTelemetry : Changes (.op .beginUpdate) s (beginTelemetry s) := by
  unfold beginTelemetry
  split
  · exact changes_foldl .refl fun _ _ _ _ => changes_beginChannel
  · exact .refl

/-! ### TX (R140 to R143) -/

section Tx

variable {idx : MotorIdx}

theorem change_txOperands {value : BitVec 16} {tr : Bool}
    (hconf : o.Sound ActConfigured s → (s.ch idx).configured = true) : Change o s (txOperands idx value tr s) :=
  change_modCh (.operands value ((s.ch idx).requestTelemetry || tr) hconf)

theorem change_txCommand (hconf : o.Sound ActConfigured s → (s.ch idx).configured = true) :
    Change o s (txCommand idx s) := by
  unfold txCommand
  split
  · next cv _ => exact change_modCh (.operands cv true hconf)
  · exact {}

theorem change_txClearRequest (hconf : o.Sound ActConfigured s → (s.ch idx).configured = true) :
    Change o s (txClearRequest idx s) :=
  change_modCh (.operands (s.ch idx).value false hconf)

theorem change_txLane {frame : List Duty} : Change o s (txLane idx frame s) := by
  unfold txLane
  split
  · exact change_modGrp (fun _ => rfl) fun _ => .inl rfl
  · exact {}

theorem changes_txFrame {frame : List Duty} : Changes o s (txFrame idx frame s) := by
  unfold txFrame
  split
  · exact (Changes.one change_txLane).andThen (change_modCh (.frame _ frame.length))
  · exact .one (change_modCh (.frame _ frame.length))

theorem change_txArm {len : Nat} (hconf : o.Sound ActConfigured s → (s.ch idx).configured = true) :
    Change o s (txArm idx len s) := by
  unfold txArm
  split
  · split
    · exact change_modGrp (fun _ => rfl) fun _ => .inl rfl
    · exact {}
  · exact change_modCh (.arm len hconf)

theorem change_txSource : Change o s (txSource idx s) := by
  unfold txSource
  split
  · exact change_modGrp (fun _ => rfl) fun _ => .inl rfl
  · exact {}

theorem changes_txLoad {value : BitVec 16} {tr : Bool} (hconf : (s.ch idx).configured = true) :
    Changes o s (txLoad idx value tr s) := by
  have hoperands : Changes o s (txOperands idx value tr s) := .one (change_txOperands fun _ => hconf)
  have hcommand := hoperands.andThen (change_txCommand (idx := idx) fun _ => hoperands.configured hconf)
  have hpacket := hcommand.andThen (change_txClearRequest (idx := idx) fun _ => hcommand.configured hconf)
  have hframe (frame : List Duty) : Changes o s (txFrame idx frame _) := hpacket.trans changes_txFrame
  exact ((hframe _).andThen (change_txArm fun _ => (hframe _).configured hconf)).andThen change_txSource

end Tx

/-! ### GO (R145 to R148) -/

theorem change_goReset {g : Nat} : Change o s (goReset g s) := by
  unfold goReset
  split
  · exact Change.emit (change_modGrp (fun _ => rfl) fun _ => .inr rfl)
  · exact {}

theorem change_goEnable {g : Nat} : Change o s (goEnable g s) := by
  unfold goEnable
  split
  · dsimp only
    refine Change.emit ?_
    split
    · exact change_modGrp (fun _ => rfl) fun _ => .inl rfl
    · refine change_mapCh fun j => ?_
      split
      · next hstarts =>
        simp only [startsIn, Bool.and_eq_true] at hstarts
        obtain ⟨⟨hconf, -⟩, -⟩ := hstarts
        exact .request hconf
      · exact .same
  · exact {}

theorem change_goClear {g : Nat} : Change o s (goClear g s) := change_modGrp (fun _ => rfl) fun _ => .inl rfl

theorem changes_goGroup {g : Nat} : Changes o s (goGroup g s) :=
  ((Changes.one change_goReset).andThen change_goEnable).andThen change_goClear

/-! ### The notch table and the scheduler (R234 to R257) -/

theorem core_smoothAll (s : State) : (smoothAll s).core = s.core := rfl

theorem core_recomputeOne (s : State) : (recomputeOne s).core = s.core := by
  simp [State.core]

theorem core_recomputeMany (s : State) : (recomputeMany s).core = s.core := by
  unfold recomputeMany
  split
  · exact Function.Iterate.rec (fun u => u.core = s.core) rfl (fun u hu => (core_recomputeOne u).trans hu) _
  · rfl

theorem core_applyBank (b : BankIdx) (axis : Axis) (x : Num) (s : State) : (applyBank b axis x s).2.core = s.core := by
  unfold applyBank
  split
  · rfl
  · dsimp only
    rw [core_noteUnwritten, filterThrough_state]
    rfl

/-! ### The handler and the beats (R207 to R213) -/

theorem change_handlerBody {i : MotorIdx} {tm : Timestamp} (htc : (s.ch i).tcFlag = true) :
    Change .other s (handlerBody i tm s) where
  cfg := handlerBody_cfg ..
  chan j := by
    rw [handlerBody_ch]
    split
    · next hj =>
      subst hj
      split
      · exact .received htc
      · split
        · exact .toInput rfl htc
        · exact .sent htc
    · exact .same
  grp := by rw [handlerBody_grp]; exact .same
  invalidCount := .inl (handlerBody_invalidCount ..)
  dbgValue j := .inl (by rw [handlerBody_dbgValue])
  switchTime j := by
    rw [handlerBody_switchTime]
    split
    · exact .inr (Nat.mod_lt _ (Nat.two_pow_pos _))
    · exact .inl rfl
  micro b hb := .inl (by rwa [handlerBody_micro] at hb)

theorem changes_raiseTcOn {is : List MotorIdx} (hconf : ∀ i ∈ is, (s.ch i).configured = true) :
    Changes o s (raiseTcOn is s) :=
  changes_foldl .refl fun _ hu i hi => .one (change_modCh (.complete (hu.configured (hconf i hi))))

theorem core_groupDuties (gr : Group) (is : List MotorIdx) (s : State) : (groupDuties gr is s).core = s.core :=
  core_noteUnwritten _ _

theorem configured_of_mem_groupMembers {g : Nat} {i : MotorIdx} (h : i ∈ groupMembers s g) :
    (s.ch i).configured = true := by
  simp only [groupMembers, List.mem_filter, Bool.and_eq_true] at h
  obtain ⟨-, hconf, -⟩ := h
  exact hconf

end Rules

/-! ## Every operation, action and move is a chain of elementary changes -/

section Steps

variable {o : Origin} {s t : State}

theorem execCfg_changes {idx : MotorIdx} {timer : TimerId} {ch : HwChannel} {n : Bool}
    (h : execCfg idx timer ch n s = .next t) : Changes (.op (.cfg idx timer ch n)) s t := by
  unfold execCfg at h
  split at h
  · cases h; exact .one (change_of_core_eq rfl)
  · split at h
    · cases h; exact .one (change_of_core_eq rfl)
    · next u hu =>
      cases h
      obtain ⟨hfound, -⟩ := findOrInsertGroup_some hu
      exact ((Changes.one (change_findOrInsertGroup hu)).andThen (change_cfgBind (.inl rfl) fun _ => hfound)).andThen
        (change_cfgFinish fun _ => by rwa [groupOf_cfgBind])

theorem execBeginUpdate_changes (h : execBeginUpdate s = .next t) : Changes (.op .beginUpdate) s t := by
  cases h
  exact changes_foldl changes_beginTelemetry fun _ _ _ _ => .one (change_enableOutput (.inl rfl))

theorem execTx_changes {idx : MotorIdx} {value : BitVec 16} {tr : Bool} (h : execTx idx value tr s = .next t) :
    Changes o s t := by
  unfold execTx at h
  split at h
  · cases h; exact .refl
  · next hconf =>
    split at h
    · cases h; exact .one (change_of_core_eq rfl)
    · cases h; exact changes_txLoad (by simpa using hconf)

theorem execGo_changes (h : execGo s = .next t) : Changes o s t := by
  unfold execGo at h
  split at h
  · cases h; exact .refl
  · cases h; exact changes_foldl .refl fun _ _ _ _ => changes_goGroup

theorem execGett_core {idx : MotorIdx} (h : execGett idx s = .next t) : t.core = s.core := by
  cases h; rfl

theorem execRpminit_core (h : execRpminit s = .next t) : t.core = s.core := by
  unfold execRpminit at h
  split at h
  · cases h; rfl
  · split at h <;> cases h <;> rfl

theorem execRpmupd_core (h : execRpmupd s = .next t) : t.core = s.core := by
  unfold execRpmupd at h
  split at h
  · cases h; rfl
  · cases h; exact (core_recomputeMany _).trans (core_smoothAll s)

theorem filterSample_core {b : BankIdx} {axis : Axis} (h : filterSample b axis s = .next t) : t.core = s.core := by
  cases h; exact core_applyBank ..

theorem exec_changes {i : Instr} (h : exec i s = .next t) : Changes (.op i) s t := by
  cases i with
  | cfg idx timer ch n => exact execCfg_changes h
  | beginUpdate => exact execBeginUpdate_changes h
  | tx idx value tr => exact execTx_changes h
  | go => exact execGo_changes h
  | gett idx => exact .one (change_of_core_eq (execGett_core h))
  | rpminit => exact .one (change_of_core_eq (execRpminit_core h))
  | rpmupd => exact .one (change_of_core_eq (execRpmupd_core h))
  | fgyro axis => exact .one (change_of_core_eq (filterSample_core h))
  | fdterm axis => exact .one (change_of_core_eq (filterSample_core h))

/-- The atomic actions of GO ask nothing of a channel or a group (R147). -/
theorem leaves_of_mem_groupActs {g : Nat} {b : MainAct} (hb : b ∈ groupActs g) : o.Leaves s t b := by
  simp only [groupActs, List.mem_cons, List.not_mem_nil, or_false] at hb
  obtain rfl | rfl | rfl := hb <;> exact ⟨fun _ => trivial, fun _ => trivial⟩

/-- An atomic action is a chain of elementary changes, and so is what it leaves MAIN to do (R151, R291). -/
theorem runAct_changes {a : MainAct} (h : runAct a s = .next t) : Changes (.act a) s t := by
  cases a with
  | c1 idx timer ch n =>
    simp only [runAct] at h
    split at h
    · cases h; exact .one (change_of_core_eq rfl)
    · cases h; exact .pushOne .refl (fun _ => trivial) fun _ => trivial
  | c2 idx timer ch n =>
    simp only [runAct] at h
    split at h
    · cases h; exact .one (change_of_core_eq rfl)
    · next u hu =>
      cases h
      obtain ⟨hfound, -⟩ := findOrInsertGroup_some hu
      exact .pushOne (.one (change_findOrInsertGroup hu)) (fun _ => trivial) fun _ => hfound
  | c3 idx timer ch n =>
    cases h
    refine .pushOne (.one (change_cfgBind (.inr rfl) fun ho => ho.act)) (fun _ => trivial) fun ho => ?_
    have hfound : findGroup s timer ≠ none := ho.act
    rw [← groupOf_cfgBind idx timer ch n s] at hfound
    exact hfound
  | c4 idx => cases h; exact .one (change_cfgFinish fun ho => ho.act)
  | b1 i =>
    simp only [runAct] at h
    split at h
    · cases h
      refine .one (change_push fun b hb => ?_)
      split at hb <;> cases List.mem_singleton.1 hb <;> exact ⟨fun _ => trivial, fun _ => trivial⟩
    · cases h; exact .refl
  | b2 i =>
    cases h
    exact .pushOne (.one change_noteCapture) (fun _ => trivial) fun _ => trivial
  | b3 i r =>
    cases h
    exact .pushOne (.one (change_recordDecoded (.inr rfl))) (fun _ => trivial) fun _ => trivial
  | b4 i =>
    cases h
    exact .pushOne (.one change_clearTelemetry) (fun _ => trivial) fun _ => trivial
  | b5 i f => cases h; exact .one (change_switchIfWanted (.inr ⟨f, rfl⟩))
  | b6 i => cases h; exact .one (change_enableOutput (.inr rfl))
  | t0 idx value tr =>
    simp only [runAct] at h
    split at h
    · next hconf => cases h; exact .pushOne .refl (fun _ => hconf) fun _ => trivial
    · cases h; exact .refl
  | t1 idx value tr =>
    simp only [runAct] at h
    split at h
    · cases h; exact .one (change_of_core_eq rfl)
    · cases h; exact .pushOne .refl (fun ho => ho.act) fun _ => trivial
  | t2 idx value tr =>
    cases h
    exact .pushOne (.one (change_txOperands fun ho => ho.act)) (fun ho => ho.act) fun _ => trivial
  | t3 idx =>
    cases h
    exact .pushOne (.one (change_txCommand fun ho => ho.act)) (fun ho => ho.act) fun _ => trivial
  | t4 idx =>
    cases h
    exact .pushOne (.one (change_txClearRequest fun ho => ho.act)) (fun ho => ho.act) fun _ => trivial
  | t5 idx packet => cases h; exact .pushOne changes_txFrame (fun ho => ho.act) fun _ => trivial
  | t6 idx len =>
    cases h
    exact .pushOne (.one (change_txArm fun ho => ho.act)) (fun ho => ho.act) fun _ => trivial
  | t7 idx => cases h; exact .one change_txSource
  | g0 =>
    simp only [runAct] at h
    split at h
    · cases h; exact .refl
    · cases h
      refine .one (change_push fun b hb => ?_)
      obtain ⟨g, -, hb⟩ := List.mem_flatMap.1 hb
      exact leaves_of_mem_groupActs hb
  | g1 g => cases h; exact .one change_goReset
  | g2 g => cases h; exact .one change_goEnable
  | g3 g => cases h; exact .one change_goClear
  | getT idx => exact .one (change_of_core_eq (execGett_core h))
  | rpmInit => exact .one (change_of_core_eq (execRpminit_core h))
  | rpmUpd => exact .one (change_of_core_eq (execRpmupd_core h))
  | filt b axis => exact .one (change_of_core_eq (filterSample_core h))

/-- An operation starts with actions that ask nothing of a channel or a group (R131, R136, R141, R147). -/
theorem leaves_of_mem_firstActs {i : Instr} {u : State} {b : MainAct} (hb : b ∈ firstActs i u) : o.Leaves s t b := by
  have plain : ∀ c : MainAct, b = c → (∀ v, ActConfigured v c) → (∀ v, ActHasGroup v c) → o.Leaves s t b := by
    rintro c rfl hconf hgroup
    exact ⟨fun _ => hconf t, fun _ => hgroup t⟩
  cases i with
  | beginUpdate =>
    obtain hb | hb := List.mem_append.1 hb
    · split at hb
      · obtain ⟨j, -, rfl⟩ := List.mem_map.1 hb
        exact plain (.b1 j) rfl (fun _ => trivial) fun _ => trivial
      · cases hb
    · obtain ⟨j, -, rfl⟩ := List.mem_map.1 hb
      exact plain (.b6 j) rfl (fun _ => trivial) fun _ => trivial
  | _ => exact plain _ (List.mem_singleton.1 hb) (fun _ => trivial) fun _ => trivial

theorem runOutBeat_changes {i : MotorIdx} (h : runOutBeat i s = .next t) : Changes o s t := by
  obtain ⟨hbeat, -, rfl⟩ := runOutBeat_next h
  obtain ⟨-, hconf, -⟩ := (beatEnabled_iff ..).1 hbeat
  have hread : Change o s (emit (.dutyOut i (s.ch i).dmaPos (outDuty s i) (s.ch i).outEn)
      (noteUnwritten (Memory.read (s.ch i).outBuf (s.ch i).dmaPos).isNone s)) :=
    change_of_core_eq (core_noteUnwritten _ _)
  exact (Changes.one hread).andThen (change_modCh (.outBeat (hread.configured hconf)))

theorem runInBeat_changes {i : MotorIdx} {tm : Timestamp} (h : runInBeat i tm s = .next t) : Changes o s t := by
  obtain ⟨hbeat, -, rfl⟩ := runInBeat_next h
  obtain ⟨-, hconf, -⟩ := (beatEnabled_iff ..).1 hbeat
  have hlogged : Change o s (emit (.captured i (s.ch i).dmaPos (drawStamp s.cfg tm)) s) := {}
  exact (Changes.one hlogged).andThen (change_modCh (.inBeat tm hconf))

theorem runGroupBeat_changes {g : Nat} (h : runGroupBeat g s = .next t) : Changes o s t := by
  obtain ⟨gr, -, -, -, rfl⟩ := runGroupBeat_next h
  have hbeat : Changes o s ((groupDuties gr (groupMembers s g) s).modGrp g Group.afterBeat) :=
    (Changes.one (change_of_core_eq (core_groupDuties ..))).andThen
      (change_modGrp (fun _ => rfl) fun _ => .inl rfl)
  split
  · exact hbeat.trans (changes_raiseTcOn fun i hi => hbeat.configured (configured_of_mem_groupMembers hi))
  · exact hbeat

/-- What a step can do: a chain of elementary changes of one origin, which is what the schedule and MAIN stand at (R80, R81). -/
theorem step_changes (h : step s = .next t) : ∃ o : Origin, o.At s ∧ Changes o s t := by
  obtain ⟨-, ⟨-, rfl⟩ | ⟨mv, rest, hm, hmv⟩⟩ := step_next h
  · exact ⟨.other, trivial, .refl⟩
  have htaken : ∀ o, Changes o s { s with moves := rest } := fun o => .one {}
  cases mv with
  | op w x =>
    obtain ⟨-, ⟨i, hd, hi⟩ | rfl⟩ := issue_next hmv
    · refine ⟨.op i, ⟨w, x, rest, hm, hd⟩, ((htaken _).andThen ?_).trans (exec_changes hi)⟩
      exact {}
    · exact ⟨.other, trivial, (htaken _).andThen (change_of_core_eq rfl)⟩
  | start w x =>
    obtain ⟨-, ⟨i, -, hi⟩ | rfl⟩ := issue_next (k := fun i u => .next (startOp i u)) hmv
    · cases hi
      have hport : Change .other { s with moves := rest } (withOpnd x { s with moves := rest }) := {}
      exact ⟨.other, trivial,
        ((htaken _).andThen hport).andThen (change_micro fun _ hb => .inr (leaves_of_mem_firstActs hb))⟩
    · exact ⟨.other, trivial, (htaken _).andThen (change_of_core_eq rfl)⟩
  | act =>
    obtain ⟨a, more, hmicro, ha⟩ := runNextAct_next hmv
    have hpop : Change (.act a) { s with moves := rest } { s with moves := rest, micro := more } :=
      change_micro (s := { s with moves := rest }) fun b hb => .inl (hmicro ▸ List.mem_cons_of_mem a hb)
    exact ⟨.act a, ⟨rest, more, hm, hmicro⟩, ((htaken _).andThen hpop).trans (runAct_changes ha)⟩
  | handler i tm =>
    obtain ⟨htc, rfl⟩ := runHandler_next hmv
    exact ⟨.other, trivial, (htaken _).andThen (change_handlerBody htc)⟩
  | outBeat i => exact ⟨.other, trivial, (htaken _).trans (runOutBeat_changes hmv)⟩
  | inBeat i tm => exact ⟨.other, trivial, (htaken _).trans (runInBeat_changes hmv)⟩
  | groupBeat g => exact ⟨.other, trivial, (htaken _).trans (runGroupBeat_changes hmv)⟩
  | collab c => cases hmv; exact ⟨.other, trivial, .one {}⟩

/-- A property of the state that every elementary change keeps is kept by every step. -/
theorem step_keeps {P : State → Prop} (hP : ∀ o u v, P u → Change o u v → P v) (hs : P s) (h : step s = .next t) :
    P t := by
  obtain ⟨o, -, hc⟩ := step_changes h
  exact hc.keep (hP o) hs

end Steps

/-! ## The three views of a direction (R31(a)) -/

/-- R31(a) of one channel. -/
def Chan.DirectionAgrees (c : Chan) : Prop :=
  (c.isInput = true ↔ c.chanMode = .inputCapture) ∧ (c.chanMode = .inputCapture ↔ c.dmaDir = .fromTimer)

/-- C3, B5 and the handler write the three together, nothing else writes one of them. -/
theorem ChanChange.directionAgrees {o : Origin} {s : State} {i : MotorIdx} {c : Chan} (h : ChanChange o s i c)
    (hs : (s.ch i).DirectionAgrees) : c.DirectionAgrees := by
  cases h with
  | bind | toOutput | toInput => simp [Chan.DirectionAgrees]
  | _ => exact hs

/-- Settles O44: every elementary change of a channel keeps the agreement. -/
theorem stepKeepsDirectionsAgree : Obligations.StepKeepsDirectionsAgree := by
  intro s t hs h
  exact step_keeps (P := DirectionsAgree) (fun o u v hu hc i => (hc.chan i).directionAgrees (hu i)) hs h

/-! ## The flags of an unconfigured channel (R31(e)) -/

/-- A flag is set on a configured channel only; the handler sets its flags where `tcFlag` was set already. -/
theorem ChanChange.quiet {o : Origin} {s : State} {i : MotorIdx} {c : Chan} (h : ChanChange o s i c)
    (ho : o.Sound ActConfigured s) (hs : (s.ch i).configured = false → (s.ch i).quiet) (hc : c.configured = false) :
    c.quiet := by
  have unset {b : Bool} (hb : b = true) (hn : b = false) : False := by simp [hb] at hn
  cases h with
  | finish => cases hc
  | enable _ hconf | request hconf | outBeat hconf | inBeat _ hconf | complete hconf => exact (unset hconf hc).elim
  | operands _ _ hconf | arm _ hconf => exact (unset (hconf ho) hc).elim
  | same | speed | frame => exact hs hc
  | bind | consumed | toOutput =>
    obtain ⟨hinput, hreq, htel, hout, harmed, hreqEn, htc⟩ := hs hc
    simp [Chan.quiet, *]
  | received hset | toInput _ hset | sent hset =>
    obtain ⟨-, -, -, -, -, -, htc⟩ := hs hc
    exact (unset hset htc).elim

theorem Change.unconfiguredQuiet {o : Origin} {s t : State} (h : Change o s t) (ho : o.Sound ActConfigured s)
    (hs : UnconfiguredQuiet s) : UnconfiguredQuiet t := by
  obtain ⟨hquiet, hpending⟩ := hs
  refine ⟨fun i => (h.chan i).quiet ho (hquiet i), fun a ha => ?_⟩
  obtain hold | hnew := h.micro a ha
  · exact h.actConfigured (hpending a hold)
  · exact hnew.1 ho

/-- Settles O49: along the changes of a step the action being taken keeps its channel configured. -/
theorem stepKeepsUnconfiguredQuiet : Obligations.StepKeepsUnconfiguredQuiet := by
  intro s t hs h
  obtain ⟨o, hat, hc⟩ := step_changes h
  have hkeep : UnconfiguredQuiet t ∧ o.Sound ActConfigured t :=
    hc.keep (P := fun u => UnconfiguredQuiet u ∧ o.Sound ActConfigured u)
      (fun u v ⟨hu, ho⟩ huv => ⟨huv.unconfiguredQuiet ho hu, fun a ha => huv.actConfigured (ho a ha)⟩)
      ⟨hs, hat.sound hs.2⟩
  exact hkeep.1

/-! ## The frame of TX (R36, R141) -/

section Tx

variable {idx j : MotorIdx} {s : State}

theorem txFrame_ch_of_burst_eq_false (hb : s.cfg.burst = false) (frame : List Duty) :
    (txFrame idx frame s).ch j =
      if j = idx then { s.ch idx with outBuf := Memory.writeFrom (s.ch idx).outBuf 0 frame, outLen := frame.length }
      else s.ch j := by
  unfold txFrame
  rw [if_neg (by simp [hb])]
  exact ch_modCh ..

theorem txFrame_grp_of_burst_eq_false (hb : s.cfg.burst = false) (frame : List Duty) :
    (txFrame idx frame s).grp = s.grp := by
  unfold txFrame
  rw [if_neg (by simp [hb])]
  rfl

theorem txArm_ch_of_burst_eq_false (hb : s.cfg.burst = false) (len : Nat) :
    (txArm idx len s).ch j =
      if j = idx then { s.ch idx with dmaPos := 0, dmaCount := len, dmaArmed := true } else s.ch j := by
  unfold txArm
  rw [if_neg (by simp [hb])]
  exact ch_modCh ..

theorem txArm_grp_of_burst_eq_false (hb : s.cfg.burst = false) (len : Nat) : (txArm idx len s).grp = s.grp := by
  unfold txArm
  rw [if_neg (by simp [hb])]
  rfl

/-- T7 writes the accumulated set of one group and no buffer (R39, R141). -/
theorem txSource_burstBufs : (txSource idx s).grp.map Group.burstBuf = s.grp.map Group.burstBuf := by
  unfold txSource
  split
  · next g _ =>
    apply List.ext_getElem?
    intro k
    simp only [List.getElem?_map, grp_getElem?_modGrp]
    split <;> simp [Function.comp_def]
  · rfl

/-- T4: the packet holds the queued command, if there is one, and asks for telemetry as R140 and R141 say. -/
theorem txPacket_eq (value : BitVec 16) (tr : Bool) :
    txPacket idx (txCommand idx (txOperands idx value tr s)) =
      Config.packetOf ((s.collab.cmdFor.get idx).getD value)
        ((s.ch idx).requestTelemetry || tr || (s.collab.cmdFor.get idx).isSome) := by
  simp [txPacket, txCommand_ch, txOperands_ch, cmdFor]

/-- The frame that `TX idx, value, tr` produces at `s` (R133, R134, R141). -/
def txFrameOf (idx : MotorIdx) (value : BitVec 16) (tr : Bool) (s : State) : List Duty :=
  expand s.cfg (Config.packetOf ((s.collab.cmdFor.get idx).getD value)
    ((s.ch idx).requestTelemetry || tr || (s.collab.cmdFor.get idx).isSome))

theorem txLoad_eq (value : BitVec 16) (tr : Bool) :
    txLoad idx value tr s =
      txSource idx (txArm idx (txFrameOf idx value tr s).length (txFrame idx (txFrameOf idx value tr s)
        (txClearRequest idx (txCommand idx (txOperands idx value tr s))))) := by
  simp only [txLoad, txPacket_eq, txFrameOf, txCommand_cfg, txOperands_cfg]

theorem txLoad_outBuf (hb : s.cfg.burst = false) (value : BitVec 16) (tr : Bool) :
    ((txLoad idx value tr s).ch j).outBuf =
      if j = idx then Memory.writeFrom (s.ch idx).outBuf 0 (txFrameOf idx value tr s) else (s.ch j).outBuf := by
  rw [txLoad_eq, txSource_ch, txArm_ch_of_burst_eq_false (by simpa using hb)]
  by_cases hj : j = idx <;>
    simp [hj, txFrame_ch_of_burst_eq_false, hb, txClearRequest_ch, txCommand_ch, txOperands_ch]

theorem txLoad_inBuf (hb : s.cfg.burst = false) (value : BitVec 16) (tr : Bool) :
    ((txLoad idx value tr s).ch j).inBuf = (s.ch j).inBuf := by
  rw [txLoad_eq, txSource_ch, txArm_ch_of_burst_eq_false (by simpa using hb)]
  by_cases hj : j = idx <;>
    simp [hj, txFrame_ch_of_burst_eq_false, hb, txClearRequest_ch, txCommand_ch, txOperands_ch]

theorem txLoad_burstBufs (hb : s.cfg.burst = false) (value : BitVec 16) (tr : Bool) :
    (txLoad idx value tr s).grp.map Group.burstBuf = s.grp.map Group.burstBuf := by
  rw [txLoad_eq, txSource_burstBufs, txArm_grp_of_burst_eq_false (by simpa using hb),
    txFrame_grp_of_burst_eq_false (by simpa using hb)]
  simp

theorem execTx_of_idle (hb : s.cfg.burst = false) (hc : (s.ch idx).configured = true) (hidle : (s.ch idx).busy = false)
    (value : BitVec 16) (tr : Bool) : execTx idx value tr s = .next (txLoad idx value tr s) := by
  simp [execTx, hc, busy_of_burst_eq_false hb, hidle]

end Tx

/-- Settles O16: TX writes its frame from element 0 of the channel's own output buffer (`txLoad_outBuf`). -/
theorem txStoresItsFrameAndNothingElse : Obligations.TxStoresItsFrameAndNothingElse := by
  intro idx value tr s t hb hc hidle h
  have ht : execTx idx value tr s = .next t := h
  rw [execTx_of_idle hb hc hidle] at ht
  cases ht
  have hread : ∀ k, Memory.read ((txLoad idx value tr s).ch idx).outBuf k =
      if k < (txFrameOf idx value tr s).length then (txFrameOf idx value tr s)[k]? else Memory.read (s.ch idx).outBuf k := by
    intro k
    rw [txLoad_outBuf hb, if_pos rfl, Memory.read_writeFrom]
    simp
  refine ⟨fun k hk => ?_, fun k hk => ?_, fun j hj => ?_, fun j => ?_, ?_, fun b axis m k => ?_⟩
  · exact (hread k).trans (if_pos hk)
  · exact (hread k).trans (if_neg (Nat.not_lt.2 hk))
  · rw [txLoad_outBuf hb, if_neg hj]
  · exact txLoad_inBuf hb value tr
  · exact txLoad_burstBufs hb value tr
  · simp [txLoad]

/-! ## Who sets the output enable (R32, R332) -/

section OutputEnable

variable {o : Origin} {s t : State} {i : MotorIdx} {c : Chan}

/-- Only B6 sets the output enable (R139). -/
theorem ChanChange.outEn_eq_false (h : ChanChange o s i c) (hop : o ≠ .op .beginUpdate) (hact : o ≠ .act (.b6 i))
    (hs : (s.ch i).outEn = false) : c.outEn = false := by
  cases h with
  | enable ho _ => exact (ho.elim hop hact).elim
  | bind | toOutput | toInput => rfl
  | _ => exact hs

/-- What changes a channel's mode clears its output enable (R32). -/
theorem ChanChange.mode_or_disabled (h : ChanChange o s i c) : c.chanMode = (s.ch i).chanMode ∨ c.outEn = false := by
  cases h with
  | bind | toOutput | toInput => exact .inr rfl
  | _ => exact .inl rfl

/-- B6 changes no mode (R139). -/
theorem ChanChange.mode_of_b6 (h : ChanChange (.act (.b6 i)) s i c) : c.chanMode = (s.ch i).chanMode := by
  cases h with
  | bind _ _ _ ho => simp at ho
  | toOutput ho => simp at ho
  | toInput ho => cases ho
  | _ => rfl

theorem Changes.outEn_eq_false (h : Changes o s t) (hop : o ≠ .op .beginUpdate) (hact : o ≠ .act (.b6 i))
    (hs : (s.ch i).outEn = false) : (t.ch i).outEn = false :=
  h.keep (P := fun u => (u.ch i).outEn = false) (fun _ _ hu hc => (hc.chan i).outEn_eq_false hop hact hu) hs

/-- Outside BEGIN a channel keeps its mode or ends with its output disabled. -/
theorem Changes.mode_or_disabled (h : Changes o s t) (hop : o ≠ .op .beginUpdate) :
    (t.ch i).chanMode = (s.ch i).chanMode ∨ (t.ch i).outEn = false := by
  by_cases hact : o = .act (.b6 i)
  · subst hact
    exact .inl (h.keep (P := fun u => (u.ch i).chanMode = (s.ch i).chanMode)
      (fun _ _ hu hc => ((hc.chan i).mode_of_b6).trans hu) rfl)
  · refine h.keep (P := fun u => (u.ch i).chanMode = (s.ch i).chanMode ∨ (u.ch i).outEn = false) (fun u v hu hc => ?_)
      (.inl rfl)
    obtain hmode | hoff := hu
    · exact (hc.chan i).mode_or_disabled.imp_left (·.trans hmode)
    · exact .inr ((hc.chan i).outEn_eq_false hop hact hoff)

end OutputEnable

/-- Settles O41: only BEGIN's B6 sets the output enable, and only inside BEGIN can it follow a change of mode. -/
theorem outputEnableIsSetOnlyByBegin : Obligations.OutputEnableIsSetOnlyByBegin := by
  intro s t i h
  obtain ⟨o, hat, hc⟩ := step_changes h
  by_cases hop : o = .op .beginUpdate
  · subst hop
    exact ⟨fun _ _ => .inl hat, fun _ _ => hat⟩
  · refine ⟨fun hoff hon => ?_, fun hmode hon => ?_⟩
    · by_cases hact : o = .act (.b6 i)
      · subst hact
        exact .inr hat
      · rw [hc.outEn_eq_false hop hact hoff] at hon
        cases hon
    · obtain hsame | hoff := hc.mode_or_disabled (i := i) hop
      · exact absurd hsame.symm hmode
      · rw [hoff] at hon
        cases hon

/-! ## Who writes a cached speed (R137) -/

section Speed

variable {o : Origin} {s t : State} {i : MotorIdx} {c : Chan}

/-- Only B3 of a valid result writes a cached speed, and that is a 12-bit value (R137, R176). -/
theorem ChanChange.speed_or_origin (h : ChanChange o s i c) :
    c.telemetryValue = (s.ch i).telemetryValue ∨
      (c.telemetryValue.toNat ≤ 4095 ∧ (o = .op .beginUpdate ∨ ∃ p, o = .act (.b3 i (.valid p)))) := by
  cases h with
  | speed p ho => exact .inr ⟨toNat_speed_le p, ho.imp_right fun hb => ⟨p, hb⟩⟩
  | _ => exact .inl rfl

theorem Changes.speed_or_origin (h : Changes o s t) :
    (t.ch i).telemetryValue = (s.ch i).telemetryValue ∨
      ((t.ch i).telemetryValue.toNat ≤ 4095 ∧ (o = .op .beginUpdate ∨ ∃ p, o = .act (.b3 i (.valid p)))) := by
  refine h.keep (P := fun u => (u.ch i).telemetryValue = (s.ch i).telemetryValue ∨
      ((u.ch i).telemetryValue.toNat ≤ 4095 ∧ (o = .op .beginUpdate ∨ ∃ p, o = .act (.b3 i (.valid p)))))
    (fun u v hu hc => ?_) (.inl rfl)
  obtain hsame | hnew := (hc.chan i).speed_or_origin
  · rwa [hsame]
  · exact .inr hnew

end Speed

/-- Settles O42: where a step changes a cached speed, the step's origin is BEGIN or its B3. -/
theorem speedIsWrittenOnlyByBegin : Obligations.SpeedIsWrittenOnlyByBegin := by
  intro s t i h hne
  obtain ⟨o, hat, hc⟩ := step_changes h
  obtain hsame | ⟨hrange, ho⟩ := hc.speed_or_origin (i := i)
  · exact absurd hsame.symm hne
  · refine ⟨hrange, ?_⟩
    obtain rfl | ⟨p, rfl⟩ := ho
    · exact .inl hat
    · exact .inr ⟨p, hat⟩

/-! ## Values in their widths (R10, R23, R35, R37, R41) -/

section Ranges

variable {o : Origin} {s t : State} {i : MotorIdx} {c : Chan}

theorem ChanChange.speed_le (h : ChanChange o s i c) (hs : (s.ch i).telemetryValue.toNat ≤ 4095) :
    c.telemetryValue.toNat ≤ 4095 := by
  obtain hsame | ⟨hrange, -⟩ := h.speed_or_origin
  · rwa [hsame]
  · exact hrange

/-- The one write to an input buffer is of a drawn stamp (R211). -/
theorem ChanChange.stamp_lt (h : ChanChange o s i c)
    (hs : ∀ k x, Memory.read (s.ch i).inBuf k = some x → x < 2 ^ s.cfg.wTs) :
    ∀ k x, Memory.read c.inBuf k = some x → x < 2 ^ s.cfg.wTs := by
  cases h with
  | inBeat t _ =>
    intro k x hx
    simp only [Chan.afterBeat, Memory.read_write] at hx
    split at hx
    · cases hx
      exact Nat.mod_lt _ (Nat.two_pow_pos _)
    · exact hs k x hx
  | _ => exact hs

theorem GroupsChange.counter_lt {gs : List Group} (h : GroupsChange s gs)
    (hs : ∀ gr ∈ s.grp, gr.counter < 2 ^ s.cfg.wTs) : ∀ gr ∈ gs, gr.counter < 2 ^ s.cfg.wTs := by
  cases h with
  | same => exact hs
  | modify g f _ hcounter =>
    intro gr hgr
    obtain ⟨k, hk⟩ := List.mem_iff_getElem?.1 hgr
    rw [List.getElem?_modify, Option.map_eq_map, Option.map_eq_some_iff] at hk
    obtain ⟨old, hold, rfl⟩ := hk
    have hlt := hs old (List.mem_of_getElem? hold)
    split
    · obtain hkeep | hzero := hcounter old
      · rwa [hkeep]
      · rw [hzero]; exact Nat.two_pow_pos _
    · exact hlt
  | insert timer _ _ =>
    intro gr hgr
    obtain hold | hnew := List.mem_append.1 hgr
    · exact hs gr hold
    · cases List.mem_singleton.1 hnew
      exact Nat.two_pow_pos _

theorem Change.valuesInRange (h : Change o s t) (hs : ValuesInRange s) : ValuesInRange t := by
  obtain ⟨hmotor, hgroups, hinvalid⟩ := hs
  rw [ValuesInRange, h.cfg]
  refine ⟨fun i => ?_, h.grp.counter_lt hgroups, ?_⟩
  · obtain ⟨hspeed, hdbg, htime, hstamps⟩ := hmotor i
    refine ⟨(h.chan i).speed_le hspeed, ?_, ?_, (h.chan i).stamp_lt hstamps⟩
    · exact (h.dbgValue i).elim (fun hsame => by rwa [hsame]) id
    · exact (h.switchTime i).elim (fun hsame => by rwa [hsame]) id
  · exact h.invalidCount.elim (fun hsame => by rwa [hsame]) id

end Ranges

/-- Settles O45: every elementary change writes values of the right width. -/
theorem stepKeepsValuesInRange : Obligations.StepKeepsValuesInRange := by
  intro s t hs h
  exact step_keeps (P := ValuesInRange) (fun _ _ _ hu hc => hc.valuesInRange hu) hs h

/-! ## The group table (R38, R131, R132) -/

/-- A group is made only for a timer that has none, and only where there is room (R132). -/
theorem Change.groupsDistinct {o : Origin} {s t : State} (h : Change o s t) (hs : GroupsDistinct s) :
    GroupsDistinct t := by
  obtain ⟨hnodup, hlen⟩ := hs
  rw [GroupsDistinct, h.cfg]
  have hgrp := h.grp
  generalize t.grp = gs at hgrp
  cases hgrp with
  | same => exact ⟨hnodup, hlen⟩
  | modify g f htimer _ =>
    have htimers : (s.grp.modify g f).map Group.timer = s.grp.map Group.timer := modGrp_timers s g f htimer
    exact ⟨htimers ▸ hnodup, by rwa [List.length_modify]⟩
  | insert timer hnew hroom =>
    refine ⟨?_, by rw [List.length_append, List.length_singleton]; omega⟩
    have hfresh : timer ∉ s.grp.map Group.timer := fun hmem => findGroup_ne_none_iff.2 hmem hnew
    have hconcat := hnodup.concat hfresh
    rw [List.concat_eq_append] at hconcat
    rw [List.map_append]
    exact hconcat

/-- Settles O47: every elementary change keeps the timers distinct and the table within bounds. -/
theorem stepKeepsGroupsDistinct : Obligations.StepKeepsGroupsDistinct := by
  intro s t hs h
  exact step_keeps (P := GroupsDistinct) (fun _ _ _ hu hc => hc.groupsDistinct hu) hs h

theorem Change.configuredHaveGroup {o : Origin} {s t : State} (h : Change o s t) (ho : o.Sound ActHasGroup s)
    (hs : ConfiguredHaveGroup s) : ConfiguredHaveGroup t := by
  obtain ⟨hgroups, hpending⟩ := hs
  refine ⟨fun i hi => ?_, fun a ha => ?_⟩
  · obtain hold | hfound := (h.chan i).configured_or_group ho hi
    · exact h.groupOf_ne_none ho (hgroups i hold)
    · exact h.groupOf_ne_none ho hfound
  · obtain hold | hnew := h.micro a ha
    · exact h.actHasGroup ho (hpending a hold)
    · exact hnew.2 ho

/-- Settles O48: along the changes of a step the action being taken keeps its group. -/
theorem stepKeepsConfiguredHaveGroup : Obligations.StepKeepsConfiguredHaveGroup := by
  intro s t hs h
  obtain ⟨o, hat, hc⟩ := step_changes h
  have hkeep : ConfiguredHaveGroup t ∧ o.Sound ActHasGroup t :=
    hc.keep (P := fun u => ConfiguredHaveGroup u ∧ o.Sound ActHasGroup u)
      (fun u v ⟨hu, ho⟩ huv => ⟨huv.configuredHaveGroup ho hu, fun a ha => huv.actHasGroup ho (ho a ha)⟩)
      ⟨hs, hat.sound hs.2⟩
  exact hkeep.1

/-! ## Marks (R46) -/

/-- Settles O12: a mark that is there already is not recorded again. -/
theorem marksChangeNothingElse : Obligations.MarksChangeNothingElse := by
  refine fun s => ⟨fun r => ⟨rfl, fun q => mem_markRefused r q s, fun hr => ?_⟩,
    fun f => ⟨rfl, fun g => mem_markFault f g s, fun hf => ?_⟩⟩
  · simp [markRefused, hr]
  · simp [markFault, hf]

/-! ## Reset (R49) -/

@[simp] theorem reset_ch (i : MotorIdx) : State.reset.ch i = Chan.reset := by
  simp [State.ch, State.reset, vget_eq]

@[simp] theorem reset_dbgValue (i : MotorIdx) : State.reset.dbgValue.get i = 0 := by
  simp [State.reset, vget_eq]

@[simp] theorem reset_switchTime (i : MotorIdx) : State.reset.switchTime.get i = 0 := by
  simp [State.reset, vget_eq]

@[simp] theorem reset_coef (b : BankIdx) (axis : Axis) (m : MotorIdx) :
    ((State.reset.bank.get b).coef.get axis).get m = [] := by
  simp [State.reset, Bank.reset, vget_eq]

@[simp] theorem reset_delay (b : BankIdx) (axis : Axis) (m : MotorIdx) :
    ((State.reset.bank.get b).delay.get axis).get m = [] := by
  simp [State.reset, Bank.reset, vget_eq]

@[simp] theorem reset_coefAt (b : BankIdx) (axis : Axis) (m : MotorIdx) (h : Nat) :
    coefAt State.reset b axis m h = none := by
  simp [coefAt, Memory.read]

@[simp] theorem reset_delayAt (b : BankIdx) (axis : Axis) (m : MotorIdx) (h : Nat) :
    delayAt State.reset b axis m h = none := by
  simp [delayAt, Memory.read]

theorem reset_valuesInRange : ValuesInRange State.reset := by
  refine ⟨fun i => ?_, fun _ hgr => absurd hgr List.not_mem_nil, Nat.two_pow_pos _⟩
  simp only [reset_ch, reset_dbgValue, reset_switchTime]
  exact ⟨by decide, by decide, Nat.two_pow_pos _, fun k x hx => by cases hx⟩

theorem reset_memoriesCanonical : MemoriesCanonical State.reset := by
  refine ⟨fun i => ?_, fun _ hgr => absurd hgr List.not_mem_nil, fun b axis m => ?_⟩
  · rw [reset_ch]
    exact ⟨Memory.wf_nil, Memory.wf_nil⟩
  · rw [reset_coef, reset_delay]
    exact ⟨Memory.wf_nil, Memory.wf_nil⟩

/-- Settles O54: nothing is bound, pending, initialised or written after reset. -/
theorem resetHasEveryInvariant : Obligations.ResetHasEveryInvariant := by
  have hunbound : ∀ i, (State.reset.ch i).configured ≠ true := fun i => by simp [Chan.reset]
  have hquiet : ∀ i, (State.reset.ch i).quiet := fun i => by simp [Chan.reset]
  have hpending : ∀ {P : MainAct → Prop}, ∀ a ∈ State.reset.micro, P a := fun a ha => by cases ha
  have huninit : State.reset.sched.inited ≠ true := by decide
  exact ⟨fun i => by simp [Chan.reset], reset_valuesInRange, .inl hpending, ⟨List.nodup_nil, Nat.zero_le _⟩,
    ⟨fun i hi => absurd hi (hunbound i), hpending⟩, ⟨fun i _ => hquiet i, hpending⟩, fun b m h => by simp,
    fun hi => absurd hi huninit, fun hi => absurd hi huninit, reset_memoriesCanonical⟩

/-- Settles O55: the values are read off `Chan.reset` and the empty tables. -/
theorem resetValues : Obligations.ResetValues := by
  refine ⟨fun i => ?_, rfl, rfl, fun b axis m h => ?_, rfl, rfl, rfl, rfl⟩
  · rw [reset_ch, reset_dbgValue, reset_switchTime]
    simp [Chan.reset, Memory.read]
  · exact ⟨reset_coefAt b axis m h, reset_delayAt b axis m h⟩

end Sys2Proof.Machine

/-! Proofs of the memory family (20_memory.md): every step writes its memories in canonical form, BEGIN reads captures with
elements nothing has written as it reads written ones, and one enable call of a timer starts every channel loaded on it. -/

namespace Sys2Proof.Machine

/-! ## The canonical form of a channel's, a group's and a bank's memories (R70, R72) -/

def Chan.Canonical (c : Chan) : Prop := Memory.wf c.outBuf ∧ Memory.wf c.inBuf

def Group.Canonical (gr : Group) : Prop := ∀ c : HwChannel, Memory.wf (gr.burstBuf.get c)

def Bank.Canonical (bk : Bank) : Prop :=
  ∀ (axis : Axis) (m : MotorIdx), Memory.wf ((bk.coef.get axis).get m) ∧ Memory.wf ((bk.delay.get axis).get m)

theorem memoriesCanonical_iff {s : State} :
    MemoriesCanonical s ↔
      (∀ i, (s.ch i).Canonical) ∧ (∀ gr ∈ s.grp, gr.Canonical) ∧ ∀ b, (s.bank.get b).Canonical :=
  Iff.rfl

/-- What holds of every entry of a table still does when one entry is replaced by a value of which it holds. -/
theorem forall_vget_set {α : Type} {n : Nat} {v : Vector α n} {i : Fin n} {x : α} {P : α → Prop} (hv : ∀ j, P (v.get j))
    (hx : P x) (j : Fin n) : P ((v.set i.val x i.isLt).get j) := by
  rw [vget_set]
  split
  · exact hx
  · exact hv j

theorem Group.canonical_fresh (timer : TimerId) : (Group.fresh timer).Canonical := by
  intro c
  simp [Group.fresh, vget_eq, Memory.wf_nil]

section Rules

/-! One rule for each operation over the state that can touch a memory. An operation that leaves the channels, the groups and the
banks as they are needs none: its result is canonical by definition where its argument is. -/

variable {s : State}

/-! ### Channels, groups and marks -/

theorem canonical_emit {e : Event} (h : MemoriesCanonical s) : MemoriesCanonical (emit e s) := h

theorem canonical_modCh {i : MotorIdx} {f : Chan → Chan} (h : MemoriesCanonical s)
    (hf : (s.ch i).Canonical → (f (s.ch i)).Canonical) : MemoriesCanonical (s.modCh i f) := by
  obtain ⟨hch, hgrp, hbank⟩ := memoriesCanonical_iff.1 h
  exact ⟨forall_vget_set (P := Chan.Canonical) hch (hf (hch i)), hgrp, hbank⟩

theorem canonical_mapCh {f : MotorIdx → Chan → Chan} (h : MemoriesCanonical s)
    (hf : ∀ i c, c.Canonical → (f i c).Canonical) : MemoriesCanonical (s.mapCh f) := by
  obtain ⟨hch, hgrp, hbank⟩ := memoriesCanonical_iff.1 h
  refine memoriesCanonical_iff.2 ⟨fun i => ?_, ?_, ?_⟩
  · rw [ch_mapCh]
    exact hf i _ (hch i)
  · rwa [mapCh_grp]
  · rwa [mapCh_bank]

theorem canonical_modGrp {g : Nat} {f : Group → Group} (h : MemoriesCanonical s)
    (hf : ∀ gr, gr.Canonical → (f gr).Canonical) : MemoriesCanonical (s.modGrp g f) := by
  obtain ⟨hch, hgrp, hbank⟩ := memoriesCanonical_iff.1 h
  refine memoriesCanonical_iff.2 ⟨hch, fun gr hgr => ?_, hbank⟩
  obtain ⟨k, hk⟩ := List.mem_iff_getElem?.1 hgr
  rw [grp_getElem?_modGrp] at hk
  split at hk
  · obtain ⟨old, hold, rfl⟩ := Option.map_eq_some_iff.1 hk
    exact hf old (hgrp old (List.mem_of_getElem? hold))
  · exact hgrp gr (List.mem_of_getElem? hk)

theorem canonical_noteUnwritten {lacking : Bool} (h : MemoriesCanonical s) :
    MemoriesCanonical (noteUnwritten lacking s) := by
  cases lacking with
  | false => exact h
  | true => exact h

/-- A loop of an operation that keeps the canonical form keeps it. -/
theorem canonical_foldl {α : Type} {f : State → α → State} {as : List α} (h : MemoriesCanonical s)
    (hf : ∀ u a, MemoriesCanonical u → MemoriesCanonical (f u a)) : MemoriesCanonical (as.foldl f s) :=
  List.foldlRecOn as f h fun u hu a _ => hf u a hu

/-! ### CFG (R131, R132) -/

theorem canonical_findOrInsertGroup {timer : TimerId} {t : State} (h : MemoriesCanonical s)
    (ht : findOrInsertGroup timer s = some t) : MemoriesCanonical t := by
  obtain ⟨-, ⟨-, rfl⟩ | ⟨-, -, rfl⟩⟩ := findOrInsertGroup_some ht
  · exact h
  · obtain ⟨hch, hgrp, hbank⟩ := memoriesCanonical_iff.1 h
    refine memoriesCanonical_iff.2 ⟨hch, fun gr hgr => ?_, hbank⟩
    obtain hold | hnew := List.mem_append.1 hgr
    · exact hgrp gr hold
    · cases List.mem_singleton.1 hnew
      exact Group.canonical_fresh timer

theorem canonical_cfgBind {idx : MotorIdx} {timer : TimerId} {ch : HwChannel} {n : Bool} (h : MemoriesCanonical s) :
    MemoriesCanonical (cfgBind idx timer ch n s) :=
  canonical_modCh h id

theorem canonical_cfgFinish {idx : MotorIdx} (h : MemoriesCanonical s) : MemoriesCanonical (cfgFinish idx s) :=
  canonical_modCh h id

/-! ### BEGIN (R136 to R139) -/

theorem canonical_noteCapture {i : MotorIdx} (h : MemoriesCanonical s) : MemoriesCanonical (noteCapture i s) :=
  canonical_noteUnwritten h

theorem canonical_recordDecoded {i : MotorIdx} {r : Telemetry} (h : MemoriesCanonical s) :
    MemoriesCanonical (recordDecoded i r s) := by
  cases r with
  | invalid => exact h
  | valid p => exact canonical_modCh (i := i) (f := fun c => { c with telemetryValue := p.setWidth 16 }) h id

theorem canonical_clearTelemetry {i : MotorIdx} (h : MemoriesCanonical s) : MemoriesCanonical (clearTelemetry i s) :=
  canonical_modCh h id

theorem canonical_switchIfWanted {i : MotorIdx} {f : Bool} (h : MemoriesCanonical s) :
    MemoriesCanonical (switchIfWanted i f s) := by
  unfold switchIfWanted
  split
  · exact canonical_emit (canonical_modCh h id)
  · exact h

theorem canonical_enableOutput {i : MotorIdx} (h : MemoriesCanonical s) : MemoriesCanonical (enableOutput i s) := by
  unfold enableOutput
  split
  · exact canonical_modCh h id
  · exact h

theorem canonical_beginChannel {i : MotorIdx} (h : MemoriesCanonical s) : MemoriesCanonical (beginChannel i s) := by
  unfold beginChannel
  split
  · split
    · exact canonical_switchIfWanted (canonical_clearTelemetry (canonical_recordDecoded (canonical_noteCapture h)))
    · exact canonical_switchIfWanted h
  · exact h

theorem canonical_beginTelemetry (h : MemoriesCanonical s) : MemoriesCanonical (beginTelemetry s) := by
  unfold beginTelemetry
  split
  · exact canonical_foldl h fun _ _ => canonical_beginChannel
  · exact h

/-! ### TX (R140 to R143) -/

theorem canonical_txOperands {idx : MotorIdx} {value : BitVec 16} {tr : Bool} (h : MemoriesCanonical s) :
    MemoriesCanonical (txOperands idx value tr s) :=
  canonical_modCh h id

theorem canonical_txCommand {idx : MotorIdx} (h : MemoriesCanonical s) : MemoriesCanonical (txCommand idx s) := by
  unfold txCommand
  split
  · exact canonical_modCh h id
  · exact h

theorem canonical_txClearRequest {idx : MotorIdx} (h : MemoriesCanonical s) : MemoriesCanonical (txClearRequest idx s) :=
  canonical_modCh h id

/-- In burst mode T5 writes one lane of one group (R142). -/
theorem canonical_txLane {idx : MotorIdx} {frame : List Duty} (h : MemoriesCanonical s) :
    MemoriesCanonical (txLane idx frame s) := by
  unfold txLane
  split
  · exact canonical_modGrp h fun gr hgr =>
      forall_vget_set (P := Memory.wf) hgr (Memory.wf_writeFrom (hgr _) 0 frame)
  · exact h

/-- T5 writes the frame into a lane or into the channel's output buffer (R141, R142). -/
theorem canonical_txFrame {idx : MotorIdx} {frame : List Duty} (h : MemoriesCanonical s) :
    MemoriesCanonical (txFrame idx frame s) := by
  unfold txFrame
  split
  · exact canonical_modCh (canonical_txLane h) id
  · exact canonical_modCh h fun ⟨hout, hin⟩ => ⟨Memory.wf_writeFrom hout 0 frame, hin⟩

theorem canonical_txArm {idx : MotorIdx} {len : Nat} (h : MemoriesCanonical s) : MemoriesCanonical (txArm idx len s) := by
  unfold txArm
  split
  · split
    · exact canonical_modGrp h fun _ => id
    · exact h
  · exact canonical_modCh h id

theorem canonical_txSource {idx : MotorIdx} (h : MemoriesCanonical s) : MemoriesCanonical (txSource idx s) := by
  unfold txSource
  split
  · exact canonical_modGrp h fun _ => id
  · exact h

theorem canonical_txLoad {idx : MotorIdx} {value : BitVec 16} {tr : Bool} (h : MemoriesCanonical s) :
    MemoriesCanonical (txLoad idx value tr s) :=
  canonical_txSource (canonical_txArm (canonical_txFrame (canonical_txClearRequest (canonical_txCommand
    (canonical_txOperands h)))))

/-! ### GO (R145 to R148) -/

theorem canonical_goReset {g : Nat} (h : MemoriesCanonical s) : MemoriesCanonical (goReset g s) := by
  unfold goReset
  split
  · exact canonical_modGrp h fun _ => id
  · exact h

theorem canonical_goEnable {g : Nat} (h : MemoriesCanonical s) : MemoriesCanonical (goEnable g s) := by
  unfold goEnable
  split
  · next gr _ =>
    have hmap : MemoriesCanonical
        (s.mapCh fun i c => if startsIn s g gr.timerDmaSources i then { c with reqEn := true } else c) :=
      canonical_mapCh h fun i c hc => by
        split
        · exact hc
        · exact hc
    dsimp only
    split
    · exact canonical_modGrp h fun _ => id
    · exact hmap
  · exact h

theorem canonical_goClear {g : Nat} (h : MemoriesCanonical s) : MemoriesCanonical (goClear g s) :=
  canonical_modGrp h fun _ => id

theorem canonical_goGroup {g : Nat} (h : MemoriesCanonical s) : MemoriesCanonical (goGroup g s) :=
  canonical_goClear (canonical_goEnable (canonical_goReset h))

/-! ### The notch table (R42, R234 to R257) -/

theorem canonical_setBank {b : BankIdx} {bk : Bank} (h : MemoriesCanonical s) (hbk : bk.Canonical) :
    MemoriesCanonical { s with bank := s.bank.set b.val bk b.isLt } := by
  obtain ⟨hch, hgrp, hbank⟩ := memoriesCanonical_iff.1 h
  exact ⟨hch, hgrp, forall_vget_set (P := Bank.Canonical) hbank hbk⟩

/-- A table of memories in canonical form stays one when an element of one of them is written. -/
theorem forall_wf_set_write {α : Type} {v : Vector (Vector (Memory α) 16) 3} (hv : ∀ a j, Memory.wf ((v.get a).get j))
    (axis : Axis) (m : MotorIdx) (k : Nat) (x : α) (a : Axis) (j : MotorIdx) :
    Memory.wf
      (((v.set axis.val ((v.get axis).set m.val (Memory.write ((v.get axis).get m) k x) m.isLt) axis.isLt).get a).get j) :=
  forall_vget_set (P := fun row : Vector (Memory α) 16 => ∀ j, Memory.wf (row.get j)) hv
    (forall_vget_set (P := Memory.wf) (hv axis) (Memory.wf_write (hv axis m) k x)) a j

theorem canonical_setCoef {b : BankIdx} {axis : Axis} {m : MotorIdx} {k : Nat} {c : Coef} (h : MemoriesCanonical s) :
    MemoriesCanonical (setCoef b axis m k c s) := by
  obtain ⟨-, -, hbank⟩ := memoriesCanonical_iff.1 h
  exact canonical_setBank h fun a j =>
    ⟨forall_wf_set_write (fun a j => (hbank b a j).1) axis m k c a j, (hbank b a j).2⟩

theorem canonical_setDelay {b : BankIdx} {axis : Axis} {m : MotorIdx} {k : Nat} {d : Delay} (h : MemoriesCanonical s) :
    MemoriesCanonical (setDelay b axis m k d s) := by
  obtain ⟨-, -, hbank⟩ := memoriesCanonical_iff.1 h
  exact canonical_setBank h fun a j =>
    ⟨(hbank b a j).1, forall_wf_set_write (fun a j => (hbank b a j).2) axis m k d a j⟩

theorem Bank.canonical_initBank {cfg : Cfg} {b : BankIdx} {bk : Bank} (h : bk.Canonical) :
    (initBank cfg b bk).Canonical := by
  intro axis m
  obtain ⟨hcoef, hdelay⟩ := h axis m
  simp only [initBank, vget_ofFn]
  split
  · exact ⟨Memory.wf_writeFrom hcoef _ _, Memory.wf_writeFrom hdelay _ _⟩
  · exact ⟨hcoef, hdelay⟩

theorem canonical_rpmInitialise (h : MemoriesCanonical s) : MemoriesCanonical (rpmInitialise s) := by
  obtain ⟨hch, hgrp, hbank⟩ := memoriesCanonical_iff.1 h
  refine memoriesCanonical_iff.2 ⟨hch, hgrp, fun b => ?_⟩
  simp only [rpmInitialise, vget_ofFn]
  exact Bank.canonical_initBank (hbank b)

theorem canonical_recomputeAt {c : Cursor} (h : MemoriesCanonical s) : MemoriesCanonical (recomputeAt c s) :=
  canonical_setCoef (canonical_setCoef (canonical_setCoef h))

theorem canonical_advance {c : Cursor} (h : MemoriesCanonical s) : MemoriesCanonical (advance c s) := by
  unfold advance
  split
  · split
    · exact h
    · exact h
  · exact h

theorem canonical_recomputeOne (h : MemoriesCanonical s) : MemoriesCanonical (recomputeOne s) := by
  unfold recomputeOne
  split
  · exact canonical_advance (canonical_recomputeAt h)
  · exact h

theorem canonical_recomputeMany (h : MemoriesCanonical s) : MemoriesCanonical (recomputeMany s) := by
  unfold recomputeMany
  split
  · exact Function.Iterate.rec MemoriesCanonical h (fun _ => canonical_recomputeOne) s.sched.budget
  · exact h

theorem canonical_filterThrough {b : BankIdx} {axis : Axis} {k : Nat} {ns : List (MotorIdx × Nat)} {x : Num}
    (h : MemoriesCanonical s) : MemoriesCanonical (filterThrough b axis k ns x s).2 := by
  induction ns generalizing k x s with
  | nil => exact h
  | cons p ns ih => exact ih (canonical_setDelay h)

theorem canonical_applyBank {b : BankIdx} {axis : Axis} {x : Num} (h : MemoriesCanonical s) :
    MemoriesCanonical (applyBank b axis x s).2 := by
  unfold applyBank
  split
  · exact h
  · exact canonical_noteUnwritten (canonical_filterThrough h)

/-! ### The handler and the beats (R207 to R213) -/

theorem canonical_handlerBody {i : MotorIdx} {tm : Timestamp} (h : MemoriesCanonical s) :
    MemoriesCanonical (handlerBody i tm s) := by
  obtain ⟨hch, hgrp, hbank⟩ := memoriesCanonical_iff.1 h
  refine memoriesCanonical_iff.2 ⟨fun j => ?_, ?_, ?_⟩
  · rw [handlerBody_ch]
    split
    · split
      · exact hch i
      · split
        · exact hch i
        · exact hch i
    · exact hch j
  · rwa [handlerBody_grp]
  · rwa [handlerBody_bank]

theorem canonical_groupDuties {gr : Group} {is : List MotorIdx} (h : MemoriesCanonical s) :
    MemoriesCanonical (groupDuties gr is s) :=
  canonical_noteUnwritten (s := { s with log := _ }) h

theorem canonical_raiseTcOn {is : List MotorIdx} (h : MemoriesCanonical s) : MemoriesCanonical (raiseTcOn is s) :=
  canonical_foldl h fun _ _ hu => canonical_modCh hu id

end Rules

/-! ## Every operation, action and move keeps the canonical form -/

section Steps

variable {s t : State}

theorem execCfg_canonical {idx : MotorIdx} {timer : TimerId} {ch : HwChannel} {n : Bool} (hs : MemoriesCanonical s)
    (h : execCfg idx timer ch n s = .next t) : MemoriesCanonical t := by
  unfold execCfg at h
  split at h
  · cases h; exact hs
  · split at h
    · cases h; exact hs
    · next u hu =>
      cases h
      exact canonical_cfgFinish (canonical_cfgBind (canonical_findOrInsertGroup hs hu))

theorem execBeginUpdate_canonical (hs : MemoriesCanonical s) (h : execBeginUpdate s = .next t) : MemoriesCanonical t := by
  cases h
  exact canonical_foldl (canonical_beginTelemetry hs) fun _ _ => canonical_enableOutput

theorem execTx_canonical {idx : MotorIdx} {value : BitVec 16} {tr : Bool} (hs : MemoriesCanonical s)
    (h : execTx idx value tr s = .next t) : MemoriesCanonical t := by
  unfold execTx at h
  split at h
  · cases h; exact hs
  · split at h
    · cases h; exact hs
    · cases h; exact canonical_txLoad hs

theorem execGo_canonical (hs : MemoriesCanonical s) (h : execGo s = .next t) : MemoriesCanonical t := by
  unfold execGo at h
  split at h
  · cases h; exact hs
  · cases h; exact canonical_foldl hs fun _ _ => canonical_goGroup

theorem execGett_canonical {idx : MotorIdx} (hs : MemoriesCanonical s) (h : execGett idx s = .next t) :
    MemoriesCanonical t := by
  cases h; exact hs

theorem execRpminit_canonical (hs : MemoriesCanonical s) (h : execRpminit s = .next t) : MemoriesCanonical t := by
  unfold execRpminit at h
  split at h
  · cases h; exact hs
  · split at h
    · cases h; exact hs
    · cases h; exact canonical_rpmInitialise hs

theorem execRpmupd_canonical (hs : MemoriesCanonical s) (h : execRpmupd s = .next t) : MemoriesCanonical t := by
  unfold execRpmupd at h
  split at h
  · cases h; exact hs
  · cases h; exact canonical_recomputeMany (s := smoothAll s) hs

theorem filterSample_canonical {b : BankIdx} {axis : Axis} (hs : MemoriesCanonical s)
    (h : filterSample b axis s = .next t) : MemoriesCanonical t := by
  cases h; exact canonical_applyBank (x := s.opnd) hs

theorem exec_canonical {i : Instr} (hs : MemoriesCanonical s) (h : exec i s = .next t) : MemoriesCanonical t := by
  cases i with
  | cfg idx timer ch n => exact execCfg_canonical hs h
  | beginUpdate => exact execBeginUpdate_canonical hs h
  | tx idx value tr => exact execTx_canonical hs h
  | go => exact execGo_canonical hs h
  | gett idx => exact execGett_canonical hs h
  | rpminit => exact execRpminit_canonical hs h
  | rpmupd => exact execRpmupd_canonical hs h
  | fgyro axis => exact filterSample_canonical hs h
  | fdterm axis => exact filterSample_canonical hs h

theorem runAct_canonical {a : MainAct} (hs : MemoriesCanonical s) (h : runAct a s = .next t) : MemoriesCanonical t := by
  cases a with
  | c2 idx timer ch n =>
    simp only [runAct] at h
    split at h
    · cases h; exact hs
    · next u hu => cases h; exact canonical_findOrInsertGroup (t := u) hs hu
  | c3 => cases h; exact canonical_cfgBind hs
  | c4 => cases h; exact canonical_cfgFinish hs
  | c1 | b1 | t0 | t1 | g0 =>
    simp only [runAct] at h
    split at h <;> cases h <;> exact hs
  | b2 => cases h; exact canonical_noteCapture hs
  | b3 => cases h; exact canonical_recordDecoded hs
  | b4 => cases h; exact canonical_clearTelemetry hs
  | b5 => cases h; exact canonical_switchIfWanted hs
  | b6 => cases h; exact canonical_enableOutput hs
  | t2 => cases h; exact canonical_txOperands hs
  | t3 => cases h; exact canonical_txCommand hs
  | t4 => cases h; exact canonical_txClearRequest hs
  | t5 => cases h; exact canonical_txFrame hs
  | t6 => cases h; exact canonical_txArm hs
  | t7 => cases h; exact canonical_txSource hs
  | g1 => cases h; exact canonical_goReset hs
  | g2 => cases h; exact canonical_goEnable hs
  | g3 => cases h; exact canonical_goClear hs
  | getT => exact execGett_canonical hs h
  | rpmInit => exact execRpminit_canonical hs h
  | rpmUpd => exact execRpmupd_canonical hs h
  | filt => exact filterSample_canonical hs h

/-- An input beat writes one element of its channel's input buffer (R211). -/
theorem runInBeat_canonical {i : MotorIdx} {tm : Timestamp} (hs : MemoriesCanonical s) (h : runInBeat i tm s = .next t) :
    MemoriesCanonical t := by
  obtain ⟨-, -, rfl⟩ := runInBeat_next h
  exact canonical_modCh (s := emit _ s) hs fun ⟨hout, hin⟩ => ⟨hout, Memory.wf_write hin _ _⟩

theorem runOutBeat_canonical {i : MotorIdx} (hs : MemoriesCanonical s) (h : runOutBeat i s = .next t) :
    MemoriesCanonical t := by
  obtain ⟨-, -, rfl⟩ := runOutBeat_next h
  exact canonical_modCh (s := emit _ (noteUnwritten _ s)) (canonical_noteUnwritten hs) id

theorem runGroupBeat_canonical {g : Nat} (hs : MemoriesCanonical s) (h : runGroupBeat g s = .next t) :
    MemoriesCanonical t := by
  obtain ⟨gr, -, -, -, rfl⟩ := runGroupBeat_next h
  have hbeat := canonical_modGrp (g := g) (f := Group.afterBeat)
    (canonical_groupDuties (gr := gr) (is := groupMembers s g) hs) fun _ => id
  split
  · exact canonical_raiseTcOn hbeat
  · exact hbeat

theorem runMove_canonical {mv : Move} (hs : MemoriesCanonical s) (h : runMove exec mv s = .next t) :
    MemoriesCanonical t := by
  cases mv with
  | op w x =>
    obtain ⟨-, ⟨i, -, hi⟩ | rfl⟩ := issue_next h
    · exact exec_canonical (s := withOpnd x s) hs hi
    · exact hs
  | start w x =>
    obtain ⟨-, ⟨i, -, hi⟩ | rfl⟩ := issue_next (k := fun i u => .next (startOp i u)) h
    · cases hi; exact hs
    · exact hs
  | act =>
    obtain ⟨a, rest, -, ha⟩ := runNextAct_next h
    exact runAct_canonical (s := { s with micro := rest }) hs ha
  | handler i tm =>
    obtain ⟨-, rfl⟩ := runHandler_next h
    exact canonical_handlerBody hs
  | outBeat i => exact runOutBeat_canonical hs h
  | inBeat i tm => exact runInBeat_canonical hs h
  | groupBeat g => exact runGroupBeat_canonical hs h
  | collab c => cases h; exact hs

end Steps

/-- Settles O53: the memories change by `Memory.write` only, which keeps the canonical form (`Memory.wf_write`), and a new group's
are empty. -/
theorem stepKeepsMemoriesCanonical : Obligations.StepKeepsMemoriesCanonical := by
  intro s t hs h
  obtain ⟨-, ⟨-, rfl⟩ | ⟨mv, rest, -, hmv⟩⟩ := step_next h
  · exact hs
  · exact runMove_canonical (s := { s with moves := rest }) hs hmv

/-! ## Captures with elements nothing has written (R72, R136, R283) -/

/-- `s` with other input buffers, other fault marks and another number of the next draw. -/
def State.withCaptures (s : State) (buf : MotorIdx → Memory Timestamp) (faults : List FaultMark) (free : Nat) : State :=
  { s with chan := Vector.ofFn fun i => { s.ch i with inBuf := buf i }, faults := faults, free := free }

/-- BEGIN decodes the capture of channel `i` and meets an element nothing has written (R72, R136). -/
def drawsAt (s : State) (i : MotorIdx) : Bool :=
  (s.ch i).configured && (s.ch i).hasTelemetry && captureLacks s i

/-- The capture of channel `i` as BEGIN reads it where the next draw has number `d`. -/
def captureAtDraw (d : Nat) (s : State) (i : MotorIdx) : List Timestamp :=
  (List.range (inLen s.cfg)).map fun k =>
    (Memory.read (s.ch i).inBuf k).getD (drawStamp s.cfg (Config.freeStamp d k))

/-- Input buffers with every element written, holding what the captures read as where the draw for channel `i` has number
`d i`. -/
def drawnCaptures (d : MotorIdx → Nat) (s : State) (i : MotorIdx) : Memory Timestamp :=
  Memory.writeFrom [] 0 (captureAtDraw (d i) s i)

section Captures

variable {s : State} {buf : MotorIdx → Memory Timestamp} {faults : List FaultMark} {free : Nat}

@[simp] theorem withCaptures_ch (i : MotorIdx) :
    (s.withCaptures buf faults free).ch i = { s.ch i with inBuf := buf i } := by
  simp only [State.ch, State.withCaptures, vget_ofFn]

@[simp] theorem withCaptures_cfg : (s.withCaptures buf faults free).cfg = s.cfg := rfl

theorem withCaptures_withCaptures (buf' : MotorIdx → Memory Timestamp) (faults' : List FaultMark) (free' : Nat) :
    (s.withCaptures buf faults free).withCaptures buf' faults' free' = s.withCaptures buf' faults' free' := by
  rw [State.withCaptures]
  simp only [withCaptures_ch]
  rfl

theorem withCaptures_self : s.withCaptures (fun i => (s.ch i).inBuf) s.faults s.free = s := by
  have hchan : (Vector.ofFn fun i => s.ch i) = s.chan := vext fun i => vget_ofFn _ i
  rw [State.withCaptures, hchan]

theorem withCaptures_noteUnwritten (lacking : Bool) :
    (noteUnwritten lacking s).withCaptures buf faults free = s.withCaptures buf faults free := by
  cases lacking with
  | false => rfl
  | true => rfl

/-- An update that does not touch the input buffer does the same beside any captures. -/
theorem modCh_withCaptures (i : MotorIdx) {f : Chan → Chan} (hf : ∀ c b, f { c with inBuf := b } = { f c with inBuf := b }) :
    (s.withCaptures buf faults free).modCh i f = (s.modCh i f).withCaptures buf faults free := by
  have hchan : ((s.withCaptures buf faults free).modCh i f).chan = ((s.modCh i f).withCaptures buf faults free).chan := by
    refine chan_ext fun j => ?_
    rw [ch_modCh, withCaptures_ch, withCaptures_ch, withCaptures_ch, ch_modCh]
    split
    · next hj => rw [hf, hj]
    · rfl
  exact congrArg (fun v => { (s.withCaptures buf faults free) with chan := v }) hchan

theorem recordDecoded_withCaptures (i : MotorIdx) (r : Telemetry) :
    recordDecoded i r (s.withCaptures buf faults free) = (recordDecoded i r s).withCaptures buf faults free := by
  cases r with
  | invalid => rfl
  | valid p =>
    have hmod := modCh_withCaptures (s := s) (buf := buf) (faults := faults) (free := free) i
      (f := fun c => { c with telemetryValue := p.setWidth 16 }) fun _ _ => rfl
    simp only [recordDecoded, hmod]
    rfl

theorem clearTelemetry_withCaptures (i : MotorIdx) :
    clearTelemetry i (s.withCaptures buf faults free) = (clearTelemetry i s).withCaptures buf faults free :=
  modCh_withCaptures i fun _ _ => rfl

theorem switchIfWanted_withCaptures (i : MotorIdx) (f : Bool) :
    switchIfWanted i f (s.withCaptures buf faults free) = (switchIfWanted i f s).withCaptures buf faults free := by
  have hwanted : switchWanted (s.withCaptures buf faults free).cfg ((s.withCaptures buf faults free).ch i) f =
      switchWanted s.cfg (s.ch i) f := by
    rw [withCaptures_ch]
    rfl
  unfold switchIfWanted
  rw [hwanted]
  split
  · exact congrArg (emit (.dirToOutput i)) (modCh_withCaptures i fun _ _ => rfl)
  · rfl

theorem enableOutput_withCaptures (i : MotorIdx) :
    enableOutput i (s.withCaptures buf faults free) = (enableOutput i s).withCaptures buf faults free := by
  unfold enableOutput
  rw [withCaptures_ch]
  dsimp only
  split
  · exact modCh_withCaptures i fun _ _ => rfl
  · rfl

theorem enableOutputs_withCaptures (is : List MotorIdx) :
    enableOutputs is (s.withCaptures buf faults free) = (enableOutputs is s).withCaptures buf faults free :=
  List.foldl_hom (fun u : State => u.withCaptures buf faults free) fun _ i => enableOutput_withCaptures i

/-! ### What a buffer holds that a list was written to -/

theorem Memory.lacks_writeFrom_nil {α : Type} (xs : List α) : Memory.lacks (Memory.writeFrom [] 0 xs) xs.length = false := by
  rw [← Bool.not_eq_true, Memory.lacks_iff]
  rintro ⟨k, hk, hnone⟩
  simp [Memory.read_writeFrom, hk] at hnone

theorem Memory.map_readOr_writeFrom_nil {α : Type} (free : Nat → α) (xs : List α) :
    (List.range xs.length).map (Memory.readOr free (Memory.writeFrom [] 0 xs)) = xs := by
  refine List.ext_getElem (by simp) fun k hk hk' => ?_
  simp [Memory.readOr, Memory.read_writeFrom, hk']

/-- Where a channel's buffer is replaced by what its capture reads as, the capture lacks nothing and reads as before. -/
theorem capture_withCaptures {i : MotorIdx} (hbuf : buf i = Memory.writeFrom [] 0 (capture s i)) :
    capture (s.withCaptures buf faults free) i = capture s i ∧
      captureLacks (s.withCaptures buf faults free) i = false := by
  have hlen : inLen (s.withCaptures buf faults free).cfg = (capture s i).length := (length_capture s i).symm
  rw [captureLacks, withCaptures_ch, hlen]
  dsimp only
  rw [hbuf]
  refine ⟨?_, Memory.lacks_writeFrom_nil _⟩
  rw [capture, withCaptures_ch, hlen]
  dsimp only
  rw [hbuf]
  exact Memory.map_readOr_writeFrom_nil _ _

theorem captureAtDraw_free (s : State) (i : MotorIdx) : captureAtDraw s.free s i = capture s i := rfl

/-- A capture is determined by the configuration, the buffer and the number of the draw. -/
theorem captureAtDraw_congr {u : State} {i : MotorIdx} (hcfg : u.cfg = s.cfg) (hbuf : (u.ch i).inBuf = (s.ch i).inBuf)
    (d : Nat) : captureAtDraw d u i = captureAtDraw d s i := by
  simp only [captureAtDraw, hcfg, hbuf]

/-! ### One channel of BEGIN -/

theorem consumeCapture_withCaptures {i : MotorIdx} (hbuf : buf i = Memory.writeFrom [] 0 (capture s i)) :
    consumeCapture i (s.withCaptures buf faults free) = (consumeCapture i s).withCaptures buf faults free := by
  obtain ⟨hread, hlacks⟩ := capture_withCaptures (faults := faults) (free := free) hbuf
  have hnote : s.withCaptures buf faults free = (noteCapture i s).withCaptures buf faults free :=
    (withCaptures_noteUnwritten _).symm
  rw [consumeCapture, noteCapture_of_lacks_eq_false hlacks, hread, withCaptures_cfg, hnote,
    recordDecoded_withCaptures, clearTelemetry_withCaptures, consumeCapture]

theorem beginChannel_withCaptures {i : MotorIdx} (hbuf : buf i = Memory.writeFrom [] 0 (capture s i)) :
    beginChannel i (s.withCaptures buf faults free) = (beginChannel i s).withCaptures buf faults free := by
  unfold beginChannel
  rw [withCaptures_ch]
  dsimp only
  split
  · split
    · rw [consumeCapture_withCaptures hbuf, switchIfWanted_withCaptures]
    · exact switchIfWanted_withCaptures i false
  · rfl

@[simp] theorem beginChannel_cfg (i : MotorIdx) (s : State) : (beginChannel i s).cfg = s.cfg := by
  unfold beginChannel
  split
  · split <;> simp [consumeCapture, noteCapture]
  · rfl

theorem beginChannel_ch_ne {i j : MotorIdx} (h : j ≠ i) (s : State) : (beginChannel i s).ch j = s.ch j := by
  unfold beginChannel
  split
  · split <;> simp [switchIfWanted_ch, consumeCapture_ch, h]
  · rfl

/-- BEGIN leaves the captures as they are (R136). -/
theorem beginChannel_inBuf (i j : MotorIdx) (s : State) : ((beginChannel i s).ch j).inBuf = (s.ch j).inBuf := by
  obtain rfl | h := eq_or_ne j i
  · unfold beginChannel
    split
    · split
      · rw [switchIfWanted_ch]
        split <;> rw [consumeCapture_ch, if_pos rfl]
      · rw [switchIfWanted_ch]
        split <;> rfl
    · rfl
  · rw [beginChannel_ch_ne h]

/-- One channel of BEGIN leaves the draws and the fault marks as B2 of it does (R72, R136). -/
theorem beginChannel_free (i : MotorIdx) (s : State) :
    (beginChannel i s).free = (noteUnwritten (drawsAt s i) s).free := by
  unfold beginChannel drawsAt
  cases hconf : (s.ch i).configured <;> cases htel : (s.ch i).hasTelemetry <;> simp

theorem beginChannel_faults (i : MotorIdx) (s : State) :
    (beginChannel i s).faults = (noteUnwritten (drawsAt s i) s).faults := by
  unfold beginChannel drawsAt
  cases hconf : (s.ch i).configured <;> cases htel : (s.ch i).hasTelemetry <;> simp [consumeCapture, noteCapture]

theorem drawsAt_beginChannel_of_ne {i j : MotorIdx} (h : j ≠ i) (s : State) :
    drawsAt (beginChannel i s) j = drawsAt s j := by
  simp only [drawsAt, captureLacks, beginChannel_ch_ne h, beginChannel_cfg]

/-! ### The loops of BEGIN -/

theorem beginChannels_cons (i : MotorIdx) (is : List MotorIdx) (s : State) :
    beginChannels (i :: is) s = beginChannels is (beginChannel i s) := rfl

/-- There are numbers of draws at which the flagged captures read as the loop reads them. -/
theorem beginChannels_withCaptures {is : List MotorIdx} (hn : is.Nodup) (s : State) :
    ∃ d : MotorIdx → Nat, ∀ buf : MotorIdx → Memory Timestamp,
      (∀ i ∈ is, buf i = drawnCaptures d s i) →
      ∀ faults free, beginChannels is (s.withCaptures buf faults free) = (beginChannels is s).withCaptures buf faults free := by
  induction is generalizing s with
  | nil => exact ⟨fun _ => 0, fun _ _ _ _ => rfl⟩
  | cons i is ih =>
    obtain ⟨hi, hn⟩ := List.nodup_cons.1 hn
    obtain ⟨d, hd⟩ := ih hn (beginChannel i s)
    refine ⟨Function.update d i s.free, fun buf hbuf faults free => ?_⟩
    have hhead : buf i = Memory.writeFrom [] 0 (capture s i) := by
      rw [hbuf i List.mem_cons_self, drawnCaptures, Function.update_self, captureAtDraw_free]
    have htail : ∀ j ∈ is, buf j = drawnCaptures d (beginChannel i s) j := by
      intro j hj
      have hji : j ≠ i := ne_of_mem_of_not_mem hj hi
      rw [hbuf j (List.mem_cons_of_mem i hj), drawnCaptures, drawnCaptures, Function.update_of_ne hji,
        captureAtDraw_congr (beginChannel_cfg i s) (beginChannel_inBuf i j s)]
    rw [beginChannels_cons, beginChannels_cons, beginChannel_withCaptures hhead, hd buf htail]

/-- The marks and draws that `n` readings of captures with unwritten elements leave (R46, R72). -/
theorem beginChannels_marks {is : List MotorIdx} (hn : is.Nodup) (s : State) :
    (beginChannels is s).free = s.free + is.countP (drawsAt s) ∧
      (beginChannels is s).faults =
        if is.countP (drawsAt s) = 0 then s.faults else (markFault .readUnwritten s).faults := by
  induction is generalizing s with
  | nil => exact ⟨rfl, rfl⟩
  | cons i is ih =>
    obtain ⟨hi, hn⟩ := List.nodup_cons.1 hn
    have hcount : is.countP (drawsAt (beginChannel i s)) = is.countP (drawsAt s) :=
      List.countP_congr fun j hj => by rw [drawsAt_beginChannel_of_ne (ne_of_mem_of_not_mem hj hi)]
    obtain ⟨hfree, hfaults⟩ := ih hn (beginChannel i s)
    rw [beginChannels_cons, hfree, hfaults, hcount, beginChannel_free, List.countP_cons]
    simp only [markFault, beginChannel_faults]
    cases hdraw : drawsAt s i with
    | false => simp
    | true =>
      refine ⟨by simp; omega, ?_⟩
      by_cases hmem : FaultMark.readUnwritten ∈ s.faults <;> simp [noteUnwritten_true, hmem]

theorem beginChannels_inBuf (is : List MotorIdx) (s : State) (j : MotorIdx) :
    ((beginChannels is s).ch j).inBuf = (s.ch j).inBuf :=
  List.foldlRecOn (motive := fun u : State => (u.ch j).inBuf = (s.ch j).inBuf) is _ rfl
    fun u hu i _ => (beginChannel_inBuf i j u).trans hu

theorem enableOutputs_inBuf (is : List MotorIdx) (s : State) (j : MotorIdx) :
    ((enableOutputs is s).ch j).inBuf = (s.ch j).inBuf :=
  List.foldlRecOn (motive := fun u : State => (u.ch j).inBuf = (s.ch j).inBuf) is _ rfl fun u hu i _ => by
    rw [enableOutput_ch, ← hu]
    split
    · next h => rw [h.1]
    · rfl

theorem enableOutputs_marks (is : List MotorIdx) (s : State) :
    (enableOutputs is s).free = s.free ∧ (enableOutputs is s).faults = s.faults :=
  List.foldlRecOn (motive := fun u : State => u.free = s.free ∧ u.faults = s.faults) is _ ⟨rfl, rfl⟩
    fun u hu i _ => by simpa using hu

/-! ### BEGIN as a whole -/

/-- The state BEGIN leaves (R136). -/
def beginOutcome (s : State) : State := enableOutputs (motorsOf s.cfg) (beginTelemetry s)

theorem exec_beginUpdate (s : State) : exec .beginUpdate s = .next (beginOutcome s) := rfl

theorem beginOutcome_withCaptures (s : State) :
    ∃ d : MotorIdx → Nat, ∀ faults free,
      beginOutcome (s.withCaptures (drawnCaptures d s) faults free) =
        (beginOutcome s).withCaptures (drawnCaptures d s) faults free := by
  obtain ⟨d, hd⟩ := beginChannels_withCaptures (nodup_motorsOf s.cfg) s
  refine ⟨d, fun faults free => ?_⟩
  rw [beginOutcome, beginOutcome, ← enableOutputs_withCaptures, withCaptures_cfg]
  congr 1
  by_cases htel : s.cfg.telemetryEnabled = true
  · rw [beginTelemetry, beginTelemetry, if_pos htel, withCaptures_cfg, if_pos htel, hd _ fun _ _ => rfl]
  · rw [beginTelemetry, beginTelemetry, if_neg htel, withCaptures_cfg, if_neg htel]

theorem beginOutcome_inBuf (s : State) (j : MotorIdx) : ((beginOutcome s).ch j).inBuf = (s.ch j).inBuf := by
  rw [beginOutcome, enableOutputs_inBuf]
  unfold beginTelemetry
  split
  · exact beginChannels_inBuf _ s j
  · rfl

/-- How many captures with unwritten elements BEGIN decodes: none with telemetry disabled (R72, R136). -/
def beginDraws (s : State) : Nat := if s.cfg.telemetryEnabled = true then (motorsOf s.cfg).countP (drawsAt s) else 0

theorem beginOutcome_marks (s : State) :
    (beginOutcome s).free = s.free + beginDraws s ∧
      (beginOutcome s).faults = if beginDraws s = 0 then s.faults else (markFault .readUnwritten s).faults := by
  obtain ⟨hfree, hfaults⟩ := enableOutputs_marks (motorsOf s.cfg) (beginTelemetry s)
  rw [beginOutcome, hfree, hfaults]
  unfold beginTelemetry beginDraws
  split
  · exact beginChannels_marks (nodup_motorsOf s.cfg) s
  · exact ⟨rfl, rfl⟩

/-- The captures BEGIN draws for, counted over the whole table (R21, R136). -/
theorem beginDraws_eq_countP (s : State) :
    beginDraws s =
      (List.finRange 16).countP fun i =>
        s.cfg.telemetryEnabled && decide (i.val < s.cfg.motorCount) && (s.ch i).configured && (s.ch i).hasTelemetry &&
          (List.range (inLen s.cfg)).any fun k => (Memory.read (s.ch i).inBuf k).isNone := by
  unfold beginDraws
  cases htel : s.cfg.telemetryEnabled with
  | false => simp
  | true =>
    rw [if_pos rfl, motorsOf, List.countP_filter]
    refine List.countP_congr fun i _ => ?_
    simp only [drawsAt, captureLacks, Memory.lacks, Bool.and_eq_true]
    tauto

end Captures

/-- Settles O14: each capture is read at the number of its own draw, and one that is written with what it reads as decodes alike
and records nothing. -/
theorem beginMarksUnwrittenCaptures : Obligations.BeginMarksUnwrittenCaptures := by
  intro s lacking draws
  obtain ⟨d, hd⟩ := beginOutcome_withCaptures s
  obtain ⟨hfree, hfaults⟩ := beginOutcome_marks s
  have hdraws : beginDraws s = draws := beginDraws_eq_countP s
  have hinBuf : (fun i => (s.ch i).inBuf) = fun i => ((beginOutcome s).ch i).inBuf :=
    funext fun i => (beginOutcome_inBuf s i).symm
  have hown : exec .beginUpdate s =
      .next (((beginOutcome s).withCaptures (drawnCaptures d s) s.faults s.free).withCaptures (fun i => (s.ch i).inBuf)
        (if draws = 0 then s.faults else (markFault .readUnwritten s).faults) (s.free + draws)) := by
    rw [withCaptures_withCaptures, hinBuf, ← hdraws, ← hfaults, ← hfree, withCaptures_self, exec_beginUpdate]
  exact ⟨fun i k => drawStamp s.cfg (Config.freeStamp (d i) k), _, fun i k => Nat.mod_lt _ (Nat.two_pow_pos _),
    congrArg Host.Outcome.next (hd s.faults s.free), hown⟩

/-! ## TX on an idle channel, per-channel DMA (R141) -/

theorem groupOf_congr {s t : State} {i : MotorIdx} (htimers : t.grp.map Group.timer = s.grp.map Group.timer)
    (htimer : (t.ch i).timer = (s.ch i).timer) : groupOf t i = groupOf s i := by
  rw [groupOf, groupOf, htimer, findGroup_congr htimers]

theorem Chan.timer_ch_of_binding_eq {c d : Chan} (h : c.binding = d.binding) : c.timer = d.timer ∧ c.ch = d.ch := by
  simp only [Chan.binding, Prod.mk.injEq] at h
  obtain ⟨-, htimer, hch, -⟩ := h
  exact ⟨htimer, hch⟩

/-- Channel `i` is loaded, and its bit is in the accumulated set of its group `g` (R33, R39, R141). -/
structure LoadedIn (s : State) (i : MotorIdx) (g : Nat) : Prop where
  configured : (s.ch i).configured = true
  group : groupOf s i = some g
  armed : (s.ch i).dmaArmed = true
  count : 0 < (s.ch i).dmaCount
  bit : ∀ gr, s.grp[g]? = some gr → gr.timerDmaSources &&& chanBit (s.ch i).ch ≠ 0

/-- A set holds the bit that was added to it. -/
theorem or_chanBit_and_ne_zero (x : BitVec 4) (c : HwChannel) : (x ||| chanBit c) &&& chanBit c ≠ 0 := by
  have hbit : chanBit c ≠ 0 := by revert c; decide
  have habsorb : (x ||| chanBit c) &&& chanBit c = chanBit c := by
    ext k hk
    simp +contextual
  rwa [habsorb]

/-- A bit stays in a set that grows. -/
theorem or_and_ne_zero {x b : BitVec 4} (y : BitVec 4) (h : x &&& b ≠ 0) : (x ||| y) &&& b ≠ 0 := by
  intro hzero
  refine h (BitVec.eq_of_getLsbD_eq fun k hk => ?_)
  have hk0 := congrArg (fun v => BitVec.getLsbD v k) hzero
  simp only [BitVec.getLsbD_and, BitVec.getLsbD_or] at hk0 ⊢
  cases hx : x.getLsbD k <;> simp_all

section Load

variable {idx : MotorIdx} {s : State}

theorem txSource_of_groupOf {g : Nat} (hg : groupOf s idx = some g) :
    txSource idx s =
      s.modGrp g fun gr => { gr with timerDmaSources := gr.timerDmaSources ||| chanBit (s.ch idx).ch } := by
  simp only [txSource, hg]

theorem txSource_timers : (txSource idx s).grp.map Group.timer = s.grp.map Group.timer := by
  unfold txSource
  split
  · exact modGrp_timers _ _ _ fun _ => rfl
  · rfl

/-- T2 to T7 write one channel (R141). -/
theorem txLoad_ch (hb : s.cfg.burst = false) (value : BitVec 16) (tr : Bool) (j : MotorIdx) :
    (txLoad idx value tr s).ch j =
      if j = idx then
        { s.ch idx with
          value := (s.collab.cmdFor.get idx).getD value, requestTelemetry := false,
          outBuf := Memory.writeFrom (s.ch idx).outBuf 0 (txFrameOf idx value tr s),
          outLen := (txFrameOf idx value tr s).length, dmaPos := 0, dmaCount := (txFrameOf idx value tr s).length,
          dmaArmed := true }
      else s.ch j := by
  rw [txLoad_eq, txSource_ch, txArm_ch_of_burst_eq_false (by simpa using hb)]
  by_cases hj : j = idx <;>
    simp [hj, txFrame_ch_of_burst_eq_false, hb, txClearRequest_ch, txCommand_ch, txOperands_ch, cmdFor]

/-- T7 adds the channel's bit to the set of its group, and nothing else of a group changes (R39, R141). -/
theorem txLoad_grp (hb : s.cfg.burst = false) {g : Nat} (hg : groupOf s idx = some g) (value : BitVec 16) (tr : Bool) :
    (txLoad idx value tr s).grp =
      s.grp.modify g fun gr => { gr with timerDmaSources := gr.timerDmaSources ||| chanBit (s.ch idx).ch } := by
  obtain ⟨u, hu⟩ : ∃ u, u = txArm idx (txFrameOf idx value tr s).length (txFrame idx (txFrameOf idx value tr s)
    (txClearRequest idx (txCommand idx (txOperands idx value tr s)))) := ⟨_, rfl⟩
  have hload : txLoad idx value tr s = txSource idx u := hu ▸ txLoad_eq value tr
  have hgrp : u.grp = s.grp := by
    rw [hu, txArm_grp_of_burst_eq_false (by simpa using hb), txFrame_grp_of_burst_eq_false (by simpa using hb)]
    simp
  have hbinding : (u.ch idx).timer = (s.ch idx).timer ∧ (u.ch idx).ch = (s.ch idx).ch := by
    rw [← txSource_ch idx u, ← hload, txLoad_ch hb, if_pos rfl]
    exact ⟨rfl, rfl⟩
  have hgroup : groupOf u idx = some g := (groupOf_congr (by rw [hgrp]) hbinding.1).trans hg
  rw [hload, txSource_of_groupOf hgroup, hbinding.2, State.modGrp, hgrp]

theorem txLoad_timers (hb : s.cfg.burst = false) (value : BitVec 16) (tr : Bool) :
    (txLoad idx value tr s).grp.map Group.timer = s.grp.map Group.timer := by
  rw [txLoad_eq, txSource_timers, txArm_grp_of_burst_eq_false (by simpa using hb),
    txFrame_grp_of_burst_eq_false (by simpa using hb)]
  simp

theorem txLoad_binding (hb : s.cfg.burst = false) (value : BitVec 16) (tr : Bool) (j : MotorIdx) :
    ((txLoad idx value tr s).ch j).binding = (s.ch j).binding := by
  rw [txLoad_ch hb]
  split
  · next hj => rw [hj]; rfl
  · rfl

theorem txLoad_groupOf (hb : s.cfg.burst = false) (value : BitVec 16) (tr : Bool) (j : MotorIdx) :
    groupOf (txLoad idx value tr s) j = groupOf s j :=
  groupOf_congr (txLoad_timers hb value tr) (Chan.timer_ch_of_binding_eq (txLoad_binding hb value tr j)).1

@[simp] theorem txLoad_cfg (value : BitVec 16) (tr : Bool) : (txLoad idx value tr s).cfg = s.cfg := by simp [txLoad]

@[simp] theorem txLoad_log (value : BitVec 16) (tr : Bool) : (txLoad idx value tr s).log = s.log := by simp [txLoad]

@[simp] theorem txLoad_collab (value : BitVec 16) (tr : Bool) : (txLoad idx value tr s).collab = s.collab := by
  simp [txLoad]

/-- The frame of a legal configuration has an element (R134). -/
theorem txFrameOf_length_pos (hl : CfgLegal s.cfg) (value : BitVec 16) (tr : Bool) :
    0 < (txFrameOf idx value tr s).length := by
  obtain ⟨-, -, -, -, -, -, -, -, -, hlen, -⟩ := hl
  rw [txFrameOf, length_expand]
  omega

/-- TX of an idle channel loads it (R141). -/
theorem loadedIn_txLoad (hl : CfgLegal s.cfg) (hb : s.cfg.burst = false) {g : Nat} (hconf : (s.ch idx).configured = true)
    (hg : groupOf s idx = some g) (value : BitVec 16) (tr : Bool) : LoadedIn (txLoad idx value tr s) idx g where
  configured := by rw [txLoad_ch hb, if_pos rfl]; exact hconf
  group := (txLoad_groupOf hb value tr idx).trans hg
  armed := by rw [txLoad_ch hb, if_pos rfl]
  count := by rw [txLoad_ch hb, if_pos rfl]; exact txFrameOf_length_pos hl value tr
  bit gr hgr := by
    rw [txLoad_grp hb hg, List.getElem?_modify] at hgr
    obtain ⟨old, -, rfl⟩ := Option.map_eq_some_iff.1 hgr
    rw [txLoad_ch hb, if_pos rfl, if_pos rfl]
    exact or_chanBit_and_ne_zero _ _

/-- TX of another channel leaves a loaded channel loaded: a set of sources only grows (R39, R141). -/
theorem LoadedIn.after_txLoad (hb : s.cfg.burst = false) {i : MotorIdx} {g g' : Nat} (h : LoadedIn s i g) (hne : i ≠ idx)
    (hg' : groupOf s idx = some g') (value : BitVec 16) (tr : Bool) : LoadedIn (txLoad idx value tr s) i g := by
  have hch : (txLoad idx value tr s).ch i = s.ch i := by rw [txLoad_ch hb, if_neg hne]
  refine ⟨hch ▸ h.configured, (txLoad_groupOf hb value tr i).trans h.group, hch ▸ h.armed, hch ▸ h.count, fun gr hgr => ?_⟩
  rw [txLoad_grp hb hg', List.getElem?_modify] at hgr
  obtain ⟨old, hold, rfl⟩ := Option.map_eq_some_iff.1 hgr
  have hbit := h.bit old hold
  rw [hch]
  split
  · exact or_and_ne_zero _ hbit
  · exact hbit

end Load

/-! ## GO, per-channel DMA (R145, R147) -/

/-- What GO logs for a group (R147). -/
def Group.goEvents (gr : Group) : List Event :=
  [.counterReset gr.timer, .sourcesEnabled gr.timer gr.timerDmaSources]

/-- The enable call of group `g` starts channel `i` (R147). -/
def startedBy (s : State) (i : MotorIdx) (g : Nat) : Bool := (s.grp[g]?).any fun gr => startsIn s g gr.timerDmaSources i

section Go

variable {s : State}

theorem startsIn_congr {t : State} {i : MotorIdx} (htimers : t.grp.map Group.timer = s.grp.map Group.timer)
    (hbinding : (t.ch i).binding = (s.ch i).binding) (g : Nat) (m : BitVec 4) : startsIn t g m i = startsIn s g m i := by
  simp only [Chan.binding, Prod.mk.injEq] at hbinding
  obtain ⟨hconf, htimer, hch, -⟩ := hbinding
  rw [startsIn, startsIn, hconf, hch, groupOf_congr htimers htimer]

/-! ### G1 and G2 of a group in the table -/

theorem goReset_of_getElem? {g : Nat} {gr : Group} (hg : s.grp[g]? = some gr) :
    goReset g s = emit (.counterReset gr.timer) (s.modGrp g fun gr => { gr with counter := 0 }) := by
  simp only [goReset, hg]

theorem goReset_getElem? {g : Nat} {gr : Group} (hg : s.grp[g]? = some gr) :
    (goReset g s).grp[g]? = some { gr with counter := 0 } := by
  rw [goReset_of_getElem? hg, emit_grp, grp_getElem?_modGrp, if_pos rfl, hg]
  rfl

theorem goReset_startsIn (g h : Nat) (m : BitVec 4) (i : MotorIdx) : startsIn (goReset g s) h m i = startsIn s h m i := by
  refine startsIn_congr ?_ (by rw [goReset_ch]) h m
  unfold goReset
  split
  · exact modGrp_timers _ _ _ fun _ => rfl
  · rfl

theorem goEnable_of_getElem? (hb : s.cfg.burst = false) {g : Nat} {gr : Group} (hg : s.grp[g]? = some gr) :
    goEnable g s = emit (.sourcesEnabled gr.timer gr.timerDmaSources)
      (s.mapCh fun i c => if startsIn s g gr.timerDmaSources i then { c with reqEn := true } else c) := by
  simp [goEnable, hg, hb]

/-! ### One group -/

theorem goGroup_of_none {g : Nat} (hg : s.grp[g]? = none) : goGroup g s = s := by
  have hmodify : ∀ f, s.grp.modify g f = s.grp := fun f =>
    List.modify_eq_self (List.getElem?_eq_none_iff.1 hg)
  simp [goGroup, goReset, goEnable, goClear, hg, State.modGrp, hmodify]

@[simp] theorem goGroup_cfg (g : Nat) : (goGroup g s).cfg = s.cfg := by simp [goGroup]

theorem goGroup_log (hb : s.cfg.burst = false) (g : Nat) :
    (goGroup g s).log = s.log ++ (s.grp[g]?).toList.flatMap Group.goEvents := by
  cases hg : s.grp[g]? with
  | none => simp [goGroup_of_none hg]
  | some gr =>
    rw [goGroup, goClear_log, goEnable_of_getElem? (by simpa using hb) (goReset_getElem? hg), goReset_of_getElem? hg]
    simp [emit, Group.goEvents]

theorem goGroup_ch (hb : s.cfg.burst = false) (g : Nat) (i : MotorIdx) :
    (goGroup g s).ch i = { s.ch i with reqEn := (s.ch i).reqEn || startedBy s i g } := by
  cases hg : s.grp[g]? with
  | none => simp [goGroup_of_none hg, startedBy, hg]
  | some gr =>
    have hch : (goGroup g s).ch i = (goEnable g (goReset g s)).ch i := rfl
    rw [hch, goEnable_of_getElem? (by simpa using hb) (goReset_getElem? hg), emit_ch, ch_mapCh, goReset_startsIn,
      goReset_ch, startedBy, hg]
    dsimp only [Option.any_some]
    cases hstarts : startsIn s g gr.timerDmaSources i <;> simp

theorem goGroup_getElem? (hb : s.cfg.burst = false) (g k : Nat) :
    (goGroup g s).grp[k]? =
      if g = k then (s.grp[k]?).map fun gr => { gr with counter := 0, timerDmaSources := 0 } else s.grp[k]? := by
  cases hg : s.grp[g]? with
  | none =>
    rw [goGroup_of_none hg]
    split
    · next hk => rw [← hk, hg]; rfl
    · rfl
  | some gr =>
    rw [goGroup, goClear, grp_getElem?_modGrp, goEnable_of_getElem? (by simpa using hb) (goReset_getElem? hg), emit_grp,
      mapCh_grp, goReset_of_getElem? hg, emit_grp, grp_getElem?_modGrp]
    split
    · next hk => simp [← hk, hg]
    · rfl

theorem goGroup_timers (hb : s.cfg.burst = false) (g : Nat) :
    (goGroup g s).grp.map Group.timer = s.grp.map Group.timer := by
  refine List.ext_getElem? fun k => ?_
  rw [List.getElem?_map, List.getElem?_map, goGroup_getElem? hb]
  split <;> simp [Function.comp_def]

/-- What one group's enable call starts is not changed by another group's (R147). -/
theorem startedBy_goGroup_of_ne (hb : s.cfg.burst = false) {g k : Nat} (h : g ≠ k) (i : MotorIdx) :
    startedBy (goGroup g s) i k = startedBy s i k := by
  have hstarts : ∀ m, startsIn (goGroup g s) k m i = startsIn s k m i :=
    startsIn_congr (goGroup_timers hb g) (by rw [goGroup_ch hb]; rfl) k
  simp only [startedBy, goGroup_getElem? hb, if_neg h, hstarts]

/-! ### All groups -/

theorem goGroups_cons (g : Nat) (gs : List Nat) (s : State) : goGroups (g :: gs) s = goGroups gs (goGroup g s) := rfl

theorem goGroups_log (hb : s.cfg.burst = false) {gs : List Nat} (hn : gs.Nodup) :
    (goGroups gs s).log = s.log ++ gs.flatMap fun g => (s.grp[g]?).toList.flatMap Group.goEvents := by
  induction gs generalizing s with
  | nil => simp [goGroups]
  | cons g gs ih =>
    obtain ⟨hg, hn⟩ := List.nodup_cons.1 hn
    have hrest : (gs.flatMap fun k => ((goGroup g s).grp[k]?).toList.flatMap Group.goEvents) =
        gs.flatMap fun k => (s.grp[k]?).toList.flatMap Group.goEvents :=
      List.flatMap_congr fun k hk => by rw [goGroup_getElem? hb, if_neg (ne_of_mem_of_not_mem hk hg).symm]
    rw [goGroups_cons, ih (by simpa using hb) hn, hrest, goGroup_log hb, List.flatMap_cons, List.append_assoc]

theorem goGroups_ch (hb : s.cfg.burst = false) {gs : List Nat} (hn : gs.Nodup) (i : MotorIdx) :
    (goGroups gs s).ch i = { s.ch i with reqEn := (s.ch i).reqEn || gs.any (startedBy s i) } := by
  induction gs generalizing s with
  | nil => simp [goGroups]
  | cons g gs ih =>
    obtain ⟨hg, hn⟩ := List.nodup_cons.1 hn
    have hother : ∀ k ∈ gs, startedBy (goGroup g s) i k = startedBy s i k := fun k hk =>
      startedBy_goGroup_of_ne hb (ne_of_mem_of_not_mem hk hg).symm i
    have hrest : gs.any (startedBy (goGroup g s) i) = gs.any (startedBy s i) := by
      rw [Bool.eq_iff_iff, List.any_eq_true, List.any_eq_true]
      exact exists_congr fun k => and_congr_right fun hk => by rw [hother k hk]
    rw [goGroups_cons, ih (by simpa using hb) hn, hrest, goGroup_ch hb, List.any_cons]
    simp only [Bool.or_assoc]

theorem flatMap_range_getElem? {α β : Type} (as : List α) (f : α → List β) :
    ((List.range as.length).flatMap fun k => (as[k]?).toList.flatMap f) = as.flatMap f := by
  induction as with
  | nil => rfl
  | cons a as ih =>
    rw [List.length_cons, List.range_succ_eq_map, List.flatMap_cons, List.flatMap_map]
    simp [ih]

/-- GO logs each group's two events in the order of the groups (R147). -/
theorem goGroups_range_log (hb : s.cfg.burst = false) :
    (goGroups (List.range s.grp.length) s).log = s.log ++ s.grp.flatMap Group.goEvents := by
  rw [goGroups_log hb List.nodup_range, flatMap_range_getElem?]

/-- A loaded channel is in flight after GO (R33, R147). -/
theorem LoadedIn.inFlight_goGroups (hb : s.cfg.burst = false) {i : MotorIdx} {g : Nat} (h : LoadedIn s i g) :
    ((goGroups (List.range s.grp.length) s).ch i).inFlight = true := by
  obtain ⟨gr, hg, -⟩ := findGroup_eq_some h.group
  have hlt : g < s.grp.length := (List.getElem?_eq_some_iff.1 hg).1
  have hstarts : startedBy s i g = true := by
    rw [startedBy, hg]
    simpa [startsIn, h.configured, h.group] using h.bit gr hg
  have hstarted : (List.range s.grp.length).any (startedBy s i) = true :=
    List.any_eq_true.2 ⟨g, List.mem_range.2 hlt, hstarts⟩
  rw [goGroups_ch hb List.nodup_range, hstarted]
  simp [Chan.inFlight, h.armed, h.count]

theorem execGo_of_not_skipped (h : goSkipped s = false) :
    execGo s = .next (goGroups (List.range s.grp.length) s) := by
  simp [execGo, h]

end Go

/-! ## The enable calls of one timer (R82, R145) -/

/-- The event is an enable call of this timer. -/
def Event.enables (k : TimerId) : Event → Bool
  | .sourcesEnabled timer _ => decide (timer = k)
  | _ => false

theorem Group.enables_goEvents (k : TimerId) (gr : Group) :
    gr.goEvents.filter (Event.enables k) = if gr.timer = k then [.sourcesEnabled gr.timer gr.timerDmaSources] else [] := by
  simp [Group.goEvents, Event.enables, List.filter_cons]

/-- Where no timer has two groups, the enable calls of a group's timer are the one of that group. -/
theorem enables_flatMap_goEvents {gs : List Group} (hn : (gs.map Group.timer).Nodup) {gr : Group} (hgr : gr ∈ gs) :
    (gs.flatMap Group.goEvents).filter (Event.enables gr.timer) = [.sourcesEnabled gr.timer gr.timerDmaSources] := by
  induction gs with
  | nil => cases hgr
  | cons a gs ih =>
    obtain ⟨ha, hn⟩ := List.nodup_cons.1 hn
    have hother : ∀ b ∈ gs, b.timer ≠ a.timer := fun b hb h => ha (h ▸ List.mem_map_of_mem hb)
    rw [List.flatMap_cons, List.filter_append, Group.enables_goEvents]
    obtain rfl | hmem := List.mem_cons.1 hgr
    · have hrest : (gs.flatMap Group.goEvents).filter (Event.enables gr.timer) = [] := by
        rw [List.filter_flatMap, List.flatMap_eq_nil_iff]
        intro b hb
        rw [Group.enables_goEvents, if_neg (hother b hb)]
      rw [if_pos rfl, hrest, List.append_nil]
    · rw [if_neg (hother gr hmem).symm, ih hn hmem, List.nil_append]

/-- GO makes one enable call of a timer that has a loaded channel, and the call covers every channel loaded in its group. -/
theorem enables_goGroups_range {s : State} (hb : s.cfg.burst = false) (hn : (s.grp.map Group.timer).Nodup) {i : MotorIdx}
    {g : Nat} (h : LoadedIn s i g) :
    ∃ m, (∀ j, LoadedIn s j g → m &&& chanBit (s.ch j).ch ≠ 0) ∧
      (((goGroups (List.range s.grp.length) s).log.drop s.log.length).filter (Event.enables (s.ch i).timer)) =
        [.sourcesEnabled (s.ch i).timer m] := by
  obtain ⟨gr, hgr, htimer⟩ := findGroup_eq_some h.group
  refine ⟨gr.timerDmaSources, fun j hj => hj.bit gr hgr, ?_⟩
  rw [goGroups_range_log hb, List.drop_left, ← htimer]
  exact enables_flatMap_goEvents hn (List.mem_of_getElem? hgr)

/-- Settles O21: the two loads put both bits into the set of the one group of the timer, whose enable call takes them. -/
theorem oneEnableCallStartsBothChannels : Obligations.OneEnableCallStartsBothChannels := by
  intro s i j vi vj ri rj hij hlegal hb hskip hdistinct hconfi hconfj hidlei hidlej htimer hgroup
  obtain ⟨g, hgi⟩ := Option.ne_none_iff_exists'.1 hgroup
  have hgj : groupOf s j = some g := by rw [groupOf, ← htimer]; exact hgi
  -- the first load
  obtain ⟨t1, ht1⟩ : ∃ t1, t1 = txLoad i vi ri s := ⟨_, rfl⟩
  have hcfg1 : t1.cfg = s.cfg := by rw [ht1, txLoad_cfg]
  have hb1 : t1.cfg.burst = false := by rw [hcfg1, hb]
  have hj1 : t1.ch j = s.ch j := by rw [ht1, txLoad_ch hb, if_neg hij.symm]
  have hgj1 : groupOf t1 j = some g := by rw [ht1, txLoad_groupOf hb, hgj]
  have hload1 : LoadedIn t1 i g := ht1 ▸ loadedIn_txLoad hlegal hb hconfi hgi vi ri
  -- the second load
  obtain ⟨t2, ht2⟩ : ∃ t2, t2 = txLoad j vj rj t1 := ⟨_, rfl⟩
  have hb2 : t2.cfg.burst = false := by rw [ht2, txLoad_cfg, hb1]
  have hi : LoadedIn t2 i g := ht2 ▸ hload1.after_txLoad hb1 hij hgj1 vj rj
  have hj : LoadedIn t2 j g := ht2 ▸ loadedIn_txLoad (hcfg1 ▸ hlegal) hb1 (hj1 ▸ hconfj) hgj1 vj rj
  have hbinding : ∀ k, (t2.ch k).timer = (s.ch k).timer ∧ (t2.ch k).ch = (s.ch k).ch := fun k =>
    Chan.timer_ch_of_binding_eq (by rw [ht2, txLoad_binding hb1, ht1, txLoad_binding hb])
  have htimers : t2.grp.map Group.timer = s.grp.map Group.timer := by
    rw [ht2, txLoad_timers hb1, ht1, txLoad_timers hb]
  have hlog : t2.log = s.log := by rw [ht2, txLoad_log, ht1, txLoad_log]
  have hskip2 : goSkipped t2 = false := by rw [goSkipped, ht2, txLoad_collab, ht1, txLoad_collab]; exact hskip
  -- GO
  obtain ⟨m, hcovers, hone⟩ := enables_goGroups_range hb2 (htimers ▸ hdistinct.1) hi
  rw [hlog, (hbinding i).1] at hone
  refine ⟨t1, t2, _, ht1 ▸ execTx_of_idle hb hconfi hidlei vi ri,
    ht2 ▸ execTx_of_idle hb1 (hj1 ▸ hconfj) (hj1 ▸ hidlej) vj rj, execGo_of_not_skipped hskip2,
    hi.inFlight_goGroups hb2, hj.inFlight_goGroups hb2, m, (hbinding i).2 ▸ hcovers i hi, (hbinding j).2 ▸ hcovers j hj, ?_⟩
  refine (List.filter_congr fun e _ => ?_).trans hone
  cases e <;> rfl

end Sys2Proof.Machine

/-! Proofs of the encoding family (30_encoding.md): a command word holds its operation field by field, the accepted and the
reserved words, CYCLE, and the checksum fold. -/

namespace Sys2Proof

/-! ## Words and operations, field by field (R111 to R122) -/

/-- The fields of `w` (R111) hold operation `i`: its `OP`, its operands, and zero in the must-be-zero bits (R112 to R120). -/
def Spells (w : Word) : Instr → Prop
  | .cfg idx timer ch n =>
    w.toNat / 2 ^ 28 = 1 ∧ w.toNat % 2 ^ 17 = 0 ∧ idx = idxField w ∧ timer = timerField w ∧ ch = chField w ∧ n = nField w
  | .beginUpdate => w.toNat / 2 ^ 28 = 2 ∧ w.toNat % 2 ^ 28 = 0
  | .tx idx value tr =>
    w.toNat / 2 ^ 28 = 3 ∧ w.toNat / 2 ^ 17 % 2 ^ 7 = 0 ∧ idx = idxField w ∧ value = valueField w ∧ tr = trField w
  | .go => w.toNat / 2 ^ 28 = 4 ∧ w.toNat % 2 ^ 28 = 0
  | .gett idx => w.toNat / 2 ^ 28 = 5 ∧ w.toNat % 2 ^ 24 = 0 ∧ idx = idxField w
  | .rpminit => w.toNat / 2 ^ 28 = 6 ∧ w.toNat % 2 ^ 28 = 0
  | .rpmupd => w.toNat / 2 ^ 28 = 7 ∧ w.toNat % 2 ^ 28 = 0
  | .fgyro axis =>
    w.toNat / 2 ^ 28 = 8 ∧ w.toNat / 2 ^ 26 % 4 = 0 ∧ w.toNat % 2 ^ 24 = 0 ∧ w.toNat / 2 ^ 24 % 4 = axis.val
  | .fdterm axis =>
    w.toNat / 2 ^ 28 = 9 ∧ w.toNat / 2 ^ 26 % 4 = 0 ∧ w.toNat % 2 ^ 24 = 0 ∧ w.toNat / 2 ^ 24 % 4 = axis.val

theorem bool_eq_iff_toNat {a b : Bool} : a = b ↔ a.toNat = b.toNat := by cases a <;> cases b <;> decide

/-- Encoding writes every field and nothing else (R111 to R120). -/
theorem encode_eq_iff_spells {w : Word} {i : Instr} : encode i = w ↔ Spells w i := by
  have hw := w.isLt
  rw [← BitVec.toNat_inj]
  cases i with
  | cfg idx timer ch n =>
    have hn := n.toNat_lt
    rw [encode_cfg_toNat, Spells, Fin.ext_iff, Fin.ext_iff, Fin.ext_iff, bool_eq_iff_toNat, idxField_val, timerField_val,
      chField_val, nField_toNat]
    omega
  | beginUpdate => rw [encode_beginUpdate_toNat, Spells]; omega
  | tx idx value tr =>
    have htr := tr.toNat_lt
    have hvalue := value.isLt
    rw [encode_tx_toNat, Spells, Fin.ext_iff, ← BitVec.toNat_inj, bool_eq_iff_toNat, idxField_val, valueField_toNat,
      trField_toNat]
    omega
  | go => rw [encode_go_toNat, Spells]; omega
  | gett idx => rw [encode_gett_toNat, Spells, Fin.ext_iff, idxField_val]; omega
  | rpminit => rw [encode_rpminit_toNat, Spells]; omega
  | rpmupd => rw [encode_rpmupd_toNat, Spells]; omega
  | fgyro axis => rw [encode_fgyro_toNat, Spells]; omega
  | fdterm axis => rw [encode_fdterm_toNat, Spells]; omega

/-- The index check passes exactly when the operation's index, where it has one, lies in the table (R122). -/
theorem wellFormed_iff_of_motorIdx {n : Nat} {w : Word} {i : Instr} (hi : i.motorIdx = some (idxField w)) :
    i.wellFormed n = true ↔ w.toNat / 2 ^ 24 % 16 < n := by
  rw [Instr.wellFormed, hi, ← idxField_val]
  exact decide_eq_true_iff

/-- What an accepted word says (R111 to R122). -/
theorem spells_of_decode {n : Nat} {w : Word} {i : Instr} (h : decode n w = .ok i) :
    Spells w i ∧ i.wellFormed n = true := by
  simp only [decode_eq, ite_eq_iff, Except.ok.injEq, reduceCtorEq, and_false, or_false, decodeA_eq_ok] at h
  obtain ⟨hop, hz, hidx, rfl⟩ | ⟨-, ⟨hop, hz, rfl⟩ | ⟨-, ⟨hop, hz, hidx, rfl⟩ | ⟨-, ⟨hop, hz, rfl⟩ |
    ⟨-, ⟨hop, hz, hidx, rfl⟩ | ⟨-, ⟨hop, hz, rfl⟩ | ⟨-, ⟨hop, hz, rfl⟩ | ⟨-, ⟨hop, hz, hz', axis, haxis, rfl⟩ |
    ⟨-, hop, hz, hz', axis, haxis, rfl⟩⟩⟩⟩⟩⟩⟩⟩ := h
  · exact ⟨⟨hop, hz, rfl, rfl, rfl, rfl⟩, (wellFormed_iff_of_motorIdx rfl).2 hidx⟩
  · exact ⟨⟨hop, hz⟩, rfl⟩
  · exact ⟨⟨hop, hz, rfl, rfl, rfl⟩, (wellFormed_iff_of_motorIdx rfl).2 hidx⟩
  · exact ⟨⟨hop, hz⟩, rfl⟩
  · exact ⟨⟨hop, hz, rfl⟩, (wellFormed_iff_of_motorIdx rfl).2 hidx⟩
  · exact ⟨⟨hop, hz⟩, rfl⟩
  · exact ⟨⟨hop, hz⟩, rfl⟩
  · exact ⟨⟨hop, hz, hz', haxis⟩, rfl⟩
  · exact ⟨⟨hop, hz, hz', haxis⟩, rfl⟩

/-- The decoder tests no more than the fields and the index (R111 to R122). -/
theorem decode_of_spells {n : Nat} {w : Word} {i : Instr} (hs : Spells w i) (hwf : i.wellFormed n = true) :
    decode n w = .ok i := by
  rw [decode_eq]
  cases i with
  | cfg idx timer ch m =>
    obtain ⟨hop, hz, rfl, rfl, rfl, rfl⟩ := hs
    simp only [hop, hz, (wellFormed_iff_of_motorIdx rfl).1 hwf, reduceIte]
  | tx idx value tr =>
    obtain ⟨hop, hz, rfl, rfl, rfl⟩ := hs
    simp only [hop, hz, (wellFormed_iff_of_motorIdx rfl).1 hwf, Nat.reduceEqDiff, reduceIte]
  | gett idx =>
    obtain ⟨hop, hz, rfl⟩ := hs
    simp only [hop, hz, (wellFormed_iff_of_motorIdx rfl).1 hwf, Nat.reduceEqDiff, reduceIte]
  | beginUpdate | go | rpminit | rpmupd =>
    obtain ⟨hop, hz⟩ := hs
    simp only [hop, hz, Nat.reduceEqDiff, reduceIte]
  | fgyro axis | fdterm axis =>
    obtain ⟨hop, hz, hz', haxis⟩ := hs
    simp only [hop, Nat.reduceEqDiff, reduceIte]
    exact (decodeA_eq_ok _ w _).2 ⟨hz, hz', axis, haxis, rfl⟩

/-- Decoding and encoding say the same of a word and an operation the block has (R111 to R122). -/
theorem decode_eq_ok_iff {n : Nat} {w : Word} {i : Instr} :
    decode n w = .ok i ↔ encode i = w ∧ i.wellFormed n = true := by
  rw [encode_eq_iff_spells]
  exact ⟨spells_of_decode, fun ⟨hs, hwf⟩ => decode_of_spells hs hwf⟩

/-- Settles O1: an operation's word spells it. -/
theorem decodeOfEncodeIsTheOperation : Obligations.DecodeOfEncodeIsTheOperation :=
  fun _ _ hwf => decode_eq_ok_iff.2 ⟨rfl, hwf⟩

/-- Settles O2: an accepted word spells its operation. -/
theorem encodeOfDecodeIsTheWord : Obligations.EncodeOfDecodeIsTheWord :=
  fun _ _ _ => decode_eq_ok_iff.1

/-! ## Fields as masks (R12, R111) -/

/-- Ones in the `len` bits from `lo` up, zeros elsewhere (R12). -/
def fieldMask (lo len : Nat) : Word := BitVec.ofNat 32 ((2 ^ len - 1) * 2 ^ lo)

theorem nat_and_ones_mul_two_pow (x lo len : Nat) : x &&& (2 ^ len - 1) * 2 ^ lo = x / 2 ^ lo % 2 ^ len * 2 ^ lo := by
  rw [← Nat.shiftLeft_eq, ← Nat.shiftLeft_eq, ← Nat.and_two_pow_sub_one_eq_mod, ← Nat.shiftRight_eq_div_pow,
    Nat.shiftLeft_and_distrib]
  apply Nat.eq_of_testBit_eq
  intro i
  by_cases hi : lo ≤ i <;> simp [hi]

/-- Masking a word reads the field. -/
theorem and_fieldMask_eq_iff {w : Word} {lo len k : Nat} (hfits : lo + len ≤ 32) (hk : k < 2 ^ len) :
    w &&& fieldMask lo len = BitVec.ofNat 32 (k * 2 ^ lo) ↔ w.toNat / 2 ^ lo % 2 ^ len = k := by
  have hlt : ∀ {x}, x < 2 ^ len → x * 2 ^ lo < 2 ^ 32 := fun {x} hx =>
    calc x * 2 ^ lo < 2 ^ len * 2 ^ lo := Nat.mul_lt_mul_of_pos_right hx (Nat.two_pow_pos lo)
      _ = 2 ^ (lo + len) := by rw [← Nat.pow_add, Nat.add_comm]
      _ ≤ 2 ^ 32 := Nat.pow_le_pow_right (by decide) hfits
  have hones : 2 ^ len - 1 < 2 ^ len := Nat.sub_one_lt (Nat.two_pow_pos len).ne'
  rw [← BitVec.toNat_inj, BitVec.toNat_and, fieldMask, BitVec.toNat_ofNat, BitVec.toNat_ofNat,
    Nat.mod_eq_of_lt (hlt hones), Nat.mod_eq_of_lt (hlt hk), nat_and_ones_mul_two_pow]
  exact Nat.mul_left_inj (Nat.two_pow_pos lo).ne'

theorem and_fieldMask_eq_zero_iff {w : Word} {lo len : Nat} (hfits : lo + len ≤ 32) :
    w &&& fieldMask lo len = 0 ↔ w.toNat / 2 ^ lo % 2 ^ len = 0 := by
  simpa using and_fieldMask_eq_iff (w := w) (k := 0) hfits (Nat.two_pow_pos len)

theorem and_lowMask_eq_zero_iff {w : Word} {len : Nat} (hfits : len ≤ 32) :
    w &&& fieldMask 0 len = 0 ↔ w.toNat % 2 ^ len = 0 := by
  rw [and_fieldMask_eq_zero_iff (by omega), Nat.pow_zero, Nat.div_one]

/-- A match under two masks, where neither the first mask nor the match has a bit of the second. -/
theorem and_or_eq_iff {w m z v : Word} (hmz : m &&& z = 0) (hvz : v &&& z = 0) :
    w &&& (m ||| z) = v ↔ w &&& m = v ∧ w &&& z = 0 := by
  simp only [BitVec.eq_of_getLsbD_eq_iff, BitVec.getLsbD_and, BitVec.getLsbD_or] at hmz hvz ⊢
  rw [← forall₂_and]
  refine forall₂_congr fun k hk => ?_
  have hmk := hmz k hk
  have hvk := hvz k hk
  cases hzk : z.getLsbD k with
  | false => simp
  | true =>
    have hm : m.getLsbD k = false := by simpa [hzk] using hmk
    have hv : v.getLsbD k = false := by simpa [hzk] using hvk
    simp [hm, hv]

/-- A match of `OP` and of must-be-zero bits `z` (R111). -/
theorem and_opMask_eq_iff {w z : Word} {k : Nat} (hk : k < 16) (hz : fieldMask 28 4 &&& z = 0)
    (hkz : BitVec.ofNat 32 (k * 2 ^ 28) &&& z = 0) :
    w &&& (fieldMask 28 4 ||| z) = BitVec.ofNat 32 (k * 2 ^ 28) ↔ w.toNat / 2 ^ 28 = k ∧ w &&& z = 0 := by
  have hw := w.isLt
  rw [and_or_eq_iff hz hkz, and_fieldMask_eq_iff (by decide) hk, Nat.mod_eq_of_lt (by omega)]

/-! ### The must-be-zero bits of formats Z, C, T, I and A (R111) -/

theorem and_zMask_eq_zero_iff (w : Word) : w &&& 0x0FFFFFFF#32 = 0 ↔ w.toNat % 2 ^ 28 = 0 :=
  and_lowMask_eq_zero_iff (len := 28) (by decide)

theorem and_cMask_eq_zero_iff (w : Word) : w &&& 0x0001FFFF#32 = 0 ↔ w.toNat % 2 ^ 17 = 0 :=
  and_lowMask_eq_zero_iff (len := 17) (by decide)

theorem and_tMask_eq_zero_iff (w : Word) : w &&& 0x00FE0000#32 = 0 ↔ w.toNat / 2 ^ 17 % 2 ^ 7 = 0 :=
  and_fieldMask_eq_zero_iff (lo := 17) (len := 7) (by decide)

theorem and_iMask_eq_zero_iff (w : Word) : w &&& 0x00FFFFFF#32 = 0 ↔ w.toNat % 2 ^ 24 = 0 :=
  and_lowMask_eq_zero_iff (len := 24) (by decide)

theorem and_aMask_eq_zero_iff (w : Word) :
    w &&& 0x0CFFFFFF#32 = 0 ↔ w.toNat / 2 ^ 26 % 4 = 0 ∧ w.toNat % 2 ^ 24 = 0 := by
  have hsplit : 0x0CFFFFFF#32 = fieldMask 26 2 ||| 0x00FFFFFF#32 := by decide
  rw [hsplit, and_or_eq_iff (by decide) (by decide), and_fieldMask_eq_zero_iff (by decide), and_iMask_eq_zero_iff,
    show 2 ^ 2 = 4 from rfl]

/-! ## The accepted words (R112 to R122) -/

/-- The accepted words, operation by operation: the `OP`, the must-be-zero bits, the bound of `IDX` or of `AXIS`. -/
theorem exists_decode_eq_ok_iff (n : Nat) (w : Word) :
    (∃ i, decode n w = .ok i) ↔
      (w.toNat / 2 ^ 28 = 1 ∧ w &&& 0x0001FFFF#32 = 0 ∧ w.toNat / 2 ^ 24 % 16 < n) ∨
      (w.toNat / 2 ^ 28 = 2 ∧ w &&& 0x0FFFFFFF#32 = 0) ∨
      (w.toNat / 2 ^ 28 = 3 ∧ w &&& 0x00FE0000#32 = 0 ∧ w.toNat / 2 ^ 24 % 16 < n) ∨
      (w.toNat / 2 ^ 28 = 4 ∧ w &&& 0x0FFFFFFF#32 = 0) ∨
      (w.toNat / 2 ^ 28 = 5 ∧ w &&& 0x00FFFFFF#32 = 0 ∧ w.toNat / 2 ^ 24 % 16 < n) ∨
      (w.toNat / 2 ^ 28 = 6 ∧ w &&& 0x0FFFFFFF#32 = 0) ∨
      (w.toNat / 2 ^ 28 = 7 ∧ w &&& 0x0FFFFFFF#32 = 0) ∨
      (w.toNat / 2 ^ 28 = 8 ∧ w &&& 0x0CFFFFFF#32 = 0 ∧ w.toNat / 2 ^ 24 % 4 ≠ 3) ∨
      (w.toNat / 2 ^ 28 = 9 ∧ w &&& 0x0CFFFFFF#32 = 0 ∧ w.toNat / 2 ^ 24 % 4 ≠ 3) := by
  simp only [and_cMask_eq_zero_iff, and_zMask_eq_zero_iff, and_tMask_eq_zero_iff, and_iMask_eq_zero_iff,
    and_aMask_eq_zero_iff]
  constructor
  · rintro ⟨i, h⟩
    obtain ⟨hs, hwf⟩ := spells_of_decode h
    cases i with
    | cfg idx timer ch m =>
      obtain ⟨hop, hz, rfl, -⟩ := hs
      simp [-Nat.reducePow, hop, hz, (wellFormed_iff_of_motorIdx rfl).1 hwf]
    | tx idx value tr =>
      obtain ⟨hop, hz, rfl, -⟩ := hs
      simp [-Nat.reducePow, hop, hz, (wellFormed_iff_of_motorIdx rfl).1 hwf]
    | gett idx =>
      obtain ⟨hop, hz, rfl⟩ := hs
      simp [-Nat.reducePow, hop, hz, (wellFormed_iff_of_motorIdx rfl).1 hwf]
    | beginUpdate | go | rpminit | rpmupd =>
      obtain ⟨hop, hz⟩ := hs
      simp [-Nat.reducePow, hop, hz]
    | fgyro axis | fdterm axis =>
      obtain ⟨hop, hz, hz', haxis⟩ := hs
      simp [-Nat.reducePow, hop, hz, hz', haxis, axis.isLt.ne]
  · rintro (⟨hop, hz, hidx⟩ | ⟨hop, hz⟩ | ⟨hop, hz, hidx⟩ | ⟨hop, hz⟩ | ⟨hop, hz, hidx⟩ | ⟨hop, hz⟩ | ⟨hop, hz⟩ |
      ⟨hop, ⟨hz, hz'⟩, haxis⟩ | ⟨hop, ⟨hz, hz'⟩, haxis⟩)
    · exact ⟨.cfg (idxField w) (timerField w) (chField w) (nField w),
        decode_of_spells ⟨hop, hz, rfl, rfl, rfl, rfl⟩ ((wellFormed_iff_of_motorIdx rfl).2 hidx)⟩
    · exact ⟨.beginUpdate, decode_of_spells ⟨hop, hz⟩ rfl⟩
    · exact ⟨.tx (idxField w) (valueField w) (trField w),
        decode_of_spells ⟨hop, hz, rfl, rfl, rfl⟩ ((wellFormed_iff_of_motorIdx rfl).2 hidx)⟩
    · exact ⟨.go, decode_of_spells ⟨hop, hz⟩ rfl⟩
    · exact ⟨.gett (idxField w), decode_of_spells ⟨hop, hz, rfl⟩ ((wellFormed_iff_of_motorIdx rfl).2 hidx)⟩
    · exact ⟨.rpminit, decode_of_spells ⟨hop, hz⟩ rfl⟩
    · exact ⟨.rpmupd, decode_of_spells ⟨hop, hz⟩ rfl⟩
    · exact ⟨.fgyro ⟨w.toNat / 2 ^ 24 % 4, by omega⟩, decode_of_spells ⟨hop, hz, hz', rfl⟩ rfl⟩
    · exact ⟨.fdterm ⟨w.toNat / 2 ^ 24 % 4, by omega⟩, decode_of_spells ⟨hop, hz, hz', rfl⟩ rfl⟩

/-- A match of `OP` with all other bits zero (format Z). -/
theorem eq_opWord_iff {w : Word} {k : Nat} (hk : k < 16) :
    w = BitVec.ofNat 32 (k * 2 ^ 28) ↔ w.toNat / 2 ^ 28 = k ∧ w &&& 0x0FFFFFFF#32 = 0 := by
  rw [and_zMask_eq_zero_iff, ← BitVec.toNat_inj, BitVec.toNat_ofNat, Nat.mod_eq_of_lt (by omega)]
  omega

/-- Settles O3: each match is the `OP` and the must-be-zero bits of its format. -/
theorem acceptedWordsAreTheTable : Obligations.AcceptedWordsAreTheTable := by
  intro n w
  have hcfg : w &&& 0xF001FFFF#32 = 0x10000000#32 ↔ w.toNat / 2 ^ 28 = 1 ∧ w &&& 0x0001FFFF#32 = 0 :=
    and_opMask_eq_iff (z := 0x0001FFFF#32) (k := 1) (by decide) (by decide) (by decide)
  have hbegin : w = 0x20000000#32 ↔ w.toNat / 2 ^ 28 = 2 ∧ w &&& 0x0FFFFFFF#32 = 0 := eq_opWord_iff (k := 2) (by decide)
  have htx : w &&& 0xF0FE0000#32 = 0x30000000#32 ↔ w.toNat / 2 ^ 28 = 3 ∧ w &&& 0x00FE0000#32 = 0 :=
    and_opMask_eq_iff (z := 0x00FE0000#32) (k := 3) (by decide) (by decide) (by decide)
  have hgo : w = 0x40000000#32 ↔ w.toNat / 2 ^ 28 = 4 ∧ w &&& 0x0FFFFFFF#32 = 0 := eq_opWord_iff (k := 4) (by decide)
  have hgett : w &&& 0xF0FFFFFF#32 = 0x50000000#32 ↔ w.toNat / 2 ^ 28 = 5 ∧ w &&& 0x00FFFFFF#32 = 0 :=
    and_opMask_eq_iff (z := 0x00FFFFFF#32) (k := 5) (by decide) (by decide) (by decide)
  have hinit : w = 0x60000000#32 ↔ w.toNat / 2 ^ 28 = 6 ∧ w &&& 0x0FFFFFFF#32 = 0 := eq_opWord_iff (k := 6) (by decide)
  have hupd : w = 0x70000000#32 ↔ w.toNat / 2 ^ 28 = 7 ∧ w &&& 0x0FFFFFFF#32 = 0 := eq_opWord_iff (k := 7) (by decide)
  have hgyro : w &&& 0xFCFFFFFF#32 = 0x80000000#32 ↔ w.toNat / 2 ^ 28 = 8 ∧ w &&& 0x0CFFFFFF#32 = 0 :=
    and_opMask_eq_iff (z := 0x0CFFFFFF#32) (k := 8) (by decide) (by decide) (by decide)
  have hdterm : w &&& 0xFCFFFFFF#32 = 0x90000000#32 ↔ w.toNat / 2 ^ 28 = 9 ∧ w &&& 0x0CFFFFFF#32 = 0 :=
    and_opMask_eq_iff (z := 0x0CFFFFFF#32) (k := 9) (by decide) (by decide) (by decide)
  rw [exists_decode_eq_ok_iff, hcfg, hbegin, htx, hgo, hgett, hinit, hupd, hgyro, hdterm]
  simp only [and_assoc]

/-- The reserved words (R122), by `OP`, the must-be-zero bits of the format, `AXIS` and `IDX`. -/
def IsReserved (n : Nat) (w : Word) : Prop :=
  (w.toNat / 2 ^ 28 = 0 ∨ 10 ≤ w.toNat / 2 ^ 28) ∨
  (w.toNat / 2 ^ 28 ∈ [2, 4, 6, 7] ∧ w &&& 0x0FFFFFFF#32 ≠ 0) ∨
  (w.toNat / 2 ^ 28 = 1 ∧ w &&& 0x0001FFFF#32 ≠ 0) ∨
  (w.toNat / 2 ^ 28 = 3 ∧ w &&& 0x00FE0000#32 ≠ 0) ∨
  (w.toNat / 2 ^ 28 = 5 ∧ w &&& 0x00FFFFFF#32 ≠ 0) ∨
  (w.toNat / 2 ^ 28 ∈ [8, 9] ∧ (w &&& 0x0CFFFFFF#32 ≠ 0 ∨ w.toNat / 2 ^ 24 % 4 = 3)) ∨
  (w.toNat / 2 ^ 28 ∈ [1, 3, 5] ∧ n ≤ w.toNat / 2 ^ 24 % 16)

/-- Each clause of R122 contradicts what its operation's row asks of an accepted word. -/
theorem IsReserved.decode_ne_ok {n : Nat} {w : Word} (hreserved : IsReserved n w) (i : Instr) : decode n w ≠ .ok i := by
  intro h
  obtain ⟨hop, hz, hidx⟩ | ⟨hop, hz⟩ | ⟨hop, hz, hidx⟩ | ⟨hop, hz⟩ | ⟨hop, hz, hidx⟩ | ⟨hop, hz⟩ |
    ⟨hop, hz⟩ | ⟨hop, hz, haxis⟩ | ⟨hop, hz, haxis⟩ := (exists_decode_eq_ok_iff n w).1 ⟨i, h⟩
  all_goals simp [-Nat.reducePow, IsReserved, *] at hreserved
  all_goals exact absurd hreserved hidx.not_ge

end Sys2Proof

namespace Sys2Proof.Machine

/-! ## A reserved word at the head of the schedule (R122) -/

theorem issue_of_not_decode {k : Instr → State → Host.Outcome State Fault Refusal} {w : Word} {x : Num} {s : State}
    (hm : s.micro = []) (hd : ∀ i, decode s.cfg.nMotorsMax w ≠ .ok i) :
    issue k w x s = .next (markRefused .reservedWord s) := by
  cases h : decode s.cfg.nMotorsMax w with
  | ok i => exact absurd h (hd i)
  | error e => simp [issue, hm, h]

/-- Settles O4: a reserved word selects no operation, so issuing it, whole or action by action, only marks the refusal. -/
theorem reservedWordIsRefused : Obligations.ReservedWordIsRefused := by
  intro s w x rest hl hm hmoves hreserved
  have hissue : ∀ k, issue k w x { s with moves := rest } = .next (markRefused .reservedWord { s with moves := rest }) :=
    fun k => issue_of_not_decode hm (IsReserved.decode_ne_ok hreserved)
  obtain hop | hstart := hmoves
  · exact (step_of_moves_cons hl hop).trans (hissue _)
  · exact (step_of_moves_cons hl hstart).trans (hissue fun i t => .next (startOp i t))

/-! ## CYCLE (R126, R330) -/

theorem length_cycleTxs (k : Nat) (vs : List (BitVec 16)) : (cycleTxs k vs).length = vs.length := by
  induction vs generalizing k with
  | nil => rfl
  | cons v vs ih => simp [cycleTxs, ih]

theorem getElem?_cycleTxs (k j : Nat) (vs : List (BitVec 16)) :
    (cycleTxs k vs)[j]? = vs[j]?.map fun v => .tx (Fin.ofNat 16 (k + j)) v false := by
  induction vs generalizing k j with
  | nil => rfl
  | cons v vs ih =>
    cases j with
    | zero => rfl
    | succ j => simp [cycleTxs, ih, Nat.add_assoc, Nat.add_comm 1 j]

/-- No operation of a CYCLE may stand anywhere in a cycle, so the protocol sees them all. -/
theorem filter_expandCycle (vs : List (BitVec 16)) :
    (expandCycle vs).filter (fun i => !freeInCycle i) = expandCycle vs := by
  have htxs : ∀ k, ∀ i ∈ cycleTxs k vs, freeInCycle i = false := by
    induction vs with
    | nil => simp [cycleTxs]
    | cons v vs ih => simpa [cycleTxs, freeInCycle] using fun k => ih (k + 1)
  rw [List.filter_eq_self]
  simp only [expandCycle, List.mem_cons, List.mem_append, Bool.not_eq_true']
  rintro i (rfl | hi | rfl | rfl | hi)
  · rfl
  · exact htxs 0 i hi
  · rfl
  · rfl
  · cases hi

theorem leadingTxs_cycleTxs (k : Nat) (vs : List (BitVec 16)) :
    leadingTxs (cycleTxs k vs ++ [.go, .rpmupd]) = ((List.range' k vs.length).map (Fin.ofNat 16), [.go, .rpmupd]) := by
  induction vs generalizing k with
  | nil => rfl
  | cons v vs ih => simp [cycleTxs, leadingTxs, ih, List.range'_succ]

/-- The motor table has 16 entries, so the motors of up to 16 values are distinct. -/
theorem nodup_map_ofNat_range' {n : Nat} (hn : n ≤ 16) : ((List.range' 0 n).map (Fin.ofNat 16)).Nodup := by
  refine List.Nodup.map_on ?_ List.nodup_range'
  intro a ha b hb hab
  simp only [List.mem_range'_1, Fin.ext_iff, Fin.val_ofNat] at ha hb hab
  omega

theorem isCycle_expandCycle {vs : List (BitVec 16)} (hvs : vs.length ≤ 16) : IsCycle (expandCycle vs) := by
  rw [IsCycle, filter_expandCycle, expandCycle]
  simp only [leadingTxs_cycleTxs]
  exact ⟨nodup_map_ofNat_range' hvs, trivial⟩

/-- Settles O6: the `TX`s stand after BEGIN at their motors' positions, and GO and RPMUPD follow them. -/
theorem cycleExpandsToOneControlCycle : Obligations.CycleExpandsToOneControlCycle := by
  intro vs hvs
  have hlen := length_cycleTxs 0 vs
  refine ⟨by simp [expandCycle, hlen], rfl, fun k v hv => ?_, ?_, ?_, isCycle_expandCycle hvs⟩
  · have hk := (List.getElem?_eq_some_iff.1 hv).1
    rw [expandCycle, List.getElem?_cons_succ, List.getElem?_append_left (hlen ▸ hk), getElem?_cycleTxs, hv]
    simp
  · simp [expandCycle, hlen]
  · simp [expandCycle, hlen]

/-! ## The checksum fold (R103, R104) -/

theorem fold_eq_nibbles (w : BitVec 16) :
    fold w = w.extractLsb' 12 4 ^^^ w.extractLsb' 8 4 ^^^ w.extractLsb' 4 4 ^^^ w.extractLsb' 0 4 := by
  ext k hk
  simp only [fold, BitVec.getElem_extractLsb', BitVec.getElem_xor, BitVec.getLsbD_xor, BitVec.getLsbD_ushiftRight,
    Nat.zero_add, ← Nat.add_assoc, Nat.reduceAdd]
  simp only [Bool.xor_comm, Bool.xor_left_comm, Bool.xor_assoc]

theorem fold_append (p : BitVec 12) (c : BitVec 4) : fold (p ++ c) = csum p ^^^ c := by
  have hbit : ∀ j, (p ++ c : BitVec 16).getLsbD j = if j < 4 then c.getLsbD j else p.getLsbD (j - 4) :=
    fun j => BitVec.getLsbD_append
  rw [fold_eq_nibbles, csum]
  ext k hk
  simp only [BitVec.getElem_xor, BitVec.getElem_extractLsb', hbit, Nat.zero_add, BitVec.getLsbD_eq_getElem hk]
  rw [if_neg (by omega), if_neg (by omega), if_neg (by omega), if_pos hk, show 12 + k - 4 = 8 + k by omega,
    show 8 + k - 4 = 4 + k by omega, show 4 + k - 4 = k by omega]

/-- Settles O56: the fold of a payload with a nibble is the payload's checksum with that nibble. -/
theorem foldIsTheNibbleSum : Obligations.FoldIsTheNibbleSum := by
  refine ⟨fold_eq_nibbles, fun p c => ?_⟩
  rw [fold_append]
  exact BitVec.xor_eq_zero_iff.trans eq_comm

/-! ## Sample words (R125, V1) -/

/-- Settles O5: each word is its operation's own. -/
theorem sampleWordsDecode : Obligations.SampleWordsDecode := by
  refine ⟨?_, ?_, ?_, ?_, ?_, ?_, ?_, ?_, ?_, ?_⟩ <;> exact decode_eq_ok_iff.2 (by decide)

end Sys2Proof.Machine

/-! Proofs of the channel-driver family (40_channel_driver.md): CFG, BEGIN, TX and GO in full, the frame of a packet, what a
pending CFG may still bind, and the atomic actions of an operation taken in a row. -/

namespace Sys2Proof.Machine

/-! ## Frames (R134) -/

/-- Settles O17: `length_expand`, with an output buffer of at least one element. -/
theorem framesFitTheOutputBuffer : Obligations.FramesFitTheOutputBuffer := by
  intro cfg packet hlegal
  obtain ⟨-, -, -, -, -, -, -, -, -, hroom, -⟩ := hlegal
  rw [length_expand]
  omega

/-! ## GETT (R150) -/

/-- Settles O22: the answer goes to the response port and nowhere else. -/
theorem gettInFull : Obligations.GettInFull := fun _ _ => rfl

/-! ## CFG (R131, R132) -/

section Cfg

variable {idx : MotorIdx} {timer : TimerId} {ch : HwChannel} {n : Bool} {s : State}

/-- The group table of `s` once `timer` has a group (R132). -/
def groupsWith (timer : TimerId) (s : State) : List Group :=
  if ∃ g ∈ s.grp, g.timer = timer then s.grp else s.grp ++ [Group.fresh timer]

theorem findOrInsertGroup_eq_none (hnew : ∀ g ∈ s.grp, g.timer ≠ timer) (hfull : s.grp.length = s.cfg.nTimersMax) :
    findOrInsertGroup timer s = none :=
  findOrInsertGroup_none.2 ⟨findGroup_eq_none.2 hnew, hfull⟩

theorem findOrInsertGroup_eq_some (hroom : ¬ ((∀ g ∈ s.grp, g.timer ≠ timer) ∧ s.grp.length = s.cfg.nTimersMax)) :
    findOrInsertGroup timer s = some { s with grp := groupsWith timer s } := by
  cases h : findOrInsertGroup timer s with
  | none => exact (hroom ((findOrInsertGroup_none.1 h).imp_left findGroup_eq_none.1)).elim
  | some t =>
    obtain ⟨-, ⟨hfound, rfl⟩ | ⟨hnew, -, rfl⟩⟩ := findOrInsertGroup_some h
    · have hmem : ∃ g ∈ t.grp, g.timer = timer := by simpa [findGroup_eq_none] using hfound
      rw [groupsWith, if_pos hmem]
    · have hmem : ¬ ∃ g ∈ s.grp, g.timer = timer := by simpa using findGroup_eq_none.1 hnew
      rw [groupsWith, if_neg hmem]

theorem execCfg_of_refusal {r : RefuseMark} (h : cfgRefusal idx timer ch s = some r) :
    execCfg idx timer ch n s = .next (markRefused r s) := by
  rw [execCfg, h]

theorem execCfg_of_full (h : cfgRefusal idx timer ch s = none) (hfull : findOrInsertGroup timer s = none) :
    execCfg idx timer ch n s = .next (markRefused .cfgTimerTableFull s) := by
  rw [execCfg, h]
  dsimp only
  rw [hfull]

theorem execCfg_of_accepted (h : cfgRefusal idx timer ch s = none) {t : State} (ht : findOrInsertGroup timer s = some t) :
    execCfg idx timer ch n s = .next (cfgFinish idx (cfgBind idx timer ch n t)) := by
  rw [execCfg, h]
  dsimp only
  rw [ht]

/-- C3 and C4 together write one entry of the table (R131). -/
theorem cfgFinish_cfgBind (s : State) :
    cfgFinish idx (cfgBind idx timer ch n s) =
      s.setCh idx
        { s.ch idx with
          timer := timer, ch := ch, outputN := n, chanMode := .outputCompare, dmaDir := .toTimer, isInput := false,
          outEn := false, configured := true } :=
  modCh_modCh s idx _ _

end Cfg

/-- Settles O10: the branches of the statement are the tests of C1 and of C2, in order. -/
theorem cfgInFull : Obligations.CfgInFull := by
  intro idx timer ch n s
  change execCfg idx timer ch n s = _
  by_cases hindex : s.cfg.motorCount ≤ idx.val ∨ s.cfg.chPerTimer ≤ ch.val
  · rw [if_pos hindex, execCfg_of_refusal (if_pos hindex)]
  by_cases htwice : (s.ch idx).configured = true
  · have hrefused : cfgRefusal idx timer ch s = some .cfgTwice := (if_neg hindex).trans (if_pos htwice)
    rw [if_neg hindex, if_pos htwice, execCfg_of_refusal hrefused]
  by_cases htaken : ∃ j, j ≠ idx ∧ (s.ch j).configured = true ∧ (s.ch j).timer = timer ∧ (s.ch j).ch = ch
  · have hrefused : cfgRefusal idx timer ch s = some .cfgDuplicateBinding :=
      (if_neg hindex).trans ((if_neg htwice).trans (if_pos ((bindingTaken_iff ..).2 htaken)))
    rw [if_neg hindex, if_neg htwice, if_pos htaken, execCfg_of_refusal hrefused]
  have haccepted : cfgRefusal idx timer ch s = none :=
    (if_neg hindex).trans ((if_neg htwice).trans (if_neg (htaken ∘ (bindingTaken_iff ..).1)))
  rw [if_neg hindex, if_neg htwice, if_neg htaken]
  by_cases hfull : (∀ g ∈ s.grp, g.timer ≠ timer) ∧ s.grp.length = s.cfg.nTimersMax
  · rw [if_pos hfull, execCfg_of_full haccepted (findOrInsertGroup_eq_none hfull.1 hfull.2)]
  · rw [if_neg hfull, execCfg_of_accepted haccepted (findOrInsertGroup_eq_some hfull), cfgFinish_cfgBind]
    rfl

/-- Settles O11: on a fresh channel no test of CFG refuses, and `cfgInFull` gives the state that is left. -/
theorem cfgBindsAFreshChannel : Obligations.CfgBindsAFreshChannel := by
  intro idx timer ch n s hidx hch hfresh hfree hroom
  have hindex : ¬ (s.cfg.motorCount ≤ idx.val ∨ s.cfg.chPerTimer ≤ ch.val) := by omega
  have htwice : ¬ (s.ch idx).configured = true := by simp [hfresh]
  have htaken : ¬ ∃ j, j ≠ idx ∧ (s.ch j).configured = true ∧ (s.ch j).timer = timer ∧ (s.ch j).ch = ch :=
    fun ⟨j, hne, hconf, hbound⟩ => hfree j hne hconf hbound
  have hfull : ¬ ((∀ g ∈ s.grp, g.timer ≠ timer) ∧ s.grp.length = s.cfg.nTimersMax) := fun ⟨hnew, hlen⟩ =>
    hroom.elim (fun ⟨g, hg, htimer⟩ => hnew g hg htimer) fun hlt => hlt.ne hlen
  have hexec := cfgInFull idx timer ch n s
  rw [if_neg hindex, if_neg htwice, if_neg htaken, if_neg hfull] at hexec
  have hgroup : timer ∈ (groupsWith timer s).map Group.timer := by
    unfold groupsWith
    split
    · next hmem => exact List.mem_map.2 hmem
    · simp [Group.fresh]
  refine ⟨_, hexec, ?_⟩
  simp only [groupOf, findGroup_ne_none_iff, State.ch, vget_set_self]
  exact ⟨trivial, trivial, trivial, trivial, hgroup, trivial, trivial, trivial,
    fun j hne => ch_setCh_ne s _ hne, trivial, trivial⟩

/-! ## BEGIN in full (R136 to R139) -/

/-! ### What BEGIN makes of one channel

Where its capture was written, a channel's own fields and the configuration say all that B1 to B5 do with it. -/

/-- The capture that BEGIN would decode of the channel is written, if there is one (R72, R136). -/
def Chan.CaptureWritten (cfg : Cfg) (c : Chan) : Prop :=
  c.configured = true → c.hasTelemetry = true → Memory.lacks c.inBuf (inLen cfg) = false

/-- What the capture decodes to (R136, R151). -/
def Chan.decoded (cfg : Cfg) (c : Chan) : Telemetry :=
  decodeCapture cfg ((List.range (inLen cfg)).map fun k => (Memory.read c.inBuf k).getD 0)

/-- The speed that B3 leaves where there was `old`: a valid result replaces it (R137). -/
def Telemetry.speedOr (r : Telemetry) (old : BitVec 16) : BitVec 16 :=
  match r with
  | .valid p => p.setWidth 16
  | .invalid => old

/-- BEGIN decodes the channel's capture (R136). -/
def Chan.consumes (c : Chan) : Bool := c.configured && c.hasTelemetry

/-- BEGIN returns the channel to output (R138). -/
def Chan.switches (cfg : Cfg) (c : Chan) : Bool := c.configured && switchWanted cfg c c.hasTelemetry

/-- The channel after B2 to B4 (R136, R137). -/
def Chan.consumed (cfg : Cfg) (c : Chan) : Chan :=
  if c.consumes then { c with telemetryValue := (c.decoded cfg).speedOr c.telemetryValue, hasTelemetry := false } else c

/-- The channel after `SetDirectionOutput` (R138). -/
def Chan.toOutput (c : Chan) : Chan :=
  { c with
    dmaArmed := false, reqEn := false, chanMode := .outputCompare, dmaDir := .toTimer, outEn := false, isInput := false }

/-- The channel after B1 to B5 (R136). -/
def Chan.begun (cfg : Cfg) (c : Chan) : Chan := if c.switches cfg then (c.consumed cfg).toOutput else c.consumed cfg

/-- B3 counts a failure (R137). -/
def Chan.failsToDecode (cfg : Cfg) (c : Chan) : Bool := c.consumes && decide (c.decoded cfg = .invalid)

/-- What B3 and B5 log (R136, R138). -/
def Chan.beginEvents (cfg : Cfg) (i : MotorIdx) (c : Chan) : List Event :=
  (if c.consumes then [.decoded i (c.decoded cfg)] else []) ++ if c.switches cfg then [.dirToOutput i] else []

/-- The count after `n` failures more, in `W_CNT` bits (R41, R137). -/
def countFailures (cfg : Cfg) (count n : Nat) : Nat := if n = 0 then count else (count + n) % 2 ^ cfg.wCnt

/-- `t` is `s` with the channels `is` taken by the first loop of BEGIN. -/
structure BegunOver (is : List MotorIdx) (s t : State) : Prop where
  frame : t = { s with chan := t.chan, invalidCount := t.invalidCount, dbgValue := t.dbgValue, log := t.log }
  ch : ∀ j, t.ch j = if j ∈ is then (s.ch j).begun s.cfg else s.ch j
  dbgValue : ∀ j, t.dbgValue.get j =
    if j ∈ is ∧ (s.ch j).consumes = true then ((s.ch j).decoded s.cfg).speedOr (s.dbgValue.get j) else s.dbgValue.get j
  invalidCount : t.invalidCount = countFailures s.cfg s.invalidCount (is.countP fun i => (s.ch i).failsToDecode s.cfg)
  log : t.log = s.log ++ is.flatMap fun i => (s.ch i).beginEvents s.cfg i

section Begin

variable {s t : State} {i : MotorIdx}

theorem recordDecoded_speed (i j : MotorIdx) (r : Telemetry) (s : State) :
    (recordDecoded i r s).ch j =
      if j = i then { s.ch i with telemetryValue := r.speedOr (s.ch i).telemetryValue } else s.ch j :=
  recordDecoded_ch i j r s

theorem recordDecoded_dbgSpeed (i j : MotorIdx) (r : Telemetry) (s : State) :
    (recordDecoded i r s).dbgValue.get j = if j = i then r.speedOr (s.dbgValue.get i) else s.dbgValue.get j :=
  recordDecoded_dbgValue i j r s

theorem decodeCapture_of_written (hlacks : captureLacks s i = false) :
    decodeCapture s.cfg (capture s i) = (s.ch i).decoded s.cfg := by
  rw [capture_of_lacks_eq_false hlacks, Chan.decoded]

/-- B2 to B4 where they are taken. -/
theorem consumeCapture_of_written (hlacks : captureLacks s i = false) :
    consumeCapture i s = clearTelemetry i (recordDecoded i ((s.ch i).decoded s.cfg) s) := by
  rw [consumeCapture, noteCapture_of_lacks_eq_false hlacks, decodeCapture_of_written hlacks]

theorem beginChannel_of_unconfigured (hc : (s.ch i).configured = false) : beginChannel i s = s := by
  simp [beginChannel, hc]

theorem beginChannel_of_unflagged (hc : (s.ch i).configured = true) (hf : (s.ch i).hasTelemetry = false) :
    beginChannel i s = switchIfWanted i false s := by
  simp [beginChannel, hc, hf]

theorem beginChannel_of_flagged (hc : (s.ch i).configured = true) (hf : (s.ch i).hasTelemetry = true)
    (hlacks : captureLacks s i = false) :
    beginChannel i s = switchIfWanted i true (clearTelemetry i (recordDecoded i ((s.ch i).decoded s.cfg) s)) := by
  simp [beginChannel, hc, hf, consumeCapture_of_written hlacks]

theorem begunOver_of_unconfigured (hc : (s.ch i).configured = false) : BegunOver [i] s s where
  frame := rfl
  ch j := by
    split
    · next hj => cases List.mem_singleton.1 hj; simp [Chan.begun, Chan.switches, Chan.consumed, Chan.consumes, hc]
    · rfl
  dbgValue j := by
    split
    · next hj =>
      cases List.mem_singleton.1 hj.1
      simp [Chan.consumes, hc] at hj
    · rfl
  invalidCount := by simp [Chan.failsToDecode, Chan.consumes, hc, countFailures]
  log := by simp [Chan.beginEvents, Chan.consumes, Chan.switches, hc]

theorem begunOver_of_unflagged (hc : (s.ch i).configured = true) (hf : (s.ch i).hasTelemetry = false) :
    BegunOver [i] s (switchIfWanted i false s) := by
  have hconsumes : (s.ch i).consumes = false := by simp [Chan.consumes, hf]
  have hswitches : (s.ch i).switches s.cfg = switchWanted s.cfg (s.ch i) false := by simp [Chan.switches, hc, hf]
  refine ⟨?_, fun j => ?_, fun j => ?_, ?_, ?_⟩
  · apply State.ext_fields <;> simp
  · rw [switchIfWanted_ch]
    by_cases hj : j = i
    · subst hj
      simp [Chan.begun, Chan.consumed, hconsumes, hswitches, Chan.toOutput]
    · simp [hj]
  · rw [switchIfWanted_dbgValue, if_neg]
    rintro ⟨hj, hcj⟩
    rw [List.mem_singleton.1 hj, hconsumes] at hcj
    cases hcj
  · simp [Chan.failsToDecode, hconsumes, countFailures]
  · simp [switchIfWanted_log, Chan.beginEvents, hconsumes, hswitches]

theorem begunOver_of_flagged (hc : (s.ch i).configured = true) (hf : (s.ch i).hasTelemetry = true) :
    BegunOver [i] s (switchIfWanted i true (clearTelemetry i (recordDecoded i ((s.ch i).decoded s.cfg) s))) := by
  have hconsumes : (s.ch i).consumes = true := by simp [Chan.consumes, hc, hf]
  have hswitches : (s.ch i).switches s.cfg = switchWanted s.cfg (s.ch i) true := by simp [Chan.switches, hc, hf]
  obtain ⟨u, hu⟩ : ∃ u, u = clearTelemetry i (recordDecoded i ((s.ch i).decoded s.cfg) s) := ⟨_, rfl⟩
  have hcfg : u.cfg = s.cfg := by simp [hu]
  have hch : ∀ j, u.ch j = if j = i then (s.ch i).consumed s.cfg else s.ch j := fun j => by
    by_cases hj : j = i
    · subst hj
      simp [hu, clearTelemetry_ch, recordDecoded_speed, Chan.consumed, hconsumes]
    · simp [hu, clearTelemetry_ch, recordDecoded_speed, hj]
  have hwanted : switchWanted u.cfg (u.ch i) true = (s.ch i).switches s.cfg := by
    rw [hch, if_pos rfl, hcfg, hswitches, Chan.consumed, hconsumes]
    rfl
  rw [← hu]
  refine ⟨?_, fun j => ?_, fun j => ?_, ?_, ?_⟩
  · apply State.ext_fields <;> simp [hu]
  · rw [switchIfWanted_ch, hwanted]
    by_cases hj : j = i
    · subst hj
      simp [Chan.begun, hch, Chan.toOutput]
    · simp [hj, hch]
  · rw [switchIfWanted_dbgValue, hu, clearTelemetry_dbgValue, recordDecoded_dbgSpeed]
    by_cases hj : j = i
    · subst hj
      simp [hconsumes]
    · simp [hj]
  · rw [switchIfWanted_invalidCount, hu, clearTelemetry_invalidCount, recordDecoded_invalidCount]
    cases hr : (s.ch i).decoded s.cfg <;> simp [Chan.failsToDecode, hconsumes, hr, countFailures]
  · rw [switchIfWanted_log, hwanted, hu, clearTelemetry_log, recordDecoded_log]
    simp [Chan.beginEvents, hconsumes]

/-- B1 to B5 of one channel whose capture was written. -/
theorem begunOver_beginChannel (hw : (s.ch i).CaptureWritten s.cfg) : BegunOver [i] s (beginChannel i s) := by
  cases hc : (s.ch i).configured with
  | false => rw [beginChannel_of_unconfigured hc]; exact begunOver_of_unconfigured hc
  | true =>
    cases hf : (s.ch i).hasTelemetry with
    | false => rw [beginChannel_of_unflagged hc hf]; exact begunOver_of_unflagged hc hf
    | true => rw [beginChannel_of_flagged hc hf (hw hc hf)]; exact begunOver_of_flagged hc hf

theorem countFailures_countFailures (cfg : Cfg) (count m n : Nat) :
    countFailures cfg (countFailures cfg count m) n = countFailures cfg count (m + n) := by
  unfold countFailures
  split
  · next hn => simp [hn]
  · next hn =>
    split
    · next hm => simp [hm, hn]
    · rw [if_neg (by omega), Nat.mod_add_mod, Nat.add_assoc]

/-- The first loop of BEGIN, over channels whose captures were written. -/
theorem begunOver_beginChannels {is : List MotorIdx} (hn : is.Nodup) (hw : ∀ i ∈ is, (s.ch i).CaptureWritten s.cfg) :
    BegunOver is s (beginChannels is s) := by
  induction is generalizing s with
  | nil => exact ⟨rfl, fun j => by simp [beginChannels], fun j => by simp [beginChannels], rfl, by simp [beginChannels]⟩
  | cons i is ih =>
    obtain ⟨hi, hn⟩ := List.nodup_cons.1 hn
    have hone := begunOver_beginChannel (hw i List.mem_cons_self)
    have hcfg : (beginChannel i s).cfg = s.cfg := beginChannel_cfg i s
    have hother : ∀ j ∈ is, (beginChannel i s).ch j = s.ch j := fun j hj =>
      beginChannel_ch_ne (ne_of_mem_of_not_mem hj hi) s
    have hrest := ih hn (s := beginChannel i s) fun j hj => by
      rw [hother j hj, hcfg]
      exact hw j (List.mem_cons_of_mem i hj)
    have hcount : (is.countP fun j => ((beginChannel i s).ch j).failsToDecode s.cfg) =
        is.countP fun j => (s.ch j).failsToDecode s.cfg := List.countP_congr fun j hj => by rw [hother j hj]
    have hevents : (is.flatMap fun j => ((beginChannel i s).ch j).beginEvents s.cfg j) =
        is.flatMap fun j => (s.ch j).beginEvents s.cfg j := List.flatMap_congr fun j hj => by rw [hother j hj]
    rw [beginChannels_cons]
    refine ⟨?_, fun j => ?_, fun j => ?_, ?_, ?_⟩
    · refine hrest.frame.trans ?_
      rw [hone.frame]
    · rw [hrest.ch, hcfg]
      by_cases hj : j ∈ is
      · simp [hj, hother j hj]
      · rw [if_neg hj, hone.ch]
        simp [hj]
    · rw [hrest.dbgValue, hcfg]
      by_cases hj : j ∈ is
      · have hji : j ≠ i := ne_of_mem_of_not_mem hj hi
        have hkept : (beginChannel i s).dbgValue.get j = s.dbgValue.get j := by rw [hone.dbgValue]; simp [hji]
        simp [hj, hother j hj, hkept]
      · rw [if_neg (fun h => hj h.1), hone.dbgValue]
        simp [hj]
    · rw [hrest.invalidCount, hone.invalidCount, hcfg, hcount, countFailures_countFailures, List.countP_singleton,
        List.countP_cons, Nat.add_comm]
    · rw [hrest.log, hone.log, hcfg, hevents, List.flatMap_singleton, List.flatMap_cons, List.append_assoc]

end Begin

/-! ### BEGIN as a whole -/

section Begin

variable {s : State}

theorem enableOutputs_cons (i : MotorIdx) (is : List MotorIdx) (s : State) :
    enableOutputs (i :: is) s = enableOutputs is (enableOutput i s) := rfl

/-- The second loop of BEGIN writes one field of the configured channels (R139). -/
theorem enableOutputs_ch (is : List MotorIdx) (s : State) (j : MotorIdx) :
    (enableOutputs is s).ch j =
      if j ∈ is ∧ (s.ch j).configured = true then { s.ch j with outEn := true } else s.ch j := by
  induction is generalizing s with
  | nil => simp [enableOutputs]
  | cons i is ih =>
    rw [enableOutputs_cons, ih, enableOutput_ch]
    by_cases hj : j = i
    · subst hj
      by_cases hconf : (s.ch j).configured = true <;> simp [hconf]
    · simp [hj]

theorem enableOutputs_frame (is : List MotorIdx) (s : State) :
    enableOutputs is s = { s with chan := (enableOutputs is s).chan } :=
  List.foldlRecOn (motive := fun u : State => u = { s with chan := u.chan }) is _ rfl fun u hu i _ => by
    have hone : enableOutput i u = { u with chan := (enableOutput i u).chan } := by
      apply State.ext_fields <;> simp
    refine hone.trans ?_
    rw [hu]

/-- The captures that BEGIN would decode are written (R72, R136). -/
def CapturesWritten (s : State) : Prop :=
  ∀ i, s.cfg.telemetryEnabled = true → i ∈ motorsOf s.cfg → (s.ch i).CaptureWritten s.cfg

/-- The channels that the first loop of BEGIN takes: none with telemetry disabled (R136). -/
def telemetryMotors (cfg : Cfg) : List MotorIdx := if cfg.telemetryEnabled then motorsOf cfg else []

theorem begunOver_beginTelemetry (hw : CapturesWritten s) : BegunOver (telemetryMotors s.cfg) s (beginTelemetry s) := by
  unfold beginTelemetry telemetryMotors
  split
  · next htel => exact begunOver_beginChannels (nodup_motorsOf s.cfg) fun i hi => hw i htel hi
  · exact begunOver_beginChannels (is := []) List.nodup_nil fun _ hi => (List.not_mem_nil hi).elim

theorem mem_telemetryMotors {cfg : Cfg} {i : MotorIdx} :
    i ∈ telemetryMotors cfg ↔ cfg.telemetryEnabled = true ∧ i.val < cfg.motorCount := by
  unfold telemetryMotors
  split <;> simp [mem_motorsOf, *]

theorem countP_telemetryMotors (cfg : Cfg) (p : MotorIdx → Bool) :
    (telemetryMotors cfg).countP p =
      (List.finRange 16).countP fun i => p i && decide (i.val < cfg.motorCount) && cfg.telemetryEnabled := by
  unfold telemetryMotors motorsOf
  split <;> simp [List.countP_filter, *]

theorem flatMap_filter_eq {α β : Type} (as : List α) (p : α → Bool) (f : α → List β) :
    (as.filter p).flatMap f = as.flatMap fun a => if p a then f a else [] := by
  induction as with
  | nil => rfl
  | cons a as ih =>
    rw [List.filter_cons, List.flatMap_cons, ← ih]
    split <;> rfl

theorem flatMap_telemetryMotors {α : Type} (cfg : Cfg) (f : MotorIdx → List α) :
    (telemetryMotors cfg).flatMap f =
      (List.finRange 16).flatMap fun i => if cfg.telemetryEnabled && decide (i.val < cfg.motorCount) then f i else [] := by
  unfold telemetryMotors motorsOf
  split
  · next htel => simp [flatMap_filter_eq, htel]
  · next htel => simp [htel]

@[simp] theorem Chan.begun_configured (cfg : Cfg) (c : Chan) : (c.begun cfg).configured = c.configured := by
  unfold Chan.begun Chan.consumed
  split <;> split <;> rfl

theorem Chan.begun_of_unconfigured {cfg : Cfg} {c : Chan} (hc : c.configured = false) : c.begun cfg = c := by
  simp [Chan.begun, Chan.switches, Chan.consumed, Chan.consumes, hc]

theorem Chan.consumed_of_configured {cfg : Cfg} {c : Chan} (hc : c.configured = true) :
    c.consumed cfg =
      { c with
        telemetryValue := if c.hasTelemetry then (c.decoded cfg).speedOr c.telemetryValue else c.telemetryValue
        hasTelemetry := false } := by
  have hconsumes : c.consumes = c.hasTelemetry := by simp [Chan.consumes, hc]
  rw [Chan.consumed, hconsumes]
  split
  · rfl
  · next hf =>
    obtain ⟨⟩ := c
    simpa using hf

/-- The fields of a configured channel after B1 to B5, one by one. -/
theorem Chan.begun_of_configured {cfg : Cfg} {c : Chan} (hc : c.configured = true) :
    c.begun cfg =
      { c with
        telemetryValue := if c.hasTelemetry then (c.decoded cfg).speedOr c.telemetryValue else c.telemetryValue
        hasTelemetry := false
        dmaArmed := c.dmaArmed && !switchWanted cfg c c.hasTelemetry
        reqEn := c.reqEn && !switchWanted cfg c c.hasTelemetry
        chanMode := if switchWanted cfg c c.hasTelemetry then .outputCompare else c.chanMode
        dmaDir := if switchWanted cfg c c.hasTelemetry then .toTimer else c.dmaDir
        outEn := c.outEn && !switchWanted cfg c c.hasTelemetry
        isInput := c.isInput && !switchWanted cfg c c.hasTelemetry } := by
  have hswitches : c.switches cfg = switchWanted cfg c c.hasTelemetry := by simp [Chan.switches, hc]
  rw [Chan.begun, Chan.consumed_of_configured hc, hswitches]
  cases switchWanted cfg c c.hasTelemetry <;> simp [Chan.toOutput]

theorem beginOutcome_frame (hw : CapturesWritten s) :
    beginOutcome s =
      { s with
        chan := (beginOutcome s).chan
        invalidCount := (beginTelemetry s).invalidCount
        dbgValue := (beginTelemetry s).dbgValue
        log := (beginTelemetry s).log } := by
  have hfirst := (begunOver_beginTelemetry hw).frame
  exact (enableOutputs_frame _ _).trans (congrArg (fun u => { u with chan := (beginOutcome s).chan }) hfirst)

theorem beginOutcome_ch (hw : CapturesWritten s) (j : MotorIdx) :
    (beginOutcome s).ch j =
      if j.val < s.cfg.motorCount ∧ (s.ch j).configured = true then
        { (if s.cfg.telemetryEnabled then (s.ch j).begun s.cfg else s.ch j) with outEn := true }
      else s.ch j := by
  rw [beginOutcome, enableOutputs_ch, (begunOver_beginTelemetry hw).ch]
  simp only [mem_motorsOf, mem_telemetryMotors]
  by_cases hj : j.val < s.cfg.motorCount
  · by_cases hconf : (s.ch j).configured = true
    · split <;> simp_all
    · rw [Chan.begun_of_unconfigured (by simpa using hconf)]
      simp [hconf]
  · simp [hj]

end Begin

/-- Settles O13: `beginOutcome_ch` and `BegunOver` give the fields that BEGIN writes, `beginOutcome_frame` that there are no
others. -/
theorem beginInFull : Obligations.BeginInFull := by
  intro s hwritten used flagged result failed switched speed
  have hw : CapturesWritten s := fun i htel hi hconf hf => by
    rw [← Bool.not_eq_true, Memory.lacks_iff]
    rintro ⟨k, hk, hnone⟩
    exact hwritten i htel (mem_motorsOf.1 hi) hconf hf k hk hnone
  have hbegun := begunOver_beginTelemetry hw
  -- the statement's own functions, in the terms of the lemmas
  have hused : ∀ i, used i = (decide (i.val < s.cfg.motorCount) && (s.ch i).configured) := fun _ => rfl
  have hflagged : ∀ i, flagged i = (s.cfg.telemetryEnabled && (s.ch i).hasTelemetry) := fun _ => rfl
  have hresult : ∀ i, result i = (s.ch i).decoded s.cfg := fun _ => rfl
  have hswitched : ∀ i, switched i = (s.cfg.telemetryEnabled && switchWanted s.cfg (s.ch i) (s.ch i).hasTelemetry) :=
    fun _ => rfl
  have hspeed : ∀ i old, speed i old = if flagged i = true then ((s.ch i).decoded s.cfg).speedOr old else old :=
    fun _ _ => rfl
  have hfailed : failed = (telemetryMotors s.cfg).countP fun i => (s.ch i).failsToDecode s.cfg := by
    rw [countP_telemetryMotors]
    refine List.countP_congr fun i _ => ?_
    simp only [hused, hflagged, hresult, Chan.failsToDecode, Chan.consumes, Bool.and_eq_true]
    tauto
  clear_value speed switched failed result flagged used
  rw [exec_beginUpdate]
  refine congrArg Host.Outcome.next ((beginOutcome_frame hw).trans ?_)
  congr 1
  · refine vext fun j => (beginOutcome_ch hw j).trans ?_
    rw [vget_ofFn]
    simp only [hused, hflagged, hswitched, hspeed, Bool.and_eq_true, decide_eq_true_eq]
    split
    · next hj =>
      cases s.cfg.telemetryEnabled with
      | false => simp
      | true => simp [Chan.begun_of_configured hj.2]
    · rfl
  · rw [hbegun.invalidCount, ← hfailed, countFailures]
  · refine vext fun j => (hbegun.dbgValue j).trans ?_
    rw [vget_ofFn]
    simp only [hused, hflagged, hspeed, mem_telemetryMotors, Chan.consumes, Bool.and_eq_true, decide_eq_true_eq,
      ← ite_and]
    exact if_congr (by tauto) rfl rfl
  · rw [hbegun.log, flatMap_telemetryMotors]
    congr 1
    refine List.flatMap_congr fun i _ => ?_
    simp only [hused, hflagged, hswitched, hresult, Chan.beginEvents, Chan.consumes, Chan.switches]
    cases s.cfg.telemetryEnabled with
    | false => simp
    | true => by_cases hconf : (s.ch i).configured = true <;> simp [hconf]

/-! ## TX in full (R140 to R143) -/

section TxInFull

variable {idx : MotorIdx} {s : State}

theorem Chan.busy_iff (c : Chan) : c.busy = true ↔ c.isInput = true ∨ c.reqEn = true ∨ c.tcFlag = true := by
  simp [Chan.busy, or_assoc]

theorem execTx_of_unconfigured (hc : (s.ch idx).configured = false) (value : BitVec 16) (tr : Bool) :
    execTx idx value tr s = .next s :=
  if_pos hc

theorem execTx_of_busy (hc : (s.ch idx).configured ≠ false) (hbusy : s.busy idx = true) (value : BitVec 16) (tr : Bool) :
    execTx idx value tr s = .next (markFault (.overrun idx) s) :=
  (if_neg hc).trans (if_pos hbusy)

theorem execTx_of_not_busy (hc : (s.ch idx).configured ≠ false) (hidle : ¬ s.busy idx = true) (value : BitVec 16)
    (tr : Bool) : execTx idx value tr s = .next (txLoad idx value tr s) :=
  (if_neg hc).trans (if_neg hidle)

/-- T2 to T7 write the channels and the groups and nothing else (R141, R142). -/
theorem txLoad_frame (value : BitVec 16) (tr : Bool) :
    txLoad idx value tr s = { s with chan := (txLoad idx value tr s).chan, grp := (txLoad idx value tr s).grp } := by
  apply State.ext_fields <;> simp [txLoad]

end TxInFull

/-- Settles O15: `txLoad_ch` and `txLoad_grp` say what T2 to T7 write, `txLoad_frame` that they write nothing else. -/
theorem txInFull : Obligations.TxInFull := by
  intro idx value tr s hb hgroup v ask frame
  change execTx idx value tr s = _
  by_cases hc : (s.ch idx).configured = false
  · rw [if_pos hc, execTx_of_unconfigured hc]
  have hbusy : s.busy idx = true ↔ (s.ch idx).isInput = true ∨ (s.ch idx).reqEn = true ∨ (s.ch idx).tcFlag = true := by
    rw [busy_of_burst_eq_false hb, Chan.busy_iff]
  rw [if_neg hc]
  by_cases hset : (s.ch idx).isInput = true ∨ (s.ch idx).reqEn = true ∨ (s.ch idx).tcFlag = true
  · rw [if_pos hset, execTx_of_busy hc (hbusy.2 hset)]
  obtain ⟨g, hg⟩ := Option.ne_none_iff_exists'.1 (hgroup (by simpa using hc))
  have hchan : (txLoad idx value tr s).chan = (s.setCh idx _).chan :=
    chan_ext fun j => (txLoad_ch hb value tr j).trans (ch_setCh s idx j _).symm
  rw [if_neg hset, execTx_of_not_busy hc (hset ∘ hbusy.1), txLoad_frame, hchan, txLoad_grp hb hg, hg]
  rfl

/-! ### The burst variant (R142) -/

/-- The frame in the lane of hardware channel `c`, the group's transfer armed with its length, and the channel's bit in the
accumulated set (R39, R142). -/
def Group.loaded (c : HwChannel) (frame : List Duty) (gr : Group) : Group :=
  { gr with
    burstBuf := gr.burstBuf.set c.val (Memory.writeFrom (gr.burstBuf.get c) 0 frame) c.isLt
    dmaPos := 0, dmaCount := frame.length, dmaArmed := true
    timerDmaSources := gr.timerDmaSources ||| chanBit c }

section TxBurst

variable {idx : MotorIdx} {s : State} {g : Nat}

theorem groupOf_modGrp {f : Group → Group} (hf : ∀ gr, (f gr).timer = gr.timer) (k : Nat) (i : MotorIdx) :
    groupOf (s.modGrp k f) i = groupOf s i :=
  groupOf_congr (modGrp_timers s k f hf) rfl

theorem groupOf_modCh {f : Chan → Chan} (hf : ∀ c, (f c).timer = c.timer) (j i : MotorIdx) :
    groupOf (s.modCh j f) i = groupOf s i := by
  refine groupOf_congr rfl ?_
  rw [ch_modCh]
  split
  · next hi => rw [hf, hi]
  · rfl

theorem txFrame_of_burst (hb : s.cfg.burst = true) (hg : groupOf s idx = some g) (frame : List Duty) :
    txFrame idx frame s =
      (s.modGrp g fun gr =>
        { gr with
          burstBuf := gr.burstBuf.set (s.ch idx).ch.val (Memory.writeFrom (gr.burstBuf.get (s.ch idx).ch) 0 frame)
            (s.ch idx).ch.isLt }).modCh idx fun c => { c with outLen := frame.length } := by
  unfold txFrame txLane
  rw [if_pos hb, hg]

theorem txArm_of_burst (hb : s.cfg.burst = true) (hg : groupOf s idx = some g) (len : Nat) :
    txArm idx len s = s.modGrp g fun gr => { gr with dmaPos := 0, dmaCount := len, dmaArmed := true } := by
  unfold txArm
  rw [if_pos hb, hg]

/-- T5 to T7 write one field of the channel, and its group (R142). -/
theorem txSource_txArm_txFrame_of_burst (hb : s.cfg.burst = true) (hg : groupOf s idx = some g) (frame : List Duty) :
    txSource idx (txArm idx frame.length (txFrame idx frame s)) =
      (s.modCh idx fun c => { c with outLen := frame.length }).modGrp g (Group.loaded (s.ch idx).ch frame) := by
  have hframe := txFrame_of_burst hb hg frame
  have hgframe : groupOf (txFrame idx frame s) idx = some g := by
    simp [hframe, groupOf_modCh, groupOf_modGrp, hg]
  have harm := txArm_of_burst (by simpa using hb) hgframe frame.length
  have hgarm : groupOf (txArm idx frame.length (txFrame idx frame s)) idx = some g := by
    simp [harm, groupOf_modGrp, hgframe]
  have hch : ((txFrame idx frame s).ch idx).ch = (s.ch idx).ch := by rw [hframe, ch_modCh_self]; rfl
  rw [txSource_of_groupOf hgarm, harm, modGrp_ch, hch, hframe]
  simp only [State.modGrp, State.modCh, State.setCh, List.modify_modify_eq]
  rfl

/-- T2 to T4 write two fields of the channel (R141). -/
theorem txClearRequest_txCommand_txOperands (value : BitVec 16) (tr : Bool) :
    txClearRequest idx (txCommand idx (txOperands idx value tr s)) =
      s.modCh idx fun c => { c with value := (s.collab.cmdFor.get idx).getD value, requestTelemetry := false } := by
  unfold txCommand
  rw [show cmdFor (txOperands idx value tr s) idx = s.collab.cmdFor.get idx from rfl]
  cases s.collab.cmdFor.get idx with
  | none => exact modCh_modCh s idx _ _
  | some cv =>
    rw [txOperands, txClearRequest, modCh_modCh, modCh_modCh]
    rfl

/-- T2 to T7 in burst mode (R142). -/
theorem txLoad_of_burst (hb : s.cfg.burst = true) (hg : groupOf s idx = some g) (value : BitVec 16) (tr : Bool) :
    txLoad idx value tr s =
      (s.modCh idx fun c =>
        { c with
          value := (s.collab.cmdFor.get idx).getD value, requestTelemetry := false
          outLen := (txFrameOf idx value tr s).length }).modGrp g
        (Group.loaded (s.ch idx).ch (txFrameOf idx value tr s)) := by
  rw [txLoad_eq, txClearRequest_txCommand_txOperands,
    txSource_txArm_txFrame_of_burst (g := g) (by simpa using hb) (by simp [groupOf_modCh, hg]), modCh_modCh, ch_modCh_self]

theorem modify_of_getElem? {α : Type} {as : List α} {k : Nat} {a : α} (h : as[k]? = some a) (f : α → α) :
    as.modify k f = as.set k (f a) := by
  simp [List.modify_eq_set_getElem?, h]

end TxBurst

/-- Settles O18: on an idle channel T2 to T7 are one write of the channel and one of its group (`txLoad_of_burst`). -/
theorem txBurstInFull : Obligations.TxBurstInFull := by
  intro idx value tr s g gr hb hgroup v ask frame lane
  change execTx idx value tr s = _
  by_cases hc : (s.ch idx).configured = false
  · rw [if_pos hc, execTx_of_unconfigured hc]
  have hconf : (s.ch idx).configured = true := by simpa using hc
  obtain ⟨hg, hgr⟩ := hgroup hconf
  have hbusy : s.busy idx = true ↔
      (s.ch idx).isInput = true ∨ (s.ch idx).reqEn = true ∨ (s.ch idx).tcFlag = true ∨ gr.reqEn = true := by
    rw [busy_of_group hb hconf hg hgr, Bool.or_eq_true, Chan.busy_iff, or_assoc, or_assoc]
  rw [if_neg hc]
  by_cases hset : (s.ch idx).isInput = true ∨ (s.ch idx).reqEn = true ∨ (s.ch idx).tcFlag = true ∨ gr.reqEn = true
  · rw [if_pos hset, execTx_of_busy hc (hbusy.2 hset)]
  rw [if_neg hset, execTx_of_not_busy hc (hset ∘ hbusy.1), txLoad_of_burst hb hg, State.modGrp, modCh_grp,
    modify_of_getElem? hgr]
  rfl

/-! ## GO in full, both variants (R145 to R148) -/

/-- What GO leaves of a group: its counter reset, its set cleared, and in burst mode its request enabled where the set was not
empty (R147, R148). -/
def Group.afterGo (burst : Bool) (gr : Group) : Group :=
  { gr with counter := 0, timerDmaSources := 0, reqEn := gr.reqEn || (burst && decide (gr.timerDmaSources ≠ 0)) }

/-- `t` is `s` with the groups `gs` taken by GO; which channels that starts is said apart (`goGroups_ch`). -/
structure GoneOver (gs : List Nat) (s t : State) : Prop where
  frame : t = { s with chan := t.chan, grp := t.grp, log := t.log }
  grp : ∀ k, t.grp[k]? = if k ∈ gs then (s.grp[k]?).map (Group.afterGo s.cfg.burst) else s.grp[k]?
  log : t.log = s.log ++ gs.flatMap fun g => (s.grp[g]?).toList.flatMap Group.goEvents

section Go

variable {s : State}

/-- G2 writes the request of the group in burst mode and nothing of a group with per-channel DMA (R147, R148). -/
theorem goEnable_grp {g : Nat} {gr : Group} (hg : s.grp[g]? = some gr) :
    (goEnable g s).grp =
      s.grp.set g { gr with reqEn := gr.reqEn || (s.cfg.burst && decide (gr.timerDmaSources ≠ 0)) } := by
  unfold goEnable
  rw [hg]
  dsimp only
  split
  · next hb => rw [emit_grp, State.modGrp, modify_of_getElem? hg, hb, Bool.true_and]
  · next hb =>
    have hsame : s.grp = s.grp.set g gr := by
      obtain ⟨hlt, rfl⟩ := List.getElem?_eq_some_iff.1 hg
      exact (List.set_getElem_self hlt).symm
    simpa [hb] using hsame

theorem goEnable_log {g : Nat} {gr : Group} (hg : s.grp[g]? = some gr) :
    (goEnable g s).log = s.log ++ [.sourcesEnabled gr.timer gr.timerDmaSources] := by
  unfold goEnable
  rw [hg]
  dsimp only
  split <;> simp [emit]

theorem goEnable_chan_of_burst (hb : s.cfg.burst = true) (g : Nat) : (goEnable g s).chan = s.chan := by
  unfold goEnable
  split
  · simp [hb]
  · rfl

theorem goGroup_grp {g : Nat} {gr : Group} (hg : s.grp[g]? = some gr) :
    (goGroup g s).grp = s.grp.set g (gr.afterGo s.cfg.burst) := by
  have hreset : (goReset g s).grp = s.grp.set g { gr with counter := 0 } := by
    rw [goReset_of_getElem? hg, emit_grp, State.modGrp, modify_of_getElem? hg]
  have henable := goEnable_grp (goReset_getElem? hg)
  rw [hreset, List.set_set, goReset_cfg] at henable
  have hlt : g < s.grp.length := (List.getElem?_eq_some_iff.1 hg).1
  rw [goGroup, goClear, State.modGrp, henable, modify_of_getElem? (List.getElem?_set_self hlt), List.set_set]
  rfl

theorem goGroup_log_of_getElem? {g : Nat} {gr : Group} (hg : s.grp[g]? = some gr) :
    (goGroup g s).log = s.log ++ gr.goEvents := by
  rw [goGroup, goClear_log, goEnable_log (goReset_getElem? hg), goReset_of_getElem? hg]
  simp [emit, Group.goEvents]

theorem goneOver_goGroup (g : Nat) (s : State) : GoneOver [g] s (goGroup g s) where
  frame := by apply State.ext_fields <;> simp [goGroup]
  grp k := by
    cases hg : s.grp[g]? with
    | none =>
      rw [goGroup_of_none hg]
      split
      · next hk => rw [List.mem_singleton.1 hk, hg]; rfl
      · rfl
    | some gr =>
      rw [goGroup_grp hg, List.getElem?_set]
      by_cases hk : g = k
      · subst hk
        rw [hg]
        simp [(List.getElem?_eq_some_iff.1 hg).1]
      · rw [if_neg hk, if_neg (by simpa using Ne.symm hk)]
  log := by
    rw [List.flatMap_singleton]
    cases hg : s.grp[g]? with
    | none => rw [goGroup_of_none hg]; simp
    | some gr => rw [goGroup_log_of_getElem? hg]; simp

theorem GoneOver.cfg {gs : List Nat} {t : State} (h : GoneOver gs s t) : t.cfg = s.cfg := by rw [h.frame]

theorem goneOver_goGroups {gs : List Nat} (hn : gs.Nodup) (s : State) : GoneOver gs s (goGroups gs s) := by
  induction gs generalizing s with
  | nil => exact ⟨rfl, fun k => by simp [goGroups], by simp [goGroups]⟩
  | cons g gs ih =>
    obtain ⟨hg, hn⟩ := List.nodup_cons.1 hn
    have hone := goneOver_goGroup g s
    have hrest := ih hn (goGroup g s)
    rw [goGroups_cons]
    refine ⟨?_, fun k => ?_, ?_⟩
    · refine hrest.frame.trans ?_
      rw [hone.frame]
    · rw [hrest.grp, hone.grp, hone.cfg]
      by_cases hk : k = g
      · subst hk; simp [hg]
      · simp [hk]
    · have hothers : (gs.flatMap fun k => ((goGroup g s).grp[k]?).toList.flatMap Group.goEvents) =
          gs.flatMap fun k => (s.grp[k]?).toList.flatMap Group.goEvents :=
        List.flatMap_congr fun k hk => by
          rw [hone.grp, if_neg (by simpa using ne_of_mem_of_not_mem hk hg)]
      rw [hrest.log, hothers, hone.log, List.flatMap_singleton, List.flatMap_cons, List.append_assoc]

/-- GO takes every group of the table, in order (R147). -/
theorem goGroups_range_frame (s : State) :
    goGroups (List.range s.grp.length) s =
      { s with
        chan := (goGroups (List.range s.grp.length) s).chan
        grp := s.grp.map (Group.afterGo s.cfg.burst)
        log := s.log ++ s.grp.flatMap Group.goEvents } := by
  have hgone := goneOver_goGroups (gs := List.range s.grp.length) List.nodup_range s
  have hgrp : (goGroups (List.range s.grp.length) s).grp = s.grp.map (Group.afterGo s.cfg.burst) := by
    refine List.ext_getElem? fun k => ?_
    rw [hgone.grp, List.getElem?_map]
    split
    · rfl
    · next hk => rw [List.getElem?_eq_none (by simpa using hk)]; rfl
  have hlog := hgone.log
  rw [flatMap_range_getElem?] at hlog
  refine hgone.frame.trans ?_
  rw [hgrp, hlog]

theorem goGroups_chan_of_burst (hb : s.cfg.burst = true) (gs : List Nat) : (goGroups gs s).chan = s.chan := by
  induction gs generalizing s with
  | nil => rfl
  | cons g gs ih =>
    rw [goGroups_cons, ih (by simpa using hb), goGroup, goClear_chan, goEnable_chan_of_burst (by simpa using hb),
      goReset_chan]

theorem goSkipped_iff (s : State) :
    goSkipped s = true ↔ s.collab.cmdQueued = true ∧ s.collab.cmdOutputEnabled = false := by
  simp [goSkipped]

theorem execGo_of_skipped (h : goSkipped s = true) : execGo s = .next s := if_pos h

/-- With per-channel DMA the groups are left with their counters reset and their sets cleared (R147). -/
theorem Group.afterGo_false (gr : Group) : gr.afterGo false = { gr with counter := 0, timerDmaSources := 0 } := by
  simp [Group.afterGo]

/-- The enable calls of GO start a channel exactly where one group's does: its own group's (R147). -/
theorem any_startedBy_range (i : MotorIdx) :
    (List.range s.grp.length).any (startedBy s i) = true ↔
      (s.ch i).configured = true ∧
        ∃ g gr, groupOf s i = some g ∧ s.grp[g]? = some gr ∧ gr.timerDmaSources &&& chanBit (s.ch i).ch ≠ 0 := by
  simp only [List.any_eq_true, List.mem_range, startedBy, Option.any_eq_true, startsIn, Bool.and_eq_true,
    decide_eq_true_eq]
  constructor
  · rintro ⟨g, -, gr, hgr, ⟨hconf, hg⟩, hbit⟩
    exact ⟨hconf, g, gr, hg, hgr, hbit⟩
  · rintro ⟨hconf, g, gr, hg, hgr, hbit⟩
    exact ⟨g, (List.getElem?_eq_some_iff.1 hgr).1, gr, hgr, ⟨hconf, hg⟩, hbit⟩

end Go

/-- Settles O19: `goGroups_range_frame` gives the groups and the log, `goGroups_ch` and `any_startedBy_range` the channels. -/
theorem goInFull : Obligations.GoInFull := by
  intro s hb
  by_cases hskip : s.collab.cmdQueued = true ∧ s.collab.cmdOutputEnabled = false
  · rw [if_pos hskip]
    exact execGo_of_skipped ((goSkipped_iff s).2 hskip)
  rw [if_neg hskip]
  have hch := goGroups_ch hb (gs := List.range s.grp.length) List.nodup_range
  refine ⟨_, execGo_of_not_skipped (Bool.eq_false_iff.2 ((goSkipped_iff s).not.2 hskip)), ?_, fun i => ⟨?_, ?_⟩⟩
  · refine (goGroups_range_frame s).trans ?_
    rw [hb, funext Group.afterGo_false]
    rfl
  · rw [hch i]
  · rw [hch i, Bool.or_eq_true, any_startedBy_range]
    rfl

/-- Settles O20: in burst mode GO writes no channel, and the groups as `Group.afterGo` says. -/
theorem goBurstInFull : Obligations.GoBurstInFull := by
  intro s hb
  change execGo s = _
  by_cases hskip : s.collab.cmdQueued = true ∧ s.collab.cmdOutputEnabled = false
  · rw [if_pos hskip, execGo_of_skipped ((goSkipped_iff s).2 hskip)]
  · rw [if_neg hskip, execGo_of_not_skipped (Bool.eq_false_iff.2 ((goSkipped_iff s).not.2 hskip)), goGroups_range_frame,
      goGroups_chan_of_burst hb, hb]
    rfl

/-! ## What an operation taken whole leaves to MAIN (R80, R151) -/

/-- What MAIN still has to do, and the schedule. -/
def State.main (s : State) : List MainAct × List Move := (s.micro, s.moves)

section Main

variable {s t : State}

theorem execCfg_main {idx : MotorIdx} {timer : TimerId} {ch : HwChannel} {n : Bool} (h : execCfg idx timer ch n s = .next t) :
    t.main = s.main := by
  unfold execCfg at h
  split at h
  · cases h; rfl
  · split at h
    · cases h; rfl
    · next u hu =>
      cases h
      obtain ⟨-, ⟨-, rfl⟩ | ⟨-, -, rfl⟩⟩ := findOrInsertGroup_some hu <;> rfl

theorem beginChannel_main (i : MotorIdx) (s : State) : (beginChannel i s).main = s.main := by
  unfold beginChannel
  split
  · split <;> simp [State.main, consumeCapture]
  · rfl

theorem beginOutcome_main (s : State) : (beginOutcome s).main = s.main := by
  have hfirst : (beginTelemetry s).main = s.main := by
    unfold beginTelemetry
    split
    · exact List.foldlRecOn (motive := fun u : State => u.main = s.main) _ _ rfl fun u hu i _ =>
        (beginChannel_main i u).trans hu
    · rfl
  exact List.foldlRecOn (motive := fun u : State => u.main = s.main) _ _ hfirst fun u hu i _ => by simpa [State.main] using hu

theorem execTx_main {idx : MotorIdx} {value : BitVec 16} {tr : Bool} (h : execTx idx value tr s = .next t) :
    t.main = s.main := by
  unfold execTx at h
  split at h
  · cases h; rfl
  · split at h
    · cases h; rfl
    · cases h
      rw [txLoad_frame]
      rfl

theorem execGo_main (h : execGo s = .next t) : t.main = s.main := by
  unfold execGo at h
  split at h
  · cases h; rfl
  · cases h
    rw [goGroups_range_frame]
    rfl

theorem micro_of_core_eq (h : t.core = s.core) : t.micro = s.micro := by
  simp only [State.core, Prod.mk.injEq] at h
  obtain ⟨-, -, -, -, -, -, hmicro⟩ := h
  exact hmicro

/-- An operation taken whole leaves MAIN nothing more to do. -/
theorem exec_micro {i : Instr} (h : exec i s = .next t) : t.micro = s.micro := by
  cases i with
  | cfg idx timer ch n => exact congrArg Prod.fst (execCfg_main h)
  | beginUpdate => cases h; exact congrArg Prod.fst (beginOutcome_main s)
  | tx idx value tr => exact congrArg Prod.fst (execTx_main h)
  | go => exact congrArg Prod.fst (execGo_main h)
  | gett idx => exact micro_of_core_eq (execGett_core h)
  | rpminit => exact micro_of_core_eq (execRpminit_core h)
  | rpmupd => exact micro_of_core_eq (execRpmupd_core h)
  | fgyro axis => exact micro_of_core_eq (filterSample_core h)
  | fdterm axis => exact micro_of_core_eq (filterSample_core h)

end Main

/-! ## A pending CFG (R131) -/

/-- `t` has MAIN's pending actions and every `configured` as `s` has them. -/
structure SamePending (s t : State) : Prop where
  micro : t.micro = s.micro
  configured : ∀ i, (t.ch i).configured = (s.ch i).configured

/-- What MAIN is left with in `t` is what was waiting in `s`, with actions of no CFG put before it. -/
def AddsNoCfg (s t : State) : Prop := ∃ bs, t.micro = bs ++ s.micro ∧ ∀ b ∈ bs, b.ofCfg = false

section Pending

variable {s t : State}

theorem PendingCfgIsFresh.of_samePending (hs : PendingCfgIsFresh s) (h : SamePending s t) : PendingCfgIsFresh t := by
  rw [PendingCfgIsFresh, h.micro]
  refine hs.imp_right fun ⟨a, ha, hfresh⟩ => ⟨a, ha, fun idx hb => ?_⟩
  rw [h.configured idx, hfresh idx hb]

theorem pendingCfgIsFresh_of_micro_eq_nil (h : s.micro = []) : PendingCfgIsFresh s := .inl (by simp [h])

/-- CFG starts with C1, which binds nothing yet; every other operation starts with actions of its own. -/
theorem pendingCfgIsFresh_startOp (i : Instr) (s : State) : PendingCfgIsFresh (startOp i s) := by
  cases i with
  | cfg idx timer ch n => exact .inr ⟨.c1 idx timer ch n, rfl, fun _ hb => by cases hb⟩
  | beginUpdate =>
    refine .inl fun a ha => ?_
    obtain ha | ha := List.mem_append.1 ha
    · split at ha
      · obtain ⟨j, -, rfl⟩ := List.mem_map.1 ha; rfl
      · cases ha
    · obtain ⟨j, -, rfl⟩ := List.mem_map.1 ha; rfl
  | _ => exact .inl fun a ha => by cases List.mem_singleton.1 ha; rfl

/-! ### The other agents -/

theorem samePending_modCh (i : MotorIdx) {f : Chan → Chan} (hf : ∀ c, (f c).configured = c.configured) :
    SamePending s (s.modCh i f) where
  micro := rfl
  configured j := by
    rw [ch_modCh]
    split
    · next hj => rw [hf, hj]
    · rfl

theorem SamePending.trans {u : State} (h : SamePending s t) (h' : SamePending t u) : SamePending s u :=
  ⟨h'.micro.trans h.micro, fun i => (h'.configured i).trans (h.configured i)⟩

theorem samePending_handlerBody (i : MotorIdx) (tm : Timestamp) (s : State) : SamePending s (handlerBody i tm s) where
  micro := handlerBody_micro ..
  configured j := by
    rw [handlerBody_ch]
    split
    · next hj =>
      subst hj
      split
      · rfl
      · split <;> rfl
    · rfl

theorem samePending_runOutBeat {i : MotorIdx} (h : runOutBeat i s = .next t) : SamePending s t := by
  obtain ⟨-, -, rfl⟩ := runOutBeat_next h
  exact SamePending.trans ⟨by simp, by simp⟩ (samePending_modCh i fun _ => rfl)

theorem samePending_runInBeat {i : MotorIdx} {tm : Timestamp} (h : runInBeat i tm s = .next t) : SamePending s t := by
  obtain ⟨-, -, rfl⟩ := runInBeat_next h
  exact SamePending.trans ⟨by simp, by simp⟩ (samePending_modCh i fun _ => rfl)

theorem samePending_raiseTcOn (is : List MotorIdx) (s : State) : SamePending s (raiseTcOn is s) :=
  List.foldlRecOn (motive := SamePending s) is _ ⟨rfl, fun _ => rfl⟩ fun _ hu i _ =>
    hu.trans (samePending_modCh i fun _ => rfl)

theorem samePending_runGroupBeat {g : Nat} (h : runGroupBeat g s = .next t) : SamePending s t := by
  obtain ⟨gr, -, -, -, rfl⟩ := runGroupBeat_next h
  have hbeat : SamePending s ((groupDuties gr (groupMembers s g) s).modGrp g Group.afterBeat) := ⟨by simp, by simp⟩
  split
  · exact hbeat.trans (samePending_raiseTcOn _ _)
  · exact hbeat

/-! ### MAIN's next action -/

theorem addsNoCfg_of_micro_eq (h : t.micro = s.micro) : AddsNoCfg s t := ⟨[], h, fun _ hb => by cases hb⟩

theorem addsNoCfg_push {bs : List MainAct} (h : t.micro = s.micro) (hbs : ∀ b ∈ bs, b.ofCfg = false) :
    AddsNoCfg s (t.push bs) :=
  ⟨bs, congrArg (bs ++ ·) h, hbs⟩

theorem addsNoCfg_pushOne {b : MainAct} (h : t.micro = s.micro) (hb : b.ofCfg = false) : AddsNoCfg s (t.push [b]) :=
  addsNoCfg_push h fun _ hc => List.mem_singleton.1 hc ▸ hb

theorem ofCfg_of_mem_groupActs {g : Nat} {b : MainAct} (hb : b ∈ groupActs g) : b.ofCfg = false := by
  simp only [groupActs, List.mem_cons, List.not_mem_nil, or_false] at hb
  obtain rfl | rfl | rfl := hb <;> rfl

/-- An action of another operation leaves no action of CFG (R151). -/
theorem runAct_addsNoCfg {a : MainAct} (ha : a.ofCfg = false) (h : runAct a s = .next t) : AddsNoCfg s t := by
  cases a with
  | c1 | c2 | c3 | c4 => cases ha
  | b1 i =>
    simp only [runAct] at h
    split at h
    · cases h
      split
      · exact addsNoCfg_pushOne rfl rfl
      · exact addsNoCfg_pushOne rfl rfl
    · cases h; exact addsNoCfg_of_micro_eq rfl
  | b2 i => cases h; exact addsNoCfg_pushOne (noteCapture_micro i s) rfl
  | b3 i r => cases h; exact addsNoCfg_pushOne (recordDecoded_micro i r s) rfl
  | b4 i => cases h; exact addsNoCfg_pushOne rfl rfl
  | b5 i f => cases h; exact addsNoCfg_of_micro_eq (switchIfWanted_micro i f s)
  | b6 i => cases h; exact addsNoCfg_of_micro_eq (enableOutput_micro i s)
  | t0 idx value tr =>
    simp only [runAct] at h
    split at h
    · cases h; exact addsNoCfg_pushOne rfl rfl
    · cases h; exact addsNoCfg_of_micro_eq rfl
  | t1 idx value tr =>
    simp only [runAct] at h
    split at h
    · cases h; exact addsNoCfg_of_micro_eq rfl
    · cases h; exact addsNoCfg_pushOne rfl rfl
  | t2 idx value tr => cases h; exact addsNoCfg_pushOne rfl rfl
  | t3 idx => cases h; exact addsNoCfg_pushOne (txCommand_micro idx s) rfl
  | t4 idx => cases h; exact addsNoCfg_pushOne rfl rfl
  | t5 idx packet => cases h; exact addsNoCfg_pushOne (txFrame_micro idx _ s) rfl
  | t6 idx len => cases h; exact addsNoCfg_pushOne (txArm_micro idx len s) rfl
  | t7 idx => cases h; exact addsNoCfg_of_micro_eq (txSource_micro idx s)
  | g0 =>
    simp only [runAct] at h
    split at h
    · cases h; exact addsNoCfg_of_micro_eq rfl
    · cases h
      refine addsNoCfg_push rfl fun b hb => ?_
      obtain ⟨g, -, hb⟩ := List.mem_flatMap.1 hb
      exact ofCfg_of_mem_groupActs hb
  | g1 g => cases h; exact addsNoCfg_of_micro_eq (goReset_micro g s)
  | g2 g => cases h; exact addsNoCfg_of_micro_eq (goEnable_micro g s)
  | g3 g => cases h; exact addsNoCfg_of_micro_eq rfl
  | getT idx => exact addsNoCfg_of_micro_eq (micro_of_core_eq (execGett_core h))
  | rpmInit => exact addsNoCfg_of_micro_eq (micro_of_core_eq (execRpminit_core h))
  | rpmUpd => exact addsNoCfg_of_micro_eq (micro_of_core_eq (execRpmupd_core h))
  | filt b axis => exact addsNoCfg_of_micro_eq (micro_of_core_eq (filterSample_core h))

/-- An action of CFG leaves one action at most, which binds a channel that is not configured: C1 found it so, C2 and C3 leave
it so (R131). -/
theorem runAct_cfg {a : MainAct} (ha : a.ofCfg = true) (hfresh : ∀ idx, a.binds = some idx → (s.ch idx).configured = false)
    (h : runAct a s = .next t) :
    t.micro = s.micro ∨
      ∃ b, t.micro = b :: s.micro ∧ ∀ idx, b.binds = some idx → (t.ch idx).configured = false := by
  cases a with
  | c1 idx timer ch n =>
    simp only [runAct] at h
    split at h
    · cases h; exact .inl rfl
    · next haccepted =>
      cases h
      refine .inr ⟨_, rfl, fun j hj => ?_⟩
      cases hj
      exact unconfigured_of_cfgRefusal_eq_none haccepted
  | c2 idx timer ch n =>
    simp only [runAct] at h
    split at h
    · cases h; exact .inl rfl
    · next u hu =>
      cases h
      have hmicro : u.micro = s.micro := by
        obtain ⟨-, ⟨-, rfl⟩ | ⟨-, -, rfl⟩⟩ := findOrInsertGroup_some hu <;> rfl
      refine .inr ⟨_, congrArg (MainAct.c3 idx timer ch n :: ·) hmicro, fun j hj => ?_⟩
      rw [push_ch, findOrInsertGroup_ch hu]
      exact hfresh j hj
  | c3 idx timer ch n =>
    cases h
    refine .inr ⟨_, rfl, fun j hj => ?_⟩
    cases hj
    rw [push_ch, cfgBind_ch, if_pos rfl]
    exact hfresh idx rfl
  | c4 idx => cases h; exact .inl rfl
  | _ => cases ha

theorem pendingCfgIsFresh_runNextAct (hs : PendingCfgIsFresh s) (h : runNextAct s = .next t) : PendingCfgIsFresh t := by
  obtain ⟨a, rest, hmicro, hact⟩ := runNextAct_next h
  have hfresh : ∀ idx, a.binds = some idx → (s.ch idx).configured = false := fun idx hb => hs.head_binds_fresh hmicro hb
  cases ha : a.ofCfg with
  | false =>
    obtain ⟨bs, hleft, hbs⟩ := runAct_addsNoCfg ha hact
    have hrest : ∀ b ∈ rest, b.ofCfg = false := fun b hb => by
      obtain hno | ⟨c, hone, -⟩ := hs
      · exact hno b (hmicro ▸ List.mem_cons_of_mem a hb)
      · rw [hmicro, List.cons.injEq] at hone
        rw [hone.2] at hb
        cases hb
    refine .inl fun b hb => ?_
    rw [hleft] at hb
    exact (List.mem_append.1 hb).elim (hbs b) (hrest b)
  | true =>
    have hrest : rest = [] := by
      obtain hno | ⟨c, hone, -⟩ := hs
      · rw [hno a (by simp [hmicro])] at ha
        cases ha
      · rw [hmicro, List.cons.injEq] at hone
        exact hone.2
    subst hrest
    obtain hdone | ⟨b, hleft, hb⟩ := runAct_cfg (s := { s with micro := [] }) ha hfresh hact
    · exact pendingCfgIsFresh_of_micro_eq_nil hdone
    · exact .inr ⟨b, hleft, hb⟩

end Pending

/-- Settles O46: MAIN issues a word only when nothing is pending, an action of CFG leaves one that binds the same fresh
channel, and no other agent configures a channel. -/
theorem stepKeepsPendingCfgFresh : Obligations.StepKeepsPendingCfgFresh := by
  intro s t hs h
  obtain ⟨-, ⟨-, rfl⟩ | ⟨mv, rest, -, hmv⟩⟩ := step_next h
  · exact hs
  have hs' : PendingCfgIsFresh { s with moves := rest } := hs
  cases mv with
  | op w x =>
    obtain ⟨hmicro, ⟨i, -, hi⟩ | rfl⟩ := issue_next hmv
    · exact pendingCfgIsFresh_of_micro_eq_nil ((exec_micro hi).trans hmicro)
    · exact pendingCfgIsFresh_of_micro_eq_nil hmicro
  | start w x =>
    obtain ⟨hmicro, ⟨i, -, hi⟩ | rfl⟩ := issue_next (k := fun i u => .next (startOp i u)) hmv
    · cases hi; exact pendingCfgIsFresh_startOp i _
    · exact pendingCfgIsFresh_of_micro_eq_nil hmicro
  | act => exact pendingCfgIsFresh_runNextAct hs' hmv
  | handler i tm =>
    obtain ⟨-, rfl⟩ := runHandler_next hmv
    exact hs'.of_samePending (samePending_handlerBody i tm _)
  | outBeat i => exact hs'.of_samePending (samePending_runOutBeat hmv)
  | inBeat i tm => exact hs'.of_samePending (samePending_runInBeat hmv)
  | groupBeat g => exact hs'.of_samePending (samePending_runGroupBeat hmv)
  | collab c => cases hmv; exact hs'

/-! ## An operation action by action (R81, R151, R291) -/

/-- `s` with something else for MAIN to do and another schedule. -/
def State.withMain (s : State) (as : List MainAct) (ms : List Move) : State := { s with micro := as, moves := ms }

/-- MAIN takes the actions `as`, and what they leave it to do, from `s` to `t` with nothing between them, whatever it has to do
and whatever is scheduled after them. -/
structure Performs (s : State) (as : List MainAct) (t : State) : Prop where
  cfg : t.cfg = s.cfg
  run : launchRefusal s.cfg = none →
    ∃ n, ∀ rest ms,
      Host.Core.run core n (s.withMain (as ++ rest) (List.replicate n .act ++ ms)) = .next (t.withMain rest ms)

section Actions

variable {s t u : State} {rest : List MainAct} {ms : List Move}

/-! ### What MAIN has to do beside a state -/

@[simp] theorem withMain_cfg : (s.withMain rest ms).cfg = s.cfg := rfl
@[simp] theorem withMain_grp : (s.withMain rest ms).grp = s.grp := rfl
@[simp] theorem withMain_ch (i : MotorIdx) : (s.withMain rest ms).ch i = s.ch i := rfl
@[simp] theorem withMain_groupOf (i : MotorIdx) : groupOf (s.withMain rest ms) i = groupOf s i := rfl

theorem withMain_of_main_eq (h : s.main = (rest, ms)) : s.withMain rest ms = s := by
  obtain ⟨rfl, rfl⟩ := Prod.mk.inj h
  rfl

theorem findOrInsertGroup_withMain (timer : TimerId) :
    findOrInsertGroup timer (s.withMain rest ms) = (findOrInsertGroup timer s).map (·.withMain rest ms) := by
  unfold findOrInsertGroup
  rw [show findGroup (s.withMain rest ms) timer = findGroup s timer from rfl]
  split
  · rfl
  · rw [withMain_grp, withMain_cfg, apply_ite (Option.map _)]
    rfl

theorem noteCapture_withMain (i : MotorIdx) : noteCapture i (s.withMain rest ms) = (noteCapture i s).withMain rest ms := by
  rw [noteCapture, noteCapture, show captureLacks (s.withMain rest ms) i = captureLacks s i from rfl]
  cases captureLacks s i <;> rfl

theorem recordDecoded_withMain (i : MotorIdx) (r : Telemetry) :
    recordDecoded i r (s.withMain rest ms) = (recordDecoded i r s).withMain rest ms := by
  cases r <;> rfl

theorem switchIfWanted_withMain (i : MotorIdx) (f : Bool) :
    switchIfWanted i f (s.withMain rest ms) = (switchIfWanted i f s).withMain rest ms := by
  unfold switchIfWanted
  rw [withMain_cfg, withMain_ch]
  split <;> rfl

theorem enableOutput_withMain (i : MotorIdx) : enableOutput i (s.withMain rest ms) = (enableOutput i s).withMain rest ms := by
  unfold enableOutput
  rw [withMain_ch]
  split <;> rfl

theorem txCommand_withMain (i : MotorIdx) : txCommand i (s.withMain rest ms) = (txCommand i s).withMain rest ms := by
  unfold txCommand
  rw [show cmdFor (s.withMain rest ms) i = cmdFor s i from rfl]
  split <;> rfl

theorem txFrame_withMain (i : MotorIdx) (frame : List Duty) :
    txFrame i frame (s.withMain rest ms) = (txFrame i frame s).withMain rest ms := by
  unfold txFrame txLane
  rw [withMain_cfg, withMain_groupOf]
  split
  · split <;> rfl
  · rfl

theorem txArm_withMain (i : MotorIdx) (len : Nat) :
    txArm i len (s.withMain rest ms) = (txArm i len s).withMain rest ms := by
  unfold txArm
  rw [withMain_cfg, withMain_groupOf]
  split
  · split <;> rfl
  · rfl

theorem txSource_withMain (i : MotorIdx) : txSource i (s.withMain rest ms) = (txSource i s).withMain rest ms := by
  unfold txSource
  rw [withMain_groupOf]
  split <;> rfl

theorem goReset_withMain (g : Nat) : goReset g (s.withMain rest ms) = (goReset g s).withMain rest ms := by
  unfold goReset
  rw [withMain_grp]
  split <;> rfl

theorem goEnable_withMain (g : Nat) : goEnable g (s.withMain rest ms) = (goEnable g s).withMain rest ms := by
  unfold goEnable
  rw [withMain_grp, withMain_cfg]
  split
  · dsimp only
    split <;> rfl
  · rfl

/-! ### Actions in a row -/

theorem run_add {m n : Nat} {s : State} (h : Host.Core.run core m s = .next t) :
    Host.Core.run core (m + n) s = Host.Core.run core n t := by
  induction m generalizing s with
  | zero => rw [Nat.zero_add]; cases h; rfl
  | succ m ih =>
    rw [Nat.add_right_comm]
    simp only [Host.Core.run] at h ⊢
    split at h
    · exact ih h
    · cases h
    · cases h

theorem run_succ {n : Nat} (h : step s = .next t) : Host.Core.run core (n + 1) s = Host.Core.run core n t := by
  rw [Nat.add_comm]
  exact run_add (m := 1) (by simp only [Host.Core.run]; rw [show core.step s = .next t from h])

theorem runAct_cfg_eq {a : MainAct} (h : runAct a s = .next t) : t.cfg = s.cfg :=
  (runAct_changes h).keep (P := fun u => u.cfg = s.cfg) (fun _ _ hu hc => hc.cfg.trans hu) rfl

theorem Performs.nil : Performs s [] s where
  cfg := rfl
  run _ := ⟨0, fun _ _ => rfl⟩

theorem Performs.append {as bs : List MainAct} (h : Performs s as t) (h' : Performs t bs u) : Performs s (as ++ bs) u where
  cfg := h'.cfg.trans h.cfg
  run hl := by
    obtain ⟨m, hm⟩ := h.run hl
    obtain ⟨n, hn⟩ := h'.run (by rw [h.cfg]; exact hl)
    refine ⟨m + n, fun rest ms => ?_⟩
    rw [List.append_assoc, List.replicate_add, List.append_assoc]
    exact (run_add (hm _ _)).trans (hn rest ms)

/-- One action, and then what it leaves MAIN to do. -/
theorem Performs.act {a : MainAct} {bs : List MainAct} (h' : Performs t bs u)
    (h : ∀ rest ms, runAct a (s.withMain rest ms) = .next ((t.withMain rest ms).push bs)) : Performs s [a] u where
  cfg := h'.cfg.trans (runAct_cfg_eq (s := s.withMain [] []) (t := (t.withMain [] []).push bs) (h [] []))
  run hl := by
    have hcfg : t.cfg = s.cfg := runAct_cfg_eq (s := s.withMain [] []) (t := (t.withMain [] []).push bs) (h [] [])
    obtain ⟨n, hn⟩ := h'.run (hcfg ▸ hl)
    refine ⟨n + 1, fun rest ms => ?_⟩
    have hstep (later : List Move) :
        step (s.withMain (a :: rest) (.act :: later)) = .next (t.withMain (bs ++ rest) later) :=
      (step_of_moves_cons (s := s.withMain (a :: rest) (.act :: later)) hl rfl).trans (h rest later)
    exact (run_succ (hstep _)).trans (hn rest ms)

/-- An action that leaves MAIN nothing more to do. -/
theorem Performs.last {a : MainAct} (h : ∀ rest ms, runAct a (s.withMain rest ms) = .next (t.withMain rest ms)) :
    Performs s [a] t :=
  .act .nil h

/-- A loop of actions. -/
theorem Performs.foldl {α : Type} {f : State → α → State} {g : α → List MainAct}
    (h : ∀ s a, Performs s (g a) (f s a)) (as : List α) (s : State) : Performs s (as.flatMap g) (as.foldl f s) := by
  induction as generalizing s with
  | nil => exact .nil
  | cons a as ih => exact (h s a).append (ih (f s a))

/-! ### The operations of more than one action -/

/-- C1 to C4 (R131). -/
theorem performs_execCfg {idx : MotorIdx} {timer : TimerId} {ch : HwChannel} {n : Bool}
    (h : execCfg idx timer ch n s = .next t) : Performs s [.c1 idx timer ch n] t := by
  have hrefusal : ∀ rest ms, cfgRefusal idx timer ch (s.withMain rest ms) = cfgRefusal idx timer ch s := fun _ _ => rfl
  unfold execCfg at h
  split at h
  · next r hr =>
    cases h
    exact .last fun rest ms => by simp only [runAct, hrefusal, hr]; rfl
  · next hr =>
    have hc1 : ∀ rest ms, runAct (.c1 idx timer ch n) (s.withMain rest ms) =
        .next ((s.withMain rest ms).push [.c2 idx timer ch n]) := fun rest ms => by simp only [runAct, hrefusal, hr]
    split at h
    · next hfull =>
      cases h
      refine .act (.last fun rest ms => ?_) hc1
      simp only [runAct, findOrInsertGroup_withMain, hfull, Option.map_none]
      rfl
    · next u hu =>
      cases h
      have hc4 : Performs (cfgBind idx timer ch n u) [.c4 idx] (cfgFinish idx (cfgBind idx timer ch n u)) :=
        .last fun _ _ => rfl
      have hc3 : Performs u [.c3 idx timer ch n] (cfgFinish idx (cfgBind idx timer ch n u)) := hc4.act fun _ _ => rfl
      refine .act (hc3.act fun rest ms => ?_) hc1
      simp only [runAct, findOrInsertGroup_withMain, hu, Option.map_some]

/-- B1 to B5 of one channel (R136). -/
theorem performs_beginChannel (s : State) (i : MotorIdx) : Performs s [.b1 i] (beginChannel i s) := by
  have hb5 : ∀ u f, Performs u [.b5 i f] (switchIfWanted i f u) := fun u f =>
    .last fun _ _ => congrArg Host.Outcome.next (switchIfWanted_withMain i f)
  unfold beginChannel
  split
  · next hc =>
    split
    · next hf =>
      have hb4 : ∀ u, Performs u [.b4 i] (switchIfWanted i true (clearTelemetry i u)) := fun u =>
        (hb5 _ true).act fun _ _ => rfl
      have hb3 : ∀ u r, Performs u [.b3 i r] (switchIfWanted i true (clearTelemetry i (recordDecoded i r u))) := fun u r =>
        (hb4 _).act fun rest ms => by simp only [runAct, recordDecoded_withMain]
      have hb2 : Performs s [.b2 i] (switchIfWanted i true (consumeCapture i s)) :=
        (hb3 _ _).act fun rest ms => by simp only [runAct, noteCapture_withMain]; rfl
      exact hb2.act fun rest ms => by simp [runAct, hc, hf]
    · next hf => exact (hb5 s false).act fun rest ms => by simp [runAct, hc, hf]
  · next hc => exact .last fun rest ms => by simp [runAct, hc]

theorem performs_beginOutcome (s : State) : Performs s (firstActs .beginUpdate s) (beginOutcome s) := by
  have hb6 : ∀ u i, Performs u [.b6 i] (enableOutput i u) := fun u i =>
    .last fun _ _ => congrArg Host.Outcome.next (enableOutput_withMain i)
  have hfirst : Performs s (if s.cfg.telemetryEnabled then (motorsOf s.cfg).map .b1 else []) (beginTelemetry s) := by
    unfold beginTelemetry
    split
    · rw [List.map_eq_flatMap]
      exact Performs.foldl performs_beginChannel _ s
    · exact .nil
  refine hfirst.append ?_
  rw [List.map_eq_flatMap]
  exact Performs.foldl hb6 _ _

/-- T2 to T7 (R141, R142). -/
theorem performs_txLoad (idx : MotorIdx) (value : BitVec 16) (tr : Bool) (s : State) :
    Performs s [.t2 idx value tr] (txLoad idx value tr s) := by
  have ht7 : ∀ u, Performs u [.t7 idx] (txSource idx u) := fun u =>
    .last fun _ _ => congrArg Host.Outcome.next (txSource_withMain idx)
  have ht6 : ∀ u len, Performs u [.t6 idx len] (txSource idx (txArm idx len u)) := fun u len =>
    (ht7 _).act fun rest ms => by simp only [runAct, txArm_withMain]
  have ht5 : ∀ u packet, Performs u [.t5 idx packet] (txSource idx (txArm idx (expand u.cfg packet).length
      (txFrame idx (expand u.cfg packet) u))) := fun u packet =>
    (ht6 _ _).act fun rest ms => by simp only [runAct, txFrame_withMain, withMain_cfg]
  have ht4 : ∀ u, Performs u [.t4 idx] (txSource idx (txArm idx (expand u.cfg (txPacket idx u)).length
      (txFrame idx (expand u.cfg (txPacket idx u)) (txClearRequest idx u)))) := fun u =>
    (ht5 _ _).act fun _ _ => rfl
  have ht3 : Performs (txOperands idx value tr s) [.t3 idx] (txLoad idx value tr s) :=
    (ht4 (txCommand idx (txOperands idx value tr s))).act fun rest ms => by simp only [runAct, txCommand_withMain]
  exact ht3.act fun _ _ => rfl

/-- T0 to T7 (R141). -/
theorem performs_execTx {idx : MotorIdx} {value : BitVec 16} {tr : Bool} (h : execTx idx value tr s = .next t) :
    Performs s [.t0 idx value tr] t := by
  have hbusy : ∀ rest ms, (s.withMain rest ms).busy idx = s.busy idx := fun _ _ => rfl
  unfold execTx at h
  split at h
  · next hc => cases h; exact .last fun rest ms => by simp [runAct, hc]
  · next hc =>
    have ht0 : ∀ rest ms, runAct (.t0 idx value tr) (s.withMain rest ms) =
        .next ((s.withMain rest ms).push [.t1 idx value tr]) := fun rest ms => by simp [runAct, hc]
    split at h
    · next hb =>
      cases h
      exact .act (.last fun rest ms => by simp only [runAct, hbusy, hb]; rfl) ht0
    · next hb =>
      cases h
      exact .act ((performs_txLoad idx value tr s).act fun rest ms => by simp [runAct, hbusy, hb]) ht0

/-- G1 to G3 of one group (R147). -/
theorem performs_goGroup (s : State) (g : Nat) : Performs s (groupActs g) (goGroup g s) := by
  have hg1 : Performs s [.g1 g] (goReset g s) := .last fun _ _ => congrArg Host.Outcome.next (goReset_withMain g)
  have hg2 : ∀ u, Performs u [.g2 g] (goEnable g u) := fun u =>
    .last fun _ _ => congrArg Host.Outcome.next (goEnable_withMain g)
  have hg3 : ∀ u, Performs u [.g3 g] (goClear g u) := fun u => .last fun _ _ => rfl
  exact hg1.append ((hg2 _).append (hg3 _))

theorem performs_execGo (h : execGo s = .next t) : Performs s [.g0] t := by
  have hskipped : ∀ rest ms, goSkipped (s.withMain rest ms) = goSkipped s := fun _ _ => rfl
  unfold execGo at h
  split at h
  · next hs => cases h; exact .last fun rest ms => by simp [runAct, hskipped, hs]
  · next hs =>
    cases h
    exact (Performs.foldl performs_goGroup _ s).act fun rest ms => by simp [runAct, hskipped, hs]

/-! ### The whole operation -/

/-- The first step of an operation taken action by action (R81). -/
theorem step_start {w : Word} {x : Num} {i : Instr} {rest : List Move} (hl : launchRefusal s.cfg = none) (hm : s.micro = [])
    (hd : decode s.cfg.nMotorsMax w = .ok i) :
    step { s with moves := .start w x :: rest } = .next (({ s with opnd := x } : State).withMain (firstActs i s) rest) := by
  rw [step_of_moves_cons (s := { s with moves := .start w x :: rest }) hl rfl]
  refine (issue_of_decode (k := fun i u => .next (startOp i u)) (s := { s with moves := rest }) hm hd).trans ?_
  cases i <;> rfl

/-- An operation of one atomic action is over after it (R291). -/
theorem run_one_act {a : MainAct} (hl : launchRefusal s.cfg = none) (hm : s.main = ([], [])) :
    Host.Core.run core 1 (s.withMain [a] [.act]) = runAct a s := by
  have hstep : core.step (s.withMain [a] [.act]) = runAct a s := by
    refine (step_of_moves_cons (s := s.withMain [a] [.act]) hl rfl).trans ?_
    exact congrArg (runAct a) (withMain_of_main_eq hm)
  simp only [Host.Core.run, hstep]
  cases runAct a s <;> rfl

/-- From some number of actions on, an operation is over. -/
theorem exists_run_of_performs {as : List MainAct} (h : Performs s as t) (hl : launchRefusal s.cfg = none)
    (ht : t.main = ([], [])) : ∃ n, Host.Core.run core n (s.withMain as (List.replicate n .act)) = .next t := by
  obtain ⟨n, hn⟩ := h.run hl
  refine ⟨n, ?_⟩
  have hrun := hn [] []
  rwa [List.append_nil, List.append_nil, withMain_of_main_eq ht] at hrun

theorem exists_execCfg_next (idx : MotorIdx) (timer : TimerId) (ch : HwChannel) (n : Bool) (s : State) :
    ∃ t, execCfg idx timer ch n s = .next t := by
  unfold execCfg
  split
  · exact ⟨_, rfl⟩
  · split <;> exact ⟨_, rfl⟩

theorem exists_execTx_next (idx : MotorIdx) (value : BitVec 16) (tr : Bool) (s : State) :
    ∃ t, execTx idx value tr s = .next t := by
  unfold execTx
  split
  · exact ⟨_, rfl⟩
  · split <;> exact ⟨_, rfl⟩

theorem exists_execGo_next (s : State) : ∃ t, execGo s = .next t := by
  unfold execGo
  split <;> exact ⟨_, rfl⟩

/-- The actions of every operation make the operation (R151, R291). -/
theorem exists_run_firstActs (i : Instr) (hl : launchRefusal s.cfg = none) (hm : s.main = ([], [])) :
    ∃ n, Host.Core.run core n (s.withMain (firstActs i s) (List.replicate n .act)) = exec i s := by
  cases i with
  | cfg idx timer ch n =>
    obtain ⟨t, ht⟩ := exists_execCfg_next idx timer ch n s
    obtain ⟨k, hk⟩ := exists_run_of_performs (performs_execCfg ht) hl ((execCfg_main ht).trans hm)
    exact ⟨k, hk.trans ht.symm⟩
  | beginUpdate => exact exists_run_of_performs (performs_beginOutcome s) hl ((beginOutcome_main s).trans hm)
  | tx idx value tr =>
    obtain ⟨t, ht⟩ := exists_execTx_next idx value tr s
    obtain ⟨k, hk⟩ := exists_run_of_performs (performs_execTx ht) hl ((execTx_main ht).trans hm)
    exact ⟨k, hk.trans ht.symm⟩
  | go =>
    obtain ⟨t, ht⟩ := exists_execGo_next s
    obtain ⟨k, hk⟩ := exists_run_of_performs (performs_execGo ht) hl ((execGo_main ht).trans hm)
    exact ⟨k, hk.trans ht.symm⟩
  | gett idx => exact ⟨1, run_one_act hl hm⟩
  | rpminit => exact ⟨1, run_one_act hl hm⟩
  | rpmupd => exact ⟨1, run_one_act hl hm⟩
  | fgyro axis => exact ⟨1, run_one_act hl hm⟩
  | fdterm axis => exact ⟨1, run_one_act hl hm⟩

end Actions

/-- Settles O9: the first step puts the operation's actions before MAIN, and `exists_run_firstActs` takes them. -/
theorem atomicActionsComposeToTheOperation : Obligations.AtomicActionsComposeToTheOperation := by
  intro s w x i hl hm hd
  obtain ⟨n, hn⟩ := exists_run_firstActs (s := { s with moves := [], opnd := x }) i hl (congrArg (·, []) hm)
  refine ⟨n, (run_succ (step_start hl hm hd)).trans (Eq.trans ?_ hn)⟩
  cases i <;> rfl

end Sys2Proof.Machine

/-! Proofs of the decoders family (41_decoders.md): the bit rule and the signed pair difference, the word a capture spells
digit by digit, and the checksum test that ends both decoders. -/

namespace Sys2Proof.Machine

/-! ## The DSHOT bit rule and the pair difference (R173, R174) -/

theorem bitOf_eq_true_iff (d : Int) : bitOf d = true ↔ 11 ≤ d ∨ (-9 ≤ d ∧ d ≤ 0) := by
  simp only [bitOf, Bool.or_eq_true, decide_eq_true_eq]
  omega

theorem bitOf_eq_false_iff (d : Int) : bitOf d = false ↔ (1 ≤ d ∧ d ≤ 10) ∨ d ≤ -10 := by
  rw [← Bool.not_eq_true, bitOf_eq_true_iff]
  omega

/-- Settles O57: `bitOf_eq_true_iff` and `bitOf_eq_false_iff` give two of the ranges each. -/
theorem bitRuleRanges : Obligations.BitRuleRanges := fun d =>
  ⟨fun h => (bitOf_eq_true_iff d).2 (.inl h), fun h1 h10 => (bitOf_eq_false_iff d).2 (.inl ⟨h1, h10⟩),
    fun h9 h0 => (bitOf_eq_true_iff d).2 (.inr ⟨h9, h0⟩), fun h => (bitOf_eq_false_iff d).2 (.inr h)⟩

/-- Settles O58: `Int.bmod` takes the representative from `-2^(w-1)` to `2^(w-1) - 1`, as `2^w` is even. -/
theorem pairDifferenceIsSignedAndWraps : Obligations.PairDifferenceIsSignedAndWraps := by
  intro w stride t j hw a b d
  have heven : ((2 ^ w : Nat) : Int) = 2 * 2 ^ (w - 1) := by
    obtain ⟨k, rfl⟩ := Nat.exists_eq_add_of_le' hw
    rw [Nat.add_sub_cancel, pow_succ']
    push_cast
    rfl
  have hpos : 0 < 2 ^ w := Nat.two_pow_pos w
  refine ⟨?_, ?_, ?_, fun hlo hhi => Int.bmod_eq_of_le (by omega) (by omega)⟩
  · have hlt : d < _ := Int.bmod_lt hpos
    omega
  · have hle : _ ≤ d := Int.le_bmod hpos
    omega
  · exact_mod_cast Int.dvd_bmod_sub_self (x := b - a) (m := 2 ^ w)

/-! ## The word a capture spells, digit by digit (R172, R180) -/

/-- The 16-bit word of `n` digits of `m` bits each, the first in the highest place. -/
def digitWord (m n : Nat) (f : Nat → BitVec m) : BitVec 16 :=
  (List.range n).foldl (fun v j => (v <<< m) ||| (f j).setWidth 16) 0

theorem dshotWord_eq_digitWord (wTs stride : Nat) (t : List Timestamp) :
    dshotWord wTs stride t = digitWord 1 16 fun j => .ofBool (bitOf (pairDiff wTs stride t j)) := rfl

theorem proshotWord_eq_digitWord (cfg : Cfg) (t : List Timestamp) :
    proshotWord cfg t = digitWord 4 4 fun j => .ofNat 4 (nibbleOf cfg (pairDistance cfg t j)) := rfl

theorem digitWord_succ (m n : Nat) (f : Nat → BitVec m) :
    digitWord m (n + 1) f = (digitWord m n f <<< m) ||| (f n).setWidth 16 := by
  simp [digitWord, List.range_succ]

/-- The digit `k` places from the right is the one with `k` digits after it. -/
theorem extractLsb'_digitWord {m n j k : Nat} (f : Nat → BitVec m) (hroom : m * n ≤ 16) (hjk : j + k + 1 = n) :
    (digitWord m n f).extractLsb' (m * k) m = f j := by
  induction n generalizing k with
  | zero => omega
  | succ n ih =>
    rw [Nat.mul_succ] at hroom
    rw [digitWord_succ]
    ext i hi
    simp only [BitVec.getElem_extractLsb', BitVec.getLsbD_or, BitVec.getLsbD_shiftLeft, BitVec.getLsbD_setWidth]
    cases k with
    | zero =>
      obtain rfl : j = n := by omega
      simp [hi, show i < 16 by omega]
    | succ k =>
      have hmk : m * (k + 1) ≤ m * n := Nat.mul_le_mul_left m (by omega)
      rw [Nat.mul_succ] at hmk ⊢
      have hdigit := ih (k := k) (by omega) (by omega)
      simp [show m * k + m + i < 16 by omega, show m * k + m + i - m = m * k + i by omega,
        BitVec.getLsbD_of_ge (f n) (m * k + m + i) (by omega), ← hdigit, show ¬ m * k + m + i < m by omega]

/-- A 16-bit word is given by its four nibbles. -/
theorem eq_of_nibbles_eq {v w : BitVec 16} (h : ∀ k, k < 4 → v.extractLsb' (4 * k) 4 = w.extractLsb' (4 * k) 4) :
    v = w := by
  refine BitVec.eq_of_getLsbD_eq fun i hi => ?_
  have hbit := congrArg (BitVec.getLsbD · (i % 4)) (h (i / 4) (by omega))
  simpa [BitVec.getLsbD_extractLsb', Nat.mod_lt, Nat.div_add_mod] using hbit

theorem digitWord_nibbles (f : Nat → BitVec 4) : digitWord 4 4 f = f 0 ++ f 1 ++ f 2 ++ f 3 := by
  refine eq_of_nibbles_eq fun k hk => ?_
  rw [extractLsb'_digitWord (j := 3 - k) f (by omega) (by omega)]
  match k with
  | 0 => exact BitVec.extractLsb'_append_eq_right.symm
  | 1 =>
    rw [BitVec.extractLsb'_append_eq_of_le (by omega)]
    exact BitVec.extractLsb'_append_eq_right.symm
  | 2 =>
    rw [BitVec.extractLsb'_append_eq_of_le (by omega), BitVec.extractLsb'_append_eq_of_le (by omega)]
    exact BitVec.extractLsb'_append_eq_right.symm
  | 3 =>
    rw [BitVec.extractLsb'_append_eq_of_le (by omega), BitVec.extractLsb'_append_eq_of_le (by omega)]
    exact BitVec.extractLsb'_append_eq_left.symm

/-! ## The checksum test (R175 to R178) -/

theorem resultOf_append (p : BitVec 12) (c : BitVec 4) :
    resultOf (p ++ c) =
      if c = p.extractLsb' 8 4 ^^^ p.extractLsb' 4 4 ^^^ p.extractLsb' 0 4 then .valid p else .invalid := by
  have hpayload : (p ++ c).extractLsb' 4 12 = p := BitVec.extractLsb'_append_eq_left
  have hfold : fold (p ++ c) = 0 ↔ c = csum p := by
    rw [fold_append]
    exact BitVec.xor_eq_zero_iff.trans eq_comm
  simp only [resultOf, hfold, hpayload, csum]

theorem fold_xor (v w : BitVec 16) : fold (v ^^^ w) = fold v ^^^ fold w := by
  simp only [fold_eq_nibbles, BitVec.extractLsb'_xor]
  ac_rfl

theorem fold_one_bit_ne_zero : ∀ k < 16, fold (1#16 <<< k) ≠ 0 := by decide

/-- R178: the fold of a valid word with one bit flipped is that of the one bit. -/
theorem resultOf_flip_bit {w : BitVec 16} {k : Nat} (hk : k < 16) (hw : fold w = 0) :
    resultOf (w ^^^ (1#16 <<< k)) = .invalid := by
  refine if_neg ?_
  simpa only [fold_xor, hw, BitVec.ofNat_eq_ofNat, BitVec.zero_xor] using fold_one_bit_ne_zero k hk

/-! ## DSHOT (R172 to R178) -/

theorem dshotWord_bit (wTs stride : Nat) (t : List Timestamp) {j : Nat} (hj : j < 16) :
    (dshotWord wTs stride t).getLsbD (15 - j) = bitOf (pairDiff wTs stride t j) := by
  have hdigit := extractLsb'_digitWord (j := j) (k := 15 - j) (fun j => .ofBool (bitOf (pairDiff wTs stride t j)))
    (Nat.le_refl (1 * 16)) (by omega)
  rw [← dshotWord_eq_digitWord] at hdigit
  simpa using congrArg (BitVec.getLsbD · 0) hdigit

theorem decodeDshot_of_spells {cfg : Cfg} {t : List Timestamp} {p : BitVec 12} {c : BitVec 4}
    (h : dshotWord cfg.wTs cfg.pairStride t = p ++ c) :
    decodeDshot cfg t =
      if c = p.extractLsb' 8 4 ^^^ p.extractLsb' 4 4 ^^^ p.extractLsb' 0 4 then .valid p else .invalid := by
  rw [decodeDshot, h, resultOf_append]

/-- A word whose bits lie in the two positive ranges of the bit rule (R173) is the one the capture spells. -/
theorem dshotWord_eq_of_ranges {wTs stride : Nat} {t : List Timestamp} {w : BitVec 16}
    (h : ∀ j, j < 16 →
      if w.getLsbD (15 - j) = true then 11 ≤ pairDiff wTs stride t j
      else 1 ≤ pairDiff wTs stride t j ∧ pairDiff wTs stride t j ≤ 10) :
    dshotWord wTs stride t = w := by
  refine BitVec.eq_of_getLsbD_eq fun i hi => ?_
  have hrange := h (15 - i) (by omega)
  have hbit := dshotWord_bit wTs stride t (j := 15 - i) (by omega)
  rw [show 15 - (15 - i) = i by omega] at hrange hbit
  rw [hbit]
  split at hrange
  · next hset => rw [hset, bitOf_eq_true_iff]; exact .inl hrange
  · next hclear => rw [Bool.eq_false_of_not_eq_true hclear, bitOf_eq_false_iff]; exact .inl hrange

/-- Settles O59: `dshotWord_bit` gives the word bit by bit, `resultOf_append` and `resultOf_flip_bit` the checksum test. -/
theorem dshotDecodesWhatIsSpelled : Obligations.DshotDecodesWhatIsSpelled := by
  refine ⟨fun wTs stride t j => dshotWord_bit wTs stride t, fun cfg t p c => decodeDshot_of_spells, ?_, ?_,
    fun w k => resultOf_flip_bit⟩
  · intro cfg t hproto
    simp only [decodeCapture, hproto]
  · intro cfg t p c hranges
    exact decodeDshot_of_spells (dshotWord_eq_of_ranges hranges)

/-! ## Proshot (R180 to R185) -/

theorem natCast_nibbleOf_mod (cfg : Cfg) (d : Int) :
    ((nibbleOf cfg d % 16 : Nat) : Int) = if d < 0 then 0 else (d + (cfg.proshotW / 2 : Nat)) / cfg.proshotW % 16 := by
  unfold nibbleOf
  split
  · rfl
  · have hquot : 0 ≤ (d + (cfg.proshotW / 2 : Nat)) / (cfg.proshotW : Int) := Int.ediv_nonneg (by omega) (by omega)
    rw [Int.natCast_emod, Int.toNat_of_nonneg hquot]
    rfl

/-- R182, R185: the rounding takes a distance within half a step of a symbol to the symbol. -/
theorem nibbleOf_of_near {cfg : Cfg} {n : Nat} {e : Int} (hw : 0 < cfg.proshotW)
    (he : |e| ≤ ((cfg.proshotW - 1) / 2 : Nat)) : nibbleOf cfg (cfg.proshotW * n + e) = n := by
  obtain ⟨hlo, hhi⟩ := abs_le.1 he
  unfold nibbleOf
  split
  · next hneg =>
    by_contra hn
    have hstep : (cfg.proshotW : Int) * 1 ≤ cfg.proshotW * n := mul_le_mul_of_nonneg_left (by omega) (by omega)
    omega
  · have hquot : ((cfg.proshotW * n + e + (cfg.proshotW / 2 : Nat)) / cfg.proshotW : Int) = n := by
      rw [Int.ediv_eq_iff_of_pos (by omega), mul_comm (n : Int)]
      omega
    rw [hquot, Int.toNat_natCast]

theorem proshotWord_nibble (cfg : Cfg) (t : List Timestamp) {j : Nat} (hj : j < 4) :
    (proshotWord cfg t).extractLsb' (4 * (3 - j)) 4 = .ofNat 4 (nibbleOf cfg (pairDistance cfg t j)) := by
  rw [proshotWord_eq_digitWord]
  exact extractLsb'_digitWord _ (by omega) (by omega)

theorem decodeProshot_of_spells {cfg : Cfg} {t : List Timestamp} {p : BitVec 12} {c : BitVec 4}
    (h : proshotWord cfg t = p ++ c) :
    decodeProshot cfg t =
      if c = p.extractLsb' 8 4 ^^^ p.extractLsb' 4 4 ^^^ p.extractLsb' 0 4 then .valid p else .invalid := by
  rw [decodeProshot, h, resultOf_append]

/-- R181: the modulus added before the remainder does not change it. -/
theorem pairDistance_eq (cfg : Cfg) (t : List Timestamp) (j : Nat) :
    pairDistance cfg t j =
      ((stamp t (1 + cfg.pairStride * j) : Int) - stamp t (1 + cfg.pairStride * j - 1)) % cfg.proshotM -
        cfg.proshotBase := by
  rw [pairDistance, add_sub_right_comm, Int.add_emod_right]

/-- R185: a capture whose distances are within half a step of four symbols spells the symbols. -/
theorem proshotWord_of_near {cfg : Cfg} {t : List Timestamp} {n : Nat → BitVec 4} {e : Nat → Int} (hw : 0 < cfg.proshotW)
    (he : ∀ j, j < 4 → |e j| ≤ ((cfg.proshotW - 1) / 2 : Nat))
    (hdist : ∀ j, j < 4 →
      ((stamp t (1 + cfg.pairStride * j) : Int) - stamp t (1 + cfg.pairStride * j - 1)) % cfg.proshotM =
        cfg.proshotBase + cfg.proshotW * (n j).toNat + e j) :
    proshotWord cfg t = n 0 ++ n 1 ++ n 2 ++ n 3 := by
  have hnibble : ∀ j, j < 4 → BitVec.ofNat 4 (nibbleOf cfg (pairDistance cfg t j)) = n j := by
    intro j hj
    have hd : pairDistance cfg t j = cfg.proshotW * (n j).toNat + e j := by
      rw [pairDistance_eq, hdist j hj]
      omega
    rw [hd, nibbleOf_of_near hw (he j hj), BitVec.ofNat_toNat, BitVec.setWidth_eq]
  rw [proshotWord_eq_digitWord, digitWord_nibbles, hnibble 0 (by omega), hnibble 1 (by omega), hnibble 2 (by omega),
    hnibble 3 (by omega)]

/-- Settles O60: `proshotWord_nibble` gives the word nibble by nibble, `resultOf_append` the checksum test, and
`nibbleOf_of_near` the tolerance of half a step. -/
theorem proshotDecodesWithinHalfAStep : Obligations.ProshotDecodesWithinHalfAStep := by
  refine ⟨?_, fun cfg t p c => decodeProshot_of_spells, ?_, ?_⟩
  · intro cfg t j hj d
    rw [proshotWord_nibble cfg t hj, BitVec.toNat_ofNat]
    exact natCast_nibbleOf_mod cfg d
  · intro cfg t hproto
    simp only [decodeCapture, hproto]
  · intro cfg t n e p c hw _ he hdist hword
    have hspells : proshotWord cfg t = p ++ c := (proshotWord_of_near hw he hdist).trans hword.symm
    exact ⟨hspells, decodeProshot_of_spells hspells⟩

end Sys2Proof.Machine

/-! Proofs of the completion family (42_completion_fsm.md): what the handler and each beat leave, field by field, a frame and a
capture as beats in a row, the direction-switch scenario, and what can change a direction. -/

namespace Sys2Proof.Machine

/-! ## Beats that are not enabled (R208, R213) -/

section NotEnabled

variable {s : State} {i : MotorIdx} {d : DmaDir}

theorem beatEnabled_eq_false
    (h : (s.ch i).dmaArmed = false ∨ (s.ch i).reqEn = false ∨ (s.ch i).dmaCount = 0 ∨ (s.ch i).dmaDir ≠ d) :
    beatEnabled s i d = false := by
  rw [← Bool.not_eq_true, beatEnabled_iff]
  rintro ⟨-, -, harmed, hreq, hcount, hdir⟩
  obtain h | h | h | h := h
  · rw [harmed] at h; cases h
  · rw [hreq] at h; cases h
  · exact hcount.ne' h
  · exact h hdir

theorem groupBeatEnabled_eq_false {g : Nat}
    (h : s.cfg.burst = false ∨
      ∀ gr, s.grp[g]? = some gr → gr.dmaArmed = false ∨ gr.reqEn = false ∨ gr.dmaCount = 0) :
    groupBeatEnabled s g = false := by
  rw [← Bool.not_eq_true, groupBeatEnabled_iff]
  rintro ⟨hburst, gr, hgr, harmed, hreq, hcount⟩
  obtain h | h := h
  · rw [hburst] at h; cases h
  · obtain h | h | h := h gr hgr
    · rw [harmed] at h; cases h
    · rw [hreq] at h; cases h
    · exact hcount.ne' h

theorem runOutBeat_of_not_enabled (h : beatEnabled s i .toTimer = false) : runOutBeat i s = .refused .notEnabled := if_pos h

theorem runInBeat_of_not_enabled (h : beatEnabled s i .fromTimer = false) (tm : Timestamp) :
    runInBeat i tm s = .refused .notEnabled := if_pos h

theorem runGroupBeat_of_not_enabled {g : Nat} (h : groupBeatEnabled s g = false) :
    runGroupBeat g s = .refused .notEnabled := by
  unfold runGroupBeat
  split
  · rfl
  · exact if_pos h

end NotEnabled

/-- Settles O36: a beat that is not in flight is not enabled, and the move of a beat that is not enabled is refused. -/
theorem beatsNeedATransferInFlight : Obligations.BeatsNeedATransferInFlight := by
  intro s i g tm rest hl
  refine ⟨fun hm h => ?_, fun hm h => ?_, fun hm h => ?_⟩
  · have hother : (s.ch i).dmaDir = .fromTimer → (s.ch i).dmaDir ≠ .toTimer := fun hdir => by simp [hdir]
    exact (step_of_moves_cons hl hm).trans
      (runOutBeat_of_not_enabled (s := { s with moves := rest })
        (beatEnabled_eq_false (h.imp_right (.imp_right (.imp_right hother)))))
  · have hother : (s.ch i).dmaDir = .toTimer → (s.ch i).dmaDir ≠ .fromTimer := fun hdir => by simp [hdir]
    exact (step_of_moves_cons hl hm).trans
      (runInBeat_of_not_enabled (s := { s with moves := rest })
        (beatEnabled_eq_false (h.imp_right (.imp_right (.imp_right hother)))) tm)
  · exact (step_of_moves_cons hl hm).trans 
      (runGroupBeat_of_not_enabled (s := { s with moves := rest }) (groupBeatEnabled_eq_false h))

/-! ## The handler (R201 to R207, R215) -/

section Handler

variable {s : State} {i j : MotorIdx} {tm : Timestamp}

theorem runHandler_of_pending (h : (s.ch i).tcFlag = true) : runHandler i tm s = .next (handlerBody i tm s) := if_pos h

theorem runHandler_of_not_pending (h : (s.ch i).tcFlag = false) : runHandler i tm s = .refused .notEnabled :=
  if_neg (by simp [h])

theorem handlerBody_of_receiving (h : (s.ch i).isInput = true) :
    handlerBody i tm s =
      s.setCh i { s.ch i with tcFlag := false, hasTelemetry := true, dmaArmed := false, reqEn := false } := by
  simp only [handlerBody, h, reduceIte, modCh_modCh]
  simp only [State.modCh, h]

/-- On a transmit completion the channel turns to receive, with a fresh capture armed and started (R207, R215). -/
theorem handlerBody_of_sending (h : (s.ch i).isInput = false) (htel : s.cfg.telemetryEnabled = true) :
    handlerBody i tm s =
      { s.setCh i
          { s.ch i with
            tcFlag := false, chanMode := .inputCapture, dmaDir := .fromTimer, outEn := false, isInput := true, dmaPos := 0,
            dmaCount := inLen s.cfg, dmaArmed := true, reqEn := true } with
        switchTime := s.switchTime.set i.val (drawStamp s.cfg tm) i.isLt
        log := s.log ++ [.dirToInput i] } := by
  simp only [handlerBody, h, htel, Bool.false_eq_true, reduceIte, setDirectionInput, modCh_modCh]
  rfl

theorem handlerBody_of_telemetry_disabled (h : (s.ch i).isInput = false) (htel : s.cfg.telemetryEnabled = false) :
    handlerBody i tm s = s.setCh i { s.ch i with tcFlag := false, dmaArmed := false, reqEn := false } := by
  simp only [handlerBody, h, htel, Bool.false_eq_true, reduceIte, modCh_modCh]
  simp only [State.modCh, h]

theorem handlerBody_ch_ne (h : j ≠ i) : (handlerBody i tm s).ch j = s.ch j := by
  rw [handlerBody_ch, if_neg h]

/-- Two handler runs log the events of the first, then those of the second, each as it would alone (R207). -/
theorem handlerBody_handlerBody_log {ti tj : Timestamp} (h : j ≠ i) :
    (handlerBody j tj (handlerBody i ti s)).log =
      s.log ++
        ((if (s.ch i).isInput = false ∧ s.cfg.telemetryEnabled = true then [.dirToInput i] else []) ++
          if (s.ch j).isInput = false ∧ s.cfg.telemetryEnabled = true then [.dirToInput j] else []) := by
  rw [handlerBody_log, handlerBody_log, handlerBody_ch_ne h, handlerBody_cfg, List.append_assoc]

theorem handlerBody_comm_ch {ti tj : Timestamp} (h : i ≠ j) (k : MotorIdx) :
    (handlerBody j tj (handlerBody i ti s)).ch k = (handlerBody i ti (handlerBody j tj s)).ch k := by
  by_cases hk : k = i
  · subst hk
    rw [handlerBody_ch_ne h, handlerBody_ch k k, handlerBody_ch k k, handlerBody_ch_ne h, handlerBody_cfg]
  · rw [handlerBody_ch_ne (tm := ti) hk, handlerBody_ch j k, handlerBody_ch j k, handlerBody_ch_ne h.symm,
      handlerBody_ch_ne hk, handlerBody_cfg]

theorem handlerBody_comm_switchTime {ti tj : Timestamp} (h : i ≠ j) (k : MotorIdx) :
    (handlerBody j tj (handlerBody i ti s)).switchTime.get k = (handlerBody i ti (handlerBody j tj s)).switchTime.get k := by
  simp only [handlerBody_switchTime, handlerBody_cfg, handlerBody_ch_ne h, handlerBody_ch_ne h.symm]
  by_cases hk : k = i
  · subst hk
    simp [h]
  · simp [hk]

end Handler

/-- Settles O32: the branches of the statement are those of the handler, each with its rule above. -/
theorem handlerInFull : Obligations.HandlerInFull := by
  intro s i tm rest hl hm
  have hstep : step s = runHandler i tm { s with moves := rest } := step_of_moves_cons hl hm
  rw [hstep]
  by_cases hpending : (s.ch i).tcFlag = false
  · rw [if_pos hpending]
    exact runHandler_of_not_pending hpending
  rw [if_neg hpending]
  refine (runHandler_of_pending (s := { s with moves := rest }) (Bool.not_eq_false _ ▸ hpending)).trans ?_
  by_cases hin : (s.ch i).isInput = true
  · rw [if_pos hin]
    exact congrArg _ (handlerBody_of_receiving (s := { s with moves := rest }) hin)
  have hout : (s.ch i).isInput = false := by simpa using hin
  rw [if_neg hin]
  by_cases htel : s.cfg.telemetryEnabled = true
  · rw [if_pos htel]
    refine congrArg _ ((handlerBody_of_sending (s := { s with moves := rest }) hout htel).trans ?_)
    unfold inLen
    dsimp only
    cases s.cfg.protocol <;> rfl
  · rw [if_neg htel]
    exact congrArg _
      (handlerBody_of_telemetry_disabled (s := { s with moves := rest }) hout (by simpa using htel))

/-- Settles O33: each run writes its own channel, its own switch time and the end of the log. -/
theorem handlersOfDifferentChannelsCommute : Obligations.HandlersOfDifferentChannelsCommute := by
  intro s i j ti tj hne s1 s2
  constructor
  · apply State.ext_fields
    case hchan => exact chan_ext (handlerBody_comm_ch hne)
    case hswitch => exact vext (handlerBody_comm_switchTime hne)
    case hlog => rfl
    all_goals simp [s1, s2]
  · rw [handlerBody_handlerBody_log hne.symm, handlerBody_handlerBody_log hne]
    exact (List.perm_append_comm).append_left _

/-! ## The beats (R209, R211, R213) -/

/-- Where an element was lacking, the fault is recorded and the next draw is another one (R72). -/
theorem noteUnwritten_eq (lacking : Bool) (s : State) :
    noteUnwritten lacking s =
      { s with
        faults := if lacking then (markFault .readUnwritten s).faults else s.faults
        free := if lacking then s.free + 1 else s.free } := by
  cases lacking <;> rfl

section Beats

variable {s : State} {i : MotorIdx}

/-- A beat of a transfer in flight raises transfer-complete exactly where it is the last (R209). -/
theorem Chan.afterBeat_of_pos {c : Chan} (h : 0 < c.dmaCount) :
    c.afterBeat =
      { c with
        dmaPos := c.dmaPos + 1, dmaCount := c.dmaCount - 1, tcFlag := c.tcFlag || decide (c.dmaCount = 1) } := by
  have hlast : c.dmaCount - 1 = 0 ↔ c.dmaCount = 1 := by omega
  simp only [Chan.afterBeat, hlast]

theorem runOutBeat_of_enabled (he : beatEnabled s i .toTimer = true) (hpos : (s.ch i).dmaPos < s.cfg.outLenMax) :
    runOutBeat i s =
      .next
        { s.setCh i (s.ch i).afterBeat with
          log := s.log ++ [.dutyOut i (s.ch i).dmaPos (outDuty s i) (s.ch i).outEn]
          faults :=
            if (Memory.read (s.ch i).outBuf (s.ch i).dmaPos).isNone then (markFault .readUnwritten s).faults else s.faults
          free := if (Memory.read (s.ch i).outBuf (s.ch i).dmaPos).isNone then s.free + 1 else s.free } := by
  rw [runOutBeat, if_neg (by simp [he]), if_neg (Nat.not_le.2 hpos), noteUnwritten_eq]
  rfl

theorem runInBeat_of_enabled (he : beatEnabled s i .fromTimer = true) (hpos : (s.ch i).dmaPos < inBufLen s.cfg)
    (tm : Timestamp) :
    runInBeat i tm s =
      .next
        { s.setCh i
            { s.ch i with inBuf := Memory.write (s.ch i).inBuf (s.ch i).dmaPos (drawStamp s.cfg tm) }.afterBeat with
          log := s.log ++ [.captured i (s.ch i).dmaPos (drawStamp s.cfg tm)] } := by
  rw [runInBeat, if_neg (by simp [he]), if_neg (Nat.not_le.2 hpos)]
  rfl

theorem inBufLen_of_telemetryEnabled {cfg : Cfg} (h : cfg.telemetryEnabled = true) : inBufLen cfg = inLen cfg := if_pos h

end Beats

/-- Settles O34: `runOutBeat_of_enabled`, with `outDuty` for the element that goes out. -/
theorem outBeatInFull : Obligations.OutBeatInFull := by
  intro s i rest hl hm hburst hconf harmed hreq hcount hdir hpos lacking
  have henabled : beatEnabled { s with moves := rest } i .toTimer = true :=
    (beatEnabled_iff ..).2 ⟨hburst, hconf, harmed, hreq, hcount, hdir⟩
  refine ⟨outDuty s i, fun v => outDuty_of_read, ?_⟩
  refine (step_of_moves_cons hl hm).trans ((runOutBeat_of_enabled henabled hpos).trans ?_)
  rw [Chan.afterBeat_of_pos (c := State.ch { s with moves := rest } i) hcount]
  rfl

/-- Settles O35: `runInBeat_of_enabled`, and what a memory reads after a write. -/
theorem inBeatInFull : Obligations.InBeatInFull := by
  intro s i tm rest hl hm hburst htel hconf harmed hreq hcount hdir hpos x
  have henabled : beatEnabled { s with moves := rest } i .fromTimer = true :=
    (beatEnabled_iff ..).2 ⟨hburst, hconf, harmed, hreq, hcount, hdir⟩
  refine ⟨?_, fun k => Memory.read_write ..⟩
  refine (step_of_moves_cons hl hm).trans
    ((runInBeat_of_enabled henabled (hpos.trans_eq (inBufLen_of_telemetryEnabled htel).symm) tm).trans ?_)
  rw [Chan.afterBeat_of_pos (by exact hcount)]
  rfl

section GroupBeat

variable {s : State} {g : Nat} {gr : Group}

theorem mem_groupMembers {i : MotorIdx} :
    i ∈ groupMembers s g ↔ ((s.ch i).configured && decide (groupOf s i = some g)) = true := by
  simp [groupMembers]

theorem raiseTcOn_frame (is : List MotorIdx) (s : State) : raiseTcOn is s = { s with chan := (raiseTcOn is s).chan } :=
  List.foldlRecOn (motive := fun u : State => u = { s with chan := u.chan }) is _ rfl fun u hu i _ => by
    rw [hu]
    rfl

/-- The duties are logged, and an element lacking in one of the lanes is recorded once (R213). -/
theorem groupDuties_eq (gr : Group) (is : List MotorIdx) (s : State) :
    groupDuties gr is s =
      { s with
        log := s.log ++ is.map fun i => .dutyOut i gr.dmaPos (laneDuty gr s i) (s.ch i).outEn
        faults := if is.any fun i => (laneRead gr s i).isNone then (markFault .readUnwritten s).faults else s.faults
        free := if is.any fun i => (laneRead gr s i).isNone then s.free + 1 else s.free } := by
  rw [groupDuties, noteUnwritten_eq]
  rfl

theorem Group.afterBeat_of_inFlight (harmed : gr.dmaArmed = true) (hreq : gr.reqEn = true) (hcount : 0 < gr.dmaCount) :
    gr.afterBeat =
      { gr with
        dmaPos := gr.dmaPos + 1, dmaCount := gr.dmaCount - 1, dmaArmed := decide (1 < gr.dmaCount)
        reqEn := decide (1 < gr.dmaCount) } := by
  have hlast : (!decide (gr.dmaCount - 1 = 0)) = decide (1 < gr.dmaCount) := by
    rw [← decide_not, decide_eq_decide]
    omega
  simp only [Group.afterBeat, harmed, hreq, hlast, Bool.true_and]

/-- A beat of a group in flight; the last one raises transfer-complete on the members (R213). -/
theorem runGroupBeat_of_enabled (hgr : s.grp[g]? = some gr) (he : groupBeatEnabled s g = true)
    (hpos : gr.dmaPos < s.cfg.outLenMax) :
    runGroupBeat g s =
      .next
        (raiseTcOn (if gr.dmaCount - 1 = 0 then groupMembers s g else [])
          ((groupDuties gr (groupMembers s g) s).modGrp g Group.afterBeat)) := by
  rw [runGroupBeat, hgr]
  dsimp only
  rw [if_neg (by simp [he]), if_neg (Nat.not_le.2 hpos)]
  split <;> rfl

end GroupBeat

/-- Settles O37: the duties of the members (`groupDuties_eq`), the group's bookkeeping (`Group.afterBeat_of_inFlight`) and, at
the last beat, transfer-complete on the members (`raiseTcOn_ch`). -/
theorem groupBeatInFull : Obligations.GroupBeatInFull := by
  intro s g gr rest hl hm hburst hgr harmed hreq hcount hpos member read lacking
  have hlacking : lacking = (groupMembers s g).any fun i => (laneRead gr s i).isNone := List.any_filter.symm
  have hlast : gr.dmaCount - 1 = 0 ↔ gr.dmaCount = 1 := by omega
  have henabled : groupBeatEnabled { s with moves := rest } g = true :=
    (groupBeatEnabled_iff ..).2 ⟨hburst, gr, hgr, harmed, hreq, hcount⟩
  refine ⟨laneDuty gr s, fun i v hv => ?_, ?_⟩
  · have hread : laneRead gr s i = some v := hv
    rw [laneDuty, hread, Option.getD_some]
  refine (step_of_moves_cons hl hm).trans 
    ((runGroupBeat_of_enabled (s := { s with moves := rest }) hgr henabled hpos).trans (congrArg _ ?_))
  refine (raiseTcOn_frame _ _).trans ?_
  rw [groupDuties_eq, hlacking]
  apply State.ext_fields
  case hchan =>
    refine vext fun i => (raiseTcOn_ch _ _ i).trans ?_
    rw [vget_ofFn]
    by_cases hone : gr.dmaCount = 1
    · rw [if_pos (hlast.2 hone), decide_eq_true hone, Bool.and_true]
      exact if_congr mem_groupMembers rfl rfl
    · rw [if_neg (hone ∘ hlast.1), decide_eq_false hone, Bool.and_false]
      rfl
  case hgrp => exact (modify_of_getElem? hgr _).trans (by rw [Group.afterBeat_of_inFlight harmed hreq hcount])
  all_goals rfl

end Sys2Proof.Machine

/-! ## Beats in a row (R209, R211) -/

namespace Sys2Proof.Machine

/-- The next `n` beats of channel `i` in direction `d` are of one transfer in flight (R208). -/
structure BeatsLeft (s : State) (i : MotorIdx) (d : DmaDir) (n : Nat) : Prop where
  launched : launchRefusal s.cfg = none
  burst : s.cfg.burst = false
  configured : (s.ch i).configured = true
  armed : (s.ch i).dmaArmed = true
  request : (s.ch i).reqEn = true
  direction : (s.ch i).dmaDir = d
  count : n ≤ (s.ch i).dmaCount

/-- `s` after beats of channel `i`: they leave the channel `c`, log `es`, and `rest` is still scheduled. -/
def State.withBeats (s : State) (i : MotorIdx) (c : Chan) (es : List Event) (rest : List Move) : State :=
  { s.setCh i c with moves := rest, log := s.log ++ es }

/-- The bookkeeping of `n` beats of a transfer in flight: the last one raises transfer-complete (R209). -/
theorem afterBeat_iterate {c : Chan} (h : 0 < c.dmaCount) (n : Nat) :
    Chan.afterBeat^[n] c =
      { c with
        dmaPos := c.dmaPos + n, dmaCount := c.dmaCount - n, tcFlag := c.tcFlag || decide (c.dmaCount ≤ n) } := by
  induction n with
  | zero => rw [decide_eq_false (Nat.not_le.2 h), Bool.or_false]; rfl
  | succ n ih =>
    have hlast : (decide (c.dmaCount ≤ n) || decide (c.dmaCount - (n + 1) = 0)) = decide (c.dmaCount ≤ n + 1) := by
      rw [← Bool.decide_or, decide_eq_decide]
      omega
    rw [Function.iterate_succ_apply', ih]
    simp only [Chan.afterBeat, Bool.or_assoc, Nat.add_assoc, Nat.sub_sub]
    rw [hlast]

/-- What a beat stores does not bear on the bookkeeping (R211). -/
theorem afterBeat_iterate_inBuf (c : Chan) (m : Memory Timestamp) (n : Nat) :
    Chan.afterBeat^[n] { c with inBuf := m } = { Chan.afterBeat^[n] c with inBuf := m } := by
  induction n with
  | zero => rfl
  | succ n ih => rw [Function.iterate_succ_apply', Function.iterate_succ_apply', ih]; rfl

section Row

variable {s t : State} {i : MotorIdx} {d : DmaDir} {n : Nat} {c : Chan} {es : List Event} {rest : List Move}

@[simp] theorem withBeats_cfg : (s.withBeats i c es rest).cfg = s.cfg := rfl
@[simp] theorem withBeats_micro : (s.withBeats i c es rest).micro = s.micro := rfl
@[simp] theorem withBeats_moves : (s.withBeats i c es rest).moves = rest := rfl
@[simp] theorem withBeats_ch : (s.withBeats i c es rest).ch i = c := ch_setCh_self s i c

theorem withBeats_ch_ne {j : MotorIdx} (h : j ≠ i) : (s.withBeats i c es rest).ch j = s.ch j := ch_setCh_ne s c h

theorem withBeats_withBeats (c' : Chan) (es' : List Event) (rest' : List Move) :
    (s.withBeats i c es rest).withBeats i c' es' rest' = s.withBeats i c' (es ++ es') rest' := by
  simp [State.withBeats, State.setCh]

theorem withBeats_self (h : s.moves = rest) : s.withBeats i (s.ch i) [] rest = s := by
  rw [State.withBeats, setCh_self, List.append_nil, ← h]

theorem BeatsLeft.enabled (h : BeatsLeft s i d (n + 1)) : beatEnabled s i d = true :=
  (beatEnabled_iff ..).2
    ⟨h.burst, h.configured, h.armed, h.request, Nat.lt_of_lt_of_le (Nat.succ_pos n) h.count, h.direction⟩

/-- After one beat there is one less. -/
theorem BeatsLeft.tail (h : BeatsLeft s i d (n + 1)) (hcfg : t.cfg = s.cfg) {m : Memory Timestamp}
    (hch : t.ch i = { s.ch i with inBuf := m }.afterBeat) : BeatsLeft t i d n where
  launched := hcfg ▸ h.launched
  burst := hcfg ▸ h.burst
  configured := by rw [hch]; exact h.configured
  armed := by rw [hch]; exact h.armed
  request := by rw [hch]; exact h.request
  direction := by rw [hch]; exact h.direction
  count := by rw [hch]; exact Nat.le_sub_of_add_le h.count

theorem step_outBeat (h : BeatsLeft s i .toTimer (n + 1)) (hm : s.moves = .outBeat i :: rest)
    (hroom : (s.ch i).dmaPos < s.cfg.outLenMax) {x : Duty} (hread : Memory.read (s.ch i).outBuf (s.ch i).dmaPos = some x) :
    step s = .next (s.withBeats i (s.ch i).afterBeat [.dutyOut i (s.ch i).dmaPos x (s.ch i).outEn] rest) := by
  have hrun := runOutBeat_of_enabled (s := { s with moves := rest }) h.enabled hroom
  rw [outDuty_of_read (s := { s with moves := rest }) hread, Option.isNone_eq_false_iff.2 (by exact hread ▸ rfl)] at hrun
  exact (step_of_moves_cons h.launched hm).trans hrun

theorem step_inBeat (h : BeatsLeft s i .fromTimer (n + 1)) {tm : Timestamp} (hm : s.moves = .inBeat i tm :: rest)
    (hroom : (s.ch i).dmaPos < inBufLen s.cfg) :
    step s =
      .next
        (s.withBeats i
          { s.ch i with inBuf := Memory.write (s.ch i).inBuf (s.ch i).dmaPos (drawStamp s.cfg tm) }.afterBeat
          [.captured i (s.ch i).dmaPos (drawStamp s.cfg tm)] rest) :=
  (step_of_moves_cons h.launched hm).trans (runInBeat_of_enabled (s := { s with moves := rest }) h.enabled hroom tm)

/-- Written elements go out in order, and nothing but the log and the channel's bookkeeping changes (R209). -/
theorem run_outBeats {ds : List Duty} (h : BeatsLeft s i .toTimer ds.length)
    (hroom : (s.ch i).dmaPos + ds.length ≤ s.cfg.outLenMax)
    (hread : ∀ k, k < ds.length → Memory.read (s.ch i).outBuf ((s.ch i).dmaPos + k) = ds[k]?)
    (hm : s.moves = List.replicate ds.length (.outBeat i) ++ rest) :
    Host.Core.run core ds.length s =
      .next (s.withBeats i (Chan.afterBeat^[ds.length] (s.ch i))
        (ds.mapIdx fun k x => .dutyOut i ((s.ch i).dmaPos + k) x (s.ch i).outEn) rest) := by
  induction ds generalizing s with
  | nil => exact congrArg _ (withBeats_self hm).symm
  | cons x ds ih =>
    rw [List.length_cons] at h hroom hread
    have hstep := step_outBeat h hm (by omega) (hread 0 (Nat.succ_pos _))
    have hafter : Chan.afterBeat (s.ch i) = { s.ch i with inBuf := (s.ch i).inBuf }.afterBeat := rfl
    have hpos : (s.ch i).afterBeat.dmaPos = (s.ch i).dmaPos + 1 := rfl
    have hread' : ∀ k, k < ds.length → Memory.read (s.ch i).outBuf ((s.ch i).dmaPos + 1 + k) = ds[k]? := fun k hk => by
      rw [Nat.add_assoc, Nat.add_comm 1]
      exact hread (k + 1) (Nat.succ_lt_succ hk)
    generalize hu : s.withBeats i (s.ch i).afterBeat _ _ = u at hstep
    have hch : u.ch i = (s.ch i).afterBeat := hu ▸ withBeats_ch
    have hcfg : u.cfg = s.cfg := hu ▸ withBeats_cfg
    have hrest := ih (h.tail hcfg (hch.trans hafter)) (by rw [hch, hpos, hcfg]; omega) (by rw [hch]; exact hread')
      (hu ▸ withBeats_moves)
    rw [List.length_cons, run_succ hstep, hrest, hch, hpos, ← hu, withBeats_withBeats, List.mapIdx_cons]
    simp only [Nat.add_assoc, Nat.add_comm 1]
    rfl

/-- The counts of input beats are stored in order, in the width of a timestamp (R211). -/
theorem run_inBeats {ts : List Timestamp} (h : BeatsLeft s i .fromTimer ts.length)
    (hroom : (s.ch i).dmaPos + ts.length ≤ inBufLen s.cfg) (hm : s.moves = ts.map (.inBeat i) ++ rest) :
    Host.Core.run core ts.length s =
      .next (s.withBeats i
        { Chan.afterBeat^[ts.length] (s.ch i) with
          inBuf := Memory.writeFrom (s.ch i).inBuf (s.ch i).dmaPos (ts.map (drawStamp s.cfg)) }
        (ts.mapIdx fun k tm => .captured i ((s.ch i).dmaPos + k) (drawStamp s.cfg tm)) rest) := by
  induction ts generalizing s with
  | nil => exact congrArg _ (withBeats_self hm).symm
  | cons tm ts ih =>
    rw [List.length_cons] at h hroom
    have hstep := step_inBeat h hm (by omega)
    generalize hu : s.withBeats i _ _ _ = u at hstep
    have hch : u.ch i =
        { s.ch i with inBuf := Memory.write (s.ch i).inBuf (s.ch i).dmaPos (drawStamp s.cfg tm) }.afterBeat :=
      hu ▸ withBeats_ch
    have hpos : (u.ch i).dmaPos = (s.ch i).dmaPos + 1 := by rw [hch]; rfl
    have hcfg : u.cfg = s.cfg := hu ▸ withBeats_cfg
    have hrest := ih (h.tail hcfg hch) (by rw [hpos, hcfg]; omega) (hu ▸ withBeats_moves)
    rw [List.length_cons, run_succ hstep, hrest, hpos, hcfg, hch, ← Function.iterate_succ_apply, afterBeat_iterate_inBuf,
      ← hu, withBeats_withBeats, List.mapIdx_cons]
    simp only [Nat.add_assoc, Nat.add_comm 1]
    rfl

end Row

/-- Settles O38: `run_outBeats` for the whole frame, whose last beat is the one that leaves nothing to send. -/
theorem wholeFrameIsSentInOrder : Obligations.WholeFrameIsSentInOrder := by
  intro s i frame hl hburst hne hlen hconf harmed hreq hdir hpos hcount hread hm
  have hleft : BeatsLeft s i .toTimer frame.length := ⟨hl, hburst, hconf, harmed, hreq, hdir, hcount.ge⟩
  have hrun := run_outBeats (rest := []) hleft (by omega) (by simpa [hpos] using hread) (by rw [hm, List.append_nil])
  rw [afterBeat_iterate (by rw [hcount]; exact List.length_pos_iff.2 hne), hcount, hpos] at hrun
  simp only [Nat.zero_add, Nat.sub_self, le_refl, decide_true, Bool.or_true] at hrun
  exact hrun

end Sys2Proof.Machine

/-! ## Who changes a direction (R200, R214) -/

namespace Sys2Proof.Machine

/-- What returns channel `i` to output: the two bindings of CFG, which find it there already, and B5 of BEGIN (R214). -/
def Origin.TurnsToOutput (i : MotorIdx) (o : Origin) : Prop :=
  (∃ timer ch n, o = .op (.cfg i timer ch n) ∨ o = .act (.c3 i timer ch n)) ∨ o = .op .beginUpdate ∨ ∃ f, o = .act (.b5 i f)

section Direction

variable {o : Origin} {s t : State} {i : MotorIdx} {c : Chan}

/-- Only the handler, C3 and B5 write a direction (R131, R138, R215). -/
theorem ChanChange.isInput_or_origin (h : ChanChange o s i c) :
    c.isInput = (s.ch i).isInput ∨ (o = .other ∧ c.isInput = true) ∨ (o.TurnsToOutput i ∧ c.isInput = false) := by
  cases h with
  | bind timer ch n ho => exact .inr (.inr ⟨.inl ⟨timer, ch, n, ho⟩, rfl⟩)
  | toOutput ho => exact .inr (.inr ⟨.inr ho, rfl⟩)
  | toInput ho => exact .inr (.inl ⟨ho, rfl⟩)
  | _ => exact .inl rfl

/-- MAIN turns no channel to receive. -/
theorem Changes.isInput_eq_false (h : Changes o s t) (ho : o ≠ .other) (hs : (s.ch i).isInput = false) :
    (t.ch i).isInput = false :=
  h.keep (P := fun u => (u.ch i).isInput = false) (fun _ _ hu hc => by
    obtain hsame | ⟨hother, -⟩ | ⟨-, hout⟩ := (hc.chan i).isInput_or_origin
    · exact hsame.trans hu
    · exact absurd hother ho
    · exact hout) hs

theorem Changes.isInput_eq_true (h : Changes o s t) (ho : ¬ o.TurnsToOutput i) (hs : (s.ch i).isInput = true) :
    (t.ch i).isInput = true :=
  h.keep (P := fun u => (u.ch i).isInput = true) (fun _ _ hu hc => by
    obtain hsame | ⟨-, hin⟩ | ⟨hturns, -⟩ := (hc.chan i).isInput_or_origin
    · exact hsame.trans hu
    · exact hin
    · exact absurd hturns ho) hs

/-- What changes as it would under any origin turns no channel to receive. -/
theorem isInput_eq_false_of_changes (h : ∀ o, Changes o s t) (hs : (s.ch i).isInput = false) : (t.ch i).isInput = false :=
  (h (.op .go)).isInput_eq_false (by simp) hs

/-- A channel turns to receive only by its own handler (R200, R214). -/
theorem handler_of_turned_to_input (h : step s = .next t) (hs : (s.ch i).isInput = false) (ht : (t.ch i).isInput = true) :
    ∃ tm rest, s.moves = .handler i tm :: rest ∧ (s.ch i).tcFlag = true ∧ s.cfg.telemetryEnabled = true := by
  have hkept : (t.ch i).isInput ≠ false := by simp [ht]
  obtain ⟨-, ⟨-, rfl⟩ | ⟨mv, rest, hm, hmv⟩⟩ := step_next h
  · exact absurd hs hkept
  cases mv with
  | op w x =>
    obtain ⟨-, ⟨j, -, hj⟩ | rfl⟩ := issue_next hmv
    · exact absurd ((exec_changes hj).isInput_eq_false (by simp) hs) hkept
    · exact absurd hs hkept
  | start w x =>
    obtain ⟨-, ⟨j, -, hj⟩ | rfl⟩ := issue_next (k := fun j u => .next (startOp j u)) hmv
    · cases hj; exact absurd hs hkept
    · exact absurd hs hkept
  | act =>
    obtain ⟨a, more, -, ha⟩ := runNextAct_next hmv
    exact absurd ((runAct_changes ha).isInput_eq_false (by simp) hs) hkept
  | handler j tm =>
    obtain ⟨hpending, rfl⟩ := runHandler_next hmv
    obtain rfl | hne := eq_or_ne i j
    · refine ⟨tm, rest, hm, hpending, ?_⟩
      by_contra htel
      rw [handlerBody_of_telemetry_disabled (s := { s with moves := rest }) hs (by simpa using htel), ch_setCh_self] at hkept
      exact hkept hs
    · rw [handlerBody_ch_ne hne] at hkept
      exact absurd hs hkept
  | outBeat j => exact absurd (isInput_eq_false_of_changes (fun o => runOutBeat_changes (o := o) hmv) hs) hkept
  | inBeat j tm => exact absurd (isInput_eq_false_of_changes (fun o => runInBeat_changes (o := o) hmv) hs) hkept
  | groupBeat g => exact absurd (isInput_eq_false_of_changes (fun o => runGroupBeat_changes (o := o) hmv) hs) hkept
  | collab l => cases hmv; exact absurd hs hkept

/-- An operation taken whole is its meaning, with its sample on the operand port (R80, R119). -/
theorem exec_of_step (h : step s = .next t) {w : Word} {x : Num} {rest : List Move} (hm : s.moves = .op w x :: rest)
    {j : Instr} (hd : decode s.cfg.nMotorsMax w = .ok j) : exec j (withOpnd x { s with moves := rest }) = .next t := by
  obtain ⟨hl, -⟩ := step_next h
  have hissue : issue exec w x { s with moves := rest } = .next t := (step_of_moves_cons hl hm).symm.trans h
  obtain ⟨hmicro, -⟩ := issue_next hissue
  exact (issue_of_decode hmicro hd).symm.trans hissue

/-- CFG refuses a channel that is configured already (R131). -/
theorem execCfg_isInput_of_configured {timer : TimerId} {ch : HwChannel} {n : Bool} (h : execCfg i timer ch n s = .next t)
    (hconf : (s.ch i).configured = true) : (t.ch i).isInput = (s.ch i).isInput := by
  cases hr : cfgRefusal i timer ch s with
  | none =>
    rw [unconfigured_of_cfgRefusal_eq_none hr] at hconf
    cases hconf
  | some r =>
    rw [execCfg_of_refusal hr] at h
    cases h
    rfl

/-- BEGIN takes the motors in use, and returns none to output with telemetry disabled (R136). -/
theorem beginOutcome_isInput (h : ¬ (i.val < s.cfg.motorCount ∧ s.cfg.telemetryEnabled = true)) :
    ((beginOutcome s).ch i).isInput = (s.ch i).isInput := by
  have hsecond : ((beginOutcome s).ch i).isInput = ((beginTelemetry s).ch i).isInput := by
    rw [beginOutcome, enableOutputs_ch]
    split <;> rfl
  rw [hsecond, beginTelemetry]
  split
  · next htel =>
    have hunused : ∀ j ∈ motorsOf s.cfg, i ≠ j := fun j hj hij => h ⟨mem_motorsOf.1 (hij ▸ hj), htel⟩
    exact List.foldlRecOn (motive := fun u : State => (u.ch i).isInput = (s.ch i).isInput) _ _ rfl fun u hu j hj => by
      rw [beginChannel_ch_ne (hunused j hj)]
      exact hu
  · rfl

/-- A channel is returned to output only by BEGIN, whole or at its B5 (R200, R214). -/
theorem begin_of_turned_to_output (hquiet : UnconfiguredQuiet s) (hfresh : PendingCfgIsFresh s) (h : step s = .next t)
    (hs : (s.ch i).isInput = true) (ht : (t.ch i).isInput = false) :
    (s.ch i).configured = true ∧
      ((∃ w x rest, s.moves = .op w x :: rest ∧ decode s.cfg.nMotorsMax w = .ok .beginUpdate ∧
          i.val < s.cfg.motorCount ∧ s.cfg.telemetryEnabled = true) ∨
        (∃ rest more f, s.moves = .act :: rest ∧ s.micro = .b5 i f :: more)) := by
  have hconf : (s.ch i).configured = true := by
    by_contra hnot
    obtain ⟨hout, -⟩ := hquiet.1 i (by simpa using hnot)
    rw [hs] at hout
    cases hout
  have hkept : (t.ch i).isInput ≠ true := by simp [ht]
  refine ⟨hconf, ?_⟩
  obtain ⟨o, hat, hc⟩ := step_changes h
  have hturns : o.TurnsToOutput i := by
    by_contra hnot
    exact hkept (hc.isInput_eq_true hnot hs)
  obtain ⟨timer, ch, n, rfl | rfl⟩ | rfl | ⟨f, rfl⟩ := hturns
  · obtain ⟨w, x, rest, hm, hd⟩ := hat
    exact absurd ((execCfg_isInput_of_configured (exec_of_step h hm hd) hconf).trans hs) hkept
  · obtain ⟨rest, more, -, hmicro⟩ := hat
    rw [hfresh.head_binds_fresh hmicro rfl] at hconf
    cases hconf
  · obtain ⟨w, x, rest, hm, hd⟩ := hat
    refine .inl ⟨w, x, rest, hm, hd, ?_⟩
    by_contra hnot
    have hbegin := exec_of_step h hm hd
    rw [exec_beginUpdate] at hbegin
    cases hbegin
    exact hkept ((beginOutcome_isInput (s := withOpnd x { s with moves := rest }) hnot).trans hs)
  · obtain ⟨rest, more, hm, hmicro⟩ := hat
    exact .inr ⟨rest, more, f, hm, hmicro⟩

end Direction

/-- Settles O40: the two rows of the table are `handler_of_turned_to_input` and `begin_of_turned_to_output`. -/
theorem directionChangesOnlyByTheTable : Obligations.DirectionChangesOnlyByTheTable :=
  fun _ _ _ hquiet hfresh h => ⟨handler_of_turned_to_input h, begin_of_turned_to_output hquiet hfresh h⟩

end Sys2Proof.Machine

/-! ## The direction-switch scenario (R216) -/

namespace Sys2Proof.Machine

/-- Where the scenario starts: channel `i` is configured, idle, in use and of some group, MAIN is inside nothing, GO is not
skipped and no capture is flagged. -/
structure SwitchStart (s : State) (i : MotorIdx) : Prop where
  launched : launchRefusal s.cfg = none
  burst : s.cfg.burst = false
  telemetry : s.cfg.telemetryEnabled = true
  micro : s.micro = []
  notSkipped : goSkipped s = false
  inUse : i.val < s.cfg.motorCount
  configured : (s.ch i).configured = true
  idle : (s.ch i).busy = false
  direction : (s.ch i).dmaDir = .toTimer
  group : groupOf s i ≠ none
  unflagged : ∀ j, (s.ch j).hasTelemetry = false

/-- What the scenario that started at `s` keeps until BEGIN, with `rest` still scheduled. -/
structure SwitchScene (s : State) (i : MotorIdx) (rest : List Move) (t : State) : Prop where
  cfg : t.cfg = s.cfg
  micro : t.micro = []
  moves : t.moves = rest
  configured : (t.ch i).configured = true
  speed : (t.ch i).telemetryValue = (s.ch i).telemetryValue
  others : ∀ j, j ≠ i → (t.ch j).hasTelemetry = false

/-- The channel is loaded with `frame` and nothing of it has gone out (R141). -/
structure Chan.HoldsFrame (c : Chan) (frame : List Duty) : Prop where
  output : c.isInput = false
  unflagged : c.hasTelemetry = false
  notDone : c.tcFlag = false
  armed : c.dmaArmed = true
  direction : c.dmaDir = .toTimer
  pos : c.dmaPos = 0
  count : c.dmaCount = frame.length
  written : ∀ k, k < frame.length → Memory.read c.outBuf k = frame[k]?

/-- The channel has a fresh capture of `n` counts armed and started (R215). -/
structure Chan.AwaitsCapture (c : Chan) (n : Nat) : Prop where
  input : c.isInput = true
  unflagged : c.hasTelemetry = false
  notDone : c.tcFlag = false
  armed : c.dmaArmed = true
  request : c.reqEn = true
  direction : c.dmaDir = .fromTimer
  pos : c.dmaPos = 0
  count : c.dmaCount = n

section Switch

variable {s t : State} {i : MotorIdx} {rest : List Move}

theorem cfgLegal_of_launched {cfg : Cfg} (h : launchRefusal cfg = none) : CfgLegal cfg := by
  by_contra hnot
  rw [launchRefusal_of_not_cfgLegal hnot] at h
  cases h

/-- The next move issues the word of an operation the block has: the operation is taken (R80, R111). -/
theorem step_op {j : Instr} {x : Num} (hl : launchRefusal s.cfg = none) (hmicro : s.micro = [])
    (hwf : j.wellFormed s.cfg.nMotorsMax = true) (hm : s.moves = .op (encode j) x :: rest) :
    step s = exec j (withOpnd x { s with moves := rest }) :=
  (step_of_moves_cons hl hm).trans (issue_of_decode hmicro (decodeOfEncodeIsTheOperation _ _ hwf))

theorem Chan.not_busy_iff (c : Chan) : c.busy = false ↔ c.isInput = false ∧ c.reqEn = false ∧ c.tcFlag = false := by
  simp [Chan.busy, and_assoc]

theorem run_then_step {n : Nat} {u : State} (h : Host.Core.run core n s = .next t) (hstep : step t = .next u) :
    Host.Core.run core (n + 1) s = .next u :=
  (run_add h).trans (run_succ (n := 0) hstep)

theorem SwitchScene.withBeats (h : SwitchScene s i rest t) {c : Chan} (hconf : c.configured = (t.ch i).configured)
    (hspeed : c.telemetryValue = (t.ch i).telemetryValue) (es : List Event) (rest' : List Move) :
    SwitchScene s i rest' (t.withBeats i c es rest') where
  cfg := h.cfg
  micro := h.micro
  moves := rfl
  configured := by rw [withBeats_ch, hconf, h.configured]
  speed := by rw [withBeats_ch, hspeed, h.speed]
  others j hj := by rw [withBeats_ch_ne hj, h.others j hj]

/-! ### TX and GO -/

/-- TX loads the channel and leaves it to GO to start it (R141). -/
theorem switch_tx (h : SwitchStart s i) (value : BitVec 16) (tr : Bool)
    (hm : s.moves = .op (encode (.tx i value tr)) 0 :: rest) :
    ∃ t, step s = .next t ∧ SwitchScene s i rest t ∧ (t.ch i).HoldsFrame (txFrameOf i value tr s) ∧
      goSkipped t = false ∧ ∃ g, LoadedIn t i g := by
  have hlegal := cfgLegal_of_launched h.launched
  have hwf : (Instr.tx i value tr).wellFormed s.cfg.nMotorsMax = true := by
    obtain ⟨-, -, -, -, hcount, -⟩ := hlegal
    exact decide_eq_true (Nat.lt_of_lt_of_le h.inUse hcount)
  obtain ⟨g, hg⟩ := Option.ne_none_iff_exists'.1 h.group
  obtain ⟨u, hu⟩ : ∃ u, u = withOpnd 0 { s with moves := rest } := ⟨_, rfl⟩
  have hchu : ∀ j, u.ch j = s.ch j := fun _ => hu ▸ rfl
  have hburst : u.cfg.burst = false := hu ▸ h.burst
  have hexec : execTx i value tr u = .next (txLoad i value tr u) :=
    execTx_of_idle hburst (by rw [hchu, h.configured]) (by rw [hchu, h.idle]) value tr
  have hmain := execTx_main hexec
  have hch := txLoad_ch (idx := i) hburst value tr
  have hframe : txFrameOf i value tr u = txFrameOf i value tr s := hu ▸ rfl
  obtain ⟨hout, -, hdone⟩ := (Chan.not_busy_iff _).1 h.idle
  refine ⟨txLoad i value tr u, (step_op h.launched h.micro hwf hm).trans (hu ▸ hexec), ?_, ?_, ?_, g, ?_⟩
  · refine ⟨by rw [txLoad_cfg, hu]; rfl, ?_, ?_, ?_, ?_, fun j hj => ?_⟩
    · exact (congrArg Prod.fst hmain).trans (hu ▸ h.micro)
    · exact (congrArg Prod.snd hmain).trans (hu ▸ rfl)
    · rw [hch, if_pos rfl, hchu]; exact h.configured
    · rw [hch, if_pos rfl, hchu]
    · rw [hch, if_neg hj, hchu]; exact h.unflagged j
  · rw [hch, if_pos rfl, hframe, hchu]
    refine ⟨hout, h.unflagged i, hdone, rfl, h.direction, rfl, rfl, fun k hk => ?_⟩
    dsimp only
    rw [Memory.read_writeFrom, if_pos ⟨Nat.zero_le k, by rwa [Nat.zero_add]⟩, Nat.sub_zero]
  · rw [goSkipped, txLoad_collab, hu]; exact h.notSkipped
  · exact loadedIn_txLoad (hu ▸ hlegal) hburst (by rw [hchu, h.configured]) (hu ▸ hg) value tr

/-- GO starts the loaded channel (R147). -/
theorem switch_go {frame : List Duty} (hl : launchRefusal s.cfg = none) (hburst : s.cfg.burst = false)
    (hscene : SwitchScene s i (.op (encode .go) 0 :: rest) t) (hframe : (t.ch i).HoldsFrame frame)
    (hskip : goSkipped t = false) {g : Nat} (hloaded : LoadedIn t i g) :
    ∃ u, step t = .next u ∧ SwitchScene s i rest u ∧ (u.ch i).HoldsFrame frame ∧ (u.ch i).reqEn = true := by
  obtain ⟨v, hv⟩ : ∃ v, v = withOpnd 0 { t with moves := rest } := ⟨_, rfl⟩
  have hchv : ∀ j, v.ch j = t.ch j := fun _ => hv ▸ rfl
  have hcfg : v.cfg = s.cfg := hv ▸ hscene.cfg
  have hloadedv : LoadedIn v i g :=
    hv ▸ ⟨hloaded.configured, hloaded.group, hloaded.armed, hloaded.count, hloaded.bit⟩
  have hexec := execGo_of_not_skipped (s := v) (hv ▸ hskip)
  have hmain := execGo_main hexec
  have hch := goGroups_ch (s := v) (hcfg ▸ hburst) (gs := List.range v.grp.length) List.nodup_range
  have hflight := hloadedv.inFlight_goGroups (hcfg ▸ hburst)
  refine ⟨goGroups (List.range v.grp.length) v,
    (step_op (hscene.cfg ▸ hl) hscene.micro rfl hscene.moves).trans (hv ▸ hexec), ?_, ?_, ?_⟩
  · refine ⟨?_, ?_, ?_, ?_, ?_, fun j hj => ?_⟩
    · rw [goGroups_range_frame]; exact hcfg
    · exact (congrArg Prod.fst hmain).trans (hv ▸ hscene.micro)
    · exact (congrArg Prod.snd hmain).trans (hv ▸ rfl)
    · rw [hch, hchv]; exact hscene.configured
    · rw [hch, hchv]; exact hscene.speed
    · rw [hch, hchv]; exact hscene.others j hj
  · rw [hch, hchv]
    exact { hframe with }
  · simp only [Chan.inFlight, Bool.and_eq_true] at hflight
    exact hflight.1.2

/-! ### The frame and the switch to input -/

/-- After `k` beats of the frame the channel is still sending, and transfer-complete is pending exactly after the last. -/
theorem switch_outBeats {frame : List Duty} (hl : launchRefusal s.cfg = none) (hburst : s.cfg.burst = false)
    (hroom : frame.length ≤ s.cfg.outLenMax) (hpos : 0 < frame.length)
    (hscene : SwitchScene s i (List.replicate frame.length (.outBeat i) ++ rest) t) (hframe : (t.ch i).HoldsFrame frame)
    (hreq : (t.ch i).reqEn = true) {k : Nat} (hk : k ≤ frame.length) :
    ∃ u, Host.Core.run core k t = .next u ∧
      SwitchScene s i (List.replicate (frame.length - k) (.outBeat i) ++ rest) u ∧
      (u.ch i).isInput = false ∧ (u.ch i).hasTelemetry = false ∧ (u.ch i).tcFlag = decide (frame.length ≤ k) := by
  have hlen : (frame.take k).length = k := List.length_take_of_le hk
  have hleft : BeatsLeft t i .toTimer (frame.take k).length :=
    ⟨hscene.cfg ▸ hl, hscene.cfg ▸ hburst, hscene.configured, hframe.armed, hreq, hframe.direction, by
      rw [hlen, hframe.count]; exact hk⟩
  have hmoves : t.moves = List.replicate (frame.take k).length (.outBeat i) ++
      (List.replicate (frame.length - k) (.outBeat i) ++ rest) := by
    rw [hscene.moves, hlen, ← List.append_assoc, List.replicate_append_replicate, Nat.add_sub_cancel' hk]
  have hrun := run_outBeats hleft (by rw [hlen, hframe.pos, hscene.cfg]; omega)
    (fun j hj => by
      rw [hlen] at hj
      rw [hframe.pos, Nat.zero_add, List.getElem?_take_of_lt hj]
      exact hframe.written j (by omega)) hmoves
  rw [hlen, afterBeat_iterate (by rw [hframe.count]; exact hpos)] at hrun
  refine ⟨_, hrun, hscene.withBeats (by rfl) (by rfl) _ _, ?_⟩
  rw [withBeats_ch]
  refine ⟨hframe.output, hframe.unflagged, ?_⟩
  dsimp only
  rw [hframe.notDone, hframe.count, Bool.false_or]

/-- A handler run keeps the scene (R207). -/
theorem SwitchScene.handler {tm : Timestamp} (hl : launchRefusal s.cfg = none)
    (h : SwitchScene s i (.handler i tm :: rest) t) (hpending : (t.ch i).tcFlag = true) :
    step t = .next (handlerBody i tm { t with moves := rest }) ∧
      SwitchScene s i rest (handlerBody i tm { t with moves := rest }) := by
  have hsame := samePending_handlerBody i tm { t with moves := rest }
  refine ⟨(step_of_moves_cons (h.cfg ▸ hl) h.moves).trans (runHandler_of_pending (s := { t with moves := rest }) hpending),
    ?_, hsame.micro.trans h.micro, ?_, (hsame.configured i).trans h.configured, ?_, fun j hj => ?_⟩
  · rw [handlerBody_cfg]; exact h.cfg
  · rw [handlerBody_moves]
  · rw [handlerBody_ch, if_pos rfl, ← h.speed]
    split
    · rfl
    · split <;> rfl
  · rw [handlerBody_ch_ne hj]; exact h.others j hj

/-- The handler of the frame's completion arms a fresh capture (R207, R215). -/
theorem switch_toInput {tm : Timestamp} (hl : launchRefusal s.cfg = none) (htel : s.cfg.telemetryEnabled = true)
    (hscene : SwitchScene s i (.handler i tm :: rest) t) (hpending : (t.ch i).tcFlag = true)
    (hout : (t.ch i).isInput = false) (hunflagged : (t.ch i).hasTelemetry = false) :
    ∃ u, step t = .next u ∧ SwitchScene s i rest u ∧ (u.ch i).AwaitsCapture (inLen s.cfg) := by
  obtain ⟨hstep, hnext⟩ := hscene.handler hl hpending
  refine ⟨_, hstep, hnext, ?_⟩
  rw [handlerBody_of_sending (s := { t with moves := rest }) hout (hscene.cfg ▸ htel)]
  refine (ch_setCh_self _ i _).symm ▸ ?_
  exact ⟨rfl, hunflagged, rfl, rfl, rfl, rfl, rfl, by rw [← hscene.cfg]⟩

/-! ### The capture -/

/-- After `k` counts the channel is still receiving, holds them, and transfer-complete is pending exactly after the last. -/
theorem switch_inBeats {draws : List Timestamp} (hl : launchRefusal s.cfg = none) (hburst : s.cfg.burst = false)
    (htel : s.cfg.telemetryEnabled = true) (hlen : draws.length = inLen s.cfg)
    (hscene : SwitchScene s i (draws.map (.inBeat i) ++ rest) t) (hcapture : (t.ch i).AwaitsCapture (inLen s.cfg))
    {k : Nat} (hk : k ≤ inLen s.cfg) :
    ∃ u, Host.Core.run core k t = .next u ∧ SwitchScene s i ((draws.drop k).map (.inBeat i) ++ rest) u ∧
      (u.ch i).isInput = true ∧ (u.ch i).hasTelemetry = false ∧ (u.ch i).tcFlag = decide (inLen s.cfg ≤ k) ∧
      (u.ch i).inBuf = Memory.writeFrom (t.ch i).inBuf 0 ((draws.take k).map (drawStamp s.cfg)) := by
  have hpos : 0 < inLen s.cfg := Nat.lt_of_lt_of_le Nat.zero_lt_two (Nat.le_add_right 2 _)
  have htake : (draws.take k).length = k := List.length_take_of_le (hlen ▸ hk)
  have hleft : BeatsLeft t i .fromTimer (draws.take k).length :=
    ⟨hscene.cfg ▸ hl, hscene.cfg ▸ hburst, hscene.configured, hcapture.armed, hcapture.request, hcapture.direction, by
      rw [htake, hcapture.count]; exact hk⟩
  have hmoves : t.moves = (draws.take k).map (.inBeat i) ++ ((draws.drop k).map (.inBeat i) ++ rest) := by
    rw [hscene.moves, ← List.append_assoc, ← List.map_append, List.take_append_drop]
  have hrun := run_inBeats hleft
    (by rw [htake, hcapture.pos, hscene.cfg, inBufLen_of_telemetryEnabled htel, Nat.zero_add]; exact hk) hmoves
  rw [htake, afterBeat_iterate (by rw [hcapture.count]; exact hpos), hcapture.pos, hscene.cfg] at hrun
  refine ⟨_, hrun, hscene.withBeats (by rfl) (by rfl) _ _, ?_⟩
  rw [withBeats_ch]
  refine ⟨hcapture.input, hcapture.unflagged, ?_, rfl⟩
  dsimp only
  rw [hcapture.notDone, hcapture.count, Bool.false_or]

/-- The handler of the capture's completion flags it (R207). -/
theorem switch_flag {tm : Timestamp} (hl : launchRefusal s.cfg = none)
    (hscene : SwitchScene s i (.handler i tm :: rest) t) (hpending : (t.ch i).tcFlag = true)
    (hin : (t.ch i).isInput = true) :
    ∃ u, step t = .next u ∧ SwitchScene s i rest u ∧ (u.ch i).isInput = true ∧ (u.ch i).hasTelemetry = true ∧
      (u.ch i).inBuf = (t.ch i).inBuf := by
  obtain ⟨hstep, hnext⟩ := hscene.handler hl hpending
  refine ⟨_, hstep, hnext, ?_⟩
  rw [handlerBody_of_receiving (s := { t with moves := rest }) hin, ch_setCh_self]
  exact ⟨hin, rfl, rfl⟩

/-! ### BEGIN -/

/-- What a capture whose elements were written one after another decodes to. -/
theorem decoded_of_inBuf_eq {cfg : Cfg} {c : Chan} {m : Memory Timestamp} {ts : List Timestamp}
    (hbuf : c.inBuf = Memory.writeFrom m 0 ts) (hlen : ts.length = inLen cfg) :
    Memory.lacks c.inBuf (inLen cfg) = false ∧ c.decoded cfg = decodeCapture cfg ts := by
  have hread : ∀ k, k < inLen cfg → Memory.read c.inBuf k = ts[k]? := fun k hk => by
    rw [hbuf, Memory.read_writeFrom, if_pos ⟨Nat.zero_le k, by omega⟩, Nat.sub_zero]
  constructor
  · rw [← Bool.not_eq_true, Memory.lacks_iff]
    rintro ⟨k, hk, hnone⟩
    rw [hread k hk, List.getElem?_eq_none_iff] at hnone
    omega
  · refine congrArg (decodeCapture cfg) (List.ext_getElem (by simp [hlen]) fun k hk hk' => ?_)
    rw [List.getElem_map, List.getElem_range, hread k (hlen ▸ hk'), List.getElem?_eq_getElem hk', Option.getD_some]

/-- The switch is wanted of a receiving channel whose capture is flagged, whatever the scope (R138). -/
theorem switchWanted_of_flagged_input {cfg : Cfg} {c : Chan} (hin : c.isInput = true) : switchWanted cfg c true = true := by
  unfold switchWanted
  split
  · exact hin
  · rfl

/-- BEGIN consumes the capture and returns the channel to output (R136 to R138). -/
theorem switch_begin {m : Memory Timestamp} {ts : List Timestamp} (h : SwitchStart s i)
    (hscene : SwitchScene s i [.op (encode .beginUpdate) 0] t) (hin : (t.ch i).isInput = true)
    (hflag : (t.ch i).hasTelemetry = true) (hbuf : (t.ch i).inBuf = Memory.writeFrom m 0 ts)
    (hlen : ts.length = inLen s.cfg) :
    ∃ u, step t = .next u ∧ (u.ch i).isInput = false ∧ (u.ch i).hasTelemetry = false ∧
      (u.ch i).telemetryValue = (decodeCapture s.cfg ts).speedOr (s.ch i).telemetryValue := by
  obtain ⟨hwritten, hdecoded⟩ := decoded_of_inBuf_eq hbuf hlen
  obtain ⟨v, hv⟩ : ∃ v, v = withOpnd 0 { t with moves := [] } := ⟨_, rfl⟩
  have hchv : ∀ j, v.ch j = t.ch j := fun _ => hv ▸ rfl
  have hcfg : v.cfg = s.cfg := hv ▸ hscene.cfg
  have hcaptures : CapturesWritten v := fun j _ _ _ hj => by
    rw [hchv] at hj ⊢
    by_cases hji : j = i
    · rw [hji, hcfg]; exact hwritten
    · rw [hscene.others j hji] at hj; cases hj
  have hch := beginOutcome_ch hcaptures i
  rw [hchv, hcfg, if_pos ⟨h.inUse, hscene.configured⟩, if_pos h.telemetry, Chan.begun_of_configured hscene.configured,
    hflag, switchWanted_of_flagged_input hin, hdecoded, hscene.speed] at hch
  refine ⟨beginOutcome v,
    (step_op (hscene.cfg ▸ h.launched) hscene.micro rfl hscene.moves).trans (hv ▸ exec_beginUpdate v), ?_⟩
  rw [hch]
  exact ⟨by simp, rfl, by simp⟩

/-! ### The two halves of the scenario -/

/-- Up to the first handler run the channel sends, and that run turns it to receive. -/
theorem switch_sends {value : BitVec 16} {tr : Bool} {tm : Timestamp} (h : SwitchStart s i)
    (hm : s.moves = .op (encode (.tx i value tr)) 0 :: .op (encode .go) 0 ::
      (List.replicate (txFrameOf i value tr s).length (.outBeat i) ++ .handler i tm :: rest)) :
    (∀ n, n ≤ (txFrameOf i value tr s).length + 2 →
      ∃ t, Host.Core.run core n s = .next t ∧ (t.ch i).hasTelemetry = false ∧ (t.ch i).isInput = false) ∧
    ∃ u, Host.Core.run core ((txFrameOf i value tr s).length + 3) s = .next u ∧ SwitchScene s i rest u ∧
      (u.ch i).AwaitsCapture (inLen s.cfg) := by
  have hlegal := cfgLegal_of_launched h.launched
  have hroom : (txFrameOf i value tr s).length ≤ s.cfg.outLenMax := (framesFitTheOutputBuffer s.cfg _ hlegal).2
  obtain ⟨s1, hstep1, hscene1, hframe1, hskip1, g, hloaded⟩ := switch_tx h value tr hm
  obtain ⟨s2, hstep2, hscene2, hframe2, hreq2⟩ := switch_go h.launched h.burst hscene1 hframe1 hskip1 hloaded
  have hrun1 : Host.Core.run core 1 s = .next s1 := run_then_step (n := 0) rfl hstep1
  have hrun2 : Host.Core.run core 2 s = .next s2 := run_then_step hrun1 hstep2
  have hsent := fun {k} => switch_outBeats h.launched h.burst hroom (txFrameOf_length_pos hlegal value tr) hscene2 hframe2
    hreq2 (k := k)
  constructor
  · intro n hn
    obtain rfl | rfl | hge : n = 0 ∨ n = 1 ∨ 2 ≤ n := by omega
    · exact ⟨s, rfl, h.unflagged i, ((Chan.not_busy_iff _).1 h.idle).1⟩
    · exact ⟨s1, hrun1, hframe1.unflagged, hframe1.output⟩
    · obtain ⟨t, hrun, -, hout, hflag, -⟩ := hsent (k := n - 2) (by omega)
      rw [← run_add hrun2, Nat.add_sub_cancel' hge] at hrun
      exact ⟨t, hrun, hflag, hout⟩
  · obtain ⟨t, hrun, hscene, hout, hflag, hdone⟩ := hsent le_rfl
    rw [Nat.sub_self] at hscene
    obtain ⟨u, hstep, hnext⟩ := switch_toInput h.launched h.telemetry hscene (by simpa using hdone) hout hflag
    have hrun3 := run_then_step ((run_add hrun2).trans hrun) hstep
    rw [Nat.add_comm 2] at hrun3
    exact ⟨u, hrun3, hnext⟩

/-- Up to the second handler run the channel receives, and that run flags the capture. -/
theorem switch_receives {draws : List Timestamp} {tm : Timestamp} (h : SwitchStart s i) (hlen : draws.length = inLen s.cfg)
    (hscene : SwitchScene s i (draws.map (.inBeat i) ++ .handler i tm :: rest) t)
    (hcapture : (t.ch i).AwaitsCapture (inLen s.cfg)) :
    (∀ n, n ≤ inLen s.cfg →
      ∃ u, Host.Core.run core n t = .next u ∧ (u.ch i).hasTelemetry = false ∧ (u.ch i).isInput = true) ∧
    ∃ u, Host.Core.run core (inLen s.cfg + 1) t = .next u ∧ SwitchScene s i rest u ∧ (u.ch i).hasTelemetry = true ∧
      (u.ch i).isInput = true ∧
      (u.ch i).inBuf = Memory.writeFrom (t.ch i).inBuf 0 (draws.map (drawStamp s.cfg)) := by
  have hcaptured := fun {k} => switch_inBeats h.launched h.burst h.telemetry hlen hscene hcapture (k := k)
  constructor
  · intro n hn
    obtain ⟨u, hrun, -, hin, hflag, -⟩ := hcaptured hn
    exact ⟨u, hrun, hflag, hin⟩
  · obtain ⟨v, hrun, hscenev, hin, -, hdone, hbuf⟩ := hcaptured le_rfl
    rw [← hlen, List.drop_length] at hscenev
    rw [← hlen, List.take_length] at hbuf
    obtain ⟨u, hstep, hnext, hinu, hflagu, hbufu⟩ := switch_flag h.launched hscenev (by simpa using hdone) hin
    exact ⟨u, run_then_step hrun hstep, hnext, hflagu, hinu, hbufu.trans hbuf⟩

end Switch

/-- Settles O39: `n` falls in the half that sends (`switch_sends`), in the half that receives (`switch_receives`), between the
second handler run and BEGIN, or after BEGIN (`switch_begin`). -/
theorem directionSwitchScenario : Obligations.DirectionSwitchScenario := by
  intro s i value tr t1 t2 draws hl hburst htel hmicro hskip huse hconf hbusy hdir hgroup hunflagged hlen ask L N hm n hn
  have hstart : SwitchStart s i :=
    ⟨hl, hburst, htel, hmicro, hskip, huse, hconf, hbusy, hdir, hgroup, hunflagged⟩
  have hN : N = L + inLen s.cfg := rfl
  simp only [List.append_assoc, List.cons_append, List.nil_append] at hm
  obtain ⟨hsends, u, hrunu, hsceneu, hcapture⟩ := switch_sends hstart hm
  change ∀ n, n ≤ L + 2 → _ at hsends
  change Host.Core.run core (L + 3) s = .next u at hrunu
  obtain ⟨hreceives, v, hrunv, hscenev, hflagv, hinv, hbufv⟩ := switch_receives hstart hlen hsceneu hcapture
  obtain ⟨w, hstepw, houtw, hflagw, hspeedw⟩ :=
    switch_begin hstart hscenev hinv hflagv hbufv (by rw [List.length_map, hlen])
  have hrun4 := (run_add hrunu).trans hrunv
  have hrun5 := run_then_step hrun4 hstepw
  clear_value N L
  obtain hle | ⟨hge, hle⟩ | rfl | rfl : n ≤ L + 2 ∨ (L + 3 ≤ n ∧ n ≤ N + 3) ∨ n = N + 4 ∨ n = N + 5 := by omega
  · obtain ⟨t, hrun, hflag, hout⟩ := hsends n hle
    exact ⟨t, hrun, iff_of_false (by simp [hflag]) (by omega), iff_of_false (by simp [hout]) (by omega), by omega⟩
  · obtain ⟨t, hrun, hflag, hin⟩ := hreceives (n - (L + 3)) (by omega)
    rw [← run_add hrunu, Nat.add_sub_cancel' hge] at hrun
    exact ⟨t, hrun, iff_of_false (by simp [hflag]) (by omega), iff_of_true hin (by omega), by omega⟩
  · refine ⟨v, ?_, iff_of_true hflagv rfl, iff_of_true hinv (by omega), by omega⟩
    rwa [show L + 3 + (inLen s.cfg + 1) = N + 4 by omega] at hrun4
  · refine ⟨w, ?_, iff_of_false (by simp [hflagw]) (by omega), iff_of_false (by simp [houtw]) (by omega), fun _ => hspeedw⟩
    rwa [show L + 3 + (inLen s.cfg + 1) + 1 = N + 5 by omega] at hrun5

end Sys2Proof.Machine

/-! Proofs of the notch family (43_rpm_notch.md): the rounding and the frequency policy, RPMINIT and one recomputation in full,
what every step does to the banks and the scheduler, the cursor as a position that counts up, and a filter call as a cascade. -/

namespace Sys2Proof.Machine

/-! ## Rounding (R237) -/

/-- Settles O24: `RoundNearest` is the floor below one half, the next integer above it, and the even one of the two at it. -/
theorem roundNearestIsNearestTiesToEven : Obligations.RoundNearestIsNearestTiesToEven := by
  intro x
  have hfloor : (x.floor : Rat) ≤ x := Int.floor_le x
  have hnext : x < x.floor + 1 := Int.lt_floor_add_one x
  have hdown : |x - x.floor| = x - x.floor := abs_of_nonneg (by linarith)
  have hup : |x - (x.floor + 1 : Int)| = x.floor + 1 - x := by
    push_cast
    rw [abs_sub_comm]
    exact abs_of_nonneg (by linarith)
  unfold roundNearest
  dsimp only
  split
  · next hlt => exact ⟨hdown.trans_le hlt.le, fun htie => by linarith⟩
  · next hge =>
    split
    · next hgt => exact ⟨by linarith, fun htie => by linarith⟩
    · split
      · next heven => exact ⟨by linarith, fun _ => Int.dvd_of_emod_eq_zero heven⟩
      · next hodd => exact ⟨by linarith, fun _ => by omega⟩

theorem floor_le_roundNearest (x : Rat) : x.floor ≤ roundNearest x := by
  unfold roundNearest
  dsimp only
  (repeat' split) <;> omega

theorem roundNearest_nonneg {x : Rat} (hx : 0 ≤ x) : 0 ≤ roundNearest x :=
  (Int.floor_nonneg.2 hx).trans (floor_le_roundNearest x)

/-! ## The frequency policy (R247) -/

section Policy

variable {cfg : Cfg} {f minHz : Num}

theorem policy_of_deactivated (hf : f < minHz) (hhalf : f < cfg.mul (1 / 2) minHz) : policy cfg f minHz = 1000 := by
  unfold policy
  rw [if_pos hf, if_pos hhalf]
  exact if_neg (lt_irrefl _)

theorem policy_of_clamped (hf : f < minHz) (hhalf : cfg.mul (1 / 2) minHz ≤ f) :
    policy cfg f minHz = if 1000 < minHz then 1000 else minHz := by
  unfold policy
  rw [if_pos hf, if_neg (not_lt.2 hhalf)]

theorem policy_of_le (hf : minHz ≤ f) : policy cfg f minHz = if 1000 < f then 1000 else f := by
  unfold policy
  rw [if_neg (not_lt.2 hf)]

end Policy

/-- Settles O27: the three branches of the policy, each with its clamp at 1000. -/
theorem frequencyPolicyRanges : Obligations.FrequencyPolicyRanges := by
  refine ⟨fun cfg f minHz hmax => ⟨policy_of_deactivated, fun hhalf hf => ?_, fun hf hle => ?_, fun hgt => ?_⟩,
    fun cfg f minHz hmin => ?_, fun cfg => ⟨?_, ?_, ?_, ?_⟩, fun cfg hexact f minHz hpos hmax => ?_⟩
  · rw [policy_of_clamped hf hhalf, if_neg (not_lt.2 hmax)]
  · rw [policy_of_le hf, if_neg (not_lt.2 hle)]
  · rw [policy_of_le (hmax.trans hgt.le), if_pos hgt]
  · obtain hf | hf := lt_or_ge f minHz
    · obtain hhalf | hhalf := lt_or_ge f (cfg.mul (1 / 2) minHz)
      · exact policy_of_deactivated hf hhalf
      · rw [policy_of_clamped hf hhalf, if_pos hmin]
    · rw [policy_of_le hf, if_pos (hmin.trans_le hf)]
  · exact policy_of_deactivated (by norm_num) (half_hundred_num cfg).2
  · rw [policy_of_clamped (by norm_num) (half_hundred_num cfg).1, if_neg (by norm_num)]
  · rw [policy_of_le (by norm_num), if_pos (by norm_num)]
  · rw [policy_of_le (by norm_num), if_neg (by norm_num)]
  · obtain ⟨-, -, hmul, -⟩ := arith_exact hexact (1 / 2) minHz
    rw [← hmul]
    refine ⟨fun hhalf => policy_of_deactivated ?_ hhalf, fun hhalf hf => ?_⟩
    · rw [hmul] at hhalf
      linarith
    · rw [policy_of_clamped hf hhalf, if_neg (not_lt.2 hmax)]

/-! ## RPMINIT (R234 to R239) -/

section Rpminit

variable {s : State}

theorem exec_rpminit_of_inited (h : s.sched.inited = true) : exec .rpminit s = .next (markRefused .rpmInitTwice s) :=
  if_pos h

theorem exec_rpminit_of_not_cfgLegal (h : s.sched.inited ≠ true) (hc : ¬ CfgLegal s.cfg) :
    exec .rpminit s = .next (markRefused .rpmBadConfig s) :=
  (if_neg h).trans (if_pos hc)

theorem exec_rpminit_of_cfgLegal (h : s.sched.inited ≠ true) (hc : CfgLegal s.cfg) :
    exec .rpminit s = .next (rpmInitialise s) :=
  (if_neg h).trans (if_neg (not_not.2 hc))

/-- In the exact number system the conversion of a speed is a rational number of the pole count (R236). -/
theorem erpmToHzOf_exact {cfg : Cfg} (hexact : cfg.numerics = .exact) :
    erpmToHzOf cfg = 10 / (3 * (cfg.motorPoles : Rat)) := by
  have hdiv : ∀ x y : Num, cfg.div x y = x / y := fun x y => by
    obtain ⟨-, -, -, h, -⟩ := arith_exact hexact x y
    exact h
  simp only [erpmToHzOf, hdiv]
  obtain hzero | hpos := eq_or_ne (cfg.motorPoles : Rat) 0
  · simp [hzero]
  · field_simp
    norm_num

/-- In the exact number system the budget is the rounded quotient, which is not below 0 (R237). -/
theorem budgetOf_exact {cfg : Cfg} (hexact : cfg.numerics = .exact) (hlegal : CfgLegal cfg) (total : Nat) :
    (budgetOf cfg total : Int) =
      roundNearest ((total : Rat) / (cfg.minUpdateInterval / cfg.tLoop) + 49 / 100) := by
  obtain ⟨-, -, -, -, -, -, -, -, -, -, -, -, -, -, htick, hinterval, -⟩ := hlegal
  obtain ⟨-, -, -, -, hc049⟩ := arith_exact hexact 0 0
  have hargument : cfg.add (cfg.div total (cfg.div cfg.minUpdateInterval cfg.tLoop)) cfg.system.c049 =
      (total : Rat) / (cfg.minUpdateInterval / cfg.tLoop) + 49 / 100 := by
    simp only [fun x y => (arith_exact (cfg := cfg) hexact x y), hc049]
  rw [budgetOf, hargument]
  exact Int.toNat_of_nonneg (roundNearest_nonneg (by positivity))

theorem firstTriple_eq (cfg : Cfg) :
    firstTriple cfg =
      if cfg.motorCount * (cfg.harmonics.get 0 + cfg.harmonics.get 1) = 0 then none
      else if 0 < cfg.harmonics.get 0 then some { m := 0, b := 0, h := 0 }
      else some { m := 0, b := 1, h := 0 } := by
  unfold firstTriple totalOf firstBank
  split
  · rfl
  · split <;> rfl

theorem vget_perMotor (cfg : Cfg) (old : Vector Num 16) (f : MotorIdx → Num) (m : MotorIdx) :
    (perMotor cfg old f).get m = if m.val < cfg.motorCount then f m else old.get m := vget_ofFn _ m

end Rpminit

/-- Settles O23: the two refusals, and what `rpmInitialise` writes, entry by entry and field by field. -/
theorem rpminitInFull : Obligations.RpminitInFull := by
  intro s
  split
  · next h => exact exec_rpminit_of_inited h
  · next h =>
    split
    · next hc => exact exec_rpminit_of_not_cfgLegal h hc
    · next hc =>
      have hlegal : CfgLegal s.cfg := not_not.1 hc
      exact ⟨rpmInitialise s, exec_rpminit_of_cfgLegal h hlegal, rfl,
        fun b axis m k => ⟨coefAt_rpmInitialise s b axis m k, delayAt_rpmInitialise s b axis m k⟩, rfl, rfl, rfl, rfl,
        fun hexact => ⟨erpmToHzOf_exact hexact, budgetOf_exact hexact hlegal _⟩,
        fun m => ⟨vget_perMotor .., vget_perMotor ..⟩, firstTriple_eq s.cfg⟩

/-! ## One recomputation (R243 to R250) -/

theorem recomputeOne_of_cur {s : State} {c : Cursor} (h : s.sched.cur = some c) :
    recomputeOne s = advance c (recomputeAt c s) := by
  simp [recomputeOne, h]

theorem recomputeOne_of_no_cur {s : State} (h : s.sched.cur = none) : recomputeOne s = s := by
  simp [recomputeOne, h]

/-- Advance writes the cursor and the frequency bases, and nothing else of the scheduler (R249, R250). -/
theorem advance_sched (c : Cursor) (s : State) :
    (advance c s).sched =
      { s.sched with cur := (advance c s).sched.cur, freqBase := (advance c s).sched.freqBase } := by
  unfold advance
  split
  · split <;> rfl
  · rfl

/-- A recomputation writes the cursor and the frequency bases, and nothing else of the scheduler (R243). -/
theorem recomputeOne_sched (s : State) :
    (recomputeOne s).sched =
      { s.sched with cur := (recomputeOne s).sched.cur, freqBase := (recomputeOne s).sched.freqBase } := by
  unfold recomputeOne
  split
  · rw [advance_sched, recomputeAt_sched]
  · rfl

@[simp] theorem recomputeOne_inited (s : State) : (recomputeOne s).sched.inited = s.sched.inited := by
  rw [recomputeOne_sched]

@[simp] theorem recomputeOne_total (s : State) : (recomputeOne s).sched.total = s.sched.total := by
  rw [recomputeOne_sched]

@[simp] theorem recomputeOne_budget (s : State) : (recomputeOne s).sched.budget = s.sched.budget := by
  rw [recomputeOne_sched]

/-- Outside the notch banks and the scheduler a recomputation writes nothing (R243). -/
theorem recomputeOne_frame (s : State) :
    recomputeOne s = { s with bank := (recomputeOne s).bank, sched := (recomputeOne s).sched } := by
  apply State.ext_fields <;> simp

/-- Settles O26: what `recomputeAt` writes to the notch table (`coefAt_recomputeAt`), then where Advance puts the cursor and
which frequency base it refreshes (`advance_cur`, `advance_freqBase`). -/
theorem recomputeOneInFull : Obligations.RecomputeOneInFull := by
  intro s c hcur minHz f0 f1 f v harmonicsDone nextBank next target t
  have ht : t = advance c (recomputeAt c s) := recomputeOne_of_cur hcur
  have hnext : nextBank = true ↔ c.b = 0 ∧ 0 < s.cfg.harmonics.get 1 := by simp [nextBank]
  have hdone : harmonicsDone = true ↔ c.h + 1 = s.cfg.harmonics.get c.b := by simp [harmonicsDone]
  have hleaves : (harmonicsDone && !nextBank) = true ↔
      c.h + 1 = s.cfg.harmonics.get c.b ∧ ¬ (c.b = 0 ∧ 0 < s.cfg.harmonics.get 1) := by
    rw [Bool.and_eq_true, hdone, Bool.not_eq_true', ← Bool.not_eq_true, hnext]
  refine ⟨?_, fun b axis m h => ?_⟩
  · have hframe : t = { s with
        bank := t.bank
        sched := { s.sched with cur := t.sched.cur, freqBase := t.sched.freqBase } } := by
      rw [← recomputeOne_sched]
      exact recomputeOne_frame s
    have hcursor := advance_cur c (recomputeAt c s)
    have hbases := advance_freqBase c (recomputeAt c s)
    rw [← ht] at hcursor hbases
    simp only [recomputeAt_cfg, recomputeAt_sched] at hcursor hbases
    simp only [hdone, hnext, hleaves]
    rw [hcursor, hbases] at hframe
    exact hframe
  · rw [ht, coefAt_advance, delayAt_advance, coefAt_recomputeAt, delayAt_recomputeAt]
    exact ⟨rfl, rfl⟩

/-! ## RPMUPD (R240, R241) -/

/-- What `RPMUPD` makes of the state once the scheduler is initialised (R240). -/
def rpmTick (s : State) : State := recomputeMany (smoothAll s)

theorem exec_rpmupd_of_inited {s : State} (h : s.sched.inited = true) : exec .rpmupd s = .next (rpmTick s) :=
  if_neg (by simp [h])

theorem exec_rpmupd_of_not_inited {s : State} (h : s.sched.inited = false) :
    exec .rpmupd s = .next (markRefused .rpmNotInited s) :=
  if_pos h

theorem rpmTick_of_total_pos {s : State} (h : 0 < s.sched.total) :
    rpmTick s = recomputeOne^[s.sched.budget] (smoothAll s) :=
  if_pos h

theorem recomputeMany_eq_iterate (s : State) :
    recomputeMany s = recomputeOne^[if 0 < s.sched.total then s.sched.budget else 0] s := by
  unfold recomputeMany
  split <;> rfl

/-- Settles O25: without a triple the recomputations are an empty loop. -/
theorem rpmupdInFull : Obligations.RpmupdInFull := by
  intro s
  split
  · next h => exact exec_rpmupd_of_not_inited h
  · next h =>
    rw [exec_rpmupd_of_inited (by simpa using h), rpmTick, recomputeMany_eq_iterate]
    rfl

/-! ## FGYRO and FDTERM where nothing is filtered (R257) -/

theorem exec_fgyro (axis : Axis) (s : State) : exec (.fgyro axis) s = filterSample 0 axis s := rfl

theorem exec_fdterm (axis : Axis) (s : State) : exec (.fdterm axis) s = filterSample 1 axis s := rfl

theorem applyBank_of_disabled {b : BankIdx} {s : State} (h : s.sched.inited = false ∨ s.cfg.harmonics.get b = 0)
    (axis : Axis) (x : Num) : applyBank b axis x s = (x, s) :=
  if_pos h

theorem filterSample_of_disabled {b : BankIdx} {s : State} (h : s.sched.inited = false ∨ s.cfg.harmonics.get b = 0)
    (axis : Axis) : filterSample b axis s = .next { s with resp := .sample s.opnd } := by
  rw [filterSample, applyBank_of_disabled h]
  rfl

/-- Settles O30: both operations are `filterSample`, of bank 0 and of bank 1. -/
theorem disabledFilterPassesThrough : Obligations.DisabledFilterPassesThrough :=
  fun axis _ => ⟨fun h => filterSample_of_disabled h axis, fun h => filterSample_of_disabled h axis⟩

/-! ## What every step does to the banks and the scheduler -/

/-- The configuration, the notch banks and the scheduler. -/
def State.filters (s : State) : Cfg × Vector Bank 2 × Sched := (s.cfg, s.bank, s.sched)

/-- A property of the notch banks and the scheduler that the elementary changes of RPMINIT, RPMUPD and the filters keep (R234,
R240, R243, R257). -/
structure FilterInvariant (P : State → Prop) : Prop where
  congr : ∀ {s t : State}, P s → t.filters = s.filters → P t
  initialise : ∀ {s : State}, P s → P (rpmInitialise s)
  smooth : ∀ {s : State}, P s → P (smoothAll s)
  recompute : ∀ {s : State}, P s → P (recomputeOne s)
  remember : ∀ {s : State} (b : BankIdx) (axis : Axis) (m : MotorIdx) (h : Nat) (d : Delay), P s → P (setDelay b axis m h d s)

/-! ### Operations that leave them -/

section Frame

variable {s t : State}

theorem filters_foldl {α : Type} {f : State → α → State} {as : List α} (h : t.filters = s.filters)
    (hf : ∀ u a, (f u a).filters = u.filters) : (as.foldl f t).filters = s.filters :=
  List.foldlRecOn (motive := fun u : State => u.filters = s.filters) as f h fun u hu a _ => (hf u a).trans hu

theorem findOrInsertGroup_filters {timer : TimerId} (h : findOrInsertGroup timer s = some t) : t.filters = s.filters := by
  obtain ⟨-, ⟨-, rfl⟩ | ⟨-, -, rfl⟩⟩ := findOrInsertGroup_some h <;> rfl

theorem execCfg_filters {idx : MotorIdx} {timer : TimerId} {ch : HwChannel} {n : Bool}
    (h : execCfg idx timer ch n s = .next t) : t.filters = s.filters := by
  unfold execCfg at h
  split at h
  · cases h; rfl
  · split at h
    · cases h; rfl
    · next u hu => cases h; exact findOrInsertGroup_filters (t := u) hu

theorem beginChannel_filters (i : MotorIdx) (s : State) : (beginChannel i s).filters = s.filters := by
  unfold beginChannel
  split
  · split <;> simp [State.filters, consumeCapture]
  · rfl

theorem enableOutput_filters (i : MotorIdx) (s : State) : (enableOutput i s).filters = s.filters := by
  simp [State.filters]

theorem beginOutcome_filters (s : State) : (beginOutcome s).filters = s.filters := by
  refine filters_foldl ?_ fun u i => enableOutput_filters i u
  unfold beginTelemetry
  split
  · exact filters_foldl rfl fun u i => beginChannel_filters i u
  · rfl

theorem execTx_filters {idx : MotorIdx} {value : BitVec 16} {tr : Bool} (h : execTx idx value tr s = .next t) :
    t.filters = s.filters := by
  unfold execTx at h
  split at h
  · cases h; rfl
  · split at h
    · cases h; rfl
    · cases h
      rw [txLoad_frame]
      rfl

theorem execGo_filters (h : execGo s = .next t) : t.filters = s.filters := by
  unfold execGo at h
  split at h
  · cases h; rfl
  · cases h
    rw [goGroups_range_frame]
    rfl

theorem runGroupBeat_filters {g : Nat} (h : runGroupBeat g s = .next t) : t.filters = s.filters := by
  obtain ⟨gr, -, -, -, rfl⟩ := runGroupBeat_next h
  split
  · rw [raiseTcOn_frame]
    simp [State.filters]
  · simp [State.filters]

end Frame

/-! ### Every operation, action and move keeps such a property -/

namespace FilterInvariant

variable {P : State → Prop} {s t : State}

theorem of_recomputeMany (hP : FilterInvariant P) (hs : P s) : P (recomputeMany s) := by
  rw [recomputeMany_eq_iterate]
  exact Function.Iterate.rec P hs (fun _ => hP.recompute) _

theorem of_filterThrough (hP : FilterInvariant P) (hs : P s) (b : BankIdx) (axis : Axis) (k : Nat)
    (ns : List (MotorIdx × Nat)) (x : Num) : P (filterThrough b axis k ns x s).2 := by
  induction ns generalizing k x s with
  | nil => exact hs
  | cons p ns ih => exact ih (hP.remember b axis p.1 p.2 _ hs) _ _

theorem of_applyBank (hP : FilterInvariant P) (hs : P s) (b : BankIdx) (axis : Axis) (x : Num) :
    P (applyBank b axis x s).2 := by
  unfold applyBank
  split
  · exact hs
  · exact hP.congr (hP.of_filterThrough hs b axis 0 (notchesOf s.cfg b) x) (by simp [State.filters])

theorem of_execRpminit (hP : FilterInvariant P) (hs : P s) (h : execRpminit s = .next t) : P t := by
  unfold execRpminit at h
  split at h
  · cases h; exact hP.congr hs rfl
  · split at h
    · cases h; exact hP.congr hs rfl
    · cases h; exact hP.initialise hs

theorem of_execRpmupd (hP : FilterInvariant P) (hs : P s) (h : execRpmupd s = .next t) : P t := by
  unfold execRpmupd at h
  split at h
  · cases h; exact hP.congr hs rfl
  · cases h; exact hP.of_recomputeMany (hP.smooth hs)

theorem of_filterSample (hP : FilterInvariant P) (hs : P s) {b : BankIdx} {axis : Axis}
    (h : filterSample b axis s = .next t) : P t := by
  cases h
  exact hP.congr (hP.of_applyBank hs b axis s.opnd) rfl

theorem of_exec (hP : FilterInvariant P) (hs : P s) {i : Instr} (h : exec i s = .next t) : P t := by
  cases i with
  | cfg idx timer ch n => exact hP.congr hs (execCfg_filters h)
  | beginUpdate => cases h; exact hP.congr hs (beginOutcome_filters s)
  | tx idx value tr => exact hP.congr hs (execTx_filters h)
  | go => exact hP.congr hs (execGo_filters h)
  | gett idx => cases h; exact hP.congr hs rfl
  | rpminit => exact hP.of_execRpminit hs h
  | rpmupd => exact hP.of_execRpmupd hs h
  | fgyro axis => exact hP.of_filterSample hs h
  | fdterm axis => exact hP.of_filterSample hs h

theorem of_runAct (hP : FilterInvariant P) (hs : P s) {a : MainAct} (h : runAct a s = .next t) : P t := by
  have kept : ∀ {u : State}, u.filters = s.filters → P u := fun hu => hP.congr hs hu
  cases a with
  | c1 | b1 | t0 | t1 | g0 =>
    simp only [runAct] at h
    split at h <;> cases h <;> exact kept rfl
  | c2 idx timer ch n =>
    simp only [runAct] at h
    split at h
    · cases h; exact kept rfl
    · next u hu => cases h; exact kept (findOrInsertGroup_filters (t := u) hu)
  | rpmInit => exact hP.of_execRpminit hs h
  | rpmUpd => exact hP.of_execRpmupd hs h
  | filt => exact hP.of_filterSample hs h
  | _ => cases h; exact kept (by simp [State.filters])

theorem of_runMove (hP : FilterInvariant P) (hs : P s) {mv : Move} (h : runMove exec mv s = .next t) : P t := by
  have kept : ∀ {u : State}, u.filters = s.filters → P u := fun hu => hP.congr hs hu
  cases mv with
  | op w x =>
    obtain ⟨-, ⟨i, -, hi⟩ | rfl⟩ := issue_next h
    · exact hP.of_exec (s := withOpnd x s) (kept rfl) hi
    · exact kept rfl
  | start w x =>
    obtain ⟨-, ⟨i, -, hi⟩ | rfl⟩ := issue_next (k := fun i u => .next (startOp i u)) h
    · cases hi; exact kept rfl
    · exact kept rfl
  | act =>
    obtain ⟨a, rest, -, ha⟩ := runNextAct_next h
    exact hP.of_runAct (s := { s with micro := rest }) (kept rfl) ha
  | handler i tm =>
    obtain ⟨-, rfl⟩ := runHandler_next h
    exact kept (by simp [State.filters])
  | outBeat i =>
    obtain ⟨-, -, rfl⟩ := runOutBeat_next h
    exact kept (by simp [State.filters])
  | inBeat i tm =>
    obtain ⟨-, -, rfl⟩ := runInBeat_next h
    exact kept (by simp [State.filters])
  | groupBeat g => exact kept (runGroupBeat_filters h)
  | collab c => cases h; exact kept rfl

theorem of_step (hP : FilterInvariant P) (hs : P s) (h : step s = .next t) : P t := by
  obtain ⟨-, ⟨-, rfl⟩ | ⟨mv, rest, -, hmv⟩⟩ := step_next h
  · exact hs
  · exact hP.of_runMove (s := { s with moves := rest }) (hP.congr hs rfl) hmv

end FilterInvariant

/-! ### The three invariants (R231, R234, R248, R249, R322) -/

section Invariants

variable {s t : State}

theorem bank_of_filters_eq (h : t.filters = s.filters) : t.bank = s.bank := congrArg (fun f => f.2.1) h

theorem coefAt_of_filters_eq (h : t.filters = s.filters) (b : BankIdx) (axis : Axis) (m : MotorIdx) (k : Nat) :
    coefAt t b axis m k = coefAt s b axis m k := by
  simp only [coefAt, bank_of_filters_eq h]

theorem delayAt_of_filters_eq (h : t.filters = s.filters) (b : BankIdx) (axis : Axis) (m : MotorIdx) (k : Nat) :
    delayAt t b axis m k = delayAt s b axis m k := by
  simp only [delayAt, bank_of_filters_eq h]

theorem cfg_of_filters_eq (h : t.filters = s.filters) : t.cfg = s.cfg := congrArg Prod.fst h

theorem sched_of_filters_eq (h : t.filters = s.filters) : t.sched = s.sched := congrArg (fun f => f.2.2) h

theorem coefAt_recomputeOne {c : Cursor} (hc : s.sched.cur = some c) (b : BankIdx) (axis : Axis) (m : MotorIdx) (k : Nat) :
    coefAt (recomputeOne s) b axis m k =
      if b = c.b ∧ m = c.m ∧ k = c.h then some (bankCoeffs s.cfg c.b (tripleFreq s c)) else coefAt s b axis m k := by
  rw [recomputeOne_of_cur hc, coefAt_advance, coefAt_recomputeAt]

theorem delayAt_recomputeOne (s : State) (b : BankIdx) (axis : Axis) (m : MotorIdx) (k : Nat) :
    delayAt (recomputeOne s) b axis m k = delayAt s b axis m k := by
  unfold recomputeOne
  split
  · rw [delayAt_advance, delayAt_recomputeAt]
  · rfl

@[simp] theorem smoothAll_inited (s : State) : (smoothAll s).sched.inited = s.sched.inited := rfl

@[simp] theorem smoothAll_total (s : State) : (smoothAll s).sched.total = s.sched.total := rfl

@[simp] theorem smoothAll_budget (s : State) : (smoothAll s).sched.budget = s.sched.budget := rfl

@[simp] theorem smoothAll_cur (s : State) : (smoothAll s).sched.cur = s.sched.cur := rfl

/-- RPMINIT and a recomputation write the same coefficients on every axis (R235, R248). -/
theorem axesCloned_filterInvariant : FilterInvariant AxesCloned where
  congr hs h b m k := by
    simp only [coefAt_of_filters_eq h]
    exact hs b m k
  initialise {s} hs b m k := by
    simp only [coefAt_rpmInitialise]
    split
    · exact ⟨rfl, rfl⟩
    · exact hs b m k
  smooth {s} hs b m k := by
    simp only [coefAt_smoothAll]
    exact hs b m k
  recompute {s} hs b m k := by
    cases hc : s.sched.cur with
    | none =>
      rw [recomputeOne_of_no_cur hc]
      exact hs b m k
    | some c =>
      simp only [coefAt_recomputeOne hc]
      split
      · exact ⟨rfl, rfl⟩
      · exact hs b m k
  remember b axis m h d hs b' m' k := by
    simp only [coefAt_setDelay]
    exact hs b' m' k

/-- RPMINIT writes every notch in use, and no later change takes a value away (R234, R322). -/
theorem notchesWritten_filterInvariant : FilterInvariant NotchesWritten where
  congr hs h := by
    simp only [NotchesWritten, cfg_of_filters_eq h, sched_of_filters_eq h, coefAt_of_filters_eq h, delayAt_of_filters_eq h]
    exact hs
  initialise {s} _ _ b axis m k hm hk := by
    rw [coefAt_rpmInitialise, delayAt_rpmInitialise, if_pos ⟨hm, hk⟩, if_pos ⟨hm, hk⟩]
    exact ⟨Option.some_ne_none _, Option.some_ne_none _⟩
  smooth {s} hs hi b axis m k hm hk := by
    rw [coefAt_smoothAll, delayAt_smoothAll]
    exact hs hi b axis m k hm hk
  recompute {s} hs hi b axis m k hm hk := by
    rw [recomputeOne_inited] at hi
    rw [recomputeOne_cfg] at hm hk
    obtain ⟨hcoef, hdelay⟩ := hs hi b axis m k hm hk
    rw [delayAt_recomputeOne]
    refine ⟨?_, hdelay⟩
    cases hc : s.sched.cur with
    | none => rwa [recomputeOne_of_no_cur hc]
    | some c =>
      rw [coefAt_recomputeOne hc]
      split
      · exact Option.some_ne_none _
      · exact hcoef
  remember {s} b axis m h d hs hi b' axis' m' k hm hk := by
    obtain ⟨hcoef, hdelay⟩ := hs hi b' axis' m' k hm hk
    rw [coefAt_setDelay, delayAt_setDelay]
    refine ⟨hcoef, ?_⟩
    split
    · exact Option.some_ne_none _
    · exact hdelay

end Invariants

/-! ### Where the cursor goes (R231, R249) -/

/-- The triple that Advance puts the cursor at (R249). -/
def nextCursor (cfg : Cfg) (c : Cursor) : Cursor :=
  if c.h + 1 = cfg.harmonics.get c.b then
    if c.b = 0 ∧ 0 < cfg.harmonics.get 1 then { m := c.m, b := 1, h := 0 }
    else { m := nextMotor cfg c.m, b := firstBank cfg, h := 0 }
  else { m := c.m, b := c.b, h := c.h + 1 }

theorem recomputeOne_cur {s : State} {c : Cursor} (h : s.sched.cur = some c) :
    (recomputeOne s).sched.cur = some (nextCursor s.cfg c) := by
  rw [recomputeOne_of_cur h, advance_cur, recomputeAt_cfg]
  rfl

section Cursor

variable {cfg : Cfg} {c : Cursor}

theorem firstBank_enabled {b : BankIdx} (h : 0 < cfg.harmonics.get b) : 0 < cfg.harmonics.get (firstBank cfg) := by
  unfold firstBank
  split
  · assumption
  · next h0 =>
    obtain rfl | rfl := (show ∀ b : BankIdx, b = 0 ∨ b = 1 by decide) b
    · exact absurd h h0
    · exact h

theorem nextMotor_lt {m : MotorIdx} (h : m.val < cfg.motorCount) : (nextMotor cfg m).val < cfg.motorCount :=
  (Nat.mod_le _ 16).trans_lt (Nat.mod_lt _ (Nat.zero_lt_of_lt h))

theorem nextCursor_inRange (h : c.inRange cfg) : (nextCursor cfg c).inRange cfg := by
  obtain ⟨hm, hh⟩ := h
  unfold nextCursor
  split
  · split
    · next hbank => exact ⟨hm, hbank.2⟩
    · exact ⟨nextMotor_lt hm, firstBank_enabled (Nat.zero_lt_of_lt hh)⟩
  · exact ⟨hm, by dsimp only; omega⟩

theorem firstTriple_cases (cfg : Cfg) :
    (firstTriple cfg = none ∧ totalOf cfg = 0) ∨ ∃ c, firstTriple cfg = some c ∧ c.inRange cfg := by
  unfold firstTriple
  split
  · next h => exact .inl ⟨rfl, h⟩
  · next h =>
    have hne : cfg.motorCount ≠ 0 ∧ cfg.harmonics.get 0 + cfg.harmonics.get 1 ≠ 0 := mul_ne_zero_iff.1 h
    obtain ⟨hmotors, hharmonics⟩ := hne
    refine .inr ⟨_, rfl, Nat.pos_of_ne_zero hmotors, ?_⟩
    obtain h0 | h1 : 0 < cfg.harmonics.get 0 ∨ 0 < cfg.harmonics.get 1 := by omega
    · exact firstBank_enabled h0
    · exact firstBank_enabled h1

end Cursor

/-- RPMINIT puts the cursor at the first triple, and Advance at another one (`nextCursor_inRange`). -/
theorem cursorAtTriple_filterInvariant : FilterInvariant CursorAtTriple where
  congr hs h := by
    simp only [CursorAtTriple, cfg_of_filters_eq h, sched_of_filters_eq h]
    exact hs
  initialise {s} _ _ := by
    refine ⟨rfl, ?_⟩
    obtain ⟨hnone, htotal⟩ | ⟨c, hsome, hc⟩ := firstTriple_cases s.cfg
    · have hcur : (rpmInitialise s).sched.cur = none := hnone
      rw [hcur]
      exact htotal
    · have hcur : (rpmInitialise s).sched.cur = some c := hsome
      rw [hcur]
      exact hc
  smooth {s} hs := by
    simp only [CursorAtTriple, smoothAll_cfg, smoothAll_inited, smoothAll_total, smoothAll_cur]
    exact hs
  recompute {s} hs hi := by
    rw [recomputeOne_inited] at hi
    obtain ⟨htotal, hcur⟩ := hs hi
    rw [recomputeOne_cfg, recomputeOne_total]
    refine ⟨htotal, ?_⟩
    cases hc : s.sched.cur with
    | none =>
      rw [recomputeOne_of_no_cur hc]
      rw [hc] at hcur ⊢
      exact hcur
    | some c =>
      rw [hc] at hcur
      rw [recomputeOne_cur hc]
      exact nextCursor_inRange hcur
  remember b axis m h d hs := by
    simp only [CursorAtTriple, setDelay_cfg, setDelay_sched]
    exact hs

/-- Settles O50: nothing else writes a coefficient (`axesCloned_filterInvariant`). -/
theorem stepKeepsAxesCloned : Obligations.StepKeepsAxesCloned := fun _ _ => axesCloned_filterInvariant.of_step

/-- Settles O51: `inited` is set by what writes the notches (`notchesWritten_filterInvariant`). -/
theorem stepKeepsNotchesWritten : Obligations.StepKeepsNotchesWritten := fun _ _ => notchesWritten_filterInvariant.of_step

/-- Settles O52: the cursor is written by RPMINIT and by Advance only (`cursorAtTriple_filterInvariant`). -/
theorem stepKeepsCursorAtTriple : Obligations.StepKeepsCursorAtTriple := fun _ _ => cursorAtTriple_filterInvariant.of_step

/-! ## The cursor as a position (R231, R249, R252) -/

/-- The number of triples of one motor (R231). -/
def slotsOf (cfg : Cfg) : Nat := cfg.harmonics.get 0 + cfg.harmonics.get 1

/-- The number of a cursor's triple among those of its motor (R231). -/
def Cursor.slot (cfg : Cfg) (c : Cursor) : Nat := (if c.b = 1 then cfg.harmonics.get 0 else 0) + c.h

theorem totalOf_eq (cfg : Cfg) : totalOf cfg = cfg.motorCount * slotsOf cfg := rfl

theorem motorCount_le_of_cfgLegal {cfg : Cfg} (h : CfgLegal cfg) : cfg.motorCount ≤ 16 := by
  obtain ⟨⟨-, hmax⟩, -, -, -, hcount, -⟩ := h
  exact hcount.trans hmax

section Position

variable {cfg : Cfg} {c d : Cursor}

theorem Cursor.pos_eq (cfg : Cfg) (c : Cursor) : c.pos cfg = c.m.val * slotsOf cfg + c.slot cfg :=
  Nat.add_assoc _ _ _

theorem Cursor.bank_cases (c : Cursor) : c.b = 0 ∨ c.b = 1 := (show ∀ b : BankIdx, b = 0 ∨ b = 1 by decide) c.b

/-- The triples of the gyro bank come first, then those of the D-term bank (R231). -/
theorem Cursor.slot_cases (h : c.inRange cfg) :
    (c.b = 0 ∧ c.slot cfg = c.h ∧ c.h < cfg.harmonics.get 0) ∨
      (c.b = 1 ∧ c.slot cfg = cfg.harmonics.get 0 + c.h ∧ c.h < cfg.harmonics.get 1) := by
  obtain ⟨-, hh⟩ := h
  obtain hb | hb := c.bank_cases
  · exact .inl ⟨hb, by simp [Cursor.slot, hb], hb ▸ hh⟩
  · exact .inr ⟨hb, by simp [Cursor.slot, hb], hb ▸ hh⟩

theorem Cursor.slot_lt (h : c.inRange cfg) : c.slot cfg < slotsOf cfg := by
  unfold slotsOf
  obtain ⟨-, hslot, hh⟩ | ⟨-, hslot, hh⟩ := Cursor.slot_cases h <;> omega

theorem Cursor.pos_lt_totalOf (h : c.inRange cfg) : c.pos cfg < totalOf cfg := by
  rw [Cursor.pos_eq, totalOf_eq]
  calc c.m.val * slotsOf cfg + c.slot cfg
    _ < c.m.val * slotsOf cfg + slotsOf cfg := Nat.add_lt_add_left (Cursor.slot_lt h) _
    _ = (c.m.val + 1) * slotsOf cfg := (Nat.succ_mul _ _).symm
    _ ≤ cfg.motorCount * slotsOf cfg := Nat.mul_le_mul_right _ h.1

/-- Two triples of one motor with the same number are in the same bank and of the same harmonic. -/
theorem Cursor.eq_of_slot_eq (hc : c.inRange cfg) (hd : d.inRange cfg) (hm : c.m = d.m) (h : c.slot cfg = d.slot cfg) :
    c = d := by
  have hsame : c.b = d.b ∧ c.h = d.h := by
    obtain ⟨hb, hslot, hh⟩ | ⟨hb, hslot, hh⟩ := Cursor.slot_cases hc <;>
      obtain ⟨hb', hslot', hh'⟩ | ⟨hb', hslot', hh'⟩ := Cursor.slot_cases hd
    · exact ⟨hb.trans hb'.symm, by omega⟩
    · omega
    · omega
    · exact ⟨hb.trans hb'.symm, by omega⟩
  obtain ⟨hb, hh⟩ := hsame
  cases c
  cases d
  cases hm
  cases hb
  cases hh
  rfl

/-- Different triples have different positions (R231). -/
theorem Cursor.eq_of_pos_eq (hc : c.inRange cfg) (hd : d.inRange cfg) (h : c.pos cfg = d.pos cfg) : c = d := by
  have hslot : ∀ {e : Cursor}, e.inRange cfg → e.pos cfg / slotsOf cfg = e.m.val ∧ e.pos cfg % slotsOf cfg = e.slot cfg := by
    intro e he
    have hlt := Cursor.slot_lt he
    rw [Cursor.pos_eq, Nat.mul_comm, Nat.mul_add_div (Nat.zero_lt_of_lt hlt), Nat.mul_add_mod, Nat.div_eq_of_lt hlt,
      Nat.mod_eq_of_lt hlt]
    exact ⟨rfl, rfl⟩
  obtain ⟨hmc, hsc⟩ := hslot hc
  obtain ⟨hmd, hsd⟩ := hslot hd
  exact Cursor.eq_of_slot_eq hc hd (Fin.ext (by rw [← hmc, ← hmd, h])) (by rw [← hsc, ← hsd, h])

theorem Cursor.pos_mod (h : c.inRange cfg) : c.pos cfg = c.pos cfg % totalOf cfg :=
  (Nat.mod_eq_of_lt (Cursor.pos_lt_totalOf h)).symm

theorem nextMotor_val (hcount : cfg.motorCount ≤ 16) {m : MotorIdx} (hm : m.val < cfg.motorCount) :
    (nextMotor cfg m).val = (m.val + 1) % cfg.motorCount :=
  Nat.mod_eq_of_lt ((Nat.mod_lt _ (Nat.zero_lt_of_lt hm)).trans_le hcount)

theorem firstBank_slot (cfg : Cfg) (m : MotorIdx) : Cursor.slot cfg { m := m, b := firstBank cfg, h := 0 } = 0 := by
  unfold Cursor.slot firstBank
  split
  · simp
  · next hnone => simpa using hnone

/-- Within a motor Advance goes to the next triple; from the last one it goes to the first of the next motor (R249). -/
theorem nextCursor_slot (h : c.inRange cfg) :
    (c.slot cfg + 1 < slotsOf cfg ∧ (nextCursor cfg c).m = c.m ∧ (nextCursor cfg c).slot cfg = c.slot cfg + 1) ∨
      (c.slot cfg + 1 = slotsOf cfg ∧ (nextCursor cfg c).m = nextMotor cfg c.m ∧ (nextCursor cfg c).slot cfg = 0) := by
  have hslots : slotsOf cfg = cfg.harmonics.get 0 + cfg.harmonics.get 1 := rfl
  have hcases := Cursor.slot_cases h
  obtain ⟨hm, hh⟩ := h
  unfold nextCursor
  split
  · next hlast =>
    split
    · next hbank =>
      obtain ⟨hb, hnext⟩ := hbank
      rw [hb] at hlast
      simp only [hb, true_and, zero_ne_one, false_and, or_false] at hcases
      have hfirst : Cursor.slot cfg { m := c.m, b := 1, h := 0 } = cfg.harmonics.get 0 := rfl
      exact .inl ⟨by omega, rfl, by omega⟩
    · next hbank =>
      refine .inr ⟨?_, rfl, firstBank_slot cfg _⟩
      obtain ⟨hb, hslot, -⟩ | ⟨hb, hslot, -⟩ := hcases
      · have hnone : ¬ 0 < cfg.harmonics.get 1 := fun hpos => hbank ⟨hb, hpos⟩
        rw [hb] at hlast
        omega
      · rw [hb] at hlast
        omega
  · next hmore =>
    have hslot : Cursor.slot cfg { m := c.m, b := c.b, h := c.h + 1 } = c.slot cfg + 1 := (Nat.add_assoc _ _ _).symm
    have hin : Cursor.inRange cfg { m := c.m, b := c.b, h := c.h + 1 } := ⟨hm, by dsimp only; omega⟩
    exact .inl ⟨hslot ▸ Cursor.slot_lt hin, rfl, hslot⟩

/-- Advance goes one position up, from the last one back to 0 (R249). -/
theorem nextCursor_pos (hcount : cfg.motorCount ≤ 16) (h : c.inRange cfg) :
    (nextCursor cfg c).pos cfg = (c.pos cfg + 1) % totalOf cfg := by
  obtain ⟨-, hm, hslot⟩ | ⟨hlast, hm, hslot⟩ := nextCursor_slot h
  · have hpos : (nextCursor cfg c).pos cfg = c.pos cfg + 1 := by
      rw [Cursor.pos_eq, Cursor.pos_eq, hm, hslot, Nat.add_assoc]
    rw [Cursor.pos_mod (nextCursor_inRange h), hpos]
  · rw [Cursor.pos_eq, Cursor.pos_eq, hm, hslot, nextMotor_val hcount h.1, Nat.add_assoc, hlast, Nat.add_zero,
      ← Nat.succ_mul, totalOf_eq, Nat.mul_mod_mul_right]

end Position

/-! ### Counting ticks (R240, R249) -/

/-- The scheduler runs under `cfg` with the budget `K`, and its cursor is at position `p`, counted on past the last triple. -/
structure ScheduledAt (cfg : Cfg) (K p : Nat) (s : State) : Prop where
  cfg_eq : s.cfg = cfg
  inited : s.sched.inited = true
  total : s.sched.total = totalOf cfg
  budget : s.sched.budget = K
  cursor : ∃ c, s.sched.cur = some c ∧ c.inRange cfg ∧ c.pos cfg = p % totalOf cfg

theorem scheduledAt_of_cursorAtTriple {s : State} {c : Cursor} (hi : s.sched.inited = true) (hs : CursorAtTriple s)
    (hc : s.sched.cur = some c) : c.inRange s.cfg ∧ ScheduledAt s.cfg s.sched.budget (c.pos s.cfg) s := by
  obtain ⟨htotal, hcur⟩ := hs hi
  rw [hc] at hcur
  exact ⟨hcur, rfl, hi, htotal, rfl, c, hc, hcur, Cursor.pos_mod hcur⟩

/-- Where there is a triple there is a cursor (R231, R234). -/
theorem cur_of_cursorAtTriple {s : State} {c : Cursor} (hi : s.sched.inited = true) (hs : CursorAtTriple s)
    (hc : c.inRange s.cfg) : ∃ d, s.sched.cur = some d := by
  obtain ⟨htotal, hcur⟩ := hs hi
  cases hd : s.sched.cur with
  | some d => exact ⟨d, rfl⟩
  | none =>
    rw [hd] at hcur
    have hpos := Cursor.pos_lt_totalOf hc
    rw [← htotal, hcur] at hpos
    exact absurd hpos (Nat.not_lt_zero _)

namespace ScheduledAt

variable {cfg : Cfg} {K p : Nat} {s : State}

theorem smoothed (h : ScheduledAt cfg K p s) : ScheduledAt cfg K p (smoothAll s) :=
  ⟨by rw [smoothAll_cfg, h.cfg_eq], by rw [smoothAll_inited, h.inited], by rw [smoothAll_total, h.total],
    by rw [smoothAll_budget, h.budget], by rw [smoothAll_cur]; exact h.cursor⟩

theorem recomputed (hcount : cfg.motorCount ≤ 16) (h : ScheduledAt cfg K p s) :
    ScheduledAt cfg K (p + 1) (recomputeOne s) := by
  obtain ⟨c, hc, hin, hpos⟩ := h.cursor
  refine ⟨by rw [recomputeOne_cfg, h.cfg_eq], by rw [recomputeOne_inited, h.inited], by rw [recomputeOne_total, h.total],
    by rw [recomputeOne_budget, h.budget], nextCursor cfg c, ?_, nextCursor_inRange hin, ?_⟩
  · rw [recomputeOne_cur hc, h.cfg_eq]
  · rw [nextCursor_pos hcount hin, hpos, Nat.mod_add_mod]

theorem iterated (hcount : cfg.motorCount ≤ 16) (h : ScheduledAt cfg K p s) (n : Nat) :
    ScheduledAt cfg K (p + n) (recomputeOne^[n] s) := by
  induction n with
  | zero => exact h
  | succ n ih =>
    rw [Function.iterate_succ_apply']
    exact ih.recomputed hcount

/-- There is a triple, so that a tick recomputes (R240). -/
theorem rpmTick_eq (h : ScheduledAt cfg K p s) : rpmTick s = recomputeOne^[K] (smoothAll s) := by
  obtain ⟨c, -, hin, -⟩ := h.cursor
  rw [rpmTick_of_total_pos, h.budget]
  rw [h.total]
  exact Nat.zero_lt_of_lt (Cursor.pos_lt_totalOf hin)

theorem ticked (hcount : cfg.motorCount ≤ 16) (h : ScheduledAt cfg K p s) (n : Nat) :
    ScheduledAt cfg K (p + n * K) (rpmTick^[n] s) := by
  induction n with
  | zero => simpa using h
  | succ n ih =>
    rw [Function.iterate_succ_apply', ih.rpmTick_eq, Nat.succ_mul, ← Nat.add_assoc]
    exact ih.smoothed.iterated hcount K

/-- `RPMUPD` again and again is a run of ticks (R240). -/
theorem exec_rpmupd (hcount : cfg.motorCount ≤ 16) (h : ScheduledAt cfg K p s) (n : Nat) :
    exec .rpmupd (rpmTick^[n] s) = .next (rpmTick^[n + 1] s) := by
  rw [exec_rpmupd_of_inited (h.ticked hcount n).inited, Function.iterate_succ_apply']

end ScheduledAt

/-- Counting on from a position below `total` comes back to it exactly after a multiple of `total`. -/
theorem add_mod_eq_self_iff {p total n : Nat} (hp : p < total) : (p + n) % total = p ↔ total ∣ n := by
  rw [← Nat.add_modEq_left_iff (a := p), Nat.ModEq, Nat.mod_eq_of_lt hp]

/-- Settles O28: a tick takes the position `K` on (`ScheduledAt.ticked`), and a position has one triple
(`Cursor.eq_of_pos_eq`). -/
theorem cursorAfterTicks : Obligations.CursorAfterTicks := by
  intro s c n hlegal hi hs hc
  have hcount := motorCount_le_of_cfgLegal hlegal
  obtain ⟨hin, hstart⟩ := scheduledAt_of_cursorAtTriple hi hs hc
  obtain ⟨d, hd, hdin, hdpos⟩ := (hstart.ticked hcount n).cursor
  refine ⟨fun k => rpmTick^[k] s, d, rfl, fun k _ => hstart.exec_rpmupd hcount k, hd, hdin, hdpos, ?_⟩
  rw [← add_mod_eq_self_iff (Cursor.pos_lt_totalOf hin), ← hdpos]
  exact ⟨congrArg (Cursor.pos s.cfg), Cursor.eq_of_pos_eq hdin hin⟩

/-- From any position below `total` any other is less than `total` steps on. -/
theorem exists_steps_to {p q total : Nat} (hp : p < total) (hq : q < total) : ∃ n, n < total ∧ (p + n) % total = q := by
  obtain hle | hlt := le_or_gt p q
  · refine ⟨q - p, by omega, ?_⟩
    rw [Nat.add_sub_cancel' hle, Nat.mod_eq_of_lt hq]
  · refine ⟨q + total - p, by omega, ?_⟩
    rw [Nat.add_sub_cancel' (by omega), Nat.add_mod_right, Nat.mod_eq_of_lt hq]

/-- Settles O29: the triple is some `n` positions on, which is `n / K` whole ticks and `n % K` recomputations of the next. -/
theorem everyTripleIsRecomputed : Obligations.EveryTripleIsRecomputed := by
  intro s c hlegal hi hs hK hin
  have hcount := motorCount_le_of_cfgLegal hlegal
  obtain ⟨d, hd⟩ := cur_of_cursorAtTriple hi hs hin
  obtain ⟨hdin, hstart⟩ := scheduledAt_of_cursorAtTriple hi hs hd
  obtain ⟨n, hn, hreach⟩ := exists_steps_to (Cursor.pos_lt_totalOf hdin) (Cursor.pos_lt_totalOf hin)
  have hticks := hstart.ticked hcount (n / s.sched.budget)
  obtain ⟨e, he, hein, hepos⟩ := (hticks.smoothed.iterated hcount (n % s.sched.budget)).cursor
  rw [Nat.add_assoc, Nat.mul_comm, Nat.div_add_mod, hreach] at hepos
  obtain rfl := Cursor.eq_of_pos_eq hein hin hepos
  refine ⟨fun k => rpmTick^[k] s, n / s.sched.budget, n % s.sched.budget, rfl, fun k _ => hstart.exec_rpmupd hcount k,
    (Nat.div_mul_le_self _ _).trans_lt hn, Nat.mod_lt _ hK, he, ?_⟩
  exact (Function.iterate_succ_apply' _ _ _).trans hticks.rpmTick_eq

/-! ## A filter call (R255 to R257) -/

/-! ### The notches a sample passes, in order -/

/-- The motors in use are the first `motorCount` (R21). -/
theorem motorsOf_eq_map_finRange {cfg : Cfg} (hcount : cfg.motorCount ≤ 16) :
    motorsOf cfg = (List.finRange cfg.motorCount).map (Fin.castLE hcount) := by
  refine List.Pairwise.eq_of_mem_iff (r := (· < ·)) ((List.pairwise_lt_finRange 16).filter _) ?_ fun i => ?_
  · exact List.pairwise_map.2 (List.pairwise_lt_finRange _)
  · rw [mem_motorsOf, List.mem_map]
    exact ⟨fun hi => ⟨⟨i.val, hi⟩, List.mem_finRange _, rfl⟩, fun ⟨j, _, hj⟩ => hj ▸ j.isLt⟩

theorem motorsOf_getElem? {cfg : Cfg} (hcount : cfg.motorCount ≤ 16) {m : MotorIdx} (hm : m.val < cfg.motorCount) :
    (motorsOf cfg)[m.val]? = some m := by
  rw [motorsOf_eq_map_finRange hcount, List.getElem?_map, List.getElem?_eq_getElem (by simpa using hm),
    List.getElem_finRange]
  rfl

/-- In a table of rows of one length, the element of a row and a column. -/
theorem getElem?_flatMap_range {α β : Type} (f : α → Nat → β) (n : Nat) (as : List α) {i h : Nat} (hh : h < n) :
    (as.flatMap fun a => (List.range n).map (f a))[i * n + h]? = as[i]?.map fun a => f a h := by
  induction as generalizing i with
  | nil => simp
  | cons a as ih =>
    rw [List.flatMap_cons]
    cases i with
    | zero => rw [List.getElem?_append_left (by simpa using hh)]; simp [hh]
    | succ i =>
      have hrow : ((List.range n).map (f a)).length = n := by simp
      have hindex : (i + 1) * n + h - n = i * n + h := by rw [Nat.succ_mul]; omega
      rw [List.getElem?_append_right (by rw [hrow, Nat.succ_mul]; omega), hrow, hindex, ih, List.getElem?_cons_succ]

section Order

variable {cfg : Cfg} {b : BankIdx} {m : MotorIdx} {h : Nat}

theorem mem_notchesOf : (m, h) ∈ notchesOf cfg b ↔ m.val < cfg.motorCount ∧ h < cfg.harmonics.get b := by
  simp [notchesOf, mem_motorsOf]

/-- Motor outer, harmonic inner (R257). -/
theorem notchesOf_getElem? (hcount : cfg.motorCount ≤ 16) (hm : m.val < cfg.motorCount) (hh : h < cfg.harmonics.get b) :
    (notchesOf cfg b)[m.val * cfg.harmonics.get b + h]? = some (m, h) := by
  rw [notchesOf, getElem?_flatMap_range (fun m h => (m, h)) _ _ hh, motorsOf_getElem? hcount hm]
  rfl

theorem nodup_notchesOf (cfg : Cfg) (b : BankIdx) : (notchesOf cfg b).Nodup := by
  refine List.nodup_flatMap.2 ⟨fun m _ => List.nodup_range.map fun h h' he => congrArg Prod.snd he, ?_⟩
  refine (nodup_motorsOf cfg).imp fun {m m'} hne p hp hp' => ?_
  obtain ⟨h, -, rfl⟩ := List.mem_map.1 hp
  obtain ⟨h', -, he⟩ := List.mem_map.1 hp'
  exact hne (congrArg Prod.fst he).symm

theorem length_notchesOf (hcount : cfg.motorCount ≤ 16) :
    (notchesOf cfg b).length = cfg.motorCount * cfg.harmonics.get b := by
  simp [notchesOf, motorsOf_eq_map_finRange hcount, Function.comp_def]

end Order

/-! ### A sample on its way -/

section Filter

variable {b : BankIdx} {axis : Axis}

theorem filterThrough_append (k : Nat) (ns ms : List (MotorIdx × Nat)) (x : Num) (s : State) :
    filterThrough b axis k (ns ++ ms) x s =
      filterThrough b axis (k + ns.length) ms (filterThrough b axis k ns x s).1 (filterThrough b axis k ns x s).2 := by
  induction ns generalizing k x s with
  | nil => rfl
  | cons p ns ih =>
    rw [List.cons_append, List.length_cons, ← Nat.add_assoc, Nat.add_right_comm]
    exact ih _ _ _

theorem filterThrough_free (k : Nat) (ns : List (MotorIdx × Nat)) (x : Num) (s : State) :
    (filterThrough b axis k ns x s).2.free = s.free := by
  rw [filterThrough_state]

/-- The coefficients of a notch do not change while a sample is on its way (R257). -/
theorem notchCoef_filterThrough (k : Nat) (ns : List (MotorIdx × Nat)) (x : Num) (s : State) (j : Nat)
    (p : MotorIdx × Nat) : notchCoef (filterThrough b axis k ns x s).2 b axis j p = notchCoef s b axis j p := by
  rw [notchCoef, coefAt_filterThrough, filterThrough_free]
  rfl

/-- A notch not passed yet has the sample memory it had (R257). -/
theorem notchDelay_filterThrough (k : Nat) (ns : List (MotorIdx × Nat)) (x : Num) (s : State) (j : Nat)
    {p : MotorIdx × Nat} (hp : p ∉ ns) :
    notchDelay (filterThrough b axis k ns x s).2 b axis j p = notchDelay s b axis j p := by
  rw [notchDelay, delayAt_filterThrough_of_not_mem _ _ _ _ _ _ _ _ _ _ fun ⟨_, _, hmem⟩ => hp hmem, filterThrough_free]
  rfl

/-- The sample before notch number `k` of a filter call. -/
def sampleAt (s : State) (b : BankIdx) (axis : Axis) (x : Num) (k : Nat) : Num :=
  (filterThrough b axis 0 ((notchesOf s.cfg b).take k) x s).1

/-- What notch number `k` of a filter call makes of the sample and of its sample memory (R257). -/
def notchStep (s : State) (b : BankIdx) (axis : Axis) (x : Num) (k : Nat) (p : MotorIdx × Nat) : Num × Delay :=
  Config.biquadApply (notchCoef s b axis k p) (notchDelay s b axis k p) (sampleAt s b axis x k)

variable {s : State} {k : Nat} {p : MotorIdx × Nat}

/-- A sample passes each notch once (R257). -/
theorem not_mem_take_and_drop_notchesOf (hp : (notchesOf s.cfg b)[k]? = some p) :
    p ∉ (notchesOf s.cfg b).take k ∧ p ∉ (notchesOf s.cfg b).drop (k + 1) := by
  obtain ⟨hk, rfl⟩ := List.getElem?_eq_some_iff.1 hp
  have hnodup := nodup_notchesOf s.cfg b
  rw [← List.take_append_drop k (notchesOf s.cfg b), List.drop_eq_getElem_cons hk, List.nodup_middle, List.nodup_cons,
    List.mem_append, not_or] at hnodup
  exact hnodup.1

/-- One notch in the cascade: the sample goes on and the sample memory is stored (R257). -/
theorem filterThrough_take_succ (hp : (notchesOf s.cfg b)[k]? = some p) (x : Num) :
    filterThrough b axis 0 ((notchesOf s.cfg b).take (k + 1)) x s =
      ((notchStep s b axis x k p).1,
        setDelay b axis p.1 p.2 (notchStep s b axis x k p).2
          (filterThrough b axis 0 ((notchesOf s.cfg b).take k) x s).2) := by
  obtain ⟨hk, -⟩ := List.getElem?_eq_some_iff.1 hp
  obtain ⟨hbefore, -⟩ := not_mem_take_and_drop_notchesOf hp
  rw [List.take_add_one, hp, Option.toList_some, filterThrough_append, List.length_take_of_le hk.le, Nat.zero_add]
  simp only [filterThrough, notchCoef_filterThrough, notchDelay_filterThrough _ _ _ _ _ hbefore]
  rfl

theorem sampleAt_zero (s : State) (b : BankIdx) (axis : Axis) (x : Num) : sampleAt s b axis x 0 = x := rfl

theorem sampleAt_succ (hp : (notchesOf s.cfg b)[k]? = some p) (x : Num) :
    sampleAt s b axis x (k + 1) = (notchStep s b axis x k p).1 := by
  rw [sampleAt, filterThrough_take_succ hp]

/-- After the call every notch passed holds the sample memory its own step left (R257). -/
theorem delayAt_filterThrough_notchesOf (hp : (notchesOf s.cfg b)[k]? = some p) (x : Num) :
    delayAt (filterThrough b axis 0 (notchesOf s.cfg b) x s).2 b axis p.1 p.2 = some (notchStep s b axis x k p).2 := by
  obtain ⟨-, hafter⟩ := not_mem_take_and_drop_notchesOf hp
  rw [← List.take_append_drop (k + 1) (notchesOf s.cfg b), filterThrough_append,
    delayAt_filterThrough_of_not_mem _ _ _ _ _ _ _ _ _ _ fun ⟨_, _, hmem⟩ => hafter hmem,
    filterThrough_take_succ hp, delayAt_setDelay, if_pos ⟨rfl, rfl, rfl, rfl⟩]

/-- An entry that nothing has written stands among the notches of the call (R72). -/
theorem notchesLack_notchesOf_iff :
    notchesLack s b axis (notchesOf s.cfg b) = true ↔
      ∃ m h, (m.val < s.cfg.motorCount ∧ h < s.cfg.harmonics.get b) ∧
        (coefAt s b axis m h = none ∨ delayAt s b axis m h = none) := by
  simp [notchesLack, mem_notchesOf]

/-- The state after a filtered sample (R121, R257). -/
def filtered (s : State) (b : BankIdx) (axis : Axis) : State :=
  respond (.sample (filterThrough b axis 0 (notchesOf s.cfg b) s.opnd s).1)
    (noteUnwritten (notchesLack s b axis (notchesOf s.cfg b)) (filterThrough b axis 0 (notchesOf s.cfg b) s.opnd s).2)

theorem filterSample_of_enabled (hi : s.sched.inited = true) (hb : 0 < s.cfg.harmonics.get b) :
    filterSample b axis s = .next (filtered s b axis) := by
  have henabled : ¬ (s.sched.inited = false ∨ s.cfg.harmonics.get b = 0) := by
    rw [hi]
    simp [hb.ne']
  rw [filterSample, applyBank, if_neg henabled]
  rfl

theorem filtered_eq (s : State) (b : BankIdx) (axis : Axis) :
    filtered s b axis = { s with
      bank := (filtered s b axis).bank
      resp := .sample (filterThrough b axis 0 (notchesOf s.cfg b) s.opnd s).1
      faults := (filtered s b axis).faults
      free := (filtered s b axis).free } := by
  unfold filtered
  rw [filterThrough_state]
  cases notchesLack s b axis (notchesOf s.cfg b) <;> rfl

theorem coefAt_filtered (s : State) (b : BankIdx) (axis : Axis) (b' : BankIdx) (axis' : Axis) (m : MotorIdx) (h : Nat) :
    coefAt (filtered s b axis) b' axis' m h = coefAt s b' axis' m h := by
  rw [filtered, coefAt_respond, coefAt_noteUnwritten, coefAt_filterThrough]

theorem delayAt_filtered (s : State) (b : BankIdx) (axis : Axis) (b' : BankIdx) (axis' : Axis) (m : MotorIdx) (h : Nat) :
    delayAt (filtered s b axis) b' axis' m h =
      delayAt (filterThrough b axis 0 (notchesOf s.cfg b) s.opnd s).2 b' axis' m h := by
  rw [filtered, delayAt_respond, delayAt_noteUnwritten]

theorem filtered_marks (s : State) (b : BankIdx) (axis : Axis) :
    (filtered s b axis).faults = (noteUnwritten (notchesLack s b axis (notchesOf s.cfg b)) s).faults ∧
      (filtered s b axis).free = (noteUnwritten (notchesLack s b axis (notchesOf s.cfg b)) s).free := by
  unfold filtered
  rw [filterThrough_state]
  cases notchesLack s b axis (notchesOf s.cfg b) <;> exact ⟨rfl, rfl⟩

end Filter

/-- Settles O31: the notch of motor `m` and harmonic `h` is number `m * harmonics + h` (`notchesOf_getElem?`), and each notch is
one step of the cascade (`sampleAt_succ`, `delayAt_filterThrough_notchesOf`). -/
theorem filterIsTheCascade : Obligations.FilterIsTheCascade := by
  intro axis s i b hib hlegal hi hb inUse lacking
  have hcount := motorCount_le_of_cfgLegal hlegal
  have hexec : exec i s = .next (filtered s b axis) := by
    obtain ⟨rfl, rfl⟩ | ⟨rfl, rfl⟩ := hib
    · exact (exec_fgyro axis s).trans (filterSample_of_enabled hi hb)
    · exact (exec_fdterm axis s).trans (filterSample_of_enabled hi hb)
  have hlack : notchesLack s b axis (notchesOf s.cfg b) = true ↔ lacking := notchesLack_notchesOf_iff
  have hlast : sampleAt s b axis s.opnd (s.cfg.motorCount * s.cfg.harmonics.get b) =
      (filterThrough b axis 0 (notchesOf s.cfg b) s.opnd s).1 := by
    rw [sampleAt, ← length_notchesOf hcount, List.take_length]
  have hmarks := filtered_marks s b axis
  refine ⟨filtered s b axis, sampleAt s b axis s.opnd, fun m h => notchCoef s b axis (m.val * s.cfg.harmonics.get b + h) (m, h),
    fun m h => notchDelay s b axis (m.val * s.cfg.harmonics.get b + h) (m, h), hexec, ?_, fun hl => ?_, fun hl => ?_,
    sampleAt_zero .., fun m h hmh => ?_, fun b' axis' m h => ?_, fun b' axis' m h hout => ?_⟩
  · rw [hlast]
    exact filtered_eq s b axis
  · rw [hlack.2 hl] at hmarks
    exact hmarks
  · rw [Bool.eq_false_iff.2 fun hlacks => hl (hlack.1 hlacks)] at hmarks
    exact hmarks
  · obtain ⟨hm, hh⟩ := hmh
    have hp := notchesOf_getElem? hcount hm hh
    refine ⟨fun c hc => ?_, fun d hd => ?_, sampleAt_succ hp _, ?_⟩
    · simp [notchCoef, hc]
    · simp [notchDelay, hd]
    · exact (delayAt_filtered ..).trans (delayAt_filterThrough_notchesOf hp _)
  · exact coefAt_filtered ..
  · rw [delayAt_filtered]
    exact delayAt_filterThrough_of_not_mem _ _ _ _ _ _ _ _ _ _ (by rwa [mem_notchesOf])

end Sys2Proof.Machine
